-- ==== Sys2Proof/Word.lean ====
section
/-! DEFINITION. The two word types of the core: the register word (00_scope R9, REG_WIDTH = 32) and the byte of the
memories (10_state R36..R38). -/

namespace Sys2Proof

/-- One byte of IN, OUT or WIN (10_state R36, R37, R38). -/
abbrev Byte := BitVec 8

/-- One register word (00_scope R9: every register is 32 bits wide). -/
abbrev Word := BitVec 32

end Sys2Proof
end

