-- ==== Sys2Proof/Config.lean ====
section
/-! DEFINITION. What an implementation fixes: the format's constants (00_scope R9), the parameters the spec leaves OPEN
(00_scope R10), and the one source of free values, for what the spec calls unspecified (10_state R43, 70_reset R382, R389). -/

namespace Sys2Proof

namespace Config

/-- WSIZE: the window's size and the largest distance (00_scope R9). -/
abbrev wsize : Nat := 32768

/-- MIN_MATCH: the shortest match (00_scope R9). -/
abbrev minMatch : Nat := 3

/-- MAX_MATCH: the longest match (00_scope R9). -/
abbrev maxMatch : Nat := 258

/-- MAXBITS: the longest literal/length or distance code (00_scope R9). -/
abbrev maxBits : Nat := 15

/-- MAXBITS_CLEN: the longest code of the code-length alphabet (00_scope R9). -/
abbrev maxBitsClen : Nat := 7

/-- NUM_LITLEN: entries of the literal/length table (00_scope R9). -/
abbrev numLitlen : Nat := 288

/-- NUM_DIST: entries of the distance table (00_scope R9). -/
abbrev numDist : Nat := 32

/-- NUM_CLEN: entries of the code-length table (00_scope R9). -/
abbrev numClen : Nat := 19

/-- MAX_STORED: the largest payload of a stored block (00_scope R9). -/
abbrev maxStored : Nat := 65535

end Config

/-- The parameters of 00_scope R10, with the constraints that rule puts on them, and one platform choice of 45_control
R322: whether the platform shows BUSY = 1 between a command's issue and its completion. The spec leaves every value OPEN
(log 1), so the machine carries them as data that no step changes, and a claim about all states is about all values. -/
structure Params where
  /-- IN_SIZE: bytes of input memory. -/
  inSize : Nat
  /-- OUT_CAP: bytes of output memory. -/
  outCap : Nat
  /-- NUM_INSTANCES: independent core instances. -/
  numInstances : Nat
  /-- REG_BASE: bus address of the register block. -/
  regBase : Nat
  /-- IN_BASE: bus address of IN. -/
  inBase : Nat
  /-- OUT_BASE: bus address of OUT. -/
  outBase : Nat
  /-- Whether a host can see BUSY = 1: "if a platform chooses to expose that state" (45_control R322). -/
  exposeBusy : Bool
  inSize_bounds : 1 ≤ inSize ∧ inSize ≤ 2 ^ 31
  outCap_bounds : 1 ≤ outCap ∧ outCap ≤ 2 ^ 31
  numInstances_pos : 1 ≤ numInstances
deriving DecidableEq, Repr

/-- DESIGN CHOICE (logs 1, 2, 8): the parameters of `State.reset`. 4096 bytes of IN and OUT are the values the spec's
own vectors use (95_test_vectors, Conventions); a command is one atomic step (70_reset R391). -/
def Params.default : Params where
  inSize := 4096
  outCap := 4096
  numInstances := 1
  regBase := 0
  inBase := 65536
  outBase := 131072
  exposeBusy := false
  inSize_bounds := by decide
  outCap_bounds := by decide
  numInstances_pos := by decide

/-- What a free value stands for: the elements the spec calls unspecified. -/
inductive Unspecified where
  /-- RES0 after an error (10_state R43). -/
  | res0
  /-- RES1 after an error (10_state R43). -/
  | res1
  /-- BR_POS after an error (10_state R43). -/
  | brPos
  /-- BR_END after an error (10_state R43). -/
  | brEnd
  /-- BR_BIT after an error (10_state R43). -/
  | brBit
  /-- OUT_POS after an error (10_state R43). -/
  | outPos
  /-- The ACC field of BW_STATE after an error (10_state R43). -/
  | bwAcc
  /-- The CNT field of BW_STATE after an error (10_state R43). -/
  | bwCnt
  /-- WIN_FILL after an error (10_state R43). -/
  | winFill
  /-- WIN_POS after an error (10_state R43). -/
  | winPos
  /-- A length of LITLEN after an error (10_state R43). -/
  | litlen
  /-- A length of DIST after an error (10_state R43). -/
  | dist
  /-- A length of CLEN after an error (10_state R43). -/
  | clen
  /-- A byte of IN the host has not written since reset (70_reset R382). -/
  | inByte
  /-- A byte of OUT the core has not written since reset or since an error made it unspecified (10_state R37, R43). -/
  | outByte
  /-- A byte of WIN that has not been written (10_state R38, R43). -/
  | winByte
  /-- The value of a host read while BUSY = 1 that 70_reset R389 leaves unspecified. -/
  | busyRead
deriving DecidableEq, Repr

/-- The free values (log 3): `Config.free w draw what index` is the value, `w` bits wide, that draw number `draw` gives
the element `what` at `index`. It has no body: nothing can be proved of what it is. -/
opaque Config.free (w draw : Nat) (what : Unspecified) (index : Nat) : BitVec w

end Sys2Proof
end

