-- ==== Sys2Proof/Syntax.lean ====
section
/-! DEFINITION. The instructions of the core: one constructor per row of spec/opcode_table.json, and the two forms in
which an instruction reaches the machine. -/

namespace Sys2Proof

/-- One constructor per row of spec/opcode_table.json. A command's operands are the latched ARG registers
(30_encoding R91), so the command constructors carry none; a block header carries its BFINAL bit (30_encoding R101). -/
inductive Instr where
  /-- NOP, 45_control R320. -/
  | nop
  /-- RESET_STREAM, 45_control R321. -/
  | resetStream
  /-- BW_INIT, 40_bitstream R142. -/
  | bwInit
  /-- BW_WRITE_BITS, 40_bitstream R145. -/
  | bwWriteBits
  /-- BW_FLUSH, 40_bitstream R146. -/
  | bwFlush
  /-- BR_INIT, 40_bitstream R153. -/
  | brInit
  /-- BR_READ_BITS, 40_bitstream R154. -/
  | brReadBits
  /-- BR_ALIGN, 40_bitstream R155. -/
  | brAlign
  /-- HUF_BUILD, 41_huffman R185. -/
  | hufBuild
  /-- HUF_LOAD_FIXED, 41_huffman R186. -/
  | hufLoadFixed
  /-- HUF_DECODE, 41_huffman R187. -/
  | hufDecode
  /-- HUF_ENCODE, 41_huffman R188. -/
  | hufEncode
  /-- LZ_SCAN, 42_lz77 R219. -/
  | lzScan
  /-- DEFL_STORED, 43_deflate R252. -/
  | deflStored
  /-- DEFL_HUFF, 43_deflate R253. -/
  | deflHuff
  /-- COMPRESS, 43_deflate R251. -/
  | compress
  /-- INFL_BLOCK, 44_inflate R290. -/
  | inflBlock
  /-- DECOMPRESS, 44_inflate R291. -/
  | decompress
  /-- STREAM_BLOCK_STORED: header of a stored block, 44_inflate R282. -/
  | streamBlockStored (bfinal : Bool)
  /-- STREAM_BLOCK_FIXED: header of a fixed-Huffman block, 44_inflate R283. -/
  | streamBlockFixed (bfinal : Bool)
  /-- STREAM_BLOCK_DYNAMIC: header of a dynamic-Huffman block, 44_inflate R284, R285. -/
  | streamBlockDynamic (bfinal : Bool)
  /-- STREAM_BLOCK_RESERVED: header with the reserved block type, 30_encoding R116. -/
  | streamBlockReserved (bfinal : Bool)
deriving DecidableEq, Repr

/-- The words instructions are encoded in: a command is the 32-bit value of a write to CMD (30_encoding R90), a block
header is the 3-bit value `ReadBits(1) | ReadBits(2) << 1` of the stream (30_encoding R101, R102). -/
inductive Code where
  /-- A word written to CMD. -/
  | cmd (w : Word)
  /-- The three header bits of a block, bit 0 the first read. -/
  | header (h : BitVec 3)
deriving DecidableEq, Repr

/-- A Token (00_scope R14, R16). -/
inductive Token where
  /-- `Lit(b)`. -/
  | lit (b : Byte)
  /-- `Match(l, d)`: length l, distance d. -/
  | mtch (l d : Nat)
deriving DecidableEq, Repr

/-- The three code tables by their id (10_state R39, 30_encoding R94). -/
inductive TableId where
  /-- Id 0. -/
  | litlen
  /-- Id 1. -/
  | dist
  /-- Id 2. -/
  | clen
deriving DecidableEq, Repr

end Sys2Proof
end

