-- ==== Sys2Proof/WellFormed.lean ====
section
/-! DEFINITION. Well-formedness of what the core's encodings carry: instructions, tokens and token records. -/

namespace Sys2Proof

/-- Every instruction is well formed: a command carries no field, and a block header's one field is one bit
(30_encoding R90, R101), so the types leave nothing to check. -/
def Instr.wf : Instr → Bool
  | .nop | .resetStream | .bwInit | .bwWriteBits | .bwFlush | .brInit | .brReadBits | .brAlign
  | .hufBuild | .hufLoadFixed | .hufDecode | .hufEncode | .lzScan | .deflStored | .deflHuff
  | .compress | .inflBlock | .decompress => true
  | .streamBlockStored _ | .streamBlockFixed _ | .streamBlockDynamic _ | .streamBlockReserved _ => true

/-- A token as 00_scope R16 has it: "length ∈ [3,258] and distance ∈ [1,32768]". -/
def Token.wf : Token → Bool
  | .lit _ => true
  | .mtch l d =>
    Config.minMatch ≤ l && l ≤ Config.maxMatch && 1 ≤ d && d ≤ Config.wsize

/-- A token record is well-formed "if bit 31 = 0 and bits [30:8] = 0, or if bit 31 = 1, bits [30:24] = 0 and bit 15 = 0"
(30_encoding R97). -/
def recordWf (w : Word) : Bool :=
  if w.getLsbD 31 then w.extractLsb' 24 7 == 0 && !w.getLsbD 15
  else w.extractLsb' 8 23 == 0

end Sys2Proof
end

