-- ==== Sys2Proof/Decode.lean ====
section
/-! DEFINITION. The decoder of command words and of block headers, the encoder written from the same tables of the spec
(30_encoding R90..R93, R101, R102), and the token records (30_encoding R97, 43_deflate R254). -/

namespace Sys2Proof

/-- Why a word is no instruction (30_encoding R93). -/
inductive DecodeError where
  /-- The OPCODE field is in no row of 30_encoding R91. -/
  | unassignedOpcode (opcode : BitVec 8)
  /-- The RSVD field is not 0. -/
  | reservedBits (rsvd : BitVec 24)
deriving DecidableEq, Repr

/-- The opcode column of 30_encoding R91. -/
def opcodeTable : List (BitVec 8 × Instr) :=
  [(0x00#8, .nop), (0x01#8, .resetStream),
   (0x10#8, .bwInit), (0x11#8, .bwWriteBits), (0x12#8, .bwFlush),
   (0x18#8, .brInit), (0x19#8, .brReadBits), (0x1A#8, .brAlign),
   (0x20#8, .hufBuild), (0x21#8, .hufLoadFixed), (0x22#8, .hufDecode), (0x23#8, .hufEncode),
   (0x28#8, .lzScan),
   (0x30#8, .deflStored), (0x31#8, .deflHuff), (0x38#8, .compress),
   (0x40#8, .inflBlock), (0x48#8, .decompress)]

/-- CMD[7:0], OPCODE (30_encoding R90). -/
def opcodeOf (w : Word) : BitVec 8 := w.extractLsb' 0 8

/-- CMD[31:8], RSVD (30_encoding R90). -/
def rsvdOf (w : Word) : BitVec 24 := w.extractLsb' 8 24

/-- The command a word written to CMD stands for, or why it is illegal (30_encoding R93). -/
def decodeCmd (w : Word) : Except DecodeError Instr :=
  if rsvdOf w = 0 then
    match opcodeTable.find? (fun row => row.1 == opcodeOf w) with
    | some row => .ok row.2
    | none => .error (.unassignedOpcode (opcodeOf w))
  else .error (.reservedBits (rsvdOf w))

/-- The block a header stands for: bit 0 is BFINAL, bits 2:1 are BTYPE (30_encoding R101, R102). Every value is a row of
the opcode table, the reserved type included. -/
def decodeHeader (h : BitVec 3) : Instr :=
  if h.extractLsb' 1 2 = 0#2 then .streamBlockStored (h.getLsbD 0)
  else if h.extractLsb' 1 2 = 1#2 then .streamBlockFixed (h.getLsbD 0)
  else if h.extractLsb' 1 2 = 2#2 then .streamBlockDynamic (h.getLsbD 0)
  else .streamBlockReserved (h.getLsbD 0)

/-- The decoder, total on both forms of instruction. -/
def decode : Code → Except DecodeError Instr
  | .cmd w => decodeCmd w
  | .header h => .ok (decodeHeader h)

/-- The header bits of a block: BFINAL below BTYPE (30_encoding R101). -/
def headerBits (bfinal : Bool) (btype : BitVec 2) : BitVec 3 := btype ++ BitVec.ofBool bfinal

/-- The encoder, from the opcode column of 30_encoding R91 and the BTYPE values of R102. -/
def encode : Instr → Code
  | .nop => .cmd 0x00#32
  | .resetStream => .cmd 0x01#32
  | .bwInit => .cmd 0x10#32
  | .bwWriteBits => .cmd 0x11#32
  | .bwFlush => .cmd 0x12#32
  | .brInit => .cmd 0x18#32
  | .brReadBits => .cmd 0x19#32
  | .brAlign => .cmd 0x1A#32
  | .hufBuild => .cmd 0x20#32
  | .hufLoadFixed => .cmd 0x21#32
  | .hufDecode => .cmd 0x22#32
  | .hufEncode => .cmd 0x23#32
  | .lzScan => .cmd 0x28#32
  | .deflStored => .cmd 0x30#32
  | .deflHuff => .cmd 0x31#32
  | .compress => .cmd 0x38#32
  | .inflBlock => .cmd 0x40#32
  | .decompress => .cmd 0x48#32
  | .streamBlockStored f => .header (headerBits f 0#2)
  | .streamBlockFixed f => .header (headerBits f 1#2)
  | .streamBlockDynamic f => .header (headerBits f 2#2)
  | .streamBlockReserved f => .header (headerBits f 3#2)

/-- The instruction the decoder reads from an instruction whose bits are `w`, numbered as spec/opcode_table.json numbers
them. A row of at most one byte is a block header: its bits are the first ones of the stream, least significant first
(30_encoding R101). A longer row is a command word (30_encoding R90). -/
def decodeTableWord (nbits w : Nat) : Option Instr :=
  if nbits ≤ 8 then some (decodeHeader (BitVec.ofNat 3 w))
  else if w < 2 ^ 32 then (decodeCmd (BitVec.ofNat 32 w)).toOption
  else none

/-! Token records -/

/-- The record of a token: `Lit(b) = zext_32(b)`, `Match(l, d) = 0x80000000 | (l-3) << 16 | (d-1)` (30_encoding R97). -/
def tokenRecord : Token → Word
  | .lit b => b.setWidth 32
  | .mtch l d => 0x80000000#32 ||| (BitVec.ofNat 32 (l - 3) <<< 16) ||| BitVec.ofNat 32 (d - 1)

/-- TokenOf(w): the token of a record, or none where the record is not well-formed (43_deflate R254). -/
def tokenOf (w : Word) : Option Token :=
  if w.getLsbD 31 then
    if w.extractLsb' 24 7 ≠ 0 ∨ w.getLsbD 15 then none
    else some (.mtch ((w.extractLsb' 16 8).toNat + 3) ((w.extractLsb' 0 15).toNat + 1))
  else if w.extractLsb' 8 23 ≠ 0 then none
  else some (.lit (w.extractLsb' 0 8))

end Sys2Proof
end

