-- ==== Sys2Proof/Machine/State.lean ====
section
/-! DEFINITION. The state of the core as plain data: the registers of 10_state R20..R35, the memories of R36..R38, the
code tables of R39, the latch of R42, the reset input of 70_reset R380, and the model's own fields (the parameters, the
count of free draws, the host's pending moves and the value its last read returned). -/

namespace Sys2Proof.Machine

open Sys2Proof

/-- The errors a command can complete with (60_exceptions R341). -/
inductive Err where
  /-- Code 1, 60_exceptions R342. -/
  | unexpectedEnd
  /-- Code 2, 60_exceptions R343. -/
  | invalidCode
  /-- Code 3, 60_exceptions R344. -/
  | invalidBlockType
  /-- Code 4, 60_exceptions R345. -/
  | lengthMismatch
  /-- Code 5, 60_exceptions R346. -/
  | invalidDistance
  /-- Code 6, 60_exceptions R347. -/
  | invalidRange
  /-- Code 7, 60_exceptions R348. -/
  | outputOverflow
  /-- Code 8, 60_exceptions R349. -/
  | invalidCommand
deriving DecidableEq, Repr

/-- The machine never stops with a fault: the core's only exceptional event is the error completion, which is a next
state (60_exceptions R340, R350), and no state is stuck (93_implementation_defined, Part 1). So there is no constructor,
and nothing raises one. -/
inductive Fault where
deriving DecidableEq, Repr

/-- Why a step has no meaning: all but the first are host moves the spec does not give the host. -/
inductive Refusal where
  /-- `exec`, for an instruction that has no meaning yet. Safe: nothing is claimed of it. -/
  | notModelled (mnemonic : String)
  /-- `perform`, for a register access of a width other than 32 bits (20_memory R61). Safe: the spec has no such move. -/
  | registerWidth
  /-- `perform`, for a register access at an offset that is no multiple of 4 (20_memory R61). Safe: as above. -/
  | registerUnaligned
  /-- `perform`, for a register offset outside 0x000..0x0FF (10_state R35). Safe: it is not part of the core. -/
  | registerOutsideBlock
  /-- `perform`, for an IN access at or beyond IN_SIZE (20_memory R62). Safe: the spec has no such move. -/
  | inOutOfRange
  /-- `perform`, for an OUT access at or beyond OUT_CAP (20_memory R63). Safe: the spec has no such move. -/
  | outOutOfRange
  /-- `perform`, for a write to IN while BUSY = 1 (70_reset R388). Safe: the spec has no such move. -/
  | inWriteWhileBusy
  /-- `perform`, for a bus address outside the register block, IN and OUT (20_memory R71). Safe: it is not the core's. -/
  | busUnmapped
deriving DecidableEq, Repr

/-- A byte memory. `cells` are the written bytes, at strictly rising indices; an index that is not listed has no known
value and reads as a free value (70_reset R382, log 4): that of the draw of the nearest region at or below it. `regions`
are pairs (first index, draw number), first indices strictly falling. -/
structure Memory where
  cells : List Host.Cell
  regions : List (Nat × Nat)
deriving DecidableEq, Repr

/-- The bit reader's cursor (10_state R30). -/
structure Reader where
  /-- BR_POS. -/
  pos : Word
  /-- BR_END. -/
  lim : Word
  /-- BR_BIT. -/
  bit : BitVec 3
deriving DecidableEq, Repr

/-- OUT and the bit writer (10_state R31, R32, R37): the core writes OUT only through the writer's PutByte. -/
structure Writer where
  /-- OUT. -/
  out : Memory
  /-- OUT_POS. -/
  outPos : Word
  /-- BW_STATE bits 7:0, ACC. -/
  acc : BitVec 8
  /-- BW_STATE bits 11:8, CNT. -/
  cnt : BitVec 4
deriving DecidableEq, Repr

/-- The window (10_state R33, R38). -/
structure Window where
  /-- WIN. -/
  bytes : Memory
  /-- WIN_POS. -/
  pos : BitVec 15
  /-- WIN_FILL. -/
  fill : Word
deriving DecidableEq, Repr

/-- A code table: T.LEN, one length per symbol (10_state R39). -/
structure Table where
  len : List Nat
deriving DecidableEq, Repr

/-- The stream state of 00_scope R17: "the reader cursor, the writer cursor and accumulator, the window and the code
tables", and OUT beside the writer that writes it. -/
structure Stream where
  reader : Reader
  writer : Writer
  window : Window
  litlen : Table
  dist : Table
  clen : Table
deriving DecidableEq, Repr

/-- The latch (10_state R42): what a command reads instead of the registers. -/
structure Latch where
  /-- The word written to CMD. -/
  word : Word
  arg0 : Word
  arg1 : Word
  arg2 : Word
  config : BitVec 5
  maxChain : BitVec 16
  blockTokens : BitVec 17
  /-- The model's own: OUT_POS when the command started, to which 10_state R43 refers. -/
  outStart : Word
deriving DecidableEq, Repr

/-- Where the core is in the lifecycle of 45_control R322. BUSY = 0 exactly when idle (60_exceptions R358). -/
inductive Run where
  /-- No command runs. -/
  | idle
  /-- A command is latched and has not executed (45_control R322, between steps 2 and 3). -/
  | started
  /-- An INFL_BLOCK or DECOMPRESS runs and the inflater is at a block boundary (44_inflate R281). -/
  | inflating
deriving DecidableEq, Repr

/-- The address spaces a host access can name (20_memory R60). -/
inductive Space where
  /-- The register block, by byte offset. -/
  | reg
  /-- IN, by byte index. -/
  | inp
  /-- OUT, by byte index. -/
  | out
deriving DecidableEq, Repr

/-- The widths of a host access (20_memory R61, R62). -/
inductive Width where
  | byte
  | half
  | word
deriving DecidableEq, Repr

/-- What the outside world does to the core. -/
inductive HostMove where
  /-- A read of a register, of IN or of OUT (20_memory R61..R63). -/
  | read (sp : Space) (i : Nat) (w : Width)
  /-- A write of the low bits of `v` (20_memory R61..R63). -/
  | write (sp : Space) (i : Nat) (w : Width) (v : Word)
  /-- A read at a bus address (20_memory R71). -/
  | busRead (a : Nat) (w : Width)
  /-- A write at a bus address (20_memory R71). -/
  | busWrite (a : Nat) (w : Width) (v : Word)
  /-- "read STATUS until BUSY = 0" (30_encoding R95). -/
  | wait
  /-- The host does nothing while the core takes a turn (45_control R322). -/
  | turn
  /-- The platform asserts the reset input (70_reset R380). -/
  | resetAssert
  /-- The platform deasserts the reset input (70_reset R380). -/
  | resetRelease
deriving DecidableEq, Repr

/-- The whole state of one core and its host. -/
structure State where
  /-- The parameters of 00_scope R10; no step changes them (log 1). -/
  params : Params
  /-- STATUS.BUSY, as a phase: BUSY = 1 unless idle (10_state R23). -/
  run : Run
  /-- STATUS.DONE (10_state R23). -/
  done : Bool
  /-- STATUS.ERROR (10_state R23). -/
  error : Bool
  /-- ERR: none is code 0 (10_state R29). -/
  err : Option Err
  /-- CONFIG bits 4:0 (10_state R24). -/
  config : BitVec 5
  /-- MAX_CHAIN bits 15:0 (10_state R25). -/
  maxChain : BitVec 16
  /-- BLOCK_TOKENS bits 16:0 (10_state R26). -/
  blockTokens : BitVec 17
  /-- ARG0 (10_state R27). -/
  arg0 : Word
  /-- ARG1 (10_state R27). -/
  arg1 : Word
  /-- ARG2 (10_state R27). -/
  arg2 : Word
  /-- RES0 (10_state R28). -/
  res0 : Word
  /-- RES1 (10_state R28). -/
  res1 : Word
  /-- The latch (10_state R42). -/
  latch : Latch
  /-- The stream state and OUT (00_scope R17, 10_state R30..R33, R37..R39). -/
  stream : Stream
  /-- IN (10_state R36). -/
  input : Memory
  /-- The reset input is asserted (70_reset R380). -/
  inReset : Bool
  /-- The model's own: the number of the next free draw (log 3). -/
  draws : Nat
  /-- The model's own: the host's pending moves, oldest first (log 10). -/
  host : List HostMove
  /-- The model's own: what the host's last read returned (log 14). -/
  readData : Word
deriving DecidableEq, Repr

/-- A memory whose contents are unspecified: nothing listed, one region, draw number `draw` (70_reset R382). -/
def Memory.unwritten (draw : Nat) : Memory := ⟨[], [(0, draw)]⟩

/-- A table with every length 0 (70_reset R383). -/
def Table.zero (size : Nat) : Table := ⟨List.replicate size 0⟩

/-- The stream state of 70_reset R381, with the given OUT and WIN. -/
def Stream.initial (out win : Memory) : Stream where
  reader := ⟨0, 0, 0⟩
  writer := ⟨out, 0, 0, 0⟩
  window := ⟨win, 0, 0⟩
  litlen := .zero Config.numLitlen
  dist := .zero Config.numDist
  clen := .zero Config.numClen

/-- DESIGN CHOICE (log 5): the latch is "unspecified and unread" after reset (70_reset R381). -/
def Latch.zero : Latch := ⟨0, 0, 0, 0, 0, 0, 0, 0⟩

/-- The state after a hard reset (70_reset R381, R382, R383) with parameters `p`; the memories take draw `draw`. One
platform's instances take turns in the draw numbers, so the next one is NUM_INSTANCES further (log 3). -/
def State.resetWith (p : Params) (draw : Nat) : State where
  params := p
  run := .idle
  done := false
  error := false
  err := none
  config := 0x0C#5
  maxChain := 128#16
  blockTokens := 16384#17
  arg0 := 0
  arg1 := 0
  arg2 := 0
  res0 := 0
  res1 := 0
  latch := .zero
  stream := .initial (.unwritten draw) (.unwritten draw)
  input := .unwritten draw
  inReset := false
  draws := draw + p.numInstances
  host := []
  readData := 0

/-- The machine right after reset (70_reset R381), with the parameters of log 1. -/
def State.reset : State := .resetWith .default 0

end Sys2Proof.Machine
end

