-- ==== Sys2Proof/Machine/Flags.lean ====
section
/-! DEFINITION. The core's only flags, BUSY, DONE and ERROR (10_state R23), the error codes (60_exceptions R341), the
interrupt output (60_exceptions R354), and the fields of CONFIG (10_state R24). -/

namespace Sys2Proof.Machine

open Sys2Proof

/-- STATUS.BUSY (10_state R23, 60_exceptions R358: "the core is idle exactly when BUSY = 0"). -/
def State.busy (s : State) : Bool := s.run != .idle

/-- The code of an error (60_exceptions R341). -/
def Err.code : Err → Nat
  | .unexpectedEnd => 1
  | .invalidCode => 2
  | .invalidBlockType => 3
  | .lengthMismatch => 4
  | .invalidDistance => 5
  | .invalidRange => 6
  | .outputOverflow => 7
  | .invalidCommand => 8

/-- ERR as a word: 0 for None (10_state R29, 60_exceptions R341). -/
def errWord : Option Err → Word
  | none => 0
  | some e => BitVec.ofNat 32 e.code

/-- STATUS as a word: BUSY bit 0, DONE bit 1, ERROR bit 2, the rest 0 (10_state R23). -/
def statusWord (s : State) : Word :=
  (BitVec.ofBool s.error ++ BitVec.ofBool s.done ++ BitVec.ofBool s.busy : BitVec 3).setWidth 32

/-- A write to STATUS: bit 1 clears DONE, every other bit is ignored (10_state R23). -/
def writeStatus (v : Word) (s : State) : State :=
  { s with done := s.done && !v.getLsbD 1 }

/-- CONFIG.MODE (10_state R24). -/
def cfgMode (c : BitVec 5) : Nat := (c.extractLsb' 0 2).toNat

/-- CONFIG.LZ_EN (10_state R24). -/
def cfgLzEn (c : BitVec 5) : Bool := c.getLsbD 2

/-- CONFIG.LAZY_EN (10_state R24). -/
def cfgLazyEn (c : BitVec 5) : Bool := c.getLsbD 3

/-- CONFIG.IRQ_EN (10_state R24). -/
def cfgIrqEn (c : BitVec 5) : Bool := c.getLsbD 4

/-- The interrupt output: IRQ = CONFIG.IRQ_EN & (STATUS.DONE | STATUS.ERROR) (60_exceptions R354). -/
def State.irq (s : State) : Bool := cfgIrqEn s.config && (s.done || s.error)

/-- What a write of `v` to BLOCK_TOKENS stores: min(max(v[16:0], 1), 65536) (10_state R26). -/
def clampBlockTokens (v : Word) : BitVec 17 :=
  BitVec.ofNat 17 (min (max (v.extractLsb' 0 17).toNat 1) 65536)

end Sys2Proof.Machine
end

