-- ==== Sys2Proof/Machine/Ops.lean ====
section
/-! DEFINITION. The operations over memories and registers that the meanings share: reading and writing a byte memory,
starting a command, completing it without error, completing it with an error (`raise`), and the return from an error
(`clearStream`, for RESET_STREAM). -/

namespace Sys2Proof.Machine

open Sys2Proof

/-! Memories -/

/-- The byte listed at an index. -/
def lookupCell : List Host.Cell → Nat → Option Byte
  | [], _ => none
  | c :: rest, a => if a = c.1 then some c.2 else lookupCell rest a

/-- The cells with index `a` listed as `b`, indices still rising. -/
def insertCell : List Host.Cell → Nat → Byte → List Host.Cell
  | [], a, b => [(a, b)]
  | c :: rest, a, b =>
    if a < c.1 then (a, b) :: c :: rest
    else if a = c.1 then (a, b) :: rest
    else c :: insertCell rest a b

/-- The number of the draw an unlisted index belongs to. -/
def drawOf : List (Nat × Nat) → Nat → Nat
  | [], _ => 0
  | r :: rest, a => if r.1 ≤ a then r.2 else drawOf rest a

/-- One byte of a memory. An unlisted byte is unspecified and reads as a free value (70_reset R382, 10_state R37, R38;
log 4); `what` names the memory. -/
def Memory.read (what : Unspecified) (m : Memory) (a : Nat) : Byte :=
  (lookupCell m.cells a).getD (Config.free 8 (drawOf m.regions a) what a)

/-- Write one byte. -/
def Memory.write (m : Memory) (a : Nat) (b : Byte) : Memory :=
  { m with cells := insertCell m.cells a b }

/-- Make every byte at an index ≥ `start` unspecified, with values of draw `draw` (10_state R43). -/
def Memory.forgetFrom (m : Memory) (start draw : Nat) : Memory where
  cells := m.cells.filter (fun c => decide (c.1 < start))
  regions := (start, draw) :: m.regions.filter (fun r => decide (r.1 < start))

/-- The one canonical form: written bytes at strictly rising indices, regions from strictly falling ones. -/
def Memory.wf (m : Memory) : Bool :=
  decide (m.cells.Pairwise (fun x y => x.1 < y.1)) && decide (m.regions.Pairwise (fun x y => y.1 < x.1))

/-- Every written byte lies below `size`. -/
def Memory.below (m : Memory) (size : Nat) : Bool := m.cells.all (fun c => decide (c.1 < size))

/-- `n` bytes from index `a` as a little-endian number (20_memory R64). -/
def Memory.readLE (what : Unspecified) (m : Memory) (a : Nat) : Nat → Nat
  | 0 => 0
  | n + 1 => (m.read what a).toNat + 256 * m.readLE what (a + 1) n

/-- Write the low `n` bytes of `v` from index `a`, little-endian (20_memory R64). -/
def Memory.writeLE (m : Memory) (a : Nat) : Nat → Nat → Memory
  | 0, _ => m
  | n + 1, v => (m.write a (BitVec.ofNat 8 v)).writeLE (a + 1) n (v / 256)

/-- IN[i] (00_scope R13, 10_state R36). -/
def State.inByte (s : State) (i : Nat) : Byte := s.input.read .inByte i

/-- The bytes IN[a .. a+n). -/
def State.inBytes (s : State) (a n : Nat) : List Byte := (List.range n).map (fun i => s.inByte (a + i))

/-! The command lifecycle (45_control R322) -/

/-- Step 2, start: latch w, ARG0..ARG2, CONFIG, MAX_CHAIN and BLOCK_TOKENS, set BUSY, clear DONE (45_control R322,
10_state R42). -/
def start (w : Word) (s : State) : State :=
  { s with
    run := .started
    done := false
    latch :=
      { word := w
        arg0 := s.arg0
        arg1 := s.arg1
        arg2 := s.arg2
        config := s.config
        maxChain := s.maxChain
        blockTokens := s.blockTokens
        outStart := s.stream.writer.outPos } }

/-- What a command's pseudocode leaves when it ends without `raise`: the stream state and the two results. -/
structure Result where
  stream : Stream
  res0 : Nat
  res1 : Nat
deriving DecidableEq, Repr

/-- Step 4 without error: write RES0 and RES1, set DONE, clear BUSY (45_control R322). A result is taken modulo 2^32
(45_control R326). -/
def complete (r : Result) (s : State) : State :=
  { s with
    run := .idle
    done := true
    res0 := BitVec.ofNat 32 r.res0
    res1 := BitVec.ofNat 32 r.res1
    stream := r.stream }

/-! Completing with an error -/

/-- Whether the latched command restarts the writer at OUT[0]: COMPRESS and DECOMPRESS (10_state R43). -/
def restartsWriter (l : Latch) : Bool := l.word == 0x38#32 || l.word == 0x48#32

/-- The first OUT index an error makes unspecified: 0 for COMPRESS and DECOMPRESS, otherwise "every index ≥ OUT_POS at
its start" (10_state R43). -/
def unspecifiedFrom (l : Latch) : Nat := if restartsWriter l then 0 else l.outStart.toNat

/-- A table whose lengths are free values of draw `d`, each 0..15 (10_state R39, R43). -/
def Table.unspecified (size d : Nat) (what : Unspecified) : Table :=
  ⟨(List.range size).map (fun s => (Config.free 4 d what s).toNat)⟩

/-- The stream state after an error: every element 10_state R43 lists is a free value of draw `d`. -/
def Stream.unspecified (l : Latch) (d : Nat) (st : Stream) : Stream where
  reader := ⟨Config.free 32 d .brPos 0, Config.free 32 d .brEnd 0, Config.free 3 d .brBit 0⟩
  writer :=
    ⟨st.writer.out.forgetFrom (unspecifiedFrom l) d, Config.free 32 d .outPos 0, Config.free 8 d .bwAcc 0,
      Config.free 4 d .bwCnt 0⟩
  window := ⟨st.window.bytes.forgetFrom 0 d, Config.free 15 d .winPos 0, Config.free 32 d .winFill 0⟩
  litlen := .unspecified Config.numLitlen d .litlen
  dist := .unspecified Config.numDist d .dist
  clen := .unspecified Config.numClen d .clen

/-- The number of the draw after the next one: one platform's instances take turns in the draw numbers, so no two of them
share a draw (log 3). -/
def State.nextDraw (s : State) : Nat := s.draws + s.params.numInstances

/-- `raise e`: ERR ← code(e), ERROR ← 1, DONE stays 0, BUSY ← 0 (60_exceptions R350); RES0, RES1 and the stream state
become unspecified, everything else keeps its value (10_state R43, 60_exceptions R351). -/
def raise (e : Err) (s : State) : State :=
  { s with
    run := .idle
    done := false
    error := true
    err := some e
    res0 := Config.free 32 s.draws .res0 0
    res1 := Config.free 32 s.draws .res1 0
    stream := s.stream.unspecified s.latch s.draws
    draws := s.nextDraw }

/-- The error completion of an illegal command word: InvalidCommand, and "An illegal word does not change the stream
state. It only sets ERROR and ERR" (30_encoding R93, log 7). -/
def raiseIllegalWord (s : State) : State :=
  { s with run := .idle, done := false, error := true, err := some .invalidCommand }

/-- Step 4: complete a command whose pseudocode ended with `r` (45_control R322). -/
def conclude (r : Except Err Result) (s : State) : Host.Outcome State Fault Refusal :=
  match r with
  | .ok v => .next (complete v s)
  | .error e => .next (raise e s)

/-! The return from an error -/

/-- RESET_STREAM's stream state: that of a hard reset with OUT and the contents of WIN kept (45_control R321, 70_reset
R384). -/
def clearStream (st : Stream) : Stream := .initial st.writer.out st.window.bytes

end Sys2Proof.Machine
end

