-- ==== Sys2Proof/Machine/Control.lean ====
section
/-! DEFINITION. The control family (45_control): NOP and RESET_STREAM. -/

namespace Sys2Proof.Machine

open Sys2Proof

/-- NOP (R320): RES0 and RES1 become 0 and the command completes; ERROR and ERR stay as they are. -/
def execNop (s : State) : Host.Outcome State Fault Refusal := conclude (.ok ⟨s.stream, 0, 0⟩) s

/-- RESET_STREAM (R321): the return from an error. Reader, writer, window and tables take their initial values, OUT, the
contents of WIN and the configuration are kept, ERR and ERROR are cleared, and the command completes. -/
def execResetStream (s : State) : Host.Outcome State Fault Refusal :=
  conclude (.ok ⟨clearStream s.stream, 0, 0⟩) { s with error := false, err := none }

end Sys2Proof.Machine
end

