-- ==== Sys2Proof/Machine/Alphabet.lean ====
section
/-! DEFINITION. The constant tables of the stream format (30_encoding R105, R106, R108, R111, R112; 10_state R44) and the
encoder's symbol maps (R114, R115). -/

namespace Sys2Proof.Machine

open Sys2Proof

/-- LBASE of the symbols 257..285 (30_encoding R105). -/
def lengthBases : List Nat :=
  [3, 4, 5, 6, 7, 8, 9, 10, 11, 13, 15, 17, 19, 23, 27] ++
  [31, 35, 43, 51, 59, 67, 83, 99, 115, 131, 163, 195, 227, 258]

/-- LEXTRA of the symbols 257..285 (30_encoding R105). -/
def lengthExtras : List Nat :=
  [0, 0, 0, 0, 0, 0, 0, 0, 1, 1, 1, 1, 2, 2, 2] ++
  [2, 3, 3, 3, 3, 4, 4, 4, 4, 5, 5, 5, 5, 0]

/-- DBASE of the symbols 0..29 (30_encoding R106). -/
def distBases : List Nat :=
  [1, 2, 3, 4, 5, 7, 9, 13, 17, 25, 33, 49, 65, 97, 129] ++
  [193, 257, 385, 513, 769, 1025, 1537, 2049, 3073, 4097, 6145, 8193, 12289, 16385, 24577]

/-- DEXTRA of the symbols 0..29 (30_encoding R106). -/
def distExtras : List Nat :=
  [0, 0, 0, 0, 1, 1, 2, 2, 3, 3, 4, 4, 5, 5, 6] ++
  [6, 7, 7, 8, 8, 9, 9, 10, 10, 11, 11, 12, 12, 13, 13]

/-- LBASE[s], for 257 ≤ s ≤ 285 (30_encoding R105). -/
def lbase (s : Nat) : Nat := lengthBases.getD (s - 257) 0

/-- LEXTRA[s], for 257 ≤ s ≤ 285 (30_encoding R105). -/
def lextra (s : Nat) : Nat := lengthExtras.getD (s - 257) 0

/-- DBASE[s], for 0 ≤ s ≤ 29 (30_encoding R106). -/
def dbase (s : Nat) : Nat := distBases.getD s 0

/-- DEXTRA[s], for 0 ≤ s ≤ 29 (30_encoding R106). -/
def dextra (s : Nat) : Nat := distExtras.getD s 0

/-- The largest index whose entry is at most `v`, 0 where there is none. -/
def largestIndexLe (bases : List Nat) (v : Nat) : Nat :=
  ((List.range bases.length).filter (fun i => decide (bases.getD i 0 ≤ v))).getLastD 0

/-- LSYM(l): 285 for 258, otherwise the largest s in 257..284 with LBASE[s] ≤ l (30_encoding R114). -/
def lsym (l : Nat) : Nat :=
  if l = Config.maxMatch then 285 else 257 + largestIndexLe (lengthBases.take 28) l

/-- DSYM(d): the largest s in 0..29 with DBASE[s] ≤ d (30_encoding R115). -/
def dsym (d : Nat) : Nat := largestIndexLe distBases d

/-- FIXED_LITLEN[0..287] (30_encoding R108). -/
def fixedLitlen : List Nat :=
  List.replicate 144 8 ++ List.replicate 112 9 ++ List.replicate 24 7 ++ List.replicate 8 8

/-- FIXED_DIST[0..31] (30_encoding R108). -/
def fixedDist : List Nat := List.replicate 32 5

/-- CLEN_ORDER (30_encoding R111). -/
def clenOrder : List Nat := [16, 17, 18, 0, 8, 7, 9, 6, 10, 5, 11, 4, 12, 3, 13, 2, 14, 1, 15]

/-- The extra bits of a code-length symbol: 2, 3 and 7 for 16, 17 and 18, none otherwise (30_encoding R112). -/
def clenExtra (k : Nat) : Nat :=
  if k = 16 then 2 else if k = 17 then 3 else if k = 18 then 7 else 0

end Sys2Proof.Machine
end

