-- ==== Sys2Proof/Machine/Operands.lean ====
section
/-! DEFINITION. The operand forms of 30_encoding R91: the latched ARG0..ARG2 as unsigned integers or bits, a table id
(R94), a range of IN (60_exceptions R347), and the token records DEFL_HUFF reads (20_memory R68, 43_deflate R253). -/

namespace Sys2Proof.Machine

open Sys2Proof

/-- The latched ARG0 as an unsigned integer (10_state R27, R42). -/
def State.a0 (s : State) : Nat := s.latch.arg0.toNat

/-- The latched ARG1 as an unsigned integer (10_state R27, R42). -/
def State.a1 (s : State) : Nat := s.latch.arg1.toNat

/-- The latched ARG2 as an unsigned integer (10_state R27, R42). -/
def State.a2 (s : State) : Nat := s.latch.arg2.toNat

/-- ARG2[0]: BFINAL of DEFL_STORED and DEFL_HUFF (30_encoding R91). -/
def State.argFinal (s : State) : Bool := s.latch.arg2.getLsbD 0

/-- ARG2[1]: dynamic or fixed, of DEFL_HUFF (30_encoding R91). -/
def State.argDyn (s : State) : Bool := s.latch.arg2.getLsbD 1

/-- A table id: 0, 1 or 2; any other value is InvalidCommand (30_encoding R94). -/
def tableIdOf (id : Nat) : Except Err TableId :=
  if id = 0 then .ok .litlen
  else if id = 1 then .ok .dist
  else if id = 2 then .ok .clen
  else .error .invalidCommand

/-- SIZE(T) (41_huffman R170). -/
def tableSize : TableId → Nat
  | .litlen => Config.numLitlen
  | .dist => Config.numDist
  | .clen => Config.numClen

/-- MAXLEN(T) (41_huffman R170). -/
def tableMaxLen : TableId → Nat
  | .litlen => Config.maxBits
  | .dist => Config.maxBits
  | .clen => Config.maxBitsClen

/-- Table T of the stream state. -/
def Stream.table (st : Stream) : TableId → Table
  | .litlen => st.litlen
  | .dist => st.dist
  | .clen => st.clen

/-- The stream state with table T replaced. -/
def Stream.setTable (st : Stream) (id : TableId) (t : Table) : Stream :=
  match id with
  | .litlen => { st with litlen := t }
  | .dist => { st with dist := t }
  | .clen => { st with clen := t }

/-- The check `if start + n > IN_SIZE: raise InvalidRange`, on unbounded integers (60_exceptions R347, 45_control
R326). -/
def checkRange (p : Params) (start n : Nat) : Except Err Unit :=
  if start + n > p.inSize then .error .invalidRange else .ok ()

/-- A check of a command's operands or of its writer: `if bad: raise e`. -/
def failIf (bad : Bool) (e : Err) : Except Err Unit := if bad then .error e else .ok ()

/-- The tokens of the `k` records at IN offset `a`, 4 bytes each, little-endian (43_deflate R253); InvalidCommand at the
first record that is not well-formed (43_deflate R254). -/
def readTokens (s : State) (a : Nat) : Nat → Except Err (List Token)
  | 0 => .ok []
  | k + 1 =>
    match tokenOf (BitVec.ofNat 32 (s.input.readLE .inByte a 4)) with
    | none => .error .invalidCommand
    | some t => do
      let rest ← readTokens s (a + 4) k
      .ok (t :: rest)

end Sys2Proof.Machine
end

