-- ==== Sys2Proof/Machine/BitStream.lean ====
section
/-! DEFINITION. The BitStream family (40_bitstream): the writer's and the reader's primitives, then the six commands. A
primitive works on the part of the stream state it owns, so its type says what it cannot touch. -/

namespace Sys2Proof.Machine

open Sys2Proof

/-! Writer primitives -/

/-- PutByte(b): OutputOverflow when OUT_POS ≥ OUT_CAP, otherwise OUT[OUT_POS] ← b and OUT_POS advances (R141). -/
def putByte (cap : Nat) (b : Byte) (w : Writer) : Except Err Writer :=
  if cap ≤ w.outPos.toNat then .error .outputOverflow
  else .ok { w with out := w.out.write w.outPos.toNat b, outPos := w.outPos + 1 }

/-- One pass of WriteBits: the bit joins ACC at place CNT; the eighth bit of a byte writes the byte (R143). -/
def pushBit (cap : Nat) (b : Bool) (w : Writer) : Except Err Writer :=
  let acc := w.acc ||| ((BitVec.ofBool b).setWidth 8 <<< w.cnt.toNat)
  let cnt := w.cnt + 1
  if cnt = 8#4 then do
    let w ← putByte cap acc { w with acc := acc, cnt := cnt }
    .ok { w with acc := 0, cnt := 0 }
  else .ok { w with acc := acc, cnt := cnt }

/-- WriteBits(v, n): append the n low-order bits of v, least significant first (R143). -/
def writeBits (cap : Nat) : Nat → Nat → Writer → Except Err Writer
  | _, 0, w => .ok w
  | v, n + 1, w => do
    let w ← pushBit cap (v.testBit 0) w
    writeBits cap (v / 2) n w

/-- FlushToByte(): pad the partial byte with zero bits and write it; the number of pad bits (R144). -/
def flushToByte (cap : Nat) (w : Writer) : Except Err (Nat × Writer) :=
  if w.cnt = 0 then .ok (0, w)
  else do
    let w' ← putByte cap w.acc w
    .ok (8 - w.cnt.toNat, { w' with acc := 0, cnt := 0 })

/-- The writer's position in bits from OUT[0] bit 0: 8·OUT_POS + BW_CNT (R140). -/
def Writer.bitPos (w : Writer) : Nat := 8 * w.outPos.toNat + w.cnt.toNat

/-- Append bytes, 8 bits each (R143). -/
def writeBytes (cap : Nat) : List Byte → Writer → Except Err Writer
  | [], w => .ok w
  | b :: rest, w => do
    let w ← writeBits cap b.toNat 8 w
    writeBytes cap rest w

/-! Reader primitives -/

/-- Remaining() = 8·(BR_END - BR_POS) - BR_BIT, in unbounded integers (R150). -/
def Reader.remaining (r : Reader) : Int :=
  8 * ((r.lim.toNat : Int) - (r.pos.toNat : Int)) - (r.bit.toNat : Int)

/-- The next unread bit: bit BR_BIT of IN[BR_POS] (R151). -/
def Reader.nextBit (inb : Nat → Byte) (r : Reader) : Bool := (inb r.pos.toNat).getLsbD r.bit.toNat

/-- The cursor one bit further: BR_BIT wraps from 7 to 0 and carries into BR_POS (R151). -/
def Reader.advance (r : Reader) : Reader :=
  if r.bit = 7#3 then { r with bit := 0, pos := r.pos + 1 } else { r with bit := r.bit + 1 }

/-- The loop of ReadBits: the first bit removed becomes bit 0 of the result (R151). -/
def takeBits (inb : Nat → Byte) : Nat → Reader → Nat × Reader
  | 0, r => (0, r)
  | n + 1, r =>
    let rest := takeBits inb n r.advance
    ((r.nextBit inb).toNat + 2 * rest.1, rest.2)

/-- ReadBits(n): UnexpectedEnd when fewer than n bits remain, before any is consumed (R151). -/
def readBits (inb : Nat → Byte) (n : Nat) (r : Reader) : Except Err (Nat × Reader) :=
  if r.remaining < (n : Int) then .error .unexpectedEnd else .ok (takeBits inb n r)

/-- AlignToByte(): discard the rest of a partly read byte; the number of bits discarded (R152). -/
def alignToByte (r : Reader) : Nat × Reader :=
  if r.bit = 0 then (0, r) else (8 - r.bit.toNat, { r with bit := 0, pos := r.pos + 1 })

/-- Consumed(start): the bytes touched since IN index `start`, a partly read one included (R156). -/
def Reader.consumed (r : Reader) (start : Nat) : Nat :=
  r.pos.toNat - start + (if r.bit = 0 then 0 else 1)

/-! Commands -/

/-- R142: `if q > OUT_CAP: raise InvalidRange`; the writer at OUT index q, nothing pending. -/
def bwInitBody (s : State) : Except Err Result := do
  failIf (decide (s.params.outCap < s.a0)) .invalidRange
  .ok ⟨{ s.stream with writer := { s.stream.writer with outPos := s.latch.arg0, acc := 0, cnt := 0 } }, 0, 0⟩

/-- BW_INIT (R142). -/
def execBwInit (s : State) : Host.Outcome State Fault Refusal := conclude (bwInitBody s) s

/-- R145: `if n > 32: raise InvalidCommand`; WriteBits(v, n). -/
def bwWriteBitsBody (s : State) : Except Err Result := do
  failIf (decide (32 < s.a1)) .invalidCommand
  let w ← writeBits s.params.outCap s.a0 s.a1 s.stream.writer
  .ok ⟨{ s.stream with writer := w }, 0, 0⟩

/-- BW_WRITE_BITS (R145). -/
def execBwWriteBits (s : State) : Host.Outcome State Fault Refusal := conclude (bwWriteBitsBody s) s

/-- R146: RES0 ← FlushToByte(). -/
def bwFlushBody (s : State) : Except Err Result := do
  let (p, w) ← flushToByte s.params.outCap s.stream.writer
  .ok ⟨{ s.stream with writer := w }, p, 0⟩

/-- BW_FLUSH (R146). -/
def execBwFlush (s : State) : Host.Outcome State Fault Refusal := conclude (bwFlushBody s) s

/-- The reader over IN[a .. a+n), at its first bit (R153, 44_inflate R291). -/
def Reader.over (a n : Word) : Reader := ⟨a, a + n, 0⟩

/-- R153: `if start + length > IN_SIZE: raise InvalidRange`; the reader over that range. -/
def brInitBody (s : State) : Except Err Result := do
  checkRange s.params s.a0 s.a1
  .ok ⟨{ s.stream with reader := .over s.latch.arg0 s.latch.arg1 }, 0, 0⟩

/-- BR_INIT (R153). -/
def execBrInit (s : State) : Host.Outcome State Fault Refusal := conclude (brInitBody s) s

/-- R154: `if n > 32: raise InvalidCommand`; RES0 ← ReadBits(n). -/
def brReadBitsBody (s : State) : Except Err Result := do
  failIf (decide (32 < s.a0)) .invalidCommand
  let (v, r) ← readBits s.inByte s.a0 s.stream.reader
  .ok ⟨{ s.stream with reader := r }, v, 0⟩

/-- BR_READ_BITS (R154). -/
def execBrReadBits (s : State) : Host.Outcome State Fault Refusal := conclude (brReadBitsBody s) s

/-- R155: RES0 ← AlignToByte(). -/
def brAlignBody (s : State) : Result :=
  ⟨{ s.stream with reader := (alignToByte s.stream.reader).2 }, (alignToByte s.stream.reader).1, 0⟩

/-- BR_ALIGN (R155). -/
def execBrAlign (s : State) : Host.Outcome State Fault Refusal := conclude (.ok (brAlignBody s)) s

end Sys2Proof.Machine
end

