-- ==== Sys2Proof/Machine/Huffman.lean ====
section
/-! DEFINITION. The HuffmanCoder family (41_huffman): canonical tables, decode and encode, the choice of code lengths for
dynamic blocks, and the four commands. -/

namespace Sys2Proof.Machine

open Sys2Proof

/-! Tables: everything but LEN is computed from LEN (10_state R39) -/

/-- COUNT[l]: how many symbols have length l; COUNT[0] is 0 (R172). -/
def Table.count (t : Table) (l : Nat) : Nat := if l = 0 then 0 else t.len.count l

/-- NEXT[l] before any assignment: the first code of length l (R172). -/
def Table.first (t : Table) : Nat → Nat
  | 0 => 0
  | l + 1 => 2 * (t.first l + t.count l)

/-- LEN[s]. -/
def Table.lenOf (t : Table) (s : Nat) : Nat := t.len.getD s 0

/-- CODE[s], for a coded symbol: codes of one length are assigned in increasing symbol order, so CODE[s] is the first
code of its length plus the number of smaller symbols of that length (R173). -/
def Table.code (t : Table) (s : Nat) : Nat := t.first (t.lenOf s) + (t.len.take s).count (t.lenOf s)

/-- The symbols of length l in increasing order. -/
def Table.symsOfLen (t : Table) (l : Nat) : List Nat :=
  (List.range t.len.length).filter (fun s => t.lenOf s == l)

/-- SYMS: the coded symbols sorted by (LEN[s], s) (R174). -/
def Table.syms (t : Table) : List Nat := (List.range 15).flatMap (fun i => t.symsOfLen (i + 1))

/-- `left` after the lengths 1..l of the over-subscription check, or none once it went below 0 (R171). -/
def Table.leftAfter (t : Table) : Nat → Option Nat
  | 0 => some 1
  | l + 1 =>
    match t.leftAfter l with
    | none => none
    | some left => if 2 * left < t.count (l + 1) then none else some (2 * left - t.count (l + 1))

/-- The lengths are over-subscribed (R171). -/
def Table.overSubscribed (t : Table) : Bool := (t.leftAfter 15).isNone

/-- The lengths are complete (R171). -/
def Table.complete (t : Table) : Bool := t.leftAfter 15 == some 0

/-- BuildTable(T, L): symbols at index len(L) and above get length 0; InvalidCode on over-subscribed lengths (R175). -/
def buildTable (size : Nat) (ls : List Nat) : Except Err Table :=
  let t : Table := ⟨ls ++ List.replicate (size - ls.length) 0⟩
  if t.overSubscribed then .error .invalidCode else .ok t

/-- LITLEN after LoadFixed (R176). -/
def fixedLitlenTable : Table := ⟨fixedLitlen⟩

/-- DIST after LoadFixed (R176). -/
def fixedDistTable : Table := ⟨fixedDist⟩

/-- LoadFixed(): the fixed lengths into LITLEN and DIST, CLEN unchanged; it never raises (R176). -/
def loadFixed (st : Stream) : Stream := { st with litlen := fixedLitlenTable, dist := fixedDistTable }

/-! Decode and encode -/

/-- The walk of Decode(T) from length l = 16 - n on: each step shifts one stream bit in at the low end (R178). -/
def decodeWalk (t : Table) (inb : Nat → Byte) :
    Nat → Nat → Nat → Nat → Reader → Except Err ((Nat × Nat) × Reader)
  | 0, _, _, _, _ => .error .invalidCode
  | n + 1, code, first, index, r => do
    let l := 15 - n
    let (b, r) ← readBits inb 1 r
    let code := code + b
    let c := t.count l
    if first ≤ code ∧ code < first + c then
      .ok ((t.syms.getD (index + code - first) 0, l), r)
    else decodeWalk t inb n (2 * code) (2 * (first + c)) (index + c) r

/-- Decode(T): one symbol and its code length (R178). -/
def decodeSymbol (t : Table) (inb : Nat → Byte) (r : Reader) : Except Err ((Nat × Nat) × Reader) :=
  decodeWalk t inb 15 0 0 0 r

/-- rev_n(c): the n-bit reversal of c (00_scope R12). -/
def revBits : Nat → Nat → Nat
  | 0, _ => 0
  | n + 1, c => (c.testBit n).toNat + 2 * revBits n c

/-- Encode(T, s): the code of s, most significant bit first (R180). -/
def encodeSymbol (cap : Nat) (t : Table) (s : Nat) (w : Writer) : Except Err Writer :=
  writeBits cap (revBits (t.lenOf s) (t.code s)) (t.lenOf s) w

/-! Choosing code lengths -/

/-- A leaf or package of LengthAssign: its weight and the symbols it holds (R181). -/
structure Item where
  w : Nat
  syms : List Nat
deriving DecidableEq, Repr

/-- One pass of ForceTwo: the lowest unused symbol gets frequency 1 while fewer than two are used (R182). -/
def forceOne (f : List Nat) : List Nat :=
  if f.countP (fun x => decide (0 < x)) < 2 then f.set (f.idxOf 0) 1 else f

/-- ForceTwo: at most two passes are ever needed (R182). -/
def forceTwo (f : List Nat) : List Nat := forceOne (forceOne f)

/-- Insert an item after those of no greater weight. -/
def insertItem (x : Item) : List Item → List Item
  | [] => [x]
  | y :: rest => if y.w ≤ x.w then y :: insertItem x rest else x :: y :: rest

/-- The leaves, sorted by (weight ascending, symbol ascending) (R181). -/
def leavesOf (f : List Nat) : List Item :=
  (List.range f.length).foldl
    (fun acc s => if 0 < f.getD s 0 then insertItem ⟨f.getD s 0, [s]⟩ acc else acc) []

/-- The packages of a list: its items two by two, an odd last item dropped (R181). -/
def packages : List Item → List Item
  | a :: b :: rest => ⟨a.w + b.w, a.syms ++ b.syms⟩ :: packages rest
  | _ => []

/-- Merge(A, B) with `fuel` ≥ the number of items: a leaf comes before a package of equal weight (R181). -/
def mergeItems : Nat → List Item → List Item → List Item
  | 0, _, _ => []
  | _ + 1, [], bs => bs
  | _ + 1, as, [] => as
  | fuel + 1, a :: as, b :: bs =>
    if a.w ≤ b.w then a :: mergeItems fuel as (b :: bs) else b :: mergeItems fuel (a :: as) bs

/-- `list` after k passes of the loop of LengthAssign (R181). -/
def packageList (leaves : List Item) : Nat → List Item
  | 0 => leaves
  | k + 1 =>
    let p := packages (packageList leaves k)
    mergeItems (leaves.length + p.length) leaves p

/-- LengthAssign(f, L): boundary package-merge (R181). -/
def lengthAssign (f : List Nat) (limit : Nat) : List Nat :=
  let leaves := leavesOf (forceTwo f)
  let chosen := (packageList leaves (limit - 1)).take (2 * leaves.length - 2)
  let symbols := chosen.flatMap Item.syms
  (List.range f.length).map (fun s => symbols.count s)

/-! Commands -/

/-- R185: the checks in the order written, then BuildTable from IN[a .. a+n). -/
def hufBuildBody (s : State) : Except Err Result := do
  let id ← tableIdOf s.a0
  failIf (decide (tableSize id < s.a1)) .invalidCommand
  checkRange s.params s.a2 s.a1
  let ls := (s.inBytes s.a2 s.a1).map BitVec.toNat
  failIf (ls.any (fun l => decide (tableMaxLen id < l))) .invalidCommand
  let t ← buildTable (tableSize id) ls
  .ok ⟨s.stream.setTable id t, 0, 0⟩

/-- HUF_BUILD (R185). -/
def execHufBuild (s : State) : Host.Outcome State Fault Refusal := conclude (hufBuildBody s) s

/-- HUF_LOAD_FIXED (R186). -/
def execHufLoadFixed (s : State) : Host.Outcome State Fault Refusal :=
  conclude (.ok ⟨loadFixed s.stream, 0, 0⟩) s

/-- R187: `if id > 2: raise InvalidCommand`; Decode(T). -/
def hufDecodeBody (s : State) : Except Err Result := do
  let id ← tableIdOf s.a0
  let ((sym, l), r) ← decodeSymbol (s.stream.table id) s.inByte s.stream.reader
  .ok ⟨{ s.stream with reader := r }, sym, l⟩

/-- HUF_DECODE (R187). -/
def execHufDecode (s : State) : Host.Outcome State Fault Refusal := conclude (hufDecodeBody s) s

/-- R188: InvalidCommand for a bad id or a symbol that is not coded; Encode(T, s). -/
def hufEncodeBody (s : State) : Except Err Result := do
  let id ← tableIdOf s.a0
  let t := s.stream.table id
  failIf (decide (tableSize id ≤ s.a1) || t.lenOf s.a1 == 0) .invalidCommand
  let w ← encodeSymbol s.params.outCap t s.a1 s.stream.writer
  .ok ⟨{ s.stream with writer := w }, t.code s.a1, t.lenOf s.a1⟩

/-- HUF_ENCODE (R188). -/
def execHufEncode (s : State) : Host.Outcome State Fault Refusal := conclude (hufEncodeBody s) s

end Sys2Proof.Machine
end

