-- ==== Sys2Proof/Machine/MatchFinder.lean ====
section
/-! DEFINITION. The MatchFinder family (42_lz77): the token sequence as a function of the input bytes and the latched
configuration, and LZ_SCAN. `d` is the input view D[0..n-1] (R210). -/

namespace Sys2Proof.Machine

open Sys2Proof

/-- H(p) = ((D[p] << 10) ^ (D[p+1] << 5) ^ D[p+2]) & 0x7FFF, for p ≤ n-3 (R211). -/
def hash3 (d : Nat → Byte) (p : Nat) : Nat :=
  (((d p).toNat <<< 10) ^^^ ((d (p + 1)).toNat <<< 5) ^^^ (d (p + 2)).toNat) % 32768

/-- The positions below q, nearest first. -/
def downFrom : Nat → List Nat
  | 0 => []
  | q + 1 => q :: downFrom q

/-- Chain(p): the earlier positions with the hash of p, in decreasing order (R212). -/
def chain (d : Nat → Byte) (n p : Nat) : List Nat :=
  (downFrom p).filter (fun q => decide (q + 3 ≤ n) && hash3 d q == hash3 d p)

/-- The number of equal bytes from q and p on, at most `k`. -/
def commonLen (d : Nat → Byte) : Nat → Nat → Nat → Nat
  | 0, _, _ => 0
  | k + 1, q, p => if d q = d p then commonLen d k (q + 1) (p + 1) + 1 else 0

/-- cap(p) = min(MAX_MATCH, n - p) (R213). -/
def matchCap (n p : Nat) : Nat := min Config.maxMatch (n - p)

/-- MatchLen(q, p) (R213). -/
def matchLen (d : Nat → Byte) (n q p : Nat) : Nat := commonLen d (matchCap n p) q p

/-- The loop of FindMatch over the candidates: `best` is (best_l, best_d), `visits` how many candidates may still be
visited. The first of the longest candidates wins (R214). -/
def bestMatch (d : Nat → Byte) (n p : Nat) : List Nat → Nat → Nat × Nat → Nat × Nat
  | [], _, best => best
  | _, 0, best => best
  | q :: rest, visits + 1, best =>
    if Config.wsize < p - q then best
    else
      let l := matchLen d n q p
      if best.1 < l then
        if l = matchCap n p then (l, p - q) else bestMatch d n p rest visits (l, p - q)
      else bestMatch d n p rest visits best

/-- FindMatch(p): the longest match of at least 3 bytes, `mc` candidates examined at most (R214). -/
def findMatch (d : Nat → Byte) (n mc p : Nat) : Option (Nat × Nat) :=
  if n - p < Config.minMatch then none
  else
    let best := bestMatch d n p (chain d n p) mc (0, 0)
    if Config.minMatch ≤ best.1 then some best else none

/-- Whether the lazy step defers a match of length `l` at p: LAZY = 1 and p+1 starts a strictly longer one (R215). -/
def deferMatch (d : Nat → Byte) (n mc : Nat) (lazy : Bool) (p l : Nat) : Bool :=
  lazy && decide (p + 1 < n) &&
    match findMatch d n mc (p + 1) with
    | none => false
    | some m2 => decide (l < m2.1)

/-- Tokenize(D) from position p on (R215). Each pass moves p by at least 1, so `fuel` ≥ n - p passes reach the end. -/
def tokenizeFrom (d : Nat → Byte) (n mc : Nat) (lazy : Bool) : Nat → Nat → List Token
  | 0, _ => []
  | fuel + 1, p =>
    if n ≤ p then []
    else
      match findMatch d n mc p with
      | none => .lit (d p) :: tokenizeFrom d n mc lazy fuel (p + 1)
      | some m =>
        if deferMatch d n mc lazy p m.1 then .lit (d p) :: tokenizeFrom d n mc lazy fuel (p + 1)
        else .mtch m.1 m.2 :: tokenizeFrom d n mc lazy fuel (p + m.1)

/-- Tokenize(D) with LZ_EN = 1 (R215). -/
def tokenize (d : Nat → Byte) (n mc : Nat) (lazy : Bool) : List Token := tokenizeFrom d n mc lazy n 0

/-- The tokens with LZ_EN = 0: one literal per byte (R216). -/
def literals (d : Nat → Byte) (n : Nat) : List Token := (List.range n).map (fun i => .lit (d i))

/-- The tokens of a command: Tokenize or literals, as the latched CONFIG and MAX_CHAIN say (R215, R216). -/
def commandTokens (s : State) : List Token :=
  let d := fun i => s.inByte (s.a0 + i)
  if cfgLzEn s.latch.config then
    tokenize d s.a1 s.latch.maxChain.toNat (cfgLazyEn s.latch.config)
  else literals d s.a1

/-- A token's record, least significant byte first (20_memory R68, R219). -/
def recordBytes (t : Token) : List Byte :=
  let w := tokenRecord t
  [w.extractLsb' 0 8, w.extractLsb' 8 8, w.extractLsb' 16 8, w.extractLsb' 24 8]

/-- PutByte for each byte of a list. -/
def putBytes (cap : Nat) : List Byte → Writer → Except Err Writer
  | [], w => .ok w
  | b :: rest, w => do
    let w ← putByte cap b w
    putBytes cap rest w

/-- R219: the range check, the check for a partial byte, then the records at OUT_POS. -/
def lzScanBody (s : State) : Except Err Result := do
  checkRange s.params s.a0 s.a1
  failIf (s.stream.writer.cnt != 0) .invalidCommand
  let ts := commandTokens s
  let w ← putBytes s.params.outCap (ts.flatMap recordBytes) s.stream.writer
  .ok ⟨{ s.stream with writer := w }, ts.length, 0⟩

/-- LZ_SCAN (R219). -/
def execLzScan (s : State) : Host.Outcome State Fault Refusal := conclude (lzScanBody s) s

end Sys2Proof.Machine
end

