-- ==== Sys2Proof/Machine/Deflator.lean ====
section
/-! DEFINITION. The Deflator family (43_deflate): the three block procedures, the code-length run-length encoding, the
partition into blocks, the block costs and the AUTO choice, and the three commands. -/

namespace Sys2Proof.Machine

open Sys2Proof

/-! Block procedures -/

/-- The span of a token: the input bytes it stands for (00_scope R17). -/
def Token.span : Token → Nat
  | .lit _ => 1
  | .mtch l _ => l

/-- Whether final is set, as the number WriteBits takes. -/
def bitOf (b : Bool) : Nat := if b then 1 else 0

/-- The codes and extra bits of one token (R240). -/
def emitToken (cap : Nat) (ll dl : Table) (t : Token) (w : Writer) : Except Err Writer :=
  match t with
  | .lit b => encodeSymbol cap ll b.toNat w
  | .mtch l d => do
    let w ← encodeSymbol cap ll (lsym l) w
    let w ← writeBits cap (l - lbase (lsym l)) (lextra (lsym l)) w
    let w ← encodeSymbol cap dl (dsym d) w
    writeBits cap (d - dbase (dsym d)) (dextra (dsym d)) w

/-- EmitTokens(T): the tokens and the end-of-block code (R240). -/
def emitTokens (cap : Nat) (ll dl : Table) : List Token → Writer → Except Err Writer
  | [], w => encodeSymbol cap ll 256 w
  | t :: rest, w => do
    let w ← emitToken cap ll dl t w
    emitTokens cap ll dl rest w

/-- The 3 bits of a block header (30_encoding R101). -/
def writeHeader (cap : Nat) (final : Bool) (btype : Nat) (w : Writer) : Except Err Writer := do
  let w ← writeBits cap (bitOf final) 1 w
  writeBits cap btype 2 w

/-- StoredBlock(B, final) (R241). -/
def storedBlock (cap : Nat) (bytes : List Byte) (final : Bool) (w : Writer) : Except Err Writer := do
  let w ← writeHeader cap final 0 w
  let (_, w) ← flushToByte cap w
  let w ← writeBits cap bytes.length 16 w
  let w ← writeBits cap (65535 - bytes.length) 16 w
  writeBytes cap bytes w

/-- FixedBlock(T, final) (R242). -/
def fixedBlock (cap : Nat) (ts : List Token) (final : Bool) (st : Stream) : Except Err Stream := do
  let st := loadFixed st
  let w ← writeHeader cap final 1 st.writer
  let w ← emitTokens cap st.litlen st.dist ts w
  .ok { st with writer := w }

/-- The literal/length symbols of a token. -/
def litlenSyms : Token → List Nat
  | .lit b => [b.toNat]
  | .mtch l _ => [lsym l]

/-- The distance symbols of a token. -/
def distSyms : Token → List Nat
  | .lit _ => []
  | .mtch _ d => [dsym d]

/-- lf[0..285] of BlockFreqs(T): the end-of-block symbol counts once (R243). -/
def litlenFreqs (ts : List Token) : List Nat :=
  (List.range 286).map (fun s => (256 :: ts.flatMap litlenSyms).count s)

/-- df[0..29] of BlockFreqs(T) (R243). -/
def distFreqs (ts : List Token) : List Nat :=
  (List.range 30).map (fun s => (ts.flatMap distSyms).count s)

/-- 1 + the largest index of a nonzero entry, 0 where all are 0 (R244, R246). -/
def usedLen (ls : List Nat) : Nat := (ls.reverse.dropWhile (· == 0)).length

/-- `k` copies of a pair. -/
def pairs (k : Nat) (p : Nat × Nat) : List (Nat × Nat) := List.replicate k p

/-- The pairs for `r` repeats of a nonzero length `v` already sent once: code 16 while three or more are left, the rest
one by one (R245). Each pass takes at least 3, so `fuel` ≥ r passes suffice. -/
def repeatPairs (v : Nat) : Nat → Nat → List (Nat × Nat)
  | 0, r => pairs r (v, 0)
  | fuel + 1, r =>
    if 3 ≤ r then (16, min r 6 - 3) :: repeatPairs v fuel (r - min r 6) else pairs r (v, 0)

/-- RLE(V): pairs of a CLEN symbol and its extra value, 0 where it has no extra bits (R245). Each pass takes at least one
length, so `fuel` ≥ len(V) passes suffice. -/
def rleFrom : Nat → List Nat → List (Nat × Nat)
  | 0, _ => []
  | _ + 1, [] => []
  | fuel + 1, v :: rest =>
    let run := 1 + (rest.takeWhile (· == v)).length
    if v = 0 then
      if 11 ≤ run then (18, min run 138 - 11) :: rleFrom fuel ((v :: rest).drop (min run 138))
      else if 3 ≤ run then (17, run - 3) :: rleFrom fuel ((v :: rest).drop run)
      else (0, 0) :: rleFrom fuel rest
    else (v, 0) :: (repeatPairs v (run - 1) (run - 1) ++ rleFrom fuel ((v :: rest).drop run))

/-- RLE(V) (R245). -/
def rle (v : List Nat) : List (Nat × Nat) := rleFrom v.length v

/-- What R244–R246 compute for a block. -/
structure DynPlan where
  /-- LL. -/
  ll : List Nat
  /-- DL. -/
  dl : List Nat
  /-- HLIT_N. -/
  hlit : Nat
  /-- HDIST_N. -/
  hdist : Nat
  /-- S. -/
  seq : List (Nat × Nat)
  /-- CL. -/
  cl : List Nat
  /-- HCLEN_N. -/
  hclen : Nat
deriving DecidableEq, Repr

/-- The dynamic code of a block (R243–R246). -/
def dynPlan (ts : List Token) : DynPlan :=
  let ll := lengthAssign (litlenFreqs ts) Config.maxBits
  let dl := lengthAssign (distFreqs ts) Config.maxBits
  let hlit := max 257 (usedLen ll)
  let hdist := usedLen dl
  let seq := rle (ll.take hlit) ++ rle (dl.take hdist)
  let cl := lengthAssign ((List.range 19).map (fun k => (seq.map Prod.fst).count k)) Config.maxBitsClen
  let hclen := max 4 (usedLen (clenOrder.map (fun k => cl.getD k 0)))
  ⟨ll, dl, hlit, hdist, seq, cl, hclen⟩

/-- WriteBits(v, n) for each value of a list. -/
def writeEach (cap n : Nat) : List Nat → Writer → Except Err Writer
  | [], w => .ok w
  | v :: rest, w => do
    let w ← writeBits cap v n w
    writeEach cap n rest w

/-- The code-length sequence: each symbol and its extra bits (R247). -/
def writeSeq (cap : Nat) (clen : Table) : List (Nat × Nat) → Writer → Except Err Writer
  | [], w => .ok w
  | (k, e) :: rest, w => do
    let w ← encodeSymbol cap clen k w
    let w ← writeBits cap e (clenExtra k) w
    writeSeq cap clen rest w

/-- DynamicBlock(T, final) (R247). -/
def dynamicBlock (cap : Nat) (ts : List Token) (final : Bool) (st : Stream) : Except Err Stream := do
  let p := dynPlan ts
  let clen ← buildTable Config.numClen p.cl
  let ll ← buildTable Config.numLitlen (p.ll.take p.hlit)
  let dl ← buildTable Config.numDist (p.dl.take p.hdist)
  let w ← writeHeader cap final 2 st.writer
  let w ← writeBits cap (p.hlit - 257) 5 w
  let w ← writeBits cap (p.hdist - 1) 5 w
  let w ← writeBits cap (p.hclen - 4) 4 w
  let w ← writeEach cap 3 ((clenOrder.take p.hclen).map (fun k => p.cl.getD k 0)) w
  let w ← writeSeq cap clen p.seq w
  let w ← emitTokens cap ll dl ts w
  .ok { st with writer := w, litlen := ll, dist := dl, clen := clen }

/-! Partition and block choice -/

/-- A block of Partition: its tokens, the index of its first byte in D, and its span (R248). -/
structure Block where
  tokens : List Token
  start : Nat
  span : Nat
deriving DecidableEq, Repr

/-- The loop of Partition; `cur` is the open block, its tokens newest first (R248). -/
def partitionFrom (bt : Nat) : List Token → Block → List Block
  | [], cur => [{ cur with tokens := cur.tokens.reverse }]
  | t :: rest, cur =>
    if cur.tokens.length = bt ∨ Config.maxStored < cur.span + Token.span t then
      { cur with tokens := cur.tokens.reverse } ::
        partitionFrom bt rest ⟨[t], cur.start + cur.span, Token.span t⟩
    else partitionFrom bt rest { cur with tokens := t :: cur.tokens, span := cur.span + Token.span t }

/-- Partition(T) (R248). -/
def partition (bt : Nat) (ts : List Token) : List Block := partitionFrom bt ts ⟨[], 0, 0⟩

/-- The bits of one token under lengths ll and dl (R249). -/
def tokenBits (ll dl : List Nat) : Token → Nat
  | .lit b => ll.getD b.toNat 0
  | .mtch l d =>
    ll.getD (lsym l) 0 + lextra (lsym l) + dl.getD (dsym d) 0 + dextra (dsym d)

/-- TokBits(T, ll, dl) (R249). -/
def tokBits (ts : List Token) (ll dl : List Nat) : Nat := (ts.map (tokenBits ll dl)).sum + ll.getD 256 0

/-- CostStored(span), with c0 bits pending (R249). -/
def costStored (c0 span : Nat) : Nat := 3 + (8 - (c0 + 3) % 8) % 8 + 32 + 8 * span

/-- CostFixed(T) (R249). -/
def costFixed (ts : List Token) : Nat := 3 + tokBits ts fixedLitlen fixedDist

/-- CostDynamic(T) (R249). -/
def costDynamic (ts : List Token) : Nat :=
  let p := dynPlan ts
  3 + 14 + 3 * p.hclen + (p.seq.map (fun ke => p.cl.getD ke.1 0 + clenExtra ke.1)).sum +
    tokBits ts p.ll p.dl

/-- The block types COMPRESS can write. -/
inductive BlockKind where
  | stored
  | fixed
  | dynamic
deriving DecidableEq, Repr

/-- The AUTO choice: the cheapest, a tie going to stored, then fixed (R250). -/
def autoKind (c0 : Nat) (b : Block) : BlockKind :=
  let cs := costStored c0 b.span
  let cf := costFixed b.tokens
  let cd := costDynamic b.tokens
  if cs ≤ cf ∧ cs ≤ cd then .stored else if cf ≤ cd then .fixed else .dynamic

/-- The block type MODE asks for: 1 fixed, 2 dynamic, 3 by R250 (R251). -/
def blockKind (mode c0 : Nat) (b : Block) : BlockKind :=
  if mode = 1 then .fixed else if mode = 2 then .dynamic else autoKind c0 b

/-- Write a block of D as the given type (R250, R251). -/
def writeBlock (cap : Nat) (d : Nat → Byte) (k : BlockKind) (b : Block) (final : Bool) (st : Stream) :
    Except Err Stream :=
  match k with
  | .stored => do
    let w ← storedBlock cap ((List.range b.span).map (fun i => d (b.start + i))) final st.writer
    .ok { st with writer := w }
  | .fixed => fixedBlock cap b.tokens final st
  | .dynamic => dynamicBlock cap b.tokens final st

/-- The blocks in order, the last one final (R251). -/
def writeBlocks (cap : Nat) (d : Nat → Byte) (mode : Nat) : List Block → Stream → Except Err Stream
  | [], st => .ok st
  | b :: rest, st => do
    let st ← writeBlock cap d (blockKind mode st.writer.cnt.toNat b) b rest.isEmpty st
    writeBlocks cap d mode rest st

/-- The blocks of STORED mode: pieces of at most 65535 bytes from p to n, at least one (R251). Each piece but an empty
only one takes a byte, so `fuel` ≥ n - p + 1 pieces suffice. -/
def storedPieces (n : Nat) : Nat → Nat → List Block
  | 0, _ => []
  | fuel + 1, p =>
    let k := min Config.maxStored (n - p)
    if n ≤ p + k then [⟨[], p, k⟩] else ⟨[], p, k⟩ :: storedPieces n fuel (p + k)

/-- The stored blocks in order, the last one final (R251). -/
def writeStored (cap : Nat) (d : Nat → Byte) : List Block → Stream → Except Err Stream
  | [], st => .ok st
  | b :: rest, st => do
    let st ← writeBlock cap d .stored b rest.isEmpty st
    writeStored cap d rest st

/-! Commands -/

/-- The writer restarted at OUT[0] (R251, 44_inflate R291). -/
def restartWriter (st : Stream) : Stream :=
  { st with writer := { st.writer with outPos := 0, acc := 0, cnt := 0 } }

/-- The blocks COMPRESS writes, as the latched MODE says (R251). -/
def compressBlocks (s : State) : List Block :=
  if cfgMode s.latch.config = 0 then storedPieces s.a1 (s.a1 + 1) 0
  else partition s.latch.blockTokens.toNat (commandTokens s)

/-- R251: the range check, a new stream at OUT[0], the blocks, FlushToByte. -/
def compressBody (s : State) : Except Err Result := do
  checkRange s.params s.a0 s.a1
  let d := fun i => s.inByte (s.a0 + i)
  let bs := compressBlocks s
  let st ←
    if cfgMode s.latch.config = 0 then writeStored s.params.outCap d bs (restartWriter s.stream)
    else writeBlocks s.params.outCap d (cfgMode s.latch.config) bs (restartWriter s.stream)
  let (_, w) ← flushToByte s.params.outCap st.writer
  .ok ⟨{ st with writer := w }, w.outPos.toNat, bs.length⟩

/-- COMPRESS (R251). -/
def execCompress (s : State) : Host.Outcome State Fault Refusal := conclude (compressBody s) s

/-- R252: the checks in the order written, then StoredBlock. -/
def deflStoredBody (s : State) : Except Err Result := do
  failIf (decide (Config.maxStored < s.a1)) .invalidCommand
  checkRange s.params s.a0 s.a1
  let w ← storedBlock s.params.outCap (s.inBytes s.a0 s.a1) s.argFinal s.stream.writer
  .ok ⟨{ s.stream with writer := w }, w.bitPos - s.stream.writer.bitPos, 0⟩

/-- DEFL_STORED (R252). -/
def execDeflStored (s : State) : Host.Outcome State Fault Refusal := conclude (deflStoredBody s) s

/-- R253: the range check, the tokens, then DynamicBlock or FixedBlock. -/
def deflHuffBody (s : State) : Except Err Result := do
  checkRange s.params s.a0 (4 * s.a1)
  let ts ← readTokens s s.a0 s.a1
  let st ←
    if s.argDyn then dynamicBlock s.params.outCap ts s.argFinal s.stream
    else fixedBlock s.params.outCap ts s.argFinal s.stream
  .ok ⟨st, st.writer.bitPos - s.stream.writer.bitPos, 0⟩

/-- DEFL_HUFF (R253). -/
def execDeflHuff (s : State) : Host.Outcome State Fault Refusal := conclude (deflHuffBody s) s

end Sys2Proof.Machine
end

