-- ==== Sys2Proof/Machine/Inflator.lean ====
section
/-! DEFINITION. The Inflator family (44_inflate): EmitByte and the window, the block bodies, INFL_BLOCK and DECOMPRESS,
and the four block headers of the stream as the inflater's instructions. -/

namespace Sys2Proof.Machine

open Sys2Proof

/-! Output and window -/

/-- EmitByte(b): to OUT and to the window (R280). -/
def emitByte (cap : Nat) (b : Byte) (st : Stream) : Except Err Stream := do
  let w ← putByte cap b st.writer
  .ok { st with
    writer := w
    window :=
      { bytes := st.window.bytes.write st.window.pos.toNat b
        pos := st.window.pos + 1
        fill := BitVec.ofNat 32 (min (st.window.fill.toNat + 1) Config.wsize) } }

/-- WIN[(WIN_POS - d) mod 32768] (R289). -/
def Window.back (win : Window) (d : Nat) : Byte :=
  win.bytes.read .winByte (win.pos - BitVec.ofNat 15 d).toNat

/-- The loop of Copy(l, d): each byte is the one emitted d places earlier (R289). -/
def copyBytes (cap : Nat) : Nat → Nat → Stream → Except Err Stream
  | 0, _, st => .ok st
  | l + 1, d, st => do
    let st ← emitByte cap (st.window.back d) st
    copyBytes cap l d st

/-- Copy(l, d): InvalidDistance when d > WIN_FILL (R289). -/
def copyMatch (cap l d : Nat) (st : Stream) : Except Err Stream :=
  if st.window.fill.toNat < d then .error .invalidDistance else copyBytes cap l d st

/-! Block bodies: `inb` is IN -/

/-- `n` bytes of a stored block: EmitByte(ReadBits(8)) (R282). -/
def storedBytes (cap : Nat) (inb : Nat → Byte) : Nat → Stream → Except Err Stream
  | 0, st => .ok st
  | n + 1, st => do
    let (b, r) ← readBits inb 8 st.reader
    let st ← emitByte cap (BitVec.ofNat 8 b) { st with reader := r }
    storedBytes cap inb n st

/-- StoredBody() (R282). -/
def storedBody (cap : Nat) (inb : Nat → Byte) (st : Stream) : Except Err (Nat × Stream) := do
  let r := (alignToByte st.reader).2
  let (len, r) ← readBits inb 16 r
  let (nlen, r) ← readBits inb 16 r
  failIf (nlen != 65535 - len) .lengthMismatch
  let st ← storedBytes cap inb len { st with reader := r }
  .ok (len, st)

/-- Length(s), for 257 ≤ s ≤ 285 (R287). -/
def readLength (inb : Nat → Byte) (s : Nat) (r : Reader) : Except Err (Nat × Reader) := do
  let (e, r) ← readBits inb (lextra s) r
  .ok (lbase s + e, r)

/-- Distance(): InvalidCode for the symbols 30 and 31 (R288). -/
def readDistance (dist : Table) (inb : Nat → Byte) (r : Reader) : Except Err (Nat × Reader) := do
  let ((c, _), r) ← decodeSymbol dist inb r
  failIf (decide (29 < c)) .invalidCode
  let (e, r) ← readBits inb (dextra c) r
  .ok (dbase c + e, r)

/-- The loop of HuffBody(), `produced` bytes so far (R286). Every pass reads at least one bit, so when `fuel` passes, one
for each bit that remained at the start, are used up, no bit remains and the next Decode raises UnexpectedEnd (log 12). -/
def huffLoop (cap : Nat) (inb : Nat → Byte) : Nat → Nat → Stream → Except Err (Nat × Stream)
  | 0, _, _ => .error .unexpectedEnd
  | fuel + 1, produced, st => do
    let ((s, _), r) ← decodeSymbol st.litlen inb st.reader
    let st := { st with reader := r }
    if s < 256 then do
      let st ← emitByte cap (BitVec.ofNat 8 s) st
      huffLoop cap inb fuel (produced + 1) st
    else if s = 256 then .ok (produced, st)
    else if 285 < s then .error .invalidCode
    else do
      let (l, r) ← readLength inb s st.reader
      let (d, r) ← readDistance st.dist inb r
      let st ← copyMatch cap l d { st with reader := r }
      huffLoop cap inb fuel (produced + l) st

/-- HuffBody(): decode symbols until the end of block (R286). -/
def huffBody (cap : Nat) (inb : Nat → Byte) (st : Stream) : Except Err (Nat × Stream) :=
  huffLoop cap inb st.reader.remaining.toNat 0 st

/-- ReadBits(n), `k` times. -/
def readEach (inb : Nat → Byte) (n : Nat) : Nat → Reader → Except Err (List Nat × Reader)
  | 0, r => .ok ([], r)
  | k + 1, r => do
    let (v, r) ← readBits inb n r
    let (vs, r) ← readEach inb n k r
    .ok (v :: vs, r)

/-- cl[0..18]: the i-th value read is the length of CLEN symbol CLEN_ORDER[i], the others are 0 (R284). -/
def clenLengths (vs : List Nat) : List Nat :=
  (clenOrder.zip vs).foldl (fun cl sv => cl.set sv.1 sv.2) (List.replicate Config.numClen 0)

/-- `r` repeats of length `v` appended to V: InvalidCode past N lengths (R285). -/
def appendRepeat (n : Nat) (vs : List Nat) (v r : Nat) : Except Err (List Nat) :=
  if n < vs.length + r then .error .invalidCode else .ok (vs ++ List.replicate r v)

/-- What one code-length symbol k appends to V (R285). -/
def lengthStep (inb : Nat → Byte) (n k : Nat) (vs : List Nat) (r : Reader) : Except Err (List Nat × Reader) :=
  if k < 16 then .ok (vs ++ [k], r)
  else if k = 16 then
    match vs.getLast? with
    | none => .error .invalidCode
    | some v => do
      let (e, r) ← readBits inb 2 r
      let vs ← appendRepeat n vs v (3 + e)
      .ok (vs, r)
  else if k = 17 then do
    let (e, r) ← readBits inb 3 r
    let vs ← appendRepeat n vs 0 (3 + e)
    .ok (vs, r)
  else do
    let (e, r) ← readBits inb 7 r
    let vs ← appendRepeat n vs 0 (11 + e)
    .ok (vs, r)

/-- The loop `while len(V) < N` (R285). Every pass appends at least one length, so `fuel` = N passes reach N. -/
def lengthsLoop (clen : Table) (inb : Nat → Byte) (n : Nat) :
    Nat → List Nat → Reader → Except Err (List Nat × Reader)
  | 0, vs, r => .ok (vs, r)
  | fuel + 1, vs, r =>
    if n ≤ vs.length then .ok (vs, r)
    else do
      let ((k, _), r) ← decodeSymbol clen inb r
      let (vs, r) ← lengthStep inb n k vs r
      lengthsLoop clen inb n fuel vs r

/-- DynamicHeader(): the counts, the CLEN code, the code lengths, and the three tables (R284, R285). -/
def dynamicHeader (inb : Nat → Byte) (st : Stream) : Except Err Stream := do
  let (hlit, r) ← readBits inb 5 st.reader
  let (hdist, r) ← readBits inb 5 r
  let (hclen, r) ← readBits inb 4 r
  let (cl, r) ← readEach inb 3 (hclen + 4) r
  let clen ← buildTable Config.numClen (clenLengths cl)
  let n := hlit + 257 + (hdist + 1)
  let (vs, r) ← lengthsLoop clen inb n n [] r
  let litlen ← buildTable Config.numLitlen (vs.take (hlit + 257))
  let dist ← buildTable Config.numDist (vs.drop (hlit + 257))
  .ok { st with reader := r, litlen := litlen, dist := dist, clen := clen }

/-- The body of a stored block whose header was read (R282). -/
def storedBlockBody (cap : Nat) (inb : Nat → Byte) (st : Stream) : Except Err (Nat × Stream) :=
  storedBody cap inb st

/-- The body of a fixed block whose header was read (R283). -/
def fixedBlockBody (cap : Nat) (inb : Nat → Byte) (st : Stream) : Except Err (Nat × Stream) :=
  huffBody cap inb (loadFixed st)

/-- The body of a dynamic block whose header was read (R284, R285, R286). -/
def dynamicBlockBody (cap : Nat) (inb : Nat → Byte) (st : Stream) : Except Err (Nat × Stream) := do
  let st ← dynamicHeader inb st
  huffBody cap inb st

/-- A block header: `final <- ReadBits(1)`, `btype <- ReadBits(2)`, as the number `final | btype << 1` (R281). -/
def readHeader (inb : Nat → Byte) (r : Reader) : Except Err (BitVec 3 × Reader) := do
  let (f, r) ← readBits inb 1 r
  let (t, r) ← readBits inb 2 r
  .ok (BitVec.ofNat 3 (f + 2 * t), r)

/-- InflateBlock(): (final, produced) and the stream state (R281). -/
def inflateBlock (cap : Nat) (inb : Nat → Byte) (st : Stream) : Except Err ((Bool × Nat) × Stream) := do
  let (h, r) ← readHeader inb st.reader
  let st := { st with reader := r }
  let btype := (h.extractLsb' 1 2).toNat
  if btype = 3 then .error .invalidBlockType
  else do
    let (k, st) ←
      if btype = 0 then storedBlockBody cap inb st
      else if btype = 1 then fixedBlockBody cap inb st
      else dynamicBlockBody cap inb st
    .ok ((h.getLsbD 0, k), st)

/-! Commands -/

/-- R290: the check for a partial byte. -/
def inflBlockStart (s : State) : Except Err Stream := do
  failIf (s.stream.writer.cnt != 0) .invalidCommand
  .ok s.stream

/-- R290: the check, then one block. -/
def inflBlockBody (s : State) : Except Err Result := do
  let st ← inflBlockStart s
  let ((final, k), st) ← inflateBlock s.params.outCap s.inByte st
  .ok ⟨st, k, bitOf final⟩

/-- INFL_BLOCK (R290). -/
def execInflBlock (s : State) : Host.Outcome State Fault Refusal := conclude (inflBlockBody s) s

/-- R291 up to its loop: the range check, the reader over the range, the writer at OUT[0], the window cleared. DESIGN CHOICE
(log 19): clearing the window leaves the bytes of WIN as they were, which 10_state R38 leaves unspecified and no rule
reads. -/
def decompressStart (s : State) : Except Err Stream := do
  checkRange s.params s.a0 s.a1
  let st := restartWriter s.stream
  .ok { st with
    reader := .over s.latch.arg0 s.latch.arg1
    window := { st.window with fill := 0, pos := 0 } }

/-- The loop `repeat InflateBlock() until final = 1` (R291). Every pass reads at least three bits, so when `fuel` passes,
one for each bit that remained, are used up, the next ReadBits raises UnexpectedEnd (log 12). -/
def inflateLoop (cap : Nat) (inb : Nat → Byte) : Nat → Stream → Except Err Stream
  | 0, _ => .error .unexpectedEnd
  | fuel + 1, st => do
    let ((final, _), st) ← inflateBlock cap inb st
    if final then .ok st else inflateLoop cap inb fuel st

/-- R291's results: RES0 ← OUT_POS, RES1 ← Consumed(start). -/
def decompressResult (s : State) (st : Stream) : Result :=
  ⟨st, st.writer.outPos.toNat, st.reader.consumed s.a0⟩

/-- R291. -/
def decompressBody (s : State) : Except Err Result := do
  let st ← decompressStart s
  let st ← inflateLoop s.params.outCap s.inByte st.reader.remaining.toNat st
  .ok (decompressResult s st)

/-- DECOMPRESS (R291). -/
def execDecompress (s : State) : Host.Outcome State Fault Refusal := conclude (decompressBody s) s

/-! The block headers as instructions (log 9): the inflater runs one after it has read the header's bits -/

/-- The end of a block within the running command: an error ends the command; INFL_BLOCK completes with the bytes
produced and BFINAL (R290); DECOMPRESS completes after a final block and otherwise goes on to the next header (R291). -/
def concludeBlock (final : Bool) (r : Except Err (Nat × Stream)) (s : State) : Host.Outcome State Fault Refusal :=
  match r with
  | .error e => .next (raise e s)
  | .ok (k, st) =>
    if s.latch.word = 0x48#32 then
      if final then .next (complete (decompressResult s st) s)
      else .next { s with run := .inflating, stream := st }
    else .next (complete ⟨st, k, bitOf final⟩ s)

/-- STREAM_BLOCK_STORED (R282). -/
def execStreamBlockStored (bfinal : Bool) (s : State) : Host.Outcome State Fault Refusal :=
  concludeBlock bfinal (storedBlockBody s.params.outCap s.inByte s.stream) s

/-- STREAM_BLOCK_FIXED (R283). -/
def execStreamBlockFixed (bfinal : Bool) (s : State) : Host.Outcome State Fault Refusal :=
  concludeBlock bfinal (fixedBlockBody s.params.outCap s.inByte s.stream) s

/-- STREAM_BLOCK_DYNAMIC (R284, R285). -/
def execStreamBlockDynamic (bfinal : Bool) (s : State) : Host.Outcome State Fault Refusal :=
  concludeBlock bfinal (dynamicBlockBody s.params.outCap s.inByte s.stream) s

/-- STREAM_BLOCK_RESERVED: InvalidBlockType (30_encoding R116, R281), whatever BFINAL is. -/
def execStreamBlockReserved (bfinal : Bool) (s : State) : Host.Outcome State Fault Refusal :=
  concludeBlock bfinal (.error .invalidBlockType) s

end Sys2Proof.Machine
end

