-- ==== Sys2Proof/Machine/Dispatch.lean ====
section
/-! DEFINITION. exec: one arm per constructor of Instr, each one call of that instruction's own meaning. -/

namespace Sys2Proof.Machine

def exec (i : Instr) (s : State) : Host.Outcome State Fault Refusal :=
  match i with
  | .nop => Sys2Proof.Machine.execNop s
  | .resetStream => Sys2Proof.Machine.execResetStream s
  | .bwInit => Sys2Proof.Machine.execBwInit s
  | .bwWriteBits => Sys2Proof.Machine.execBwWriteBits s
  | .bwFlush => Sys2Proof.Machine.execBwFlush s
  | .brInit => Sys2Proof.Machine.execBrInit s
  | .brReadBits => Sys2Proof.Machine.execBrReadBits s
  | .brAlign => Sys2Proof.Machine.execBrAlign s
  | .hufBuild => Sys2Proof.Machine.execHufBuild s
  | .hufLoadFixed => Sys2Proof.Machine.execHufLoadFixed s
  | .hufDecode => Sys2Proof.Machine.execHufDecode s
  | .hufEncode => Sys2Proof.Machine.execHufEncode s
  | .lzScan => Sys2Proof.Machine.execLzScan s
  | .deflStored => Sys2Proof.Machine.execDeflStored s
  | .deflHuff => Sys2Proof.Machine.execDeflHuff s
  | .compress => Sys2Proof.Machine.execCompress s
  | .inflBlock => Sys2Proof.Machine.execInflBlock s
  | .decompress => Sys2Proof.Machine.execDecompress s
  | .streamBlockStored bfinal => Sys2Proof.Machine.execStreamBlockStored bfinal s
  | .streamBlockFixed bfinal => Sys2Proof.Machine.execStreamBlockFixed bfinal s
  | .streamBlockDynamic bfinal => Sys2Proof.Machine.execStreamBlockDynamic bfinal s
  | .streamBlockReserved bfinal => Sys2Proof.Machine.execStreamBlockReserved bfinal s

end Sys2Proof.Machine
end

