-- ==== Sys2Proof/Machine/HostMoves.lean ====
section
/-! DEFINITION. What the host's moves do: the register block (10_state R20..R35), the memories (20_memory R62..R64), bus
addresses (R71), the CMD write and the core's turns (45_control R322, R323), the reset input (70_reset R380), and the
host's script notation (30_encoding R95, R96). -/

namespace Sys2Proof.Machine

open Sys2Proof

/-! Commands -/

/-- Step 3, execute: an illegal word completes with InvalidCommand, a legal one runs (45_control R322). -/
def runLatched (s : State) : Host.Outcome State Fault Refusal :=
  match decodeCmd s.latch.word with
  | .error _ => .next (raiseIllegalWord s)
  | .ok i => exec i s

/-- Whether a CMD write of `w` is dropped: while BUSY = 1, and while ERROR = 1 unless it is NOP or RESET_STREAM with
RSVD = 0 (70_reset R386, 45_control R323). -/
def cmdDropped (w : Word) (s : State) : Bool := s.busy || (s.error && !(w == 0#32 || w == 1#32))

/-- A write of `w` to CMD: dropped, or started and, unless the platform shows BUSY = 1, executed in the same step
(45_control R322, 70_reset R391). -/
def writeCmd (w : Word) (s : State) : Host.Outcome State Fault Refusal :=
  if cmdDropped w s then .next s
  else if s.params.exposeBusy then .next (start w s)
  else runLatched (start w s)

/-- The inflater fetches a block header from the bit reader: the instruction, and the state past it (44_inflate R281). -/
def fetchHeader (s : State) : Except Err (Instr × State) := do
  let (h, r) ← readHeader s.inByte s.stream.reader
  .ok (decodeHeader h, { s with stream := { s.stream with reader := r } })

/-- The inflater at a block boundary: fetch a header and run it (44_inflate R281, log 9). -/
def inflateTurn (s : State) : Host.Outcome State Fault Refusal :=
  match fetchHeader s with
  | .error e => .next (raise e s)
  | .ok (i, s') => exec i s'

/-- Bring an inflating command to its first block boundary, or complete it with the error of its checks. -/
def enterInflater (r : Except Err Stream) (s : State) : State :=
  match r with
  | .error e => raise e s
  | .ok st => { s with run := .inflating, stream := st }

/-- A turn of the core on a platform that shows BUSY = 1 (45_control R322): INFL_BLOCK and DECOMPRESS go block by block,
every other command completes. -/
def coreTurn (s : State) : Host.Outcome State Fault Refusal :=
  match s.run with
  | .idle => .next s
  | .started =>
    if s.latch.word = 0x40#32 then .next (enterInflater (inflBlockStart s) s)
    else if s.latch.word = 0x48#32 then .next (enterInflater (decompressStart s) s)
    else runLatched s
  | .inflating => inflateTurn s

/-! Registers -/

/-- Whether a read at this offset is unspecified while BUSY = 1: RES0, RES1 and the cursor registers (70_reset R389). -/
def unspecifiedWhileBusy (off : Nat) : Bool :=
  off == 0x030 || off == 0x034 || off == 0x038 || off == 0x03C || off == 0x040 || off == 0x044 ||
    off == 0x048 || off == 0x04C

/-- What an aligned 32-bit read of the register block returns when its value is specified (10_state R20..R35). -/
def readReg (s : State) (off : Nat) : Word :=
  if off = 0x000 then 0x44464C01#32
  else if off = 0x004 then 0
  else if off = 0x008 then statusWord s
  else if off = 0x00C then errWord s.err
  else if off = 0x010 then s.config.setWidth 32
  else if off = 0x014 then s.maxChain.setWidth 32
  else if off = 0x018 then s.blockTokens.setWidth 32
  else if off = 0x020 then s.arg0
  else if off = 0x024 then s.arg1
  else if off = 0x028 then s.arg2
  else if off = 0x030 then s.res0
  else if off = 0x034 then s.res1
  else if off = 0x038 then s.stream.reader.pos
  else if off = 0x03C then s.stream.reader.lim
  else if off = 0x040 then s.stream.reader.bit.setWidth 32
  else if off = 0x044 then s.stream.writer.outPos
  else if off = 0x048 then (s.stream.writer.cnt ++ s.stream.writer.acc : BitVec 12).setWidth 32
  else if off = 0x04C then s.stream.window.fill
  else if off = 0x050 then BitVec.ofNat 32 s.params.inSize
  else if off = 0x054 then BitVec.ofNat 32 s.params.outCap
  else 0

/-- An aligned 32-bit write to the register block: to CONFIG, MAX_CHAIN, BLOCK_TOKENS, ARG0..ARG2, STATUS.DONE and CMD;
every other offset ignores it (10_state R20..R35). -/
def writeReg (off : Nat) (v : Word) (s : State) : Host.Outcome State Fault Refusal :=
  if off = 0x004 then writeCmd v s
  else if off = 0x008 then .next (writeStatus v s)
  else if off = 0x010 then .next { s with config := v.setWidth 5 }
  else if off = 0x014 then .next { s with maxChain := v.setWidth 16 }
  else if off = 0x018 then .next { s with blockTokens := clampBlockTokens v }
  else if off = 0x020 then .next { s with arg0 := v }
  else if off = 0x024 then .next { s with arg1 := v }
  else if off = 0x028 then .next { s with arg2 := v }
  else .next s

/-! Host accesses -/

/-- The bytes of an access. -/
def Width.bytes : Width → Nat
  | .byte => 1
  | .half => 2
  | .word => 4

/-- The host reads a value the spec leaves unspecified: a free draw (70_reset R389). -/
def readUnspecified (w : Width) (s : State) : State :=
  { s with
    readData := BitVec.ofNat 32 ((Config.free 32 s.draws .busyRead 0).toNat % 2 ^ (8 * w.bytes))
    draws := s.nextDraw }

/-- Why a register access is no move of the host (20_memory R61, 10_state R35). -/
def regRefusal (off : Nat) (w : Width) : Option Refusal :=
  if w ≠ .word then some .registerWidth
  else if off % 4 ≠ 0 then some .registerUnaligned
  else if 0x100 ≤ off then some .registerOutsideBlock
  else none

/-- A host read (20_memory R61..R63, 70_reset R389). -/
def hostRead (sp : Space) (i : Nat) (w : Width) (s : State) : Host.Outcome State Fault Refusal :=
  match sp with
  | .reg =>
    match regRefusal i w with
    | some r => .refused r
    | none =>
      if s.busy && unspecifiedWhileBusy i then .next (readUnspecified w s)
      else .next { s with readData := readReg s i }
  | .inp =>
    if s.params.inSize < i + w.bytes then .refused .inOutOfRange
    else .next { s with readData := BitVec.ofNat 32 (s.input.readLE .inByte i w.bytes) }
  | .out =>
    if s.params.outCap < i + w.bytes then .refused .outOutOfRange
    else if s.busy then .next (readUnspecified w s)
    else .next { s with readData := BitVec.ofNat 32 (s.stream.writer.out.readLE .outByte i w.bytes) }

/-- A host write (20_memory R61..R63, 70_reset R388). -/
def hostWrite (sp : Space) (i : Nat) (w : Width) (v : Word) (s : State) : Host.Outcome State Fault Refusal :=
  match sp with
  | .reg =>
    match regRefusal i w with
    | some r => .refused r
    | none => writeReg i v s
  | .inp =>
    if s.params.inSize < i + w.bytes then .refused .inOutOfRange
    else if s.busy then .refused .inWriteWhileBusy
    else .next { s with input := s.input.writeLE i w.bytes v.toNat }
  | .out => if s.params.outCap < i + w.bytes then .refused .outOutOfRange else .next s

/-- The space and index a bus address lies in (00_scope R10, 20_memory R71, log 2). -/
def locate (p : Params) (a : Nat) : Option (Space × Nat) :=
  if p.regBase ≤ a ∧ a < p.regBase + 0x100 then some (.reg, a - p.regBase)
  else if p.inBase ≤ a ∧ a < p.inBase + p.inSize then some (.inp, a - p.inBase)
  else if p.outBase ≤ a ∧ a < p.outBase + p.outCap then some (.out, a - p.outBase)
  else none

/-- Assert the reset input: a running command is abandoned, with no completion and no error (70_reset R380). DESIGN CHOICE
(log 13): DONE, ERROR, CONFIG and so the level of IRQ stay as they were until reset deasserts. R380 and R381 give values
only from then on. -/
def resetAssert (s : State) : State := { s with inReset := true, run := .idle }

/-- Deassert the reset input: the state of 70_reset R381 and R382, memories drawn afresh. Without a reset asserted it
changes nothing. -/
def resetRelease (s : State) : State :=
  if s.inReset then { State.resetWith s.params s.draws with host := s.host, readData := s.readData } else s

/-- "read STATUS until BUSY = 0" (30_encoding R95): while a command runs, the core takes a turn and the host waits on. -/
def hostWait (s : State) : Host.Outcome State Fault Refusal :=
  if s.busy then coreTurn { s with host := .wait :: s.host } else .next { s with readData := statusWord s }

/-- A host access, once the reset input is known to be deasserted. -/
def hostAccess (m : HostMove) (s : State) : Host.Outcome State Fault Refusal :=
  match m with
  | .read sp i w => hostRead sp i w s
  | .write sp i w v => hostWrite sp i w v s
  | .busRead a w =>
    match locate s.params a with
    | some (sp, i) => hostRead sp i w s
    | none => .refused .busUnmapped
  | .busWrite a w v =>
    match locate s.params a with
    | some (sp, i) => hostWrite sp i w v s
    | none => .refused .busUnmapped
  | .wait => hostWait s
  | .turn => coreTurn s
  | .resetAssert => .next (resetAssert s)
  | .resetRelease => .next (resetRelease s)

/-- One move of the outside world. "While reset is asserted, the core drops every host access" (70_reset R380). -/
def perform (m : HostMove) (s : State) : Host.Outcome State Fault Refusal :=
  if s.inReset then
    match m with
    | .resetRelease => .next (resetRelease s)
    | .read _ _ _ | .write _ _ _ _ | .busRead _ _ | .busWrite _ _ _ | .wait | .turn | .resetAssert => .next s
  else hostAccess m s

/-- One step: the host's oldest pending move, or, when the host has none, a turn of the core. An idle core then waits
(70_reset R380). -/
def stepMachine (s : State) : Host.Outcome State Fault Refusal :=
  match s.host with
  | [] => if s.inReset then .next s else coreTurn s
  | m :: rest => perform m { s with host := rest }

/-! Putting an instruction where the next step fetches it -/

/-- A command's word as the host's next move, on a core that does not drop it (45_control R322, R323). -/
def placeCommand (s : State) (w : Word) : State :=
  { s with
    run := .idle
    error := false
    inReset := false
    host := .write .reg 0x004 .word w :: s.host }

/-- A block header as the reader's next bits, in an INFL_BLOCK that is at a block boundary (44_inflate R281): IN[0..4)
holds `w`, little-endian, and the reader is over those bytes. -/
def placeHeader (s : State) (w : Nat) : State :=
  { s with
    run := .inflating
    inReset := false
    latch := { s.latch with word := 0x40#32 }
    input := s.input.writeLE 0 4 w
    stream := { s.stream with reader := ⟨0, 4, 0⟩ }
    host := .turn :: s.host }

/-- The instruction with bits `w`, numbered as spec/opcode_table.json numbers them, placed so that the very next step
fetches and runs it: a row of at most one byte is a block header, a longer one a command word (log 11). -/
def placeInstr (s : State) (nbits w : Nat) : State :=
  if nbits ≤ 8 then placeHeader s w else placeCommand s (BitVec.ofNat 32 w)

/-! Script notation -/

/-- `wr NAME, v` at the register's offset (30_encoding R95). -/
def wr (off : Nat) (v : Word) : HostMove := .write .reg off .word v

/-- `rd NAME` (30_encoding R95). -/
def rd (off : Nat) : HostMove := .read .reg off .word

/-- `inb i, b0, b1, …` (30_encoding R95). -/
def inb : Nat → List Byte → List HostMove
  | _, [] => []
  | i, b :: rest => .write .inp i .byte (b.setWidth 32) :: inb (i + 1) rest

/-- `outb i, n` (30_encoding R95). -/
def outb (i n : Nat) : List HostMove := (List.range n).map (fun k => .read .out (i + k) .byte)

/-- The CMD word of a command, none for a block header. -/
def cmdWord (i : Instr) : Option Word :=
  match encode i with
  | .cmd w => some w
  | .header _ => none

/-- `m a0, a1, a2`: the given operands to ARG0..ARG2, the command's word to CMD, then wait (30_encoding R96). -/
def pseudo (w : Word) (args : List Word) : List HostMove :=
  ([0x020, 0x024, 0x028].zip args).map (fun oa => wr oa.1 oa.2) ++ [wr 0x004 w, .wait]

/-- `ack`: clear DONE (30_encoding R96). -/
def ackDone : HostMove := wr 0x008 2

/-- `cfg mode, lz, lazy, irq` (30_encoding R96). -/
def cfg (mode lz lazy irq : Nat) : HostMove :=
  wr 0x010 (BitVec.ofNat 32 (mode ||| lz <<< 2 ||| lazy <<< 3 ||| irq <<< 4))

end Sys2Proof.Machine
end

