-- ==== Sys2Proof/Machine/Step.lean ====
section
/-! DEFINITION. The step function, and the placing of an instruction for the next step. Both are one call of a definition
of Machine/HostMoves.lean. -/

namespace Sys2Proof.Machine

/-- One step of the core and its host. -/
def step (s : State) : Host.Outcome State Fault Refusal := stepMachine s

/-- The state whose next step fetches and runs the instruction with bits `w` (log 11). -/
def State.withFetchWord (s : State) (nbits w : Nat) : State := placeInstr s nbits w

end Sys2Proof.Machine
end

