-- ==== Sys2Proof/Machine/Cluster.lean ====
section
/-! DEFINITION. Several instances of the core (00_scope R8, R10; 60_exceptions R357; 20_memory R77): each has a whole State
of its own, and nothing is shared. Which instance steps next is plain data (log 15). -/

namespace Sys2Proof.Machine

/-- NUM_INSTANCES cores and the order in which they take their next steps. -/
structure Cluster where
  cores : List State
  schedule : List Nat
deriving DecidableEq, Repr

/-- All instances of a platform right after reset (00_scope R10). Instance k has draw k, so that nothing relates the
unspecified values of two instances, before or after an error (logs 3, 15). DESIGN CHOICE (log 20): every instance has the
same REG_BASE, IN_BASE and OUT_BASE, each seen by its own host. 20_memory R71 names one of each and is silent on several
instances. -/
def Cluster.reset (p : Params) (schedule : List Nat) : Cluster :=
  ⟨(List.range p.numInstances).map (State.resetWith p), schedule⟩

/-- One step of instance `k`; a number that names no instance does nothing. -/
def Cluster.stepAt (k : Nat) (c : Cluster) : Host.Outcome Cluster Fault Refusal :=
  match c.cores[k]? with
  | none => .next c
  | some s =>
    match step s with
    | .next s' => .next { c with cores := c.cores.set k s' }
    | .fault r => .fault r
    | .refused r => .refused r

/-- One step of the scheduled instance. -/
def Cluster.step (c : Cluster) : Host.Outcome Cluster Fault Refusal :=
  match c.schedule with
  | [] => .next c
  | k :: rest => Cluster.stepAt k { c with schedule := rest }

end Sys2Proof.Machine
end

