-- ==== Sys2Proof/Machine/Micro.lean ====
section
/-! DEFINITION. The two structures the spec allows a core and calls not architectural (log 17): the hash-chain arena
(10_state R40, 42_lz77 R218) and the lookup table of a decoder (10_state R41, 41_huffman R179). They are functions here,
not fields of State; the statements say that they give what the architectural definitions give. -/

namespace Sys2Proof.Machine

open Sys2Proof

/-! The hash-chain arena -/

/-- HEAD and PREV as lists of (slot, content), the newest write first; a slot that is not listed is empty. -/
structure Arena where
  head : List (Nat × Nat)
  prev : List (Nat × Option Nat)
deriving DecidableEq, Repr

/-- The arena as every LZ_SCAN and COMPRESS starts with it (R218(c)). -/
def Arena.empty : Arena := ⟨[], []⟩

/-- HEAD[h]. -/
def Arena.headAt (a : Arena) (h : Nat) : Option Nat := a.head.lookup h

/-- PREV[q mod 32768]. -/
def Arena.prevAt (a : Arena) (q : Nat) : Option Nat := (a.prev.lookup (q % Config.wsize)).join

/-- Insert position q: PREV at its slot takes the old HEAD of its hash, HEAD takes q (R218). -/
def Arena.insert (d : Nat → Byte) (q : Nat) (a : Arena) : Arena where
  head := (hash3 d q, q) :: a.head
  prev := (q % Config.wsize, a.headAt (hash3 d q)) :: a.prev

/-- The arena with every position below p and at most n-3 inserted, in increasing order (R218(a)). -/
def Arena.upTo (d : Nat → Byte) (n : Nat) : Nat → Arena
  | 0 => .empty
  | q + 1 => if q + 3 ≤ n then (Arena.upTo d n q).insert d q else Arena.upTo d n q

/-- The walk from a position along PREV: at most `visits` positions, stopping at an empty entry or beyond the window
(R218(b)). -/
def Arena.walk (a : Arena) (p : Nat) : Nat → Option Nat → List Nat
  | 0, _ => []
  | _ + 1, none => []
  | visits + 1, some q => if Config.wsize < p - q then [] else q :: a.walk p visits (a.prevAt q)

/-- FindMatch(p) with the candidates taken from the arena (R218). -/
def arenaFindMatch (d : Nat → Byte) (n mc p : Nat) : Option (Nat × Nat) :=
  if n - p < Config.minMatch then none
  else
    let a := Arena.upTo d n p
    let best := bestMatch d n p (a.walk p mc (a.headAt (hash3 d p))) mc (0, 0)
    if Config.minMatch ≤ best.1 then some best else none

/-! The lookup table -/

/-- The entry of a lookup table for the next `k` stream bits, bit 0 of `idx` the first: the coded symbol of length at
most k whose code the bits begin with, and its length (10_state R41). -/
def lutEntry (t : Table) (k idx : Nat) : Option (Nat × Nat) :=
  ((List.range t.len.length).find? (fun s =>
    decide (0 < t.lenOf s ∧ t.lenOf s ≤ k) && revBits (t.lenOf s) (t.code s) == idx % 2 ^ t.lenOf s)).map
      (fun s => (s, t.lenOf s))

/-- A decoder with a lookup table of `k` bits in front of the bit-serial walk. It peeks at most the bits that remain, and
takes an entry only where its code lies within them (R179). -/
def lutDecode (t : Table) (inb : Nat → Byte) (k : Nat) (r : Reader) : Except Err ((Nat × Nat) × Reader) :=
  match lutEntry t k (takeBits inb (min k r.remaining.toNat) r).1 with
  | some (s, l) => if (l : Int) ≤ r.remaining then .ok ((s, l), (takeBits inb l r).2) else decodeSymbol t inb r
  | none => decodeSymbol t inb r

end Sys2Proof.Machine
end

