-- ==== Sys2Proof/Safety.lean ====
section
/-! DEFINITION. The terms the claims use: the invariants the spec states (10_state R30..R33), the bit streams of the
writer and the reader, the bits of codes, tokens and blocks, and what tokens replay to. -/

namespace Sys2Proof.Machine

open Sys2Proof

/-! Invariants -/

/-- BR_POS ≤ BR_END ≤ IN_SIZE, and BR_BIT = 0 whenever BR_POS = BR_END (10_state R30). -/
abbrev Reader.Ok (p : Params) (r : Reader) : Prop :=
  r.pos.toNat ≤ r.lim.toNat ∧ r.lim.toNat ≤ p.inSize ∧ (r.pos = r.lim → r.bit = 0)

/-- OUT_POS ≤ OUT_CAP, CNT is 0..7, and ACC[7:CNT] = 0 (10_state R31, R32). -/
abbrev Writer.Ok (p : Params) (w : Writer) : Prop :=
  w.outPos.toNat ≤ p.outCap ∧ w.cnt.toNat ≤ 7 ∧ w.acc.toNat < 2 ^ w.cnt.toNat

/-- WIN_FILL is 0..32768; until it saturates WIN_POS equals it; and the last WIN_FILL bytes are written ones: "No rule
reads a byte of WIN that has not been written since the clear" (10_state R33, R38). -/
abbrev Window.Ok (win : Window) : Prop :=
  win.fill.toNat ≤ Config.wsize ∧ (win.fill.toNat < Config.wsize → win.pos.toNat = win.fill.toNat) ∧
    ∀ i < win.fill.toNat, (lookupCell win.bytes.cells (win.pos - BitVec.ofNat 15 (i + 1)).toNat).isSome

/-- A table holds one length per symbol, none above MAXLEN(T), and is not over-subscribed (41_huffman R170, R171). -/
abbrev Table.Ok (id : TableId) (t : Table) : Prop :=
  t.len.length = tableSize id ∧ (∀ l ∈ t.len, l ≤ tableMaxLen id) ∧ t.overSubscribed = false

/-- ERROR is set exactly when ERR holds an error (10_state R29), and DONE is 0 while a command runs (10_state R23). -/
abbrev State.FlagsOk (s : State) : Prop := s.error = s.err.isSome ∧ (s.busy = true → s.done = false)

/-- BLOCK_TOKENS holds 1..65536 (10_state R26). -/
abbrev State.ConfigOk (s : State) : Prop := 1 ≤ s.blockTokens.toNat ∧ s.blockTokens.toNat ≤ 65536

/-- IN, OUT and WIN are in their canonical form and hold no byte beyond their size (10_state R36, R37, R38). -/
abbrev State.MemoriesOk (s : State) : Prop :=
  s.input.wf = true ∧ s.input.below s.params.inSize = true ∧
    s.stream.writer.out.wf = true ∧ s.stream.writer.out.below s.params.outCap = true ∧
    s.stream.window.bytes.wf = true ∧ s.stream.window.bytes.below Config.wsize = true

/-- The cursor invariants of 10_state R30..R32, for a stream state that no error made unspecified (10_state R43). -/
abbrev State.CursorsOk (s : State) : Prop :=
  s.error = false → s.stream.reader.Ok s.params ∧ s.stream.writer.Ok s.params

/-- The window invariant of 10_state R33, R38, for a stream state that no error made unspecified. -/
abbrev State.WindowOk (s : State) : Prop := s.error = false → s.stream.window.Ok

/-- The three tables are tables, for a stream state that no error made unspecified. -/
abbrev State.TablesOk (s : State) : Prop :=
  s.error = false →
    s.stream.litlen.Ok .litlen ∧ s.stream.dist.Ok .dist ∧ s.stream.clen.Ok .clen

/-- The bytes of a list are all listed in a memory from index `a` on. -/
abbrev Memory.holds (what : Unspecified) (m : Memory) (a : Nat) (bytes : List Byte) : Prop :=
  ∀ i (h : i < bytes.length), m.read what (a + i) = bytes[i]

/-! Bit streams -/

/-- `n` bits of a number, least significant first (20_memory R65). -/
def natBits (n v : Nat) : List Bool := (List.range n).map v.testBit

/-- The number whose bits these are, least significant first. -/
def bitsNat : List Bool → Nat
  | [] => 0
  | b :: rest => b.toNat + 2 * bitsNat rest

/-- Bit i of the written stream: "the bytes OUT[0 .. OUT_POS), followed by the BW_CNT low bits of BW_ACC" (40_bitstream
R140). -/
def Writer.bitAt (w : Writer) (i : Nat) : Bool :=
  if i < 8 * w.outPos.toNat then (w.out.read .outByte (i / 8)).getLsbD (i % 8)
  else w.acc.getLsbD (i - 8 * w.outPos.toNat)

/-- `n` more bits fit: every byte they complete has room below OUT_CAP (40_bitstream R141, R143). -/
abbrev Writer.Room (p : Params) (w : Writer) (n : Nat) : Prop := (w.bitPos + n) / 8 ≤ p.outCap

/-- `w'` is `w` with `bits` appended to its stream, and no other byte of OUT changed (40_bitstream R140, R143). -/
structure Writer.Appended (p : Params) (w w' : Writer) (bits : List Bool) : Prop where
  bitPos : w'.bitPos = w.bitPos + bits.length
  kept : ∀ i < w.bitPos, w'.bitAt i = w.bitAt i
  added : ∀ i (h : i < bits.length), w'.bitAt (w.bitPos + i) = bits[i]
  outside : ∀ a, a < w.outPos.toNat ∨ w'.outPos.toNat ≤ a → w'.out.read .outByte a = w.out.read .outByte a
  ok : w'.Ok p

/-- The reader's position in bits from IN[0] bit 0. -/
def Reader.bitPos (r : Reader) : Nat := 8 * r.pos.toNat + r.bit.toNat

/-- The next `n` bits of the reader: "bit BR_BIT of IN[BR_POS], then the higher bits of that byte, then each later byte
from bit 0" (40_bitstream R150). -/
def Reader.next (inb : Nat → Byte) (n : Nat) (r : Reader) : List Bool :=
  (List.range n).map (fun i => (inb ((r.bitPos + i) / 8)).getLsbD ((r.bitPos + i) % 8))

/-- Remaining() for a reader in its invariant (40_bitstream R150). -/
def Reader.left (r : Reader) : Nat := 8 * r.lim.toNat - r.bitPos

/-- The bits that remain to be read, in stream order (40_bitstream R150). -/
def Reader.rest (inb : Nat → Byte) (r : Reader) : List Bool := r.next inb r.left

/-- The reader `n` bits further. -/
def Reader.skip (n : Nat) (r : Reader) : Reader where
  pos := BitVec.ofNat 32 ((r.bitPos + n) / 8)
  lim := r.lim
  bit := BitVec.ofNat 3 ((r.bitPos + n) % 8)

/-! Code lengths -/

/-- The id of a table (10_state R39, 30_encoding R94). -/
def tableNumber : TableId → Nat
  | .litlen => 0
  | .dist => 1
  | .clen => 2

/-- The Kraft sum of the coded symbols' lengths, in units of 2^-15 (41_huffman R171). -/
def kraft (ls : List Nat) : Nat := (ls.map (fun l => if l = 0 then 0 else 2 ^ (15 - l))).sum

/-! The bits of codes, tokens and blocks -/

/-- The code of a symbol, most significant bit first (20_memory R66). -/
def Table.codeBits (t : Table) (s : Nat) : List Bool :=
  (List.range (t.lenOf s)).map (fun i => (t.code s).testBit (t.lenOf s - 1 - i))

/-- The table BuildTable makes from these lengths (41_huffman R175). -/
def tableOfLengths (size : Nat) (ls : List Nat) : Table := ⟨ls ++ List.replicate (size - ls.length) 0⟩

/-- The bits of a token (43_deflate R240). -/
def tokenCode (ll dl : Table) : Token → List Bool
  | .lit b => ll.codeBits b.toNat
  | .mtch l d =>
    ll.codeBits (lsym l) ++ natBits (lextra (lsym l)) (l - lbase (lsym l)) ++
      dl.codeBits (dsym d) ++ natBits (dextra (dsym d)) (d - dbase (dsym d))

/-- The bits of a block's tokens and its end-of-block code (43_deflate R240). -/
def bodyBits (ll dl : Table) (ts : List Token) : List Bool :=
  ts.flatMap (tokenCode ll dl) ++ ll.codeBits 256

/-- The bits of a block header (30_encoding R101). -/
def blockHeader (final : Bool) (btype : Nat) : List Bool := natBits 1 (bitOf final) ++ natBits 2 btype

/-- The pad bits before a stored block's LEN, with `c0` bits pending at the block's start (43_deflate R241, R249). -/
def padLen (c0 : Nat) : Nat := (8 - (c0 + 3) % 8) % 8

/-- The bits of a stored block (30_encoding R103, 43_deflate R241). -/
def storedBits (c0 : Nat) (bytes : List Byte) (final : Bool) : List Bool :=
  blockHeader final 0 ++ List.replicate (padLen c0) false ++ natBits 16 bytes.length ++
    natBits 16 (65535 - bytes.length) ++ bytes.flatMap (fun b => natBits 8 b.toNat)

/-- The bits of a fixed block (43_deflate R242). -/
def fixedBits (ts : List Token) (final : Bool) : List Bool :=
  blockHeader final 1 ++ bodyBits fixedLitlenTable fixedDistTable ts

/-- The tables of a dynamic block: CLEN, LITLEN, DIST (43_deflate R247). -/
def dynTables (ts : List Token) : Table × Table × Table :=
  let p := dynPlan ts
  (tableOfLengths Config.numClen p.cl, tableOfLengths Config.numLitlen (p.ll.take p.hlit),
    tableOfLengths Config.numDist (p.dl.take p.hdist))

/-- The bits of a dynamic block (30_encoding R110, 43_deflate R247). -/
def dynBits (ts : List Token) (final : Bool) : List Bool :=
  let p := dynPlan ts
  let t := dynTables ts
  blockHeader final 2 ++ natBits 5 (p.hlit - 257) ++ natBits 5 (p.hdist - 1) ++ natBits 4 (p.hclen - 4) ++
    (clenOrder.take p.hclen).flatMap (fun k => natBits 3 (p.cl.getD k 0)) ++
    p.seq.flatMap (fun ke => t.1.codeBits ke.1 ++ natBits (clenExtra ke.1) ke.2) ++
    bodyBits t.2.1 t.2.2 ts

/-- The bytes of a block of D. -/
def blockBytes (d : Nat → Byte) (b : Block) : List Byte := (List.range b.span).map (fun i => d (b.start + i))

/-- The bits of one block, with `c0` bits pending at its start (43_deflate R251). -/
def blockBits (d : Nat → Byte) (k : BlockKind) (c0 : Nat) (b : Block) (final : Bool) : List Bool :=
  match k with
  | .stored => storedBits c0 (blockBytes d b) final
  | .fixed => fixedBits b.tokens final
  | .dynamic => dynBits b.tokens final

/-- The type COMPRESS writes a block as, with `c0` bits pending (43_deflate R251). -/
def compressKind (mode c0 : Nat) (b : Block) : BlockKind := if mode = 0 then .stored else blockKind mode c0 b

/-- The bits COMPRESS writes for its blocks before the last flush, `pos` bits into the stream (43_deflate R251). -/
def streamBits (d : Nat → Byte) (mode : Nat) : Nat → List Block → List Bool
  | _, [] => []
  | pos, b :: rest =>
    let bits := blockBits d (compressKind mode (pos % 8) b) (pos % 8) b rest.isEmpty
    bits ++ streamBits d mode (pos + bits.length) rest

/-- The bits of a COMPRESS command (43_deflate R251). -/
def compressBits (s : State) : List Bool :=
  streamBits (fun i => s.inByte (s.a0 + i)) (cfgMode s.latch.config) 0 (compressBlocks s)

/-! Replay -/

/-- A token replayed against what was produced before it, newest byte first: a literal appends its byte, a match the
byte d places before the current end, l times (42_lz77 R217(c)). -/
def replayToken (hist : List Byte) : Token → List Byte
  | .lit b => b :: hist
  | .mtch l d => (fun h => h.getD (d - 1) 0 :: h)^[l] hist

/-- What a token sequence replays to, newest byte first. -/
def replayOnto (hist : List Byte) (ts : List Token) : List Byte := ts.foldl replayToken hist

/-- What a token sequence replays to from nothing. -/
def replay (ts : List Token) : List Byte := (replayOnto [] ts).reverse

/-- The span of a token sequence (00_scope R17). -/
def spanOf (ts : List Token) : Nat := (ts.map Token.span).sum

/-- Every token is well formed and no distance exceeds the `produced` bytes before it (44_inflate R289). -/
def tokensFit : Nat → List Token → Bool
  | _, [] => true
  | produced, t :: rest =>
    t.wf && (match t with | .lit _ => true | .mtch _ d => decide (d ≤ produced)) &&
      tokensFit (produced + Token.span t) rest

/-- The bytes of the window, newest first: the last WIN_FILL bytes emitted (10_state R33, R38). -/
def Window.history (win : Window) : List Byte := (List.range win.fill.toNat).map (fun i => win.back (i + 1))

/-- `st'` is `st` with `bytes` emitted to OUT and to the window (44_inflate R280). -/
structure Stream.Emitted (st st' : Stream) (bytes : List Byte) : Prop where
  outPos : st'.writer.outPos.toNat = st.writer.outPos.toNat + bytes.length
  written : Memory.holds .outByte st'.writer.out st.writer.outPos.toNat bytes
  outside : ∀ a, a < st.writer.outPos.toNat ∨ st'.writer.outPos.toNat ≤ a →
    st'.writer.out.read .outByte a = st.writer.out.read .outByte a
  pending : st'.writer.acc = st.writer.acc ∧ st'.writer.cnt = st.writer.cnt
  history : st'.window.history = (bytes.reverse ++ st.window.history).take Config.wsize
  windowOk : st'.window.Ok

/-- The lengths a sequence of code-length symbols stands for, appended to `vs` (30_encoding R112, 44_inflate R285). -/
def expandPairs (vs : List Nat) : List (Nat × Nat) → List Nat
  | [] => vs
  | (k, e) :: rest =>
    if k < 16 then expandPairs (vs ++ [k]) rest
    else if k = 16 then expandPairs (vs ++ List.replicate (3 + e) (vs.getLastD 0)) rest
    else if k = 17 then expandPairs (vs ++ List.replicate (3 + e) 0) rest
    else expandPairs (vs ++ List.replicate (11 + e) 0) rest

/-! Streams as any RFC 1951 encoder may send them (30_encoding R100..R116, 44_inflate R294) -/

/-- One block: a stored block with its pad bits, a fixed block, or a dynamic block with its counts, the code-length-code
lengths in the order sent, the code-length sequence and the tokens. -/
inductive SentBlock where
  | stored (pad : List Bool) (bytes : List Byte)
  | fixed (ts : List Token)
  | dynamic (hlit hdist : Nat) (cl : List Nat) (seq : List (Nat × Nat)) (ts : List Token)
deriving DecidableEq, Repr

/-- The CLEN table of the lengths sent: the i-th one is the length of symbol CLEN_ORDER[i], and a symbol that is not sent
has length 0 (30_encoding R110, R111). -/
def sentClen (cl : List Nat) : Table := ⟨(List.range 19).map (fun k => cl.getD (clenOrder.idxOf k) 0)⟩

/-- The LITLEN table of a code-length sequence (30_encoding R113). -/
def sentLitlen (hlit : Nat) (seq : List (Nat × Nat)) : Table :=
  tableOfLengths Config.numLitlen ((expandPairs [] seq).take (hlit + 257))

/-- The DIST table of a code-length sequence (30_encoding R113). -/
def sentDist (hlit : Nat) (seq : List (Nat × Nat)) : Table :=
  tableOfLengths Config.numDist ((expandPairs [] seq).drop (hlit + 257))

/-- BTYPE of a block (30_encoding R102). -/
def SentBlock.btype : SentBlock → Nat
  | .stored _ _ => 0
  | .fixed _ => 1
  | .dynamic _ _ _ _ _ => 2

/-- The bits of a block after its header (30_encoding R103, R104, R110). -/
def SentBlock.body : SentBlock → List Bool
  | .stored pad bytes =>
    pad ++ natBits 16 bytes.length ++ natBits 16 (65535 - bytes.length) ++ bytes.flatMap (fun b => natBits 8 b.toNat)
  | .fixed ts => bodyBits fixedLitlenTable fixedDistTable ts
  | .dynamic hlit hdist cl seq ts =>
    natBits 5 hlit ++ natBits 5 hdist ++ natBits 4 (cl.length - 4) ++ cl.flatMap (natBits 3) ++
      seq.flatMap (fun ke => (sentClen cl).codeBits ke.1 ++ natBits (clenExtra ke.1) ke.2) ++
      bodyBits (sentLitlen hlit seq) (sentDist hlit seq) ts

/-- The bits of a block (30_encoding R101). -/
def SentBlock.bits (final : Bool) (b : SentBlock) : List Bool := blockHeader final b.btype ++ b.body

/-- The bytes a block stands for. -/
def SentBlock.span : SentBlock → Nat
  | .stored _ bytes => bytes.length
  | .fixed ts => spanOf ts
  | .dynamic _ _ _ _ ts => spanOf ts

/-- What a block appends to the bytes before it, newest byte first. -/
def SentBlock.onto (hist : List Byte) : SentBlock → List Byte
  | .stored _ bytes => bytes.reverse ++ hist
  | .fixed ts => replayOnto hist ts
  | .dynamic _ _ _ _ ts => replayOnto hist ts

/-- The bytes a block emits after `hist`, oldest first. -/
def SentBlock.emits (hist : List Byte) (b : SentBlock) : List Byte := ((b.onto hist).take b.span).reverse

/-- Every symbol a token is sent with is coded. -/
def tokenCoded (ll dl : Table) : Token → Bool
  | .lit b => ll.lenOf b.toNat != 0
  | .mtch l d => ll.lenOf (lsym l) != 0 && dl.lenOf (dsym d) != 0

/-- A block whose body starts at bit `pos` of the stream's bytes, after `produced` bytes, is valid: its padding ends at a
byte boundary, its counts fit their fields, its codes are not over-subscribed, every symbol sent is coded, the code-length
sequence gives HLIT+257+HDIST+1 lengths, and no distance exceeds the bytes produced (30_encoding R103..R116). -/
def SentBlock.valid (pos produced : Nat) : SentBlock → Bool
  | .stored pad bytes => pad.length == (8 - pos % 8) % 8 && bytes.length ≤ Config.maxStored
  | .fixed ts => tokensFit produced ts
  | .dynamic hlit hdist cl seq ts =>
    hlit < 32 && hdist < 32 && 4 ≤ cl.length && cl.length ≤ 19 && cl.all (fun l => l ≤ 7) &&
      kraft (sentClen cl).len ≤ 32768 &&
      seq.all (fun ke => ke.1 ≤ 18 && (sentClen cl).lenOf ke.1 != 0 && decide (ke.2 < 2 ^ clenExtra ke.1)) &&
      seq.head?.map Prod.fst != some 16 && (expandPairs [] seq).length == hlit + 257 + (hdist + 1) &&
      kraft (sentLitlen hlit seq).len ≤ 32768 && kraft (sentDist hlit seq).len ≤ 32768 &&
      tokensFit produced ts && ts.all (tokenCoded (sentLitlen hlit seq) (sentDist hlit seq)) &&
      (sentLitlen hlit seq).lenOf 256 != 0

/-- The tables after a block (41_huffman R176, 44_inflate R283..R285); a stored block changes none. -/
def SentBlock.tables (st : Stream) : SentBlock → Table × Table × Table
  | .stored _ _ => (st.litlen, st.dist, st.clen)
  | .fixed _ => (fixedLitlenTable, fixedDistTable, st.clen)
  | .dynamic hlit _ cl seq _ => (sentLitlen hlit seq, sentDist hlit seq, sentClen cl)

/-- `st'` is what the inflater leaves of `st` after the body of `b`: the reader past it, its bytes emitted, its tables
loaded. -/
structure Inflated (inb : Nat → Byte) (b : SentBlock) (st st' : Stream) : Prop where
  reader : st'.reader = st.reader.skip b.body.length
  emitted : st.Emitted st' (b.emits st.window.history)
  tables : (st'.litlen, st'.dist, st'.clen) = b.tables st

/-- The bits of a stream: BFINAL is set in its last block (30_encoding R100). -/
def sentBits : List SentBlock → List Bool
  | [] => []
  | b :: rest => b.bits rest.isEmpty ++ sentBits rest

/-- The blocks are valid one after the other, the first header at bit `pos` after `produced` bytes (30_encoding R100). -/
def sentValid : Nat → Nat → List SentBlock → Bool
  | _, _, [] => true
  | pos, produced, b :: rest =>
    b.valid (pos + 3) produced &&
      sentValid (pos + (b.bits rest.isEmpty).length) (produced + b.span) rest

/-- The bytes a stream stands for. -/
def sentOutput (bs : List SentBlock) : List Byte := (bs.foldl SentBlock.onto []).reverse

/-- How a block ends within its command (44_inflate R290, R291): INFL_BLOCK completes; DECOMPRESS completes after the
final block and goes on to the next header after any other. -/
def blockEnd (final : Bool) (produced : Nat) (st : Stream) (s : State) : State :=
  if s.latch.word = 0x48#32 then
    if final then complete ⟨st, st.writer.outPos.toNat, st.reader.consumed s.a0⟩ s
    else { s with run := .inflating, stream := st }
  else complete ⟨st, produced, bitOf final⟩ s

/-! What ends a block's body with an error -/

/-- After the bits `pre` of `rest`, no code of `t` comes (41_huffman R178). -/
abbrev Table.Unmatched (t : Table) (pre rest : List Bool) : Prop :=
  pre <+: rest ∧ ∀ k, t.lenOf k ≠ 0 → ¬ pre ++ t.codeBits k <+: rest

/-- The error of a Decode that no code matches after the bits `pre`: InvalidCode where 15 bits remain, and otherwise
UnexpectedEnd (41_huffman R178, 60_exceptions R342, R343). -/
def unmatchedError (pre rest : List Bool) : Err := if pre.length + 15 ≤ rest.length then .invalidCode else .unexpectedEnd

/-- The bits of a match's length: the code of its symbol and the extra bits (30_encoding R105, 44_inflate R287). -/
def lengthCode (ll : Table) (l : Nat) : List Bool :=
  ll.codeBits (lsym l) ++ natBits (lextra (lsym l)) (l - lbase (lsym l))

/-- What ends the block `i` with an error, and with which, after the bits `hdr` and the tokens `ts`, with the code tables
`ll` and `dl`: `rest` are the bits that remain when the block begins, `pre` those of `hdr` and of `ts` (44_inflate
R286..R289, R280). -/
structure BodyErrors (ll dl : Table) (hdr : List Bool) (ts : List Token) (i : Instr) (s : State) (rest pre : List Bool) :
    Prop where
  /-- A literal/length symbol 286 or 287 (R286). -/
  badLength : ∀ sym, sym = 286 ∨ sym = 287 → ll.lenOf sym ≠ 0 → pre ++ ll.codeBits sym <+: rest →
    exec i s = .next (raise .invalidCode s)
  /-- A distance symbol 30 or 31 (R288). -/
  badDistance : ∀ l c, 3 ≤ l → l ≤ 258 → ll.lenOf (lsym l) ≠ 0 → c = 30 ∨ c = 31 → dl.lenOf c ≠ 0 →
    pre ++ (lengthCode ll l ++ dl.codeBits c) <+: rest → exec i s = .next (raise .invalidCode s)
  /-- A distance beyond the bytes produced (R289). -/
  tooFar : ∀ l d, (Token.mtch l d).wf = true → tokenCoded ll dl (.mtch l d) = true →
    s.stream.window.fill.toNat + spanOf ts < d → pre ++ tokenCode ll dl (.mtch l d) <+: rest →
      exec i s = .next (raise .invalidDistance s)
  /-- A token whose bytes do not fit in OUT (R280, 60_exceptions R348). -/
  overflow : ∀ t, tokensFit s.stream.window.fill.toNat (ts ++ [t]) = true → tokenCoded ll dl t = true →
    s.params.outCap < s.stream.writer.outPos.toNat + spanOf (ts ++ [t]) → pre ++ tokenCode ll dl t <+: rest →
      exec i s = .next (raise .outputOverflow s)
  /-- No literal/length code matches, or the input ends inside one (R286). -/
  noSymbol : ll.Unmatched pre rest → exec i s = .next (raise (unmatchedError pre rest) s)
  /-- No distance code matches, or the input ends inside one (R288). -/
  noDistance : ∀ l, 3 ≤ l → l ≤ 258 → ll.lenOf (lsym l) ≠ 0 → dl.Unmatched (pre ++ lengthCode ll l) rest →
    exec i s = .next (raise (unmatchedError (pre ++ lengthCode ll l) rest) s)
  /-- The input ends inside a length's extra bits (R287). -/
  endsInLength : ∀ l, 3 ≤ l → l ≤ 258 → ll.lenOf (lsym l) ≠ 0 → pre <+: rest → rest <+: pre ++ lengthCode ll l →
    rest ≠ pre ++ lengthCode ll l → exec i s = .next (raise .unexpectedEnd s)
  /-- The input ends inside a token, whatever its distance (R288). -/
  endsInToken : ∀ t, Token.wf t = true → tokenCoded ll dl t = true → pre <+: rest → rest <+: pre ++ tokenCode ll dl t →
    rest ≠ pre ++ tokenCode ll dl t → exec i s = .next (raise .unexpectedEnd s)
  /-- The input ends before the end of the block (R286). -/
  endsBeforeEnd : hdr <+: rest → rest <+: hdr ++ bodyBits ll dl ts → rest ≠ hdr ++ bodyBits ll dl ts →
    exec i s = .next (raise .unexpectedEnd s)

/-! The tables COMPRESS leaves -/

/-- The stream state with the tables a block of COMPRESS or DEFL_HUFF loads (43_deflate R241, R242, R247). -/
def blockTables (k : BlockKind) (ts : List Token) (st : Stream) : Stream :=
  match k with
  | .stored => st
  | .fixed => { st with litlen := fixedLitlenTable, dist := fixedDistTable }
  | .dynamic =>
    { st with clen := (dynTables ts).1, litlen := (dynTables ts).2.1, dist := (dynTables ts).2.2 }

/-- The stream state with the tables the blocks of a COMPRESS load, `pos` bits into the stream (43_deflate R251). -/
def streamTables (d : Nat → Byte) (mode : Nat) : Nat → List Block → Stream → Stream
  | _, [], st => st
  | pos, b :: rest, st =>
    let k := compressKind mode (pos % 8) b
    streamTables d mode (pos + (blockBits d k (pos % 8) b rest.isEmpty).length) rest (blockTables k b.tokens st)

/-! Turns -/

/-- `k` turns of the core (45_control R322). -/
def turns : Nat → State → Host.Outcome State Fault Refusal
  | 0, s => .next s
  | k + 1, s =>
    match coreTurn s with
    | .next s' => turns k s'
    | .fault r => .fault r
    | .refused r => .refused r

end Sys2Proof.Machine
end

