-- ==== Sys2Proof/Certificates/Slice0/Obligations.lean ====
section
/-! DEFINITION. The statements for the provers, from the numbered rules of spec/. -/

section ObligationStatements

open Sys2Proof Sys2Proof.Machine

/-! Encoding -/

/-- 30_encoding R90..R93, R101, R102: every instruction has exactly one code word, and the decoder accepts exactly the
code words of instructions, each as its own instruction. So decode of encode i is i for every instruction i. -/
def Obligations.EncodeDecodeAgree : Prop :=
  ∀ (c : Code) (i : Instr), decode c = .ok i ↔ encode i = c

/-- 30_encoding R97, 43_deflate R254: the record of a well-formed token decodes to that token, a record that decodes is
the record of the well-formed token it decodes to, and exactly the well-formed records decode. -/
def Obligations.TokenRecordsAgree : Prop :=
  (∀ t : Token, t.wf = true → tokenOf (tokenRecord t) = some t) ∧
    (∀ (w : Word) (t : Token), tokenOf w = some t → t.wf = true ∧ tokenRecord t = w) ∧
    ∀ w : Word, recordWf w = (tokenOf w).isSome

/-- 30_encoding R91, R101, R102: words written out from the tables of the spec decode to their instructions. -/
def Obligations.SpecWordsDecode : Prop :=
  decode (.cmd 0b00000000000000000000000000000001#32) = .ok .resetStream ∧
    decode (.cmd 0b00000000000000000000000000010001#32) = .ok .bwWriteBits ∧
    decode (.cmd 0b00000000000000000000000000011010#32) = .ok .brAlign ∧
    decode (.cmd 0b00000000000000000000000000100011#32) = .ok .hufEncode ∧
    decode (.cmd 0b00000000000000000000000000101000#32) = .ok .lzScan ∧
    decode (.cmd 0b00000000000000000000000000110001#32) = .ok .deflHuff ∧
    decode (.cmd 0b00000000000000000000000001001000#32) = .ok .decompress ∧
    decode (.header 0b101#3) = .ok (.streamBlockDynamic true) ∧
    decode (.header 0b010#3) = .ok (.streamBlockFixed false) ∧
    decodeTableWord 32 0x38 = some .compress ∧
    decodeTableWord 8 0b111 = some (.streamBlockReserved true)

/-- 30_encoding R93: a CMD word whose opcode is unassigned or whose RSVD field is not 0 is dropped while BUSY or ERROR is
set. Otherwise it starts as every command does, latching the word, the operands and the configuration (10_state R42), and
completes with InvalidCommand, which beyond the start changes nothing but the flags and ERR. (That RES0 and RES1 are kept is
the model's reading of "It only sets ERROR and ERR", log 7; that on a platform that shows BUSY = 1 the start and the
completion are two moves, the second one a turn of the core, is the model's choice, log 8.) -/
def Obligations.IllegalWordIsInvalidCommand : Prop :=
  ∀ (w : Word) (s : State),
    (rsvdOf w ≠ 0 ∨
      opcodeOf w ∉ [0x00#8, 0x01#8, 0x10#8, 0x11#8, 0x12#8, 0x18#8, 0x19#8, 0x1A#8, 0x20#8, 0x21#8, 0x22#8, 0x23#8,
        0x28#8, 0x30#8, 0x31#8, 0x38#8, 0x40#8, 0x48#8]) →
      (s.busy = true ∨ s.error = true → writeCmd w s = .next s) ∧
        (s.busy = false → s.error = false → s.params.exposeBusy = false →
          writeCmd w s =
            .next { start w s with run := .idle, done := false, error := true, err := some .invalidCommand }) ∧
        (s.busy = false → s.error = false → s.params.exposeBusy = true →
          writeCmd w s = .next (start w s) ∧
            coreTurn (start w s) =
              .next { start w s with run := .idle, done := false, error := true, err := some .invalidCommand })

/-! The step -/

/-- 45_control R322: a step whose host move writes a legal word to CMD starts its command and, unless the platform shows
BUSY = 1, runs exactly it; on a platform that shows it, the next turn of the core runs it (the turns are the model's form of
the interval the rule speaks of, log 8). -/
def Obligations.StepRunsTheIssuedCommand : Prop :=
  (∀ (s : State) (w : Word) (i : Instr) (rest : List HostMove),
    decodeCmd w = .ok i → s.inReset = false → s.busy = false → (s.error = false ∨ w = 0 ∨ w = 1) →
      s.host = wr 0x004 w :: rest →
        (s.params.exposeBusy = false → step s = exec i (start w { s with host := rest })) ∧
          (s.params.exposeBusy = true → step s = .next (start w { s with host := rest }))) ∧
    ∀ (s : State) (i : Instr),
      decodeCmd s.latch.word = .ok i → s.inReset = false → s.run = .started → i ≠ .inflBlock → i ≠ .decompress →
        (s.host = [] → step s = exec i s) ∧
          ∀ rest, s.host = .turn :: rest → step s = exec i { s with host := rest }

/-- 44_inflate R281: a step of the inflater at a block boundary takes the three header bits from the reader and runs
exactly the block they encode; with fewer than three bits left it raises UnexpectedEnd. (That a block header is an
instruction of the inflater, run by a step of its own, is the model's form of the table's STREAM_BLOCK rows, log 9.) -/
def Obligations.StepRunsTheFetchedBlock : Prop :=
  ∀ (s : State),
    s.inReset = false → s.run = .inflating → s.host = [] → s.stream.reader.Ok s.params →
      (∀ (i : Instr) (h : BitVec 3),
        encode i = .header h → 3 ≤ s.stream.reader.left → s.stream.reader.next s.inByte 3 = natBits 3 h.toNat →
          step s = exec i { s with stream := { s.stream with reader := s.stream.reader.skip 3 } }) ∧
        (s.stream.reader.left < 3 → step s = .next (raise .unexpectedEnd s))

/-- 70_reset_and_hazards R386, 45_control R322, R323, 10_state R42: a CMD write is dropped while BUSY = 1, and while ERROR = 1
unless it is NOP or RESET_STREAM: the step then only consumes the host's move. Otherwise it latches the word, the operands
and the configuration, sets BUSY, clears DONE, and changes nothing else (shown where the platform shows BUSY = 1, log 8). -/
def Obligations.CmdWriteIsDroppedOrStarts : Prop :=
  (∀ (s : State) (w : Word) (rest : List HostMove),
     s.inReset = false → s.host = wr 0x004 w :: rest →
       (s.busy = true ∨ (s.error = true ∧ w ≠ 0 ∧ w ≠ 1)) → step s = .next { s with host := rest }) ∧
  (∀ (w : Word) (s : State),
     s.params.exposeBusy = true → s.busy = false → s.error = false →
       ∃ t, writeCmd w s = .next t ∧ t.busy = true ∧ t.done = false ∧ t.latch.word = w ∧
         t.latch.arg0 = s.arg0 ∧ t.latch.arg1 = s.arg1 ∧ t.latch.arg2 = s.arg2 ∧ t.latch.config = s.config ∧
         t.latch.maxChain = s.maxChain ∧ t.latch.blockTokens = s.blockTokens ∧
         { t with run := s.run, done := s.done, latch := s.latch } = s)

/-- 10_state R42, 70_reset_and_hazards R387, 30_encoding R91, 43_deflate R252, R253, 44_inflate R291: a running command reads
only the latched operands and configuration: other values in the registers change nothing of what it does, and it leaves
them as they are. A latched operand that the table of R91 gives a dash has no effect, nor have DECOMPRESS's size hint and
the bits of ARG2 that DEFL_STORED and DEFL_HUFF ignore. -/
def Obligations.OnlyTheLatchedOperandsAreRead : Prop :=
  (∀ (i : Instr) (s t : State) (c : BitVec 5) (m : BitVec 16) (b : BitVec 17) (x y z : Word),
     exec i s = .next t →
       exec i { s with config := c, maxChain := m, blockTokens := b, arg0 := x, arg1 := y, arg2 := z } =
         .next { t with config := c, maxChain := m, blockTokens := b, arg0 := x, arg1 := y, arg2 := z }) ∧
  (∀ (s t : State) (x : Word) (i : Instr),
     (i = .deflStored ∧ x.getLsbD 0 = s.latch.arg2.getLsbD 0) ∨
         (i = .deflHuff ∧ x.getLsbD 0 = s.latch.arg2.getLsbD 0 ∧ x.getLsbD 1 = s.latch.arg2.getLsbD 1) ∨
         i ∈ [Instr.nop, .resetStream, .bwInit, .bwWriteBits, .bwFlush, .brInit, .brReadBits, .brAlign, .hufLoadFixed,
           .hufDecode, .hufEncode, .lzScan, .compress, .inflBlock, .decompress] →
       exec i s = .next t →
         exec i { s with latch := { s.latch with arg2 := x } } = .next { t with latch := { t.latch with arg2 := x } }) ∧
  (∀ (s t : State) (x : Word) (i : Instr),
     i ∈ [Instr.nop, .resetStream, .bwInit, .bwFlush, .brReadBits, .brAlign, .hufLoadFixed, .hufDecode, .inflBlock] →
       exec i s = .next t →
         exec i { s with latch := { s.latch with arg1 := x } } = .next { t with latch := { t.latch with arg1 := x } }) ∧
  (∀ (s t : State) (x : Word) (i : Instr),
     i ∈ [Instr.nop, .resetStream, .bwFlush, .brAlign, .hufLoadFixed, .inflBlock] →
       exec i s = .next t →
         exec i { s with latch := { s.latch with arg0 := x } } = .next { t with latch := { t.latch with arg0 := x } })

/-- 44_inflate R293, 70_reset_and_hazards R391: every instruction completes, or, for a block that is not the last one of a
DECOMPRESS, reaches the next block boundary (log 9); and (10_state R43, R27) the parameters, the configuration, the operand
registers, IN, the latch and the host's part of the state (the model's own fields, logs 1, 10, 14) are unchanged. -/
def Obligations.EveryInstructionCompletes : Prop :=
  ∀ (i : Instr) (s : State),
    ∃ t, exec i s = .next t ∧
      ((t.run = .idle ∧ t.done = true ∧ (i ≠ .resetStream → t.error = s.error ∧ t.err = s.err)) ∨
        (t.run = .idle ∧ t.done = false ∧ t.error = true ∧ t.err.isSome = true) ∨
        (t.run = .inflating ∧ s.latch.word = 0x48#32 ∧ t.error = s.error ∧ t.err = s.err)) ∧
      t.params = s.params ∧ t.config = s.config ∧ t.maxChain = s.maxChain ∧ t.blockTokens = s.blockTokens ∧
      t.arg0 = s.arg0 ∧ t.arg1 = s.arg1 ∧ t.arg2 = s.arg2 ∧ t.latch = s.latch ∧ t.input = s.input ∧
      t.inReset = s.inReset ∧ t.host = s.host ∧ t.readData = s.readData

/-- 70_reset_and_hazards R391, 45_control R322: on a platform that shows BUSY = 1, the turns of the core after a start reach
exactly the state the atomic command step gives (the turns are the model's, logs 8, 9). -/
def Obligations.TurnsReachTheAtomicResult : Prop :=
  ∀ (w : Word) (s : State),
    ∃ (k : Nat) (t : State), turns k (start w s) = .next t ∧ t.busy = false ∧ runLatched (start w s) = .next t

/-! Errors -/

/-- 60_exceptions R350, 10_state R37, R43: what `raise E` does: ERR, ERROR, DONE and BUSY as the rule says, the configuration,
the operands and IN kept, and every byte of OUT below the first one the command could have written; and whatever happens in
any instruction but COMPRESS and DECOMPRESS, the bytes of OUT below OUT_POS at the command's start are unchanged (that
OUT_POS is kept in the latch as `outStart`, log 6). -/
def Obligations.ErrorsKeepWhatTheyCouldNotWrite : Prop :=
  (∀ (e : Err) (s : State),
     (raise e s).err = some e ∧ (raise e s).error = true ∧ (raise e s).done = false ∧ (raise e s).busy = false ∧
       (raise e s).config = s.config ∧ (raise e s).maxChain = s.maxChain ∧ (raise e s).blockTokens = s.blockTokens ∧
       (raise e s).arg0 = s.arg0 ∧ (raise e s).arg1 = s.arg1 ∧ (raise e s).arg2 = s.arg2 ∧
       (raise e s).input = s.input ∧ (raise e s).params = s.params ∧
       (s.latch.word ≠ 0x38#32 → s.latch.word ≠ 0x48#32 →
         ∀ a < s.latch.outStart.toNat,
           (raise e s).stream.writer.out.read .outByte a = s.stream.writer.out.read .outByte a)) ∧
  (∀ (i : Instr) (s t : State),
     i ≠ .compress → i ≠ .decompress → s.latch.word ≠ 0x38#32 → s.latch.word ≠ 0x48#32 →
       s.latch.outStart.toNat ≤ s.stream.writer.outPos.toNat → exec i s = .next t →
         ∀ a < s.latch.outStart.toNat, t.stream.writer.out.read .outByte a = s.stream.writer.out.read .outByte a)

/-! Control -/

/-- 45_control R320, R321: NOP completes with both results 0 and changes nothing else; it is accepted under ERROR = 1 and
dropped under BUSY = 1. RESET_STREAM sets the reader, the writer's registers, the window's counters and the tables to 0,
clears ERR and ERROR and completes; the configuration, the operands, IN, OUT and the contents of WIN are kept; it is
accepted under ERROR = 1. -/
def Obligations.ControlCommandsComplete : Prop :=
  encode .nop = .cmd 0x00000000#32 ∧ encode .resetStream = .cmd 0x00000001#32 ∧
  ((∀ s : State, exec .nop s = .next { s with run := .idle, done := true, res0 := 0, res1 := 0 }) ∧
     (∀ s : State, s.busy = true → writeCmd 0x00000000#32 s = .next s) ∧
     ∀ s : State, s.busy = false → s.params.exposeBusy = false →
       writeCmd 0x00000000#32 s = .next { start 0x00000000#32 s with run := .idle, done := true, res0 := 0, res1 := 0 }) ∧
  ((∀ s : State,
     exec .resetStream s =
       .next
         { s with
           run := .idle
           done := true
           error := false
           err := none
           res0 := 0
           res1 := 0
           stream :=
             { reader := ⟨0, 0, 0⟩
               writer := { s.stream.writer with outPos := 0, acc := 0, cnt := 0 }
               window := { s.stream.window with pos := 0, fill := 0 }
               litlen := ⟨List.replicate 288 0⟩
               dist := ⟨List.replicate 32 0⟩
               clen := ⟨List.replicate 19 0⟩ } }) ∧
     ∀ s : State, s.busy = false → s.params.exposeBusy = false →
       writeCmd 0x00000001#32 s = exec .resetStream (start 0x00000001#32 s))

/-! Bit writer -/

/-- 40_bitstream R142, R153: BW_INIT raises InvalidRange for q > OUT_CAP, and otherwise sets OUT_POS to q and discards the
pending bits; BR_INIT raises InvalidRange when the range leaves IN, on unbounded integers, and otherwise sets the reader to
the range's first bit; both complete with both results 0. -/
def Obligations.InitCommandsComplete : Prop :=
  encode .bwInit = .cmd 0x00000010#32 ∧ encode .brInit = .cmd 0x00000018#32 ∧
  (∀ s : State,
     (s.params.outCap < s.a0 → exec .bwInit s = .next (raise .invalidRange s)) ∧
       (s.a0 ≤ s.params.outCap →
         exec .bwInit s =
           .next
             (complete
               ⟨{ s.stream with writer := { s.stream.writer with outPos := s.latch.arg0, acc := 0, cnt := 0 } }, 0, 0⟩ s))) ∧
  (∀ s : State,
     (s.params.inSize < s.a0 + s.a1 → exec .brInit s = .next (raise .invalidRange s)) ∧
       (s.a0 + s.a1 ≤ s.params.inSize →
         exec .brInit s =
           .next
             (complete
               ⟨{ s.stream with reader := ⟨BitVec.ofNat 32 s.a0, BitVec.ofNat 32 (s.a0 + s.a1), 0⟩ }, 0, 0⟩ s)))

/-- 40_bitstream R143..R146: BW_WRITE_BITS raises InvalidCommand for n > 32; otherwise it appends the n low bits of v, least
significant first, or raises OutputOverflow when a byte they complete has no room. BW_FLUSH appends zero bits up to the byte
boundary and returns their number; it writes nothing at a byte boundary, and raises OutputOverflow when bits are pending and
OUT is full. No other byte of OUT changes. -/
def Obligations.WriterCommandsComplete : Prop :=
  encode .bwWriteBits = .cmd 0x00000011#32 ∧ encode .bwFlush = .cmd 0x00000012#32 ∧
  (∀ s : State, s.stream.writer.Ok s.params →
     (32 < s.a1 → exec .bwWriteBits s = .next (raise .invalidCommand s)) ∧
       (s.a1 ≤ 32 → s.stream.writer.Room s.params s.a1 →
         ∃ w', exec .bwWriteBits s = .next (complete ⟨{ s.stream with writer := w' }, 0, 0⟩ s) ∧
           Writer.Appended s.params s.stream.writer w' (natBits s.a1 s.a0)) ∧
       (s.a1 ≤ 32 → ¬ s.stream.writer.Room s.params s.a1 → exec .bwWriteBits s = .next (raise .outputOverflow s))) ∧
  (∀ s : State, s.stream.writer.Ok s.params →
     (s.stream.writer.cnt = 0 → exec .bwFlush s = .next (complete ⟨s.stream, 0, 0⟩ s)) ∧
       (s.stream.writer.cnt ≠ 0 → s.stream.writer.outPos.toNat < s.params.outCap →
         ∃ w', exec .bwFlush s =
             .next (complete ⟨{ s.stream with writer := w' }, 8 - s.stream.writer.cnt.toNat, 0⟩ s) ∧
           Writer.Appended s.params s.stream.writer w' (List.replicate (8 - s.stream.writer.cnt.toNat) false) ∧
           w'.cnt = 0 ∧ w'.acc = 0) ∧
       (s.stream.writer.cnt ≠ 0 → s.stream.writer.outPos.toNat = s.params.outCap →
         exec .bwFlush s = .next (raise .outputOverflow s)))

/-! Bit reader -/

/-- 40_bitstream R151, R152, R154, R155: BR_READ_BITS raises InvalidCommand for n > 32 and UnexpectedEnd when fewer than n bits
remain; otherwise it returns the next n bits, the first one as bit 0, and moves the reader past them. BR_ALIGN never raises;
it moves the reader past the rest of a partly read byte and returns the number of bits discarded, 0 at a byte boundary. -/
def Obligations.ReaderCommandsComplete : Prop :=
  encode .brReadBits = .cmd 0x00000019#32 ∧ encode .brAlign = .cmd 0x0000001A#32 ∧
  (∀ s : State, s.stream.reader.Ok s.params →
     (32 < s.a0 → exec .brReadBits s = .next (raise .invalidCommand s)) ∧
       (s.a0 ≤ 32 → s.stream.reader.left < s.a0 → exec .brReadBits s = .next (raise .unexpectedEnd s)) ∧
       (s.a0 ≤ 32 → s.a0 ≤ s.stream.reader.left →
         exec .brReadBits s =
           .next
             (complete
               ⟨{ s.stream with reader := s.stream.reader.skip s.a0 }, bitsNat (s.stream.reader.next s.inByte s.a0), 0⟩ s))) ∧
  (∀ s : State, s.stream.reader.Ok s.params →
     exec .brAlign s =
       .next
         (complete
           ⟨{ s.stream with reader := s.stream.reader.skip ((8 - s.stream.reader.bit.toNat) % 8) },
             (8 - s.stream.reader.bit.toNat) % 8, 0⟩ s))

/-! Huffman tables -/

/-- 41_huffman R172..R174: for lengths that are not over-subscribed, every code fits its length and no code is a prefix of
another one; the first codes by length, the symbols sorted by (length, symbol), and consecutive codes within a length. -/
def Obligations.CanonicalCodes : Prop :=
  (∀ (id : TableId) (t : Table), t.Ok id →
     (∀ s, t.lenOf s ≠ 0 → t.code s < 2 ^ t.lenOf s) ∧
       ∀ s s', t.lenOf s ≠ 0 → t.lenOf s' ≠ 0 → t.codeBits s <+: t.codeBits s' → s = s') ∧
  (∀ (id : TableId) (t : Table), t.Ok id →
     t.first 0 = 0 ∧ (∀ l, t.first (l + 1) = (t.first l + t.count l) <<< 1) ∧
       t.syms.Pairwise (fun a b => t.lenOf a < t.lenOf b ∨ (t.lenOf a = t.lenOf b ∧ a < b)) ∧
       (∀ s, s ∈ t.syms ↔ t.lenOf s ≠ 0) ∧
       ∀ l, 1 ≤ l → l ≤ 15 → ∀ k < t.count l,
         t.lenOf (t.syms.getD (((List.range l).map t.count).sum + k) 0) = l ∧
           t.code (t.syms.getD (((List.range l).map t.count).sum + k) 0) = t.first l + k)

/-- 41_huffman R176, R186, 30_encoding R108, R109: HUF_LOAD_FIXED loads the fixed lengths into LITLEN and DIST, keeps CLEN, and
completes with both results 0; the codes of these tables, and every 9-bit pattern is covered by exactly one of the
literal/length codes. -/
def Obligations.HufLoadFixedCompletes : Prop :=
  encode .hufLoadFixed = .cmd 0x00000021#32 ∧
  ((∀ s < 144, fixedLitlenTable.lenOf s = 8 ∧ fixedLitlenTable.code s = 0x30 + s) ∧
     (∀ s < 112, fixedLitlenTable.lenOf (144 + s) = 9 ∧ fixedLitlenTable.code (144 + s) = 0x190 + s) ∧
     (∀ s < 24, fixedLitlenTable.lenOf (256 + s) = 7 ∧ fixedLitlenTable.code (256 + s) = s) ∧
     (∀ s < 8, fixedLitlenTable.lenOf (280 + s) = 8 ∧ fixedLitlenTable.code (280 + s) = 0xC0 + s) ∧
     (∀ s < 32, fixedDistTable.lenOf s = 5 ∧ fixedDistTable.code s = s) ∧
     ∀ x < 512, ∃! s, s < 288 ∧ fixedLitlenTable.code s = x / 2 ^ (9 - fixedLitlenTable.lenOf s)) ∧
  (∀ s : State,
     exec .hufLoadFixed s =
       .next
         (complete
           ⟨{ s.stream with
               litlen :=
                 ⟨List.replicate 144 8 ++ List.replicate 112 9 ++ List.replicate 24 7 ++ List.replicate 8 8⟩
               dist := ⟨List.replicate 32 5⟩ }, 0, 0⟩ s))

/-- 41_huffman R185: HUF_BUILD's checks in the order written, and the table it builds from the length bytes in IN; every
other part of the stream state is kept. -/
def Obligations.HufBuildCompletes : Prop :=
  encode .hufBuild = .cmd 0x00000020#32 ∧
  (∀ s : State, 2 < s.a0 → exec .hufBuild s = .next (raise .invalidCommand s)) ∧
    ∀ (s : State) (id : TableId), s.a0 = tableNumber id →
      let ls := (List.range s.a1).map (fun i => (s.inByte (s.a2 + i)).toNat)
      (tableSize id < s.a1 → exec .hufBuild s = .next (raise .invalidCommand s)) ∧
        (s.a1 ≤ tableSize id →
          (s.params.inSize < s.a2 + s.a1 → exec .hufBuild s = .next (raise .invalidRange s)) ∧
            (s.a2 + s.a1 ≤ s.params.inSize →
              ((∃ l ∈ ls, tableMaxLen id < l) → exec .hufBuild s = .next (raise .invalidCommand s)) ∧
                ((∀ l ∈ ls, l ≤ tableMaxLen id) →
                  (32768 < kraft ls → exec .hufBuild s = .next (raise .invalidCode s)) ∧
                    (kraft ls ≤ 32768 →
                      exec .hufBuild s =
                        .next (complete ⟨s.stream.setTable id (tableOfLengths (tableSize id) ls), 0, 0⟩ s)))))

/-- 41_huffman R187, R178: HUF_DECODE returns the coded symbol whose code, most significant bit first, begins the remaining
bits, and its length, and moves the reader past the code. Where no code begins them it raises InvalidCode if at least 15
bits remain and UnexpectedEnd otherwise; for a bad table id it raises InvalidCommand. -/
def Obligations.HufDecodeCompletes : Prop :=
  encode .hufDecode = .cmd 0x00000022#32 ∧
  (∀ s : State, 2 < s.a0 → exec .hufDecode s = .next (raise .invalidCommand s)) ∧
    ∀ (s : State) (id : TableId), s.a0 = tableNumber id → s.stream.reader.Ok s.params → (s.stream.table id).Ok id →
      let t := s.stream.table id
      let rest := s.stream.reader.rest s.inByte
      (∀ sym, t.lenOf sym ≠ 0 → t.codeBits sym <+: rest →
        exec .hufDecode s =
          .next
            (complete ⟨{ s.stream with reader := s.stream.reader.skip (t.lenOf sym) }, sym, t.lenOf sym⟩ s)) ∧
        ((∀ sym, t.lenOf sym ≠ 0 → ¬ t.codeBits sym <+: rest) →
          exec .hufDecode s = .next (raise (if 15 ≤ rest.length then .invalidCode else .unexpectedEnd) s))

/-- 41_huffman R188: HUF_ENCODE raises InvalidCommand for a bad id and for a symbol that is not coded; otherwise it appends
the symbol's code, most significant bit first, and returns the code and its length, or raises OutputOverflow. -/
def Obligations.HufEncodeCompletes : Prop :=
  encode .hufEncode = .cmd 0x00000023#32 ∧
  (∀ s : State, 2 < s.a0 → exec .hufEncode s = .next (raise .invalidCommand s)) ∧
    ∀ (s : State) (id : TableId), s.a0 = tableNumber id → s.stream.writer.Ok s.params →
      let t := s.stream.table id
      (tableSize id ≤ s.a1 ∨ t.lenOf s.a1 = 0 → exec .hufEncode s = .next (raise .invalidCommand s)) ∧
        (s.a1 < tableSize id → t.lenOf s.a1 ≠ 0 →
          (s.stream.writer.Room s.params (t.lenOf s.a1) →
            ∃ w', exec .hufEncode s =
                .next (complete ⟨{ s.stream with writer := w' }, t.code s.a1, t.lenOf s.a1⟩ s) ∧
              Writer.Appended s.params s.stream.writer w' (t.codeBits s.a1)) ∧
            (¬ s.stream.writer.Room s.params (t.lenOf s.a1) →
              exec .hufEncode s = .next (raise .outputOverflow s)))

/-- 41_huffman R180: "For every coded s, writing with Encode(T, s) and then reading with Decode(T) returns (s, T.LEN[s])":
the reader is over the bytes the writer wrote, flushed, at the bit where the code begins. -/
def Obligations.DecodeAfterEncode : Prop :=
  ∀ (p : Params) (id : TableId) (t : Table) (s k : Nat) (w w' w'' : Writer),
    t.Ok id → t.lenOf s ≠ 0 → w.Ok p → encodeSymbol p.outCap t s w = .ok w' →
      flushToByte p.outCap w' = .ok (k, w'') →
        let r : Reader := ⟨w.outPos, w''.outPos, BitVec.ofNat 3 w.cnt.toNat⟩
        decodeSymbol t (w''.out.read .outByte) r = .ok ((s, t.lenOf s), r.skip (t.lenOf s))

/-- 41_huffman R179: "For every table T and every reader state, the LUT must give the same outcome as Decode(T)", here for
the model's lookup table of any width (log 17). -/
def Obligations.LookupTableDecodesAlike : Prop :=
  ∀ (p : Params) (id : TableId) (t : Table) (inb : Nat → Byte) (k : Nat) (r : Reader),
    t.Ok id → r.Ok p → lutDecode t inb k r = decodeSymbol t inb r

/-- 41_huffman R181..R183 (a), (b), (d): LengthAssign gives every symbol of nonzero frequency (after ForceTwo) a length of
1..L and every other symbol 0, its Kraft sum is 1, and a rarer symbol never gets a shorter code. -/
def Obligations.LengthAssignGivesACompleteCode : Prop :=
  ∀ (f : List Nat) (limit : Nat),
    2 ≤ f.length → f.length ≤ 2 ^ limit → limit ≤ 15 →
      let g := forceTwo f
      let ls := lengthAssign f limit
      ls.length = f.length ∧
        (∀ s < f.length, 0 < f.getD s 0 → g.getD s 0 = f.getD s 0) ∧ 2 ≤ g.countP (fun x => decide (0 < x)) ∧
        (∀ s < f.length, 0 < g.getD s 0 → 1 ≤ ls.getD s 0 ∧ ls.getD s 0 ≤ limit) ∧
        (∀ s < f.length, g.getD s 0 = 0 → ls.getD s 0 = 0) ∧ kraft ls = 32768 ∧
        ∀ s < f.length, ∀ s' < f.length, 0 < g.getD s 0 → g.getD s 0 < g.getD s' 0 → ls.getD s' 0 ≤ ls.getD s 0

/-! Match finder -/

/-- 42_lz77 R213, R214: FindMatch returns the longest match of at least 3 bytes among the first MAX_CHAIN members of the
chain within the window, the nearest one of that length, and none exactly when there is none. -/
def Obligations.FindMatchReturnsTheNearestLongest : Prop :=
  ∀ (d : Nat → Byte) (n mc p : Nat),
    let visited := ((chain d n p).filter (fun q => decide (p - q ≤ 32768))).take mc
    (∀ q, matchLen d n q p ≤ min 258 (n - p) ∧ (∀ i < matchLen d n q p, d (q + i) = d (p + i)) ∧
      (matchLen d n q p < min 258 (n - p) → d (q + matchLen d n q p) ≠ d (p + matchLen d n q p))) ∧
      (∀ l dd, findMatch d n mc p = some (l, dd) →
        3 ≤ l ∧ l ≤ 258 ∧ 1 ≤ dd ∧ dd ≤ p ∧ dd ≤ 32768 ∧ p - dd ∈ visited ∧ matchLen d n (p - dd) p = l ∧
          ∀ q ∈ visited, matchLen d n q p ≤ l ∧ (matchLen d n q p = l → q ≤ p - dd)) ∧
      (findMatch d n mc p = none ↔ ∀ q ∈ visited, matchLen d n q p < 3)

/-- 42_lz77 R217, R216: for every input, bound and lazy setting, the spans of the tokens sum to n, every match has a legal
length and a distance within the bytes before it, and replaying the tokens gives the input; the same of the literals. -/
def Obligations.TokensReplayTheInput : Prop :=
  ∀ (d : Nat → Byte) (n mc : Nat) (lazy : Bool),
    (spanOf (tokenize d n mc lazy) = n ∧ tokensFit 0 (tokenize d n mc lazy) = true ∧
      replay (tokenize d n mc lazy) = (List.range n).map d) ∧
      spanOf (literals d n) = n ∧ tokensFit 0 (literals d n) = true ∧ replay (literals d n) = (List.range n).map d

/-- 42_lz77 R218: the candidates taken from the hash-chain arena give the same matches; the arena is the model's own form of
the one the rule describes (log 17). -/
def Obligations.ArenaFindsTheSameMatches : Prop :=
  ∀ (d : Nat → Byte) (n mc p : Nat), arenaFindMatch d n mc p = findMatch d n mc p

/-- 42_lz77 R219: LZ_SCAN's two checks in order; otherwise it writes the 4-byte records of the tokens at OUT_POS, least
significant byte first, and returns their number, or raises OutputOverflow when they do not fit. The reader, the window
and the tables are kept. -/
def Obligations.LzScanCompletes : Prop :=
  encode .lzScan = .cmd 0x00000028#32 ∧
  ∀ s : State, s.stream.writer.Ok s.params →
    let ts := commandTokens s
    let records := ts.flatMap (fun t =>
      [(tokenRecord t).extractLsb' 0 8, (tokenRecord t).extractLsb' 8 8, (tokenRecord t).extractLsb' 16 8,
        (tokenRecord t).extractLsb' 24 8])
    (s.params.inSize < s.a0 + s.a1 → exec .lzScan s = .next (raise .invalidRange s)) ∧
      (s.a0 + s.a1 ≤ s.params.inSize →
        (s.stream.writer.cnt ≠ 0 → exec .lzScan s = .next (raise .invalidCommand s)) ∧
          (s.stream.writer.cnt = 0 →
            (s.params.outCap < s.stream.writer.outPos.toNat + 4 * ts.length →
              exec .lzScan s = .next (raise .outputOverflow s)) ∧
              (s.stream.writer.outPos.toNat + 4 * ts.length ≤ s.params.outCap →
                ∃ out, exec .lzScan s =
                    .next
                      (complete
                        ⟨{ s.stream with
                            writer :=
                              { s.stream.writer with
                                out := out
                                outPos := BitVec.ofNat 32 (s.stream.writer.outPos.toNat + 4 * ts.length) } },
                          ts.length, 0⟩ s) ∧
                  Memory.holds .outByte out s.stream.writer.outPos.toNat records ∧
                  ∀ a, a < s.stream.writer.outPos.toNat ∨ s.stream.writer.outPos.toNat + 4 * ts.length ≤ a →
                    out.read .outByte a = s.stream.writer.out.read .outByte a)))

/-! Deflator -/

/-- 43_deflate R252, R241: DEFL_STORED's checks in order; otherwise it appends the stored block of the input range, BFINAL
from ARG2[0], and returns the number of bits appended, or raises OutputOverflow. -/
def Obligations.DeflStoredCompletes : Prop :=
  encode .deflStored = .cmd 0x00000030#32 ∧
  ∀ s : State, s.stream.writer.Ok s.params →
    let bits :=
      storedBits s.stream.writer.cnt.toNat ((List.range s.a1).map (fun i => s.inByte (s.a0 + i))) (s.latch.arg2.getLsbD 0)
    (65535 < s.a1 → exec .deflStored s = .next (raise .invalidCommand s)) ∧
      (s.a1 ≤ 65535 →
        (s.params.inSize < s.a0 + s.a1 → exec .deflStored s = .next (raise .invalidRange s)) ∧
          (s.a0 + s.a1 ≤ s.params.inSize →
            (s.stream.writer.Room s.params bits.length →
              ∃ w', exec .deflStored s = .next (complete ⟨{ s.stream with writer := w' }, bits.length, 0⟩ s) ∧
                Writer.Appended s.params s.stream.writer w' bits) ∧
              (¬ s.stream.writer.Room s.params bits.length →
                exec .deflStored s = .next (raise .outputOverflow s))))

/-- 43_deflate R253, R254, R240, R242, R247: DEFL_HUFF of the records of the tokens ts appends the fixed block of ts, or the
dynamic block when ARG2[1] is set, loads that block's tables, and returns the number of bits appended, or raises
OutputOverflow; a range outside IN raises InvalidRange, and a record that is not well-formed InvalidCommand. -/
def Obligations.DeflHuffCompletes : Prop :=
  encode .deflHuff = .cmd 0x00000031#32 ∧
  ((∀ s : State, s.params.inSize < s.a0 + 4 * s.a1 → exec .deflHuff s = .next (raise .invalidRange s)) ∧
     ∀ (s : State) (ts : List Token), s.stream.writer.Ok s.params → s.a0 + 4 * s.a1 ≤ s.params.inSize →
       ts.length = s.a1 → (∀ t ∈ ts, t.wf = true) →
         (∀ i (h : i < ts.length), s.input.readLE .inByte (s.a0 + 4 * i) 4 = (tokenRecord ts[i]).toNat) →
           let kind : BlockKind := if s.latch.arg2.getLsbD 1 then .dynamic else .fixed
           let final := s.latch.arg2.getLsbD 0
           let bits := if s.latch.arg2.getLsbD 1 then dynBits ts final else fixedBits ts final
           (s.stream.writer.Room s.params bits.length →
             ∃ w', exec .deflHuff s =
                 .next (complete ⟨{ blockTables kind ts s.stream with writer := w' }, bits.length, 0⟩ s) ∧
               Writer.Appended s.params s.stream.writer w' bits) ∧
             (¬ s.stream.writer.Room s.params bits.length → exec .deflHuff s = .next (raise .outputOverflow s))) ∧
  (∀ (s : State) (i : Nat), s.a0 + 4 * s.a1 ≤ s.params.inSize → i < s.a1 →
     recordWf (BitVec.ofNat 32 (s.input.readLE .inByte (s.a0 + 4 * i) 4)) = false →
       exec .deflHuff s = .next (raise .invalidCommand s))

/-- 43_deflate R245, 30_encoding R112: every pair RLE produces is a symbol of the code-length alphabet with an extra value
that fits its extra bits, the first one is not a repeat of nothing, and expanding the pairs gives back the lengths. -/
def Obligations.RleExpandsBack : Prop :=
  ∀ (v before : List Nat), (∀ l ∈ v, l ≤ 15) →
    (∀ ke ∈ rle v, ke.1 ≤ 18 ∧ ke.2 < 2 ^ clenExtra ke.1) ∧ (rle v).head?.map Prod.fst ≠ some 16 ∧
      expandPairs before (rle v) = before ++ v

/-- 43_deflate R248: Partition keeps the tokens in order, each block has its own span and begins where the one before it
ends, has at most BLOCK_TOKENS tokens and a span of at most 65535, and is empty only when there are no tokens. -/
def Obligations.PartitionSplitsTheTokens : Prop :=
  ∀ (bt : Nat) (ts : List Token), 1 ≤ bt → (∀ t ∈ ts, t.wf = true) →
    (partition bt ts).flatMap Block.tokens = ts ∧ partition bt ts ≠ [] ∧
      (∀ b ∈ partition bt ts,
        b.span = spanOf b.tokens ∧ b.tokens.length ≤ bt ∧ b.span ≤ 65535 ∧ (b.tokens = [] → ts = [])) ∧
      ∀ i (h : i < (partition bt ts).length),
        (partition bt ts)[i].start = spanOf (((partition bt ts).take i).flatMap Block.tokens)

/-- 43_deflate R249, R250: each cost equals the number of bits of the block as its procedure writes it; the block AUTO writes
is never longer than an alternative, and on a tie it is stored, then fixed. -/
def Obligations.AutoTakesTheShortestBlock : Prop :=
  (∀ (d : Nat → Byte) (c0 : Nat) (b : Block) (final : Bool),
     (blockBits d .stored c0 b final).length = costStored c0 b.span ∧
       (blockBits d .fixed c0 b final).length = costFixed b.tokens ∧
       (blockBits d .dynamic c0 b final).length = costDynamic b.tokens) ∧
  (∀ (d : Nat → Byte) (c0 : Nat) (b : Block) (final : Bool),
     let len := fun k => (blockBits d k c0 b final).length
     (∀ k, len (autoKind c0 b) ≤ len k) ∧
       (len .stored = len (autoKind c0 b) → autoKind c0 b = .stored) ∧
       (len .fixed = len (autoKind c0 b) → autoKind c0 b = .stored ∨ autoKind c0 b = .fixed))

/-- 43_deflate R251: COMPRESS raises InvalidRange when the input leaves IN and OutputOverflow when the stream does not fit
in OUT_CAP; otherwise OUT holds, from its first bit, the bits of the blocks and zero bits up to the byte boundary, RES0 is
the stream's length in bytes and RES1 the number of blocks. The reader and the window are kept; the tables are those of
the last blocks. -/
def Obligations.CompressCompletes : Prop :=
  encode .compress = .cmd 0x00000038#32 ∧
  ∀ s : State,
    let bits := compressBits s
    let bytes := (bits.length + 7) / 8
    (s.params.inSize < s.a0 + s.a1 → exec .compress s = .next (raise .invalidRange s)) ∧
      (s.a0 + s.a1 ≤ s.params.inSize →
        (s.params.outCap < bytes → exec .compress s = .next (raise .outputOverflow s)) ∧
          (bytes ≤ s.params.outCap →
            ∃ w', exec .compress s =
                .next
                  (complete
                    ⟨{ streamTables (fun i => s.inByte (s.a0 + i)) (cfgMode s.latch.config) 0 (compressBlocks s)
                        s.stream with writer := w' }, bytes, (compressBlocks s).length⟩ s) ∧
              Writer.Appended s.params { s.stream.writer with outPos := 0, acc := 0, cnt := 0 } w'
                (bits ++ List.replicate (8 * bytes - bits.length) false) ∧
              w'.outPos.toNat = bytes ∧ w'.cnt = 0))

/-- 43_deflate R251, 00_scope R3: the bits COMPRESS writes are, in every mode, a valid RFC 1951 stream of at least one
block that stands for the input. -/
def Obligations.CompressWritesAValidStream : Prop :=
  ∀ s : State,
    ∃ bs : List SentBlock, bs ≠ [] ∧ bs.length = (compressBlocks s).length ∧ sentValid 0 0 bs = true ∧
      sentBits bs = compressBits s ∧ sentOutput bs = (List.range s.a1).map (fun i => s.inByte (s.a0 + i))

/-! Inflator -/

/-- 44_inflate R282: a stored block, whatever its pad bits, emits its bytes and ends its command or reaches the next block
boundary. (A block header as an instruction, and how it ends within its command, is the model's form, log 9.) -/
def Obligations.StoredBlockCompletes : Prop :=
  ∀ (s : State) (final : Bool) (pad : List Bool) (bytes : List Byte),
    let b : SentBlock := .stored pad bytes
    s.stream.reader.Ok s.params → s.stream.window.Ok → s.stream.writer.outPos.toNat + b.span ≤ s.params.outCap →
      b.valid s.stream.reader.bitPos s.stream.window.fill.toNat = true → b.body <+: s.stream.reader.rest s.inByte →
        ∃ st', Inflated s.inByte b s.stream st' ∧
          exec (.streamBlockStored final) s = .next (blockEnd final b.span st' s)

/-- 44_inflate R283, R286..R289: a fixed block emits what its tokens replay to and loads the fixed tables, and ends its
command or reaches the next block boundary (log 9). -/
def Obligations.FixedBlockCompletes : Prop :=
  ∀ (s : State) (final : Bool) (ts : List Token),
    let b : SentBlock := .fixed ts
    s.stream.reader.Ok s.params → s.stream.window.Ok → s.stream.writer.outPos.toNat + b.span ≤ s.params.outCap →
      b.valid s.stream.reader.bitPos s.stream.window.fill.toNat = true → b.body <+: s.stream.reader.rest s.inByte →
        ∃ st', Inflated s.inByte b s.stream st' ∧
          exec (.streamBlockFixed final) s = .next (blockEnd final b.span st' s)

/-- 44_inflate R284..R289: a dynamic block, with any valid tables and any valid code-length sequence, emits what its
tokens replay to and loads its tables, and ends its command or reaches the next block boundary (log 9). -/
def Obligations.DynamicBlockCompletes : Prop :=
  ∀ (s : State) (final : Bool) (hlit hdist : Nat) (cl : List Nat) (seq : List (Nat × Nat)) (ts : List Token),
    let b : SentBlock := .dynamic hlit hdist cl seq ts
    s.stream.reader.Ok s.params → s.stream.window.Ok → s.stream.writer.outPos.toNat + b.span ≤ s.params.outCap →
      b.valid s.stream.reader.bitPos s.stream.window.fill.toNat = true → b.body <+: s.stream.reader.rest s.inByte →
        ∃ st', Inflated s.inByte b s.stream st' ∧
          exec (.streamBlockDynamic final) s = .next (blockEnd final b.span st' s)

/-- 44_inflate R290, R280, 60_exceptions R348: INFL_BLOCK of a valid block, with no bits pending in the writer, appends its
bytes to OUT and to the window, moves the reader past the block, and returns the number of bytes and BFINAL; it raises
OutputOverflow when the bytes do not fit in OUT. -/
def Obligations.InflBlockCompletes : Prop :=
  ∀ (s : State) (final : Bool) (b : SentBlock),
    s.stream.writer.cnt = 0 → s.stream.reader.Ok s.params → s.stream.window.Ok →
      b.valid (s.stream.reader.bitPos + 3) s.stream.window.fill.toNat = true →
      b.bits final <+: s.stream.reader.rest s.inByte →
        (s.stream.writer.outPos.toNat + b.span ≤ s.params.outCap →
          ∃ st', exec .inflBlock s = .next (complete ⟨st', b.span, bitOf final⟩ s) ∧
            st'.reader = s.stream.reader.skip (b.bits final).length ∧
            s.stream.Emitted st' (b.emits s.stream.window.history) ∧
            (st'.litlen, st'.dist, st'.clen) = b.tables s.stream) ∧
        (s.stream.writer.outPos.toNat ≤ s.params.outCap → s.params.outCap < s.stream.writer.outPos.toNat + b.span →
          exec .inflBlock s = .next (raise .outputOverflow s))

/-- 44_inflate R291, R292, R294, 60_exceptions R348: DECOMPRESS of every valid RFC 1951 stream in its input range, with
anything after it, writes exactly the bytes it stands for at OUT[0], and returns their number and the number of input
bytes up to the stream's end; it raises OutputOverflow when the bytes do not fit. -/
def Obligations.DecompressDecodesValidStreams : Prop :=
  ∀ (s : State) (bs : List SentBlock),
    s.a0 + s.a1 ≤ s.params.inSize → bs ≠ [] → sentValid 0 0 bs = true → (sentBits bs).length ≤ 8 * s.a1 →
      (∀ i (h : i < (sentBits bs).length), (s.inByte (s.a0 + i / 8)).getLsbD (i % 8) = (sentBits bs)[i]) →
        (s.params.outCap < (sentOutput bs).length → exec .decompress s = .next (raise .outputOverflow s)) ∧
          ((sentOutput bs).length ≤ s.params.outCap →
            ∃ st', exec .decompress s =
                .next (complete ⟨st', (sentOutput bs).length, ((sentBits bs).length + 7) / 8⟩ s) ∧
              Memory.holds .outByte st'.writer.out 0 (sentOutput bs) ∧
              (∀ a, (sentOutput bs).length ≤ a →
                st'.writer.out.read .outByte a = s.stream.writer.out.read .outByte a) ∧
              st'.writer.outPos.toNat = (sentOutput bs).length ∧ st'.writer.acc = 0 ∧ st'.writer.cnt = 0 ∧
              st'.reader = (Reader.over s.latch.arg0 s.latch.arg1).skip (sentBits bs).length ∧
              st'.window.history = ((sentOutput bs).reverse).take 32768)

/-- 44_inflate R281, R290, R291, 60_exceptions R344, R353: the checks of the inflater's commands in order, an input that ends
in the first header, and the reserved block type, which raises InvalidBlockType whatever BFINAL is (as an instruction of the
inflater, log 9). -/
def Obligations.InflaterCommandChecks : Prop :=
  ((∀ s : State,
     (s.stream.writer.cnt ≠ 0 → exec .inflBlock s = .next (raise .invalidCommand s)) ∧
       (s.stream.writer.cnt = 0 → s.stream.reader.Ok s.params →
         (s.stream.reader.left < 3 → exec .inflBlock s = .next (raise .unexpectedEnd s)) ∧
           ∀ f : Bool, [f, true, true] <+: s.stream.reader.rest s.inByte →
             exec .inflBlock s = .next (raise .invalidBlockType s))) ∧
     ∀ s : State,
       (s.params.inSize < s.a0 + s.a1 → exec .decompress s = .next (raise .invalidRange s)) ∧
         (s.a0 + s.a1 ≤ s.params.inSize → s.a1 = 0 → exec .decompress s = .next (raise .unexpectedEnd s)) ∧
         (s.a0 + s.a1 ≤ s.params.inSize → 1 ≤ s.a1 → (s.inByte s.a0).extractLsb' 1 2 = 3#2 →
           exec .decompress s = .next (raise .invalidBlockType s))) ∧
  (∀ (s : State) (final : Bool), exec (.streamBlockReserved final) s = .next (raise .invalidBlockType s))

/-- 44_inflate R282, R280, 60_exceptions R345, R348, R353: a stored block whose NLEN is not the complement of LEN raises
LengthMismatch even where its data is missing; an input that ends inside LEN, NLEN or the data raises UnexpectedEnd, and a
byte of the data that has no room in OUT raises OutputOverflow, whichever comes first. (A block header as an instruction is
the model's form, log 9.) -/
def Obligations.StoredBlockErrors : Prop :=
  ∀ (s : State) (final : Bool) (pad : List Bool) (len nlen : Nat),
    s.stream.reader.Ok s.params → pad.length = (8 - s.stream.reader.bit.toNat) % 8 → len < 65536 → nlen < 65536 →
      let rest := s.stream.reader.rest s.inByte
      (rest.length < pad.length + 32 →
        exec (.streamBlockStored final) s = .next (raise .unexpectedEnd s)) ∧
        (pad ++ natBits 16 len ++ natBits 16 nlen <+: rest →
          (nlen ≠ 65535 - len → exec (.streamBlockStored final) s = .next (raise .lengthMismatch s)) ∧
            (nlen = 65535 - len →
              let whole := (rest.length - (pad.length + 32)) / 8
              (whole < len → s.stream.writer.outPos.toNat + whole ≤ s.params.outCap →
                exec (.streamBlockStored final) s = .next (raise .unexpectedEnd s)) ∧
                (s.stream.writer.outPos.toNat ≤ s.params.outCap →
                  s.params.outCap < s.stream.writer.outPos.toNat + min len whole →
                    exec (.streamBlockStored final) s = .next (raise .outputOverflow s))))

/-- 44_inflate R280, R286..R289, 60_exceptions R342, R343, R346, R348: what ends a fixed block with an error after the tokens
ts: the symbols 286 and 287 and the distance symbols 30 and 31 raise InvalidCode, a distance beyond the bytes produced raises
InvalidDistance, a token whose bytes do not fit in OUT raises OutputOverflow, and an input that ends before the end of the
block raises UnexpectedEnd. (A block header as an instruction is the model's form, log 9.) -/
def Obligations.FixedBlockErrors : Prop :=
  ∀ (s : State) (final : Bool) (ts : List Token),
    s.stream.reader.Ok s.params → s.stream.window.Ok →
      s.stream.writer.outPos.toNat + spanOf ts ≤ s.params.outCap →
      tokensFit s.stream.window.fill.toNat ts = true →
        BodyErrors fixedLitlenTable fixedDistTable [] ts (.streamBlockFixed final) s (s.stream.reader.rest s.inByte)
          (ts.flatMap (tokenCode fixedLitlenTable fixedDistTable))

/-- 44_inflate R284..R289, R280, 60_exceptions R342, R343, R346, R348: what ends a dynamic block with an error, and with
which. Its header raises InvalidCode for an over-subscribed code-length code, for a repeat code 16 with no previous length,
for a repeat past the last length, for a code-length symbol that no code matches within 15 bits, and for over-subscribed
LITLEN or DIST lengths, and UnexpectedEnd where the input ends in the counts, in a code or in a repeat's extra bits. After a
header without an error, the body ends with the errors of a fixed block's body, and with InvalidCode or UnexpectedEnd where
no code matches. (A block header as an instruction is the model's form, log 9.) -/
def Obligations.DynamicHeaderErrors : Prop :=
  ∀ (s : State) (final : Bool) (hlit hdist : Nat) (cl : List Nat) (seq : List (Nat × Nat)),
    s.stream.reader.Ok s.params → hlit < 32 → hdist < 32 → 4 ≤ cl.length → cl.length ≤ 19 → (∀ l ∈ cl, l ≤ 7) →
      let fails := fun e => exec (.streamBlockDynamic final) s = .next (raise e s)
      let rest := s.stream.reader.rest s.inByte
      let n := hlit + 257 + (hdist + 1)
      let counts :=
        natBits 5 hlit ++ natBits 5 hdist ++ natBits 4 (cl.length - 4) ++ cl.flatMap (natBits 3)
      let code := fun ke : Nat × Nat => (sentClen cl).codeBits ke.1 ++ natBits (clenExtra ke.1) ke.2
      let coded := fun ke : Nat × Nat =>
        ke.1 ≤ 18 ∧ (sentClen cl).lenOf ke.1 ≠ 0 ∧ ke.2 < 2 ^ clenExtra ke.1
      let hdr := counts ++ seq.flatMap code
      (rest <+: counts → rest ≠ counts → fails .unexpectedEnd) ∧
        (32768 < kraft (sentClen cl).len → counts <+: rest → fails .invalidCode) ∧
        (kraft (sentClen cl).len ≤ 32768 →
          ((sentClen cl).lenOf 16 ≠ 0 → counts ++ (sentClen cl).codeBits 16 <+: rest → fails .invalidCode) ∧
            ((∀ ke ∈ seq, coded ke) → seq.head?.map Prod.fst ≠ some 16 →
              (∀ k e, coded (k, e) → 16 ≤ k → seq ≠ [] → (expandPairs [] seq).length < n →
                n < (expandPairs [] (seq ++ [(k, e)])).length → hdr ++ code (k, e) <+: rest → fails .invalidCode) ∧
                ((expandPairs [] seq).length < n → (sentClen cl).Unmatched hdr rest →
                  fails (unmatchedError hdr rest)) ∧
                ((expandPairs [] seq.dropLast).length < n → counts <+: rest → rest <+: hdr → rest ≠ hdr →
                  fails .unexpectedEnd) ∧
                ((expandPairs [] seq).length = n →
                  (32768 < kraft (sentLitlen hlit seq).len ∨ 32768 < kraft (sentDist hlit seq).len) → hdr <+: rest →
                    fails .invalidCode) ∧
                ((expandPairs [] seq).length = n →
                  kraft (sentLitlen hlit seq).len ≤ 32768 → kraft (sentDist hlit seq).len ≤ 32768 →
                    ∀ ts : List Token, s.stream.window.Ok →
                      s.stream.writer.outPos.toNat + spanOf ts ≤ s.params.outCap →
                      tokensFit s.stream.window.fill.toNat ts = true →
                      ts.all (tokenCoded (sentLitlen hlit seq) (sentDist hlit seq)) = true →
                        BodyErrors (sentLitlen hlit seq) (sentDist hlit seq) hdr ts (.streamBlockDynamic final) s rest
                          (hdr ++ ts.flatMap (tokenCode (sentLitlen hlit seq) (sentDist hlit seq))))))

/-! Round trips -/

/-- 44_inflate R294, in STORED mode, the mode after reset: decompressing what COMPRESS wrote gives back the input. -/
def Obligations.StoredRoundTrip : Prop :=
  ∀ s t u : State,
    cfgMode s.latch.config = 0 → exec .compress s = .next t → t.error = false → u.a1 = t.res0.toNat →
      u.a0 + u.a1 ≤ u.params.inSize →
      (∀ i < u.a1, u.inByte (u.a0 + i) = t.stream.writer.out.read .outByte i) → s.a1 ≤ u.params.outCap →
        ∃ st', exec .decompress u = .next (complete ⟨st', s.a1, u.a1⟩ u) ∧
          ∀ i < s.a1, st'.writer.out.read .outByte i = s.inByte (s.a0 + i)

/-- 44_inflate R294: "for all byte sequences B (including the empty sequence), decompress(compress(B)) == B", in every mode
and for every configuration of the match finder and of the block size. -/
def Obligations.CompressThenDecompress : Prop :=
  ∀ s t u : State,
    exec .compress s = .next t → t.error = false → u.a1 = t.res0.toNat → u.a0 + u.a1 ≤ u.params.inSize →
      (∀ i < u.a1, u.inByte (u.a0 + i) = t.stream.writer.out.read .outByte i) → s.a1 ≤ u.params.outCap →
        ∃ st', exec .decompress u = .next (complete ⟨st', s.a1, u.a1⟩ u) ∧
          ∀ i < s.a1, st'.writer.out.read .outByte i = s.inByte (s.a0 + i)

/-! Noninterference -/

/-- 44_inflate R292: what DECOMPRESS does depends on no bit of IN before its range or at or after the end of the stream:
neither the remaining bits of the last byte nor any byte after it. -/
def Obligations.TrailingInputIsIgnored : Prop :=
  ∀ (s t : State) (m : Memory),
    exec .decompress s = .next t → t.error = false →
      (∀ i, 8 * s.a0 ≤ i → i < t.stream.reader.bitPos →
        (m.read .inByte (i / 8)).getLsbD (i % 8) = (s.inByte (i / 8)).getLsbD (i % 8)) →
        exec .decompress { s with input := m } = .next { t with input := m }

/-! Frames -/

/-- 10_state R30..R39: the commands that write no byte of OUT: NOP, RESET_STREAM, BW_INIT, the reader's commands, HUF_BUILD,
HUF_LOAD_FIXED and HUF_DECODE, completing without error, leave OUT and the contents of WIN as they are, and every other
part of the stream state but the one their rule names. -/
def Obligations.FrameOfCommandsThatStoreNothing : Prop :=
  ∀ (i : Instr) (s t : State),
    i ∈ [Instr.nop, .resetStream, .bwInit, .brInit, .brReadBits, .brAlign, .hufBuild, .hufLoadFixed, .hufDecode] →
      exec i s = .next t → t.error = false →
        (∀ a, t.stream.writer.out.read .outByte a = s.stream.writer.out.read .outByte a) ∧
          (∀ a, t.stream.window.bytes.read .winByte a = s.stream.window.bytes.read .winByte a) ∧
          (i ≠ .resetStream → t.stream.window = s.stream.window) ∧
          (i ∉ [Instr.resetStream, .bwInit] → t.stream.writer = s.stream.writer) ∧
          (i ∉ [Instr.resetStream, .brInit, .brReadBits, .brAlign, .hufDecode] → t.stream.reader = s.stream.reader) ∧
          (i ∉ [Instr.resetStream, .hufBuild, .hufLoadFixed] →
            t.stream.litlen = s.stream.litlen ∧ t.stream.dist = s.stream.dist ∧ t.stream.clen = s.stream.clen) ∧
          (i = .hufLoadFixed → t.stream.clen = s.stream.clen)

/-- 10_state R31..R39: the commands that write OUT through the bit writer: BW_WRITE_BITS, BW_FLUSH, HUF_ENCODE, LZ_SCAN,
DEFL_STORED, DEFL_HUFF and COMPRESS, completing without error, leave the reader and the window as they are, the tables too
unless they are DEFL_HUFF or COMPRESS, and every byte of OUT outside those from OUT_POS at the start (0 for COMPRESS) up to
OUT_POS at the end. -/
def Obligations.FrameOfWritingCommands : Prop :=
  ∀ (i : Instr) (s t : State),
    i ∈ [Instr.bwWriteBits, .bwFlush, .hufEncode, .lzScan, .deflStored, .deflHuff, .compress] →
      s.stream.writer.Ok s.params → exec i s = .next t → t.error = false →
        t.stream.reader = s.stream.reader ∧ t.stream.window = s.stream.window ∧
          (i ∉ [Instr.deflHuff, .compress] →
            t.stream.litlen = s.stream.litlen ∧ t.stream.dist = s.stream.dist ∧ t.stream.clen = s.stream.clen) ∧
          ∀ a, a < (if i = .compress then 0 else s.stream.writer.outPos.toNat) ∨ t.stream.writer.outPos.toNat ≤ a →
            t.stream.writer.out.read .outByte a = s.stream.writer.out.read .outByte a

/-- 10_state R30..R39: the inflater's instructions: INFL_BLOCK, DECOMPRESS and the blocks, as far as they end without error
(that a block is an instruction, run within whichever command is latched, is the model's form, log 9), leave every byte of OUT outside those from OUT_POS at the start (0 for DECOMPRESS) up to OUT_POS at the end, and the
pending bits of the writer (cleared by DECOMPRESS); a stored block leaves the tables. -/
def Obligations.FrameOfInflaterInstructions : Prop :=
  ∀ (i : Instr) (s t : State) (f : Bool),
    i ∈ [Instr.inflBlock, .decompress, .streamBlockStored f, .streamBlockFixed f, .streamBlockDynamic f] →
      exec i s = .next t → t.error = false →
        (∀ a, a < (if i = .decompress then 0 else s.stream.writer.outPos.toNat) ∨ t.stream.writer.outPos.toNat ≤ a →
          t.stream.writer.out.read .outByte a = s.stream.writer.out.read .outByte a) ∧
          (i ≠ .decompress →
            t.stream.writer.acc = s.stream.writer.acc ∧ t.stream.writer.cnt = s.stream.writer.cnt) ∧
          (i = .decompress → t.stream.writer.acc = 0 ∧ t.stream.writer.cnt = 0) ∧
          (i = .streamBlockStored f →
            t.stream.litlen = s.stream.litlen ∧ t.stream.dist = s.stream.dist ∧ t.stream.clen = s.stream.clen) ∧
          t.stream.reader.lim = (if i = .decompress then BitVec.ofNat 32 (s.a0 + s.a1) else s.stream.reader.lim)

/-! The host's view -/

/-- 10_state R20..R35, 60_exceptions R341, 70_reset_and_hazards R389, 20_memory R61: what a register read returns, offset by
offset, ERR with the code of each error, in a state without a running command, and which of these values a read returns while one runs; a read of a register, of IN or of OUT
changes only the value returned (and, where that value is unspecified, the model's count of free draws, log 3). -/
def Obligations.RegisterReads : Prop :=
  (∀ (s : State) (off : Nat), off % 4 = 0 → off < 0x100 →
     (s.busy = false ∨ off ∉ [0x030, 0x034, 0x038, 0x03C, 0x040, 0x044, 0x048, 0x04C] →
       hostRead .reg off .word s = .next { s with readData := readReg s off }) ∧
       (off = 0x000 → readReg s off = 0x44464C01#32) ∧ (off = 0x004 → readReg s off = 0) ∧
       (off = 0x008 →
         (readReg s off).getLsbD 0 = s.busy ∧ (readReg s off).getLsbD 1 = s.done ∧ (readReg s off).getLsbD 2 = s.error ∧
           (readReg s off).extractLsb' 3 29 = 0) ∧
       (off = 0x00C →
         (readReg s off).extractLsb' 4 28 = 0 ∧ (s.err = none ↔ readReg s off = 0) ∧
           (s.err = some .unexpectedEnd → readReg s off = 1) ∧ (s.err = some .invalidCode → readReg s off = 2) ∧
           (s.err = some .invalidBlockType → readReg s off = 3) ∧ (s.err = some .lengthMismatch → readReg s off = 4) ∧
           (s.err = some .invalidDistance → readReg s off = 5) ∧ (s.err = some .invalidRange → readReg s off = 6) ∧
           (s.err = some .outputOverflow → readReg s off = 7) ∧ (s.err = some .invalidCommand → readReg s off = 8)) ∧
       (off = 0x010 → (readReg s off).extractLsb' 0 5 = s.config ∧ (readReg s off).extractLsb' 5 27 = 0) ∧
       (off = 0x014 → (readReg s off).extractLsb' 0 16 = s.maxChain ∧ (readReg s off).extractLsb' 16 16 = 0) ∧
       (off = 0x018 → (readReg s off).extractLsb' 0 17 = s.blockTokens ∧ (readReg s off).extractLsb' 17 15 = 0) ∧
       (off = 0x020 → readReg s off = s.arg0) ∧ (off = 0x024 → readReg s off = s.arg1) ∧
       (off = 0x028 → readReg s off = s.arg2) ∧ (off = 0x030 → readReg s off = s.res0) ∧
       (off = 0x034 → readReg s off = s.res1) ∧ (off = 0x038 → readReg s off = s.stream.reader.pos) ∧
       (off = 0x03C → readReg s off = s.stream.reader.lim) ∧
       (off = 0x040 → (readReg s off).extractLsb' 0 3 = s.stream.reader.bit ∧ (readReg s off).extractLsb' 3 29 = 0) ∧
       (off = 0x044 → readReg s off = s.stream.writer.outPos) ∧
       (off = 0x048 →
         (readReg s off).extractLsb' 0 8 = s.stream.writer.acc ∧ (readReg s off).extractLsb' 8 4 = s.stream.writer.cnt ∧
           (readReg s off).extractLsb' 12 20 = 0) ∧
       (off = 0x04C → readReg s off = s.stream.window.fill) ∧
       (off = 0x050 → (readReg s off).toNat = s.params.inSize) ∧
       (off = 0x054 → (readReg s off).toNat = s.params.outCap) ∧
       (off ∉ [0x000, 0x004, 0x008, 0x00C, 0x010, 0x014, 0x018, 0x020, 0x024, 0x028, 0x030, 0x034, 0x038, 0x03C, 0x040,
         0x044, 0x048, 0x04C, 0x050, 0x054] → readReg s off = 0)) ∧
  (∀ (sp : Space) (i : Nat) (w : Width) (s t : State),
     hostRead sp i w s = .next t → t = { s with readData := t.readData, draws := t.draws })

/-- 10_state R23..R27, R35, 20_memory R61: what a register write stores, at each writable offset; a write to any other offset
but CMD changes nothing; an access of another width, at an unaligned offset or outside the block is refused. -/
def Obligations.RegisterWrites : Prop :=
  (∀ (s : State) (off : Nat) (v : Word), off % 4 = 0 → off < 0x100 →
     (off = 0x008 → hostWrite .reg off .word v s = .next { s with done := s.done && !v.getLsbD 1 }) ∧
       (off = 0x010 → hostWrite .reg off .word v s = .next { s with config := v.extractLsb' 0 5 }) ∧
       (off = 0x014 → hostWrite .reg off .word v s = .next { s with maxChain := v.extractLsb' 0 16 }) ∧
       (off = 0x018 → ∃ t, hostWrite .reg off .word v s = .next t ∧ t = { s with blockTokens := t.blockTokens } ∧
         t.blockTokens.toNat = min (max (v.extractLsb' 0 17).toNat 1) 65536) ∧
       (off = 0x020 → hostWrite .reg off .word v s = .next { s with arg0 := v }) ∧
       (off = 0x024 → hostWrite .reg off .word v s = .next { s with arg1 := v }) ∧
       (off = 0x028 → hostWrite .reg off .word v s = .next { s with arg2 := v }) ∧
       (off ∉ [0x004, 0x008, 0x010, 0x014, 0x018, 0x020, 0x024, 0x028] → hostWrite .reg off .word v s = .next s)) ∧
  (∀ (s : State) (off : Nat) (w : Width) (v : Word),
     (w ≠ .word ∨ off % 4 ≠ 0 ∨ 0x100 ≤ off) →
       ∃ r ∈ [Refusal.registerWidth, .registerUnaligned, .registerOutsideBlock],
         hostRead .reg off w s = .refused r ∧ hostWrite .reg off w v s = .refused r)

/-- 20_memory R62..R64, 70_reset_and_hazards R388: a host write to IN stores the low bytes of the value, little-endian, a read
of the same width at the same index returns them, and every other byte of IN is kept; a write while BUSY = 1 is refused; a
read of IN returns its bytes little-endian, also while BUSY = 1; the host reads OUT little-endian when no command runs, and its writes to OUT are ignored; an access beyond the memory is refused. -/
def Obligations.MemoryAccessByTheHost : Prop :=
  (∀ (s : State) (i : Nat) (w : Width) (v : Word),
     (s.params.inSize < i + w.bytes →
       hostWrite .inp i w v s = .refused .inOutOfRange ∧ hostRead .inp i w s = .refused .inOutOfRange) ∧
       (i + w.bytes ≤ s.params.inSize →
         ∃ x : Word, hostRead .inp i w s = .next { s with readData := x } ∧
           (∀ k < w.bytes, x.extractLsb' (8 * k) 8 = s.input.read .inByte (i + k)) ∧ x.toNat < 2 ^ (8 * w.bytes)) ∧
       (i + w.bytes ≤ s.params.inSize → s.busy = true → hostWrite .inp i w v s = .refused .inWriteWhileBusy) ∧
       (i + w.bytes ≤ s.params.inSize → s.busy = false →
         ∃ m, hostWrite .inp i w v s = .next { s with input := m } ∧
           (∀ k < w.bytes, m.read .inByte (i + k) = v.extractLsb' (8 * k) 8) ∧
           (∀ a, a < i ∨ i + w.bytes ≤ a → m.read .inByte a = s.input.read .inByte a) ∧
           hostRead .inp i w { s with input := m } =
             .next { s with input := m, readData := BitVec.ofNat 32 (v.toNat % 2 ^ (8 * w.bytes)) })) ∧
  (∀ (s : State) (i : Nat) (w : Width) (v : Word),
     (s.params.outCap < i + w.bytes →
       hostWrite .out i w v s = .refused .outOutOfRange ∧ hostRead .out i w s = .refused .outOutOfRange) ∧
       (i + w.bytes ≤ s.params.outCap →
         hostWrite .out i w v s = .next s ∧
           (s.busy = false →
             ∃ x : Word, hostRead .out i w s = .next { s with readData := x } ∧
               (∀ k < w.bytes, x.extractLsb' (8 * k) 8 = s.stream.writer.out.read .outByte (i + k)) ∧
               x.toNat < 2 ^ (8 * w.bytes))))

/-- 60_exceptions R354: IRQ is IRQ_EN and (DONE or ERROR); writing 1 to STATUS.DONE or starting a command leaves only
ERROR to assert it, RESET_STREAM clears ERROR, and IRQ is 0 where IRQ_EN is. -/
def Obligations.IrqFollowsDoneAndError : Prop :=
  (∀ s : State, s.irq = (s.config.getLsbD 4 && (s.done || s.error))) ∧
    (∀ (s : State) (v : Word), v.getLsbD 1 = true → (writeStatus v s).irq = (s.config.getLsbD 4 && s.error)) ∧
    (∀ (s : State) (w : Word), (start w s).irq = (s.config.getLsbD 4 && s.error)) ∧
    (∀ s t : State, exec .resetStream s = .next t → t.error = false) ∧
    ∀ s : State, s.config.getLsbD 4 = false → s.irq = false

/-! Reset -/

/-- 70_reset_and_hazards R380, R381, R383: the values the spec gives after a hard reset, for every choice of parameters; while
reset is asserted every host access is dropped; asserting it abandons a running command with no completion and no error;
deasserting it gives the reset state of the same platform; and an idle core waits. (The two levels of the reset input as two
moves, that asserting it keeps the flags, CONFIG and so the level of IRQ until it deasserts, and that the host's pending
moves and the value its last read returned are kept, is the model's choice, log 13.) -/
def Obligations.HardReset : Prop :=
  (∀ (p : Params) (draw : Nat),
     let s := State.resetWith p draw
     statusWord s = 0 ∧ errWord s.err = 0 ∧ readReg s 0x010 = 0x0000000C#32 ∧ readReg s 0x014 = 128 ∧
       readReg s 0x018 = 16384 ∧ s.arg0 = 0 ∧ s.arg1 = 0 ∧ s.arg2 = 0 ∧ s.res0 = 0 ∧ s.res1 = 0 ∧
       s.stream.reader = ⟨0, 0, 0⟩ ∧ s.stream.writer.outPos = 0 ∧ s.stream.writer.acc = 0 ∧
       s.stream.writer.cnt = 0 ∧ s.stream.window.fill = 0 ∧ s.stream.window.pos = 0 ∧
       s.stream.litlen.len = List.replicate 288 0 ∧ s.stream.dist.len = List.replicate 32 0 ∧
       s.stream.clen.len = List.replicate 19 0 ∧ s.irq = false ∧ readReg s 0x000 = 0x44464C01#32 ∧ s.params = p) ∧
  ((∀ (m : HostMove) (s : State), s.inReset = true → m ≠ .resetRelease → perform m s = .next s) ∧
     (∀ s : State, s.inReset = false →
       perform .resetAssert s = .next { s with inReset := true, run := .idle } ∧
         ∃ t, perform .resetRelease { s with inReset := true, run := .idle } = .next t ∧
           t = { State.resetWith s.params s.draws with host := s.host, readData := s.readData }) ∧
     ∀ s : State, s.inReset = false → s.run = .idle → s.host = [] → step s = .next s)

/-! Several instances -/

/-- 60_exceptions R357, 00_scope R8: a step of one instance changes no other one, and does to its own instance what it does
whatever the others are (instances as a list of states stepped one at a time is the model's form, log 15). -/
def Obligations.InstancesAreIsolated : Prop :=
  (∀ (k j : Nat) (c c' : Cluster), Cluster.stepAt k c = .next c' → j ≠ k → c'.cores[j]? = c.cores[j]?) ∧
    ∀ (k : Nat) (c₁ c₂ c₁' c₂' : Cluster), c₁.cores[k]? = c₂.cores[k]? →
      Cluster.stepAt k c₁ = .next c₁' → Cluster.stepAt k c₂ = .next c₂' → c₁'.cores[k]? = c₂'.cores[k]?

/-! Invariants -/

/-- 10_state R23, R26, R29, R36..R38: ERROR is set exactly when ERR holds an error, DONE is 0 while a command runs,
BLOCK_TOKENS stays legal, and IN, OUT and WIN keep their sizes and their canonical form: every step keeps all of it. (The
canonical form, written bytes at strictly rising indices and regions from strictly falling ones, is the model's, log 4; the
rules give only the contents and the sizes.) -/
def Obligations.StepKeepsFlagsConfigMemories : Prop :=
  ∀ s s' : State, s.FlagsOk ∧ s.ConfigOk ∧ s.MemoriesOk → step s = .next s' → s'.FlagsOk ∧ s'.ConfigOk ∧ s'.MemoriesOk

/-- 10_state R30..R32: every step keeps the invariants of the reader's and the writer's cursors, for stream states that no
error made unspecified. -/
def Obligations.StepKeepsCursors : Prop :=
  ∀ s s' : State, s.CursorsOk → step s = .next s' → s'.CursorsOk

/-- 10_state R33, R38: every step keeps WIN_FILL legal, WIN_POS in step with it, and every byte a copy may read written. -/
def Obligations.StepKeepsWindow : Prop :=
  ∀ s s' : State, s.WindowOk → step s = .next s' → s'.WindowOk

/-- 41_huffman R170, R171: every step keeps the three tables tables: one length per symbol, none above MAXLEN(T), never
over-subscribed. -/
def Obligations.StepKeepsTables : Prop :=
  ∀ s s' : State, s.TablesOk → step s = .next s' → s'.TablesOk

/-- 70_reset_and_hazards R381: the reset state meets every invariant, for every choice of parameters. -/
def Obligations.ResetMeetsTheInvariants : Prop :=
  ∀ (p : Params) (draw : Nat),
    (State.resetWith p draw).FlagsOk ∧ (State.resetWith p draw).ConfigOk ∧ (State.resetWith p draw).MemoriesOk ∧
      (State.resetWith p draw).CursorsOk ∧ (State.resetWith p draw).WindowOk ∧ (State.resetWith p draw).TablesOk

end ObligationStatements
end

