-- ==== Sys2Proof/Laws/State.lean ====
section
/-! SUPPORT. One lemma per field of State per update of Machine/Ops.lean, Flags.lean and HostMoves.lean, so that no proof
unfolds a record update. -/

namespace Sys2Proof.Machine

open Sys2Proof

/-! start -/

@[simp] theorem start_params (w : Word) (s : State) : (start w s).params = s.params := rfl
@[simp] theorem start_run (w : Word) (s : State) : (start w s).run = .started := rfl
@[simp] theorem start_done (w : Word) (s : State) : (start w s).done = false := rfl
@[simp] theorem start_error (w : Word) (s : State) : (start w s).error = s.error := rfl
@[simp] theorem start_err (w : Word) (s : State) : (start w s).err = s.err := rfl
@[simp] theorem start_config (w : Word) (s : State) : (start w s).config = s.config := rfl
@[simp] theorem start_maxChain (w : Word) (s : State) : (start w s).maxChain = s.maxChain := rfl
@[simp] theorem start_blockTokens (w : Word) (s : State) : (start w s).blockTokens = s.blockTokens := rfl
@[simp] theorem start_arg0 (w : Word) (s : State) : (start w s).arg0 = s.arg0 := rfl
@[simp] theorem start_arg1 (w : Word) (s : State) : (start w s).arg1 = s.arg1 := rfl
@[simp] theorem start_arg2 (w : Word) (s : State) : (start w s).arg2 = s.arg2 := rfl
@[simp] theorem start_res0 (w : Word) (s : State) : (start w s).res0 = s.res0 := rfl
@[simp] theorem start_res1 (w : Word) (s : State) : (start w s).res1 = s.res1 := rfl
@[simp] theorem start_latch (w : Word) (s : State) : (start w s).latch = ⟨w, s.arg0, s.arg1, s.arg2, s.config, s.maxChain, s.blockTokens, s.stream.writer.outPos⟩ := rfl
@[simp] theorem start_stream (w : Word) (s : State) : (start w s).stream = s.stream := rfl
@[simp] theorem start_input (w : Word) (s : State) : (start w s).input = s.input := rfl
@[simp] theorem start_inReset (w : Word) (s : State) : (start w s).inReset = s.inReset := rfl
@[simp] theorem start_draws (w : Word) (s : State) : (start w s).draws = s.draws := rfl
@[simp] theorem start_host (w : Word) (s : State) : (start w s).host = s.host := rfl
@[simp] theorem start_readData (w : Word) (s : State) : (start w s).readData = s.readData := rfl

/-! complete -/

@[simp] theorem complete_params (r : Result) (s : State) : (complete r s).params = s.params := rfl
@[simp] theorem complete_run (r : Result) (s : State) : (complete r s).run = .idle := rfl
@[simp] theorem complete_done (r : Result) (s : State) : (complete r s).done = true := rfl
@[simp] theorem complete_error (r : Result) (s : State) : (complete r s).error = s.error := rfl
@[simp] theorem complete_err (r : Result) (s : State) : (complete r s).err = s.err := rfl
@[simp] theorem complete_config (r : Result) (s : State) : (complete r s).config = s.config := rfl
@[simp] theorem complete_maxChain (r : Result) (s : State) : (complete r s).maxChain = s.maxChain := rfl
@[simp] theorem complete_blockTokens (r : Result) (s : State) : (complete r s).blockTokens = s.blockTokens := rfl
@[simp] theorem complete_arg0 (r : Result) (s : State) : (complete r s).arg0 = s.arg0 := rfl
@[simp] theorem complete_arg1 (r : Result) (s : State) : (complete r s).arg1 = s.arg1 := rfl
@[simp] theorem complete_arg2 (r : Result) (s : State) : (complete r s).arg2 = s.arg2 := rfl
@[simp] theorem complete_res0 (r : Result) (s : State) : (complete r s).res0 = BitVec.ofNat 32 r.res0 := rfl
@[simp] theorem complete_res1 (r : Result) (s : State) : (complete r s).res1 = BitVec.ofNat 32 r.res1 := rfl
@[simp] theorem complete_latch (r : Result) (s : State) : (complete r s).latch = s.latch := rfl
@[simp] theorem complete_stream (r : Result) (s : State) : (complete r s).stream = r.stream := rfl
@[simp] theorem complete_input (r : Result) (s : State) : (complete r s).input = s.input := rfl
@[simp] theorem complete_inReset (r : Result) (s : State) : (complete r s).inReset = s.inReset := rfl
@[simp] theorem complete_draws (r : Result) (s : State) : (complete r s).draws = s.draws := rfl
@[simp] theorem complete_host (r : Result) (s : State) : (complete r s).host = s.host := rfl
@[simp] theorem complete_readData (r : Result) (s : State) : (complete r s).readData = s.readData := rfl

/-! raise -/

@[simp] theorem raise_params (e : Err) (s : State) : (raise e s).params = s.params := rfl
@[simp] theorem raise_run (e : Err) (s : State) : (raise e s).run = .idle := rfl
@[simp] theorem raise_done (e : Err) (s : State) : (raise e s).done = false := rfl
@[simp] theorem raise_error (e : Err) (s : State) : (raise e s).error = true := rfl
@[simp] theorem raise_err (e : Err) (s : State) : (raise e s).err = some e := rfl
@[simp] theorem raise_config (e : Err) (s : State) : (raise e s).config = s.config := rfl
@[simp] theorem raise_maxChain (e : Err) (s : State) : (raise e s).maxChain = s.maxChain := rfl
@[simp] theorem raise_blockTokens (e : Err) (s : State) : (raise e s).blockTokens = s.blockTokens := rfl
@[simp] theorem raise_arg0 (e : Err) (s : State) : (raise e s).arg0 = s.arg0 := rfl
@[simp] theorem raise_arg1 (e : Err) (s : State) : (raise e s).arg1 = s.arg1 := rfl
@[simp] theorem raise_arg2 (e : Err) (s : State) : (raise e s).arg2 = s.arg2 := rfl
@[simp] theorem raise_res0 (e : Err) (s : State) : (raise e s).res0 = Config.free 32 s.draws .res0 0 := rfl
@[simp] theorem raise_res1 (e : Err) (s : State) : (raise e s).res1 = Config.free 32 s.draws .res1 0 := rfl
@[simp] theorem raise_latch (e : Err) (s : State) : (raise e s).latch = s.latch := rfl
@[simp] theorem raise_stream (e : Err) (s : State) : (raise e s).stream = s.stream.unspecified s.latch s.draws := rfl
@[simp] theorem raise_input (e : Err) (s : State) : (raise e s).input = s.input := rfl
@[simp] theorem raise_inReset (e : Err) (s : State) : (raise e s).inReset = s.inReset := rfl
@[simp] theorem raise_draws (e : Err) (s : State) : (raise e s).draws = s.nextDraw := rfl
@[simp] theorem raise_host (e : Err) (s : State) : (raise e s).host = s.host := rfl
@[simp] theorem raise_readData (e : Err) (s : State) : (raise e s).readData = s.readData := rfl

/-! raiseIllegalWord -/

@[simp] theorem raiseIllegalWord_params (s : State) : (raiseIllegalWord s).params = s.params := rfl
@[simp] theorem raiseIllegalWord_run (s : State) : (raiseIllegalWord s).run = .idle := rfl
@[simp] theorem raiseIllegalWord_done (s : State) : (raiseIllegalWord s).done = false := rfl
@[simp] theorem raiseIllegalWord_error (s : State) : (raiseIllegalWord s).error = true := rfl
@[simp] theorem raiseIllegalWord_err (s : State) : (raiseIllegalWord s).err = some .invalidCommand := rfl
@[simp] theorem raiseIllegalWord_config (s : State) : (raiseIllegalWord s).config = s.config := rfl
@[simp] theorem raiseIllegalWord_maxChain (s : State) : (raiseIllegalWord s).maxChain = s.maxChain := rfl
@[simp] theorem raiseIllegalWord_blockTokens (s : State) : (raiseIllegalWord s).blockTokens = s.blockTokens := rfl
@[simp] theorem raiseIllegalWord_arg0 (s : State) : (raiseIllegalWord s).arg0 = s.arg0 := rfl
@[simp] theorem raiseIllegalWord_arg1 (s : State) : (raiseIllegalWord s).arg1 = s.arg1 := rfl
@[simp] theorem raiseIllegalWord_arg2 (s : State) : (raiseIllegalWord s).arg2 = s.arg2 := rfl
@[simp] theorem raiseIllegalWord_res0 (s : State) : (raiseIllegalWord s).res0 = s.res0 := rfl
@[simp] theorem raiseIllegalWord_res1 (s : State) : (raiseIllegalWord s).res1 = s.res1 := rfl
@[simp] theorem raiseIllegalWord_latch (s : State) : (raiseIllegalWord s).latch = s.latch := rfl
@[simp] theorem raiseIllegalWord_stream (s : State) : (raiseIllegalWord s).stream = s.stream := rfl
@[simp] theorem raiseIllegalWord_input (s : State) : (raiseIllegalWord s).input = s.input := rfl
@[simp] theorem raiseIllegalWord_inReset (s : State) : (raiseIllegalWord s).inReset = s.inReset := rfl
@[simp] theorem raiseIllegalWord_draws (s : State) : (raiseIllegalWord s).draws = s.draws := rfl
@[simp] theorem raiseIllegalWord_host (s : State) : (raiseIllegalWord s).host = s.host := rfl
@[simp] theorem raiseIllegalWord_readData (s : State) : (raiseIllegalWord s).readData = s.readData := rfl

/-! writeStatus -/

@[simp] theorem writeStatus_params (v : Word) (s : State) : (writeStatus v s).params = s.params := rfl
@[simp] theorem writeStatus_run (v : Word) (s : State) : (writeStatus v s).run = s.run := rfl
@[simp] theorem writeStatus_done (v : Word) (s : State) : (writeStatus v s).done = (s.done && !v.getLsbD 1) := rfl
@[simp] theorem writeStatus_error (v : Word) (s : State) : (writeStatus v s).error = s.error := rfl
@[simp] theorem writeStatus_err (v : Word) (s : State) : (writeStatus v s).err = s.err := rfl
@[simp] theorem writeStatus_config (v : Word) (s : State) : (writeStatus v s).config = s.config := rfl
@[simp] theorem writeStatus_maxChain (v : Word) (s : State) : (writeStatus v s).maxChain = s.maxChain := rfl
@[simp] theorem writeStatus_blockTokens (v : Word) (s : State) : (writeStatus v s).blockTokens = s.blockTokens := rfl
@[simp] theorem writeStatus_arg0 (v : Word) (s : State) : (writeStatus v s).arg0 = s.arg0 := rfl
@[simp] theorem writeStatus_arg1 (v : Word) (s : State) : (writeStatus v s).arg1 = s.arg1 := rfl
@[simp] theorem writeStatus_arg2 (v : Word) (s : State) : (writeStatus v s).arg2 = s.arg2 := rfl
@[simp] theorem writeStatus_res0 (v : Word) (s : State) : (writeStatus v s).res0 = s.res0 := rfl
@[simp] theorem writeStatus_res1 (v : Word) (s : State) : (writeStatus v s).res1 = s.res1 := rfl
@[simp] theorem writeStatus_latch (v : Word) (s : State) : (writeStatus v s).latch = s.latch := rfl
@[simp] theorem writeStatus_stream (v : Word) (s : State) : (writeStatus v s).stream = s.stream := rfl
@[simp] theorem writeStatus_input (v : Word) (s : State) : (writeStatus v s).input = s.input := rfl
@[simp] theorem writeStatus_inReset (v : Word) (s : State) : (writeStatus v s).inReset = s.inReset := rfl
@[simp] theorem writeStatus_draws (v : Word) (s : State) : (writeStatus v s).draws = s.draws := rfl
@[simp] theorem writeStatus_host (v : Word) (s : State) : (writeStatus v s).host = s.host := rfl
@[simp] theorem writeStatus_readData (v : Word) (s : State) : (writeStatus v s).readData = s.readData := rfl

/-! readUnspecified -/

@[simp] theorem readUnspecified_params (w : Width) (s : State) : (readUnspecified w s).params = s.params := rfl
@[simp] theorem readUnspecified_run (w : Width) (s : State) : (readUnspecified w s).run = s.run := rfl
@[simp] theorem readUnspecified_done (w : Width) (s : State) : (readUnspecified w s).done = s.done := rfl
@[simp] theorem readUnspecified_error (w : Width) (s : State) : (readUnspecified w s).error = s.error := rfl
@[simp] theorem readUnspecified_err (w : Width) (s : State) : (readUnspecified w s).err = s.err := rfl
@[simp] theorem readUnspecified_config (w : Width) (s : State) : (readUnspecified w s).config = s.config := rfl
@[simp] theorem readUnspecified_maxChain (w : Width) (s : State) : (readUnspecified w s).maxChain = s.maxChain := rfl
@[simp] theorem readUnspecified_blockTokens (w : Width) (s : State) : (readUnspecified w s).blockTokens = s.blockTokens := rfl
@[simp] theorem readUnspecified_arg0 (w : Width) (s : State) : (readUnspecified w s).arg0 = s.arg0 := rfl
@[simp] theorem readUnspecified_arg1 (w : Width) (s : State) : (readUnspecified w s).arg1 = s.arg1 := rfl
@[simp] theorem readUnspecified_arg2 (w : Width) (s : State) : (readUnspecified w s).arg2 = s.arg2 := rfl
@[simp] theorem readUnspecified_res0 (w : Width) (s : State) : (readUnspecified w s).res0 = s.res0 := rfl
@[simp] theorem readUnspecified_res1 (w : Width) (s : State) : (readUnspecified w s).res1 = s.res1 := rfl
@[simp] theorem readUnspecified_latch (w : Width) (s : State) : (readUnspecified w s).latch = s.latch := rfl
@[simp] theorem readUnspecified_stream (w : Width) (s : State) : (readUnspecified w s).stream = s.stream := rfl
@[simp] theorem readUnspecified_input (w : Width) (s : State) : (readUnspecified w s).input = s.input := rfl
@[simp] theorem readUnspecified_inReset (w : Width) (s : State) : (readUnspecified w s).inReset = s.inReset := rfl

/-- An instance keeps to its own draw numbers (log 3). -/
@[simp] theorem nextDraw_mod (s : State) : s.nextDraw % s.params.numInstances = s.draws % s.params.numInstances :=
  Nat.add_mod_right _ _

@[simp] theorem readUnspecified_draws (w : Width) (s : State) : (readUnspecified w s).draws = s.nextDraw := rfl
@[simp] theorem readUnspecified_host (w : Width) (s : State) : (readUnspecified w s).host = s.host := rfl
@[simp] theorem readUnspecified_readData (w : Width) (s : State) : (readUnspecified w s).readData = BitVec.ofNat 32 ((Config.free 32 s.draws .busyRead 0).toNat % 2 ^ (8 * w.bytes)) := rfl

/-! resetAssert -/

@[simp] theorem resetAssert_params (s : State) : (resetAssert s).params = s.params := rfl
@[simp] theorem resetAssert_run (s : State) : (resetAssert s).run = .idle := rfl
@[simp] theorem resetAssert_done (s : State) : (resetAssert s).done = s.done := rfl
@[simp] theorem resetAssert_error (s : State) : (resetAssert s).error = s.error := rfl
@[simp] theorem resetAssert_err (s : State) : (resetAssert s).err = s.err := rfl
@[simp] theorem resetAssert_config (s : State) : (resetAssert s).config = s.config := rfl
@[simp] theorem resetAssert_maxChain (s : State) : (resetAssert s).maxChain = s.maxChain := rfl
@[simp] theorem resetAssert_blockTokens (s : State) : (resetAssert s).blockTokens = s.blockTokens := rfl
@[simp] theorem resetAssert_arg0 (s : State) : (resetAssert s).arg0 = s.arg0 := rfl
@[simp] theorem resetAssert_arg1 (s : State) : (resetAssert s).arg1 = s.arg1 := rfl
@[simp] theorem resetAssert_arg2 (s : State) : (resetAssert s).arg2 = s.arg2 := rfl
@[simp] theorem resetAssert_res0 (s : State) : (resetAssert s).res0 = s.res0 := rfl
@[simp] theorem resetAssert_res1 (s : State) : (resetAssert s).res1 = s.res1 := rfl
@[simp] theorem resetAssert_latch (s : State) : (resetAssert s).latch = s.latch := rfl
@[simp] theorem resetAssert_stream (s : State) : (resetAssert s).stream = s.stream := rfl
@[simp] theorem resetAssert_input (s : State) : (resetAssert s).input = s.input := rfl
@[simp] theorem resetAssert_inReset (s : State) : (resetAssert s).inReset = true := rfl
@[simp] theorem resetAssert_draws (s : State) : (resetAssert s).draws = s.draws := rfl
@[simp] theorem resetAssert_host (s : State) : (resetAssert s).host = s.host := rfl
@[simp] theorem resetAssert_readData (s : State) : (resetAssert s).readData = s.readData := rfl

/-! The stream states that RESET_STREAM and an error leave -/

@[simp] theorem clearStream_reader (st : Stream) : (clearStream st).reader = ⟨0, 0, 0⟩ := rfl
@[simp] theorem clearStream_writer (st : Stream) : (clearStream st).writer = ⟨st.writer.out, 0, 0, 0⟩ := rfl
@[simp] theorem clearStream_window (st : Stream) : (clearStream st).window = ⟨st.window.bytes, 0, 0⟩ := rfl
@[simp] theorem clearStream_litlen (st : Stream) : (clearStream st).litlen = .zero Config.numLitlen := rfl
@[simp] theorem clearStream_dist (st : Stream) : (clearStream st).dist = .zero Config.numDist := rfl
@[simp] theorem clearStream_clen (st : Stream) : (clearStream st).clen = .zero Config.numClen := rfl
@[simp] theorem unspecified_out (l : Latch) (d : Nat) (st : Stream) :
    (st.unspecified l d).writer.out = st.writer.out.forgetFrom (unspecifiedFrom l) d := rfl
@[simp] theorem unspecified_window_bytes (l : Latch) (d : Nat) (st : Stream) :
    (st.unspecified l d).window.bytes = st.window.bytes.forgetFrom 0 d := rfl

/-! Which fields the last steps of a command keep -/

/-- A command's completion, with or without an error, keeps everything but the flags, the results, the stream state and
the count of draws. -/
theorem conclude_next (r : Except Err Result) (s : State) :
    (∃ v, r = .ok v ∧ conclude r s = .next (complete v s)) ∨
      (∃ e, r = .error e ∧ conclude r s = .next (raise e s)) := by
  cases r with
  | ok v => exact .inl ⟨v, rfl, rfl⟩
  | error e => exact .inr ⟨e, rfl, rfl⟩

@[simp] theorem conclude_ok (v : Result) (s : State) : conclude (.ok v) s = .next (complete v s) := rfl
@[simp] theorem conclude_error (e : Err) (s : State) : conclude (.error e) s = .next (raise e s) := rfl

end Sys2Proof.Machine
end

