-- ==== Sys2Proof/Laws/Memory.lean ====
section
/-! SUPPORT. The laws of the byte memories: a read after a write, and that every operation keeps the canonical form. -/

namespace Sys2Proof.Machine

open Sys2Proof

theorem lookupCell_insertCell (cells : List Host.Cell) (a b : Nat) (v : Byte) :
    lookupCell (insertCell cells a v) b = if b = a then some v else lookupCell cells b := by
  induction cells with
  | nil => simp [insertCell, lookupCell]
  | cons c rest ih =>
    simp only [insertCell]
    split
    · simp [lookupCell]
    · split
      · subst_vars; simp only [lookupCell]; split <;> simp_all
      · simp only [lookupCell, ih]; split <;> split <;> simp_all

@[simp] theorem Memory.write_regions (m : Memory) (a : Nat) (v : Byte) : (m.write a v).regions = m.regions := rfl

theorem Memory.read_write (what : Unspecified) (m : Memory) (a b : Nat) (v : Byte) :
    (m.write a v).read what b = if b = a then v else m.read what b := by
  simp only [Memory.read, Memory.write, lookupCell_insertCell]
  split <;> simp

@[simp] theorem Memory.read_write_same (what : Unspecified) (m : Memory) (a : Nat) (v : Byte) :
    (m.write a v).read what a = v := by simp [Memory.read_write]

theorem Memory.read_write_other (what : Unspecified) (m : Memory) {a b : Nat} (v : Byte) (h : b ≠ a) :
    (m.write a v).read what b = m.read what b := by simp [Memory.read_write, h]

theorem mem_insertCell {cells : List Host.Cell} {a : Nat} {v : Byte} {c : Host.Cell}
    (h : c ∈ insertCell cells a v) : c = (a, v) ∨ c ∈ cells := by
  induction cells with
  | nil => simpa [insertCell] using h
  | cons x rest ih =>
    simp only [insertCell] at h
    split at h
    · simpa using h
    · split at h
      · simp only [List.mem_cons] at h ⊢; tauto
      · simp only [List.mem_cons] at h ⊢
        rcases h with h | h
        · exact .inr (.inl h)
        · rcases ih h with h | h
          · exact .inl h
          · exact .inr (.inr h)

theorem insertCell_pairwise {cells : List Host.Cell} (a : Nat) (v : Byte)
    (h : cells.Pairwise (fun x y => x.1 < y.1)) :
    (insertCell cells a v).Pairwise (fun x y => x.1 < y.1) := by
  induction cells with
  | nil => simp [insertCell]
  | cons c rest ih =>
    rw [List.pairwise_cons] at h
    simp only [insertCell]
    split
    · refine List.pairwise_cons.2 ⟨?_, List.pairwise_cons.2 h⟩
      rintro y hy
      rcases List.mem_cons.1 hy with rfl | hy
      · assumption
      · have := h.1 y hy; simp only; omega
    · split
      · subst_vars; exact List.pairwise_cons.2 ⟨h.1, h.2⟩
      · refine List.pairwise_cons.2 ⟨?_, ih h.2⟩
        intro y hy
        rcases mem_insertCell hy with rfl | hy
        · simp only; omega
        · exact h.1 y hy

theorem Memory.wf_iff (m : Memory) :
    m.wf = true ↔ m.cells.Pairwise (fun x y => x.1 < y.1) ∧ m.regions.Pairwise (fun x y => y.1 < x.1) := by
  simp [Memory.wf]

theorem Memory.below_iff (m : Memory) (n : Nat) : m.below n = true ↔ ∀ c ∈ m.cells, c.1 < n := by
  simp [Memory.below]

theorem Memory.write_wf {m : Memory} (a : Nat) (v : Byte) (h : m.wf = true) : (m.write a v).wf = true := by
  rw [Memory.wf_iff] at h ⊢
  exact ⟨insertCell_pairwise a v h.1, h.2⟩

theorem Memory.write_below {m : Memory} {n a : Nat} (v : Byte) (h : m.below n = true) (ha : a < n) :
    (m.write a v).below n = true := by
  rw [Memory.below_iff] at h ⊢
  intro c hc
  rcases mem_insertCell hc with rfl | hc
  · exact ha
  · exact h c hc

theorem Memory.forgetFrom_wf {m : Memory} (start draw : Nat) (h : m.wf = true) :
    (m.forgetFrom start draw).wf = true := by
  rw [Memory.wf_iff] at h ⊢
  refine ⟨h.1.filter _, List.pairwise_cons.2 ⟨?_, h.2.filter _⟩⟩
  intro r hr
  simpa using (List.mem_filter.1 hr).2

theorem Memory.forgetFrom_below {m : Memory} {n : Nat} (start draw : Nat) (h : m.below n = true) :
    (m.forgetFrom start draw).below n = true := by
  rw [Memory.below_iff] at h ⊢
  exact fun c hc => h c (List.mem_filter.1 hc).1

theorem lookupCell_filter {cells : List Host.Cell} {start a : Nat} (ha : a < start) :
    lookupCell (cells.filter (fun c => decide (c.1 < start))) a = lookupCell cells a := by
  induction cells with
  | nil => rfl
  | cons c rest ih =>
    by_cases hc : c.1 < start
    · simp only [List.filter_cons, hc, decide_true, if_true, lookupCell, ih]
    · have : a ≠ c.1 := by omega
      simp only [List.filter_cons, hc, decide_false, lookupCell, ih, this, if_false, Bool.false_eq_true]

theorem drawOf_filter {regions : List (Nat × Nat)} {start a : Nat} (ha : a < start) :
    drawOf (regions.filter (fun r => decide (r.1 < start))) a = drawOf regions a := by
  induction regions with
  | nil => rfl
  | cons r rest ih =>
    by_cases hr : r.1 < start
    · simp only [List.filter_cons, hr, decide_true, if_true, drawOf, ih]
    · have : ¬ r.1 ≤ a := by omega
      simp only [List.filter_cons, hr, decide_false, drawOf, ih, this, if_false, Bool.false_eq_true]

/-- Forgetting the bytes from `start` on keeps every byte below it. -/
theorem Memory.read_forgetFrom {m : Memory} (what : Unspecified) {start a : Nat} (draw : Nat) (ha : a < start) :
    (m.forgetFrom start draw).read what a = m.read what a := by
  have : ¬ start ≤ a := by omega
  simp [Memory.read, Memory.forgetFrom, lookupCell_filter ha, drawOf, drawOf_filter ha, this]

theorem Memory.writeLE_wf {m : Memory} (h : m.wf = true) (a n v : Nat) : (m.writeLE a n v).wf = true := by
  induction n generalizing m a v with
  | zero => exact h
  | succ n ih => exact ih (Memory.write_wf _ _ h) _ _

theorem Memory.writeLE_below {m : Memory} {size : Nat} (h : m.below size = true) {a n : Nat} (v : Nat)
    (hn : a + n ≤ size) : (m.writeLE a n v).below size = true := by
  induction n generalizing m a v with
  | zero => exact h
  | succ n ih => exact ih (Memory.write_below _ h (by omega)) _ (by omega)

theorem Memory.read_writeLE_other {m : Memory} (what : Unspecified) {a b n : Nat} (v : Nat)
    (hb : b < a ∨ a + n ≤ b) : (m.writeLE a n v).read what b = m.read what b := by
  induction n generalizing m a v with
  | zero => rfl
  | succ n ih =>
    rw [Memory.writeLE, ih _ (by omega), Memory.read_write_other _ _ _ (by omega)]

/-- A little-endian read of what a little-endian write put there. -/
theorem Memory.readLE_writeLE {m : Memory} (what : Unspecified) (a n v : Nat) :
    (m.writeLE a n v).readLE what a n = v % 256 ^ n := by
  induction n generalizing m a v with
  | zero => simp [Memory.readLE, Nat.mod_one]
  | succ n ih =>
    rw [Memory.writeLE, Memory.readLE, ih, Memory.read_writeLE_other what _ (by omega), Memory.read_write_same]
    rw [BitVec.toNat_ofNat, Nat.pow_succ' (m := 256), Nat.mod_mul]

theorem Memory.unwritten_wf (d : Nat) : (Memory.unwritten d).wf = true := by simp [Memory.wf, Memory.unwritten]

theorem Memory.unwritten_below (d n : Nat) : (Memory.unwritten d).below n = true := by
  simp [Memory.below, Memory.unwritten]

/-- The memories of the reset state are in the canonical form. -/
theorem reset_memories_wf :
    State.reset.input.wf = true ∧ State.reset.stream.writer.out.wf = true ∧
      State.reset.stream.window.bytes.wf = true :=
  ⟨Memory.unwritten_wf _, Memory.unwritten_wf _, Memory.unwritten_wf _⟩

end Sys2Proof.Machine
end

