-- ==== Sys2Proof/Laws/Writer.lean ====
section
/-! SUPPORT. What the writer's primitives do to the written stream: each appends its bits, or raises OutputOverflow
exactly when a byte they complete has no room. -/

namespace Sys2Proof.Machine

open Sys2Proof

variable {p : Params} {w w' w₁ w₂ : Writer}

/-! Appending -/

theorem Writer.outPos_le_of_bitPos_le (h : w.bitPos ≤ w'.bitPos) (hc : w'.cnt.toNat ≤ 7) :
    w.outPos.toNat ≤ w'.outPos.toNat := by
  simp only [Writer.bitPos] at h; omega

theorem Writer.Appended.refl (h : w.Ok p) : Writer.Appended p w w [] where
  bitPos := by simp
  kept _ _ := rfl
  added i h := absurd h (by simp)
  outside _ _ := rfl
  ok := h

theorem Writer.Appended.trans {xs ys : List Bool} (h₁ : Writer.Appended p w w₁ xs)
    (h₂ : Writer.Appended p w₁ w₂ ys) : Writer.Appended p w w₂ (xs ++ ys) where
  bitPos := by rw [h₂.bitPos, h₁.bitPos, List.length_append, Nat.add_assoc]
  kept i hi := by rw [h₂.kept i (by rw [h₁.bitPos]; omega), h₁.kept i hi]
  added i hi := by
    rw [List.length_append] at hi
    by_cases hx : i < xs.length
    · rw [h₂.kept _ (by rw [h₁.bitPos]; omega), h₁.added i hx, List.getElem_append_left hx]
    · have hy : i - xs.length < ys.length := by omega
      rw [List.getElem_append_right (by omega), ← h₂.added _ hy, h₁.bitPos]
      congr 1; omega
  outside a ha := by
    have l₁ := Writer.outPos_le_of_bitPos_le (w := w) (w' := w₁) (by rw [h₁.bitPos]; omega) h₁.ok.2.1
    have l₂ := Writer.outPos_le_of_bitPos_le (w := w₁) (w' := w₂) (by rw [h₂.bitPos]; omega) h₂.ok.2.1
    rw [h₂.outside a (by omega), h₁.outside a (by omega)]
  ok := h₂.ok

theorem Writer.Appended.room {xs : List Bool} (h : Writer.Appended p w w' xs) {n : Nat} :
    w'.Room p n ↔ w.Room p (xs.length + n) := by
  simp only [Writer.Room, h.bitPos, Nat.add_assoc]

/-! PutByte -/

theorem putByte_ok {cap : Nat} {b : Byte} (h : w.outPos.toNat < cap) :
    putByte cap b w = .ok { w with out := w.out.write w.outPos.toNat b, outPos := w.outPos + 1 } := by
  simp [putByte, h]

theorem putByte_overflow {cap : Nat} {b : Byte} (h : cap ≤ w.outPos.toNat) :
    putByte cap b w = .error .outputOverflow := by simp [putByte, h]

/-- Everything PutByte can do (40_bitstream R141). -/
theorem putByte_cases (cap : Nat) (b : Byte) (w : Writer) :
    (cap ≤ w.outPos.toNat ∧ putByte cap b w = .error .outputOverflow) ∨
      (w.outPos.toNat < cap ∧
        putByte cap b w = .ok { w with out := w.out.write w.outPos.toNat b, outPos := w.outPos + 1 }) := by
  rcases Nat.lt_or_ge w.outPos.toNat cap with h | h
  · exact .inr ⟨h, putByte_ok h⟩
  · exact .inl ⟨h, putByte_overflow h⟩

theorem outPos_succ (h : w.outPos.toNat < p.outCap) : (w.outPos + 1).toNat = w.outPos.toNat + 1 := by
  have := p.outCap_bounds.2
  have h1 : (1 : Word).toNat = 1 := rfl
  rw [BitVec.toNat_add, h1]
  omega

/-! One bit -/

/-- ACC with one more bit (40_bitstream R143). -/
def accPush (acc : BitVec 8) (cnt : BitVec 4) (b : Bool) : BitVec 8 :=
  acc ||| ((BitVec.ofBool b).setWidth 8 <<< cnt.toNat)

theorem accPush_bit {acc : BitVec 8} {cnt : BitVec 4} {b : Bool} (hc : cnt.toNat ≤ 7)
    (ha : acc.toNat < 2 ^ cnt.toNat) (j : Nat) :
    (accPush acc cnt b).getLsbD j = if j = cnt.toNat then b else acc.getLsbD j := by
  have hz : ∀ j, cnt.toNat ≤ j → acc.getLsbD j = false := fun j hj =>
    Nat.testBit_lt_two_pow (lt_of_lt_of_le ha (Nat.pow_le_pow_right (by decide) hj))
  simp only [accPush, BitVec.getLsbD_or, BitVec.getLsbD_shiftLeft, BitVec.getLsbD_setWidth,
    BitVec.getLsbD_ofBool]
  rcases Nat.lt_trichotomy j cnt.toNat with h | h | h
  · have : j ≠ cnt.toNat := by omega
    simp [h, this]
  · subst h
    have h8 : cnt.toNat < 8 := by omega
    rw [hz _ le_rfl]
    simp [h8]
  · have h1 : j ≠ cnt.toNat := by omega
    have h2 : j - cnt.toNat ≠ 0 := by omega
    simp [h1, h2]

theorem accPush_lt {acc : BitVec 8} {cnt : BitVec 4} {b : Bool} (hc : cnt.toNat ≤ 7)
    (ha : acc.toNat < 2 ^ cnt.toNat) : (accPush acc cnt b).toNat < 2 ^ (cnt.toNat + 1) := by
  apply Nat.lt_pow_two_of_testBit
  intro i hi
  have : (accPush acc cnt b).getLsbD i = false := by
    rw [accPush_bit hc ha, if_neg (by omega)]
    exact Nat.testBit_lt_two_pow (lt_of_lt_of_le ha (Nat.pow_le_pow_right (by decide) (by omega)))
  simpa [BitVec.getLsbD] using this

theorem pushBit_eq (cap : Nat) (b : Bool) (w : Writer) :
    pushBit cap b w =
      if w.cnt + 1 = 8#4 then
        (putByte cap (accPush w.acc w.cnt b) { w with acc := accPush w.acc w.cnt b, cnt := w.cnt + 1 }).bind
          (fun w => .ok { w with acc := 0, cnt := 0 })
      else .ok { w with acc := accPush w.acc w.cnt b, cnt := w.cnt + 1 } := rfl

theorem cnt_succ_eq {c : BitVec 4} (hc : c.toNat ≤ 7) : c + 1 = 8#4 ↔ c.toNat = 7 := by
  have h1 : (1 : BitVec 4).toNat = 1 := rfl
  have h8 : (8#4 : BitVec 4).toNat = 8 := rfl
  rw [← BitVec.toNat_inj, BitVec.toNat_add, h1, h8]
  omega

theorem cnt_succ_toNat {c : BitVec 4} (hc : c.toNat ≤ 7) : (c + 1).toNat = c.toNat + 1 := by
  have h1 : (1 : BitVec 4).toNat = 1 := rfl
  rw [BitVec.toNat_add, h1]; omega

/-- One bit with room for it joins the stream (40_bitstream R143). -/
theorem pushBit_appended (h : w.Ok p) (b : Bool) (hr : w.Room p 1) :
    ∃ w', pushBit p.outCap b w = .ok w' ∧ Writer.Appended p w w' [b] := by
  obtain ⟨hpos, hc, ha⟩ := h
  simp only [Writer.Room, Writer.bitPos] at hr
  rw [pushBit_eq]
  by_cases h7 : w.cnt.toNat = 7
  · have hlt : w.outPos.toNat < p.outCap := by omega
    rw [if_pos ((cnt_succ_eq hc).2 h7),
      putByte_ok (w := { w with acc := accPush w.acc w.cnt b, cnt := w.cnt + 1 }) hlt]
    refine ⟨_, rfl, ?_⟩
    have hs := outPos_succ hlt
    have h0 : (0 : BitVec 4).toNat = 0 := rfl
    refine ⟨?_, ?_, ?_, ?_, ?_⟩
    · simp only [Writer.bitPos, hs, h0, List.length_singleton]; omega
    · intro i hi
      simp only [Writer.bitPos] at hi
      simp only [Writer.bitAt, hs]
      rw [if_pos (by omega)]
      by_cases h8 : i < 8 * w.outPos.toNat
      · rw [if_pos h8, Memory.read_write_other _ _ _ (by omega)]
      · have e : i / 8 = w.outPos.toNat := by omega
        rw [if_neg h8, e, Memory.read_write_same, accPush_bit hc ha, if_neg (by omega)]
        congr 1; omega
    · intro i hi
      simp only [List.length_singleton] at hi
      obtain rfl : i = 0 := by omega
      simp only [Writer.bitAt, Writer.bitPos, hs, Nat.add_zero]
      have e : (8 * w.outPos.toNat + w.cnt.toNat) / 8 = w.outPos.toNat := by omega
      rw [if_pos (by omega), e, Memory.read_write_same, accPush_bit hc ha, if_pos (by omega)]
      rfl
    · intro a ha'
      simp only [hs] at ha'
      have : a ≠ w.outPos.toNat := by rcases ha' with h | h <;> omega
      exact Memory.read_write_other _ _ _ this
    · refine ⟨?_, ?_, ?_⟩
      · simp only [hs]; omega
      · simp
      · simp
  · rw [if_neg (fun e => h7 ((cnt_succ_eq hc).1 e))]
    refine ⟨_, rfl, ?_⟩
    have hs := cnt_succ_toNat hc
    refine ⟨?_, ?_, ?_, fun _ _ => rfl, ?_⟩
    · simp only [Writer.bitPos, hs, List.length_singleton]; omega
    · intro i hi
      simp only [Writer.bitPos] at hi
      simp only [Writer.bitAt]
      split
      · rfl
      · rw [accPush_bit hc ha, if_neg (by omega)]
    · intro i hi
      simp only [List.length_singleton] at hi
      obtain rfl : i = 0 := by omega
      have e : ¬ 8 * w.outPos.toNat + w.cnt.toNat < 8 * w.outPos.toNat := by omega
      simp only [Writer.bitAt, Writer.bitPos, Nat.add_zero, e, if_false]
      rw [accPush_bit hc ha, if_pos (by omega)]
      rfl
    · exact ⟨hpos, by rw [hs]; omega, by rw [hs]; exact accPush_lt hc ha⟩

/-- One bit without room raises OutputOverflow (40_bitstream R141, R143). -/
theorem pushBit_overflow (h : w.Ok p) (b : Bool) (hr : ¬ w.Room p 1) :
    pushBit p.outCap b w = .error .outputOverflow := by
  obtain ⟨hpos, hc, -⟩ := h
  simp only [Writer.Room, Writer.bitPos] at hr
  have h7 : w.cnt.toNat = 7 := by omega
  rw [pushBit_eq, if_pos ((cnt_succ_eq hc).2 h7), putByte_overflow (by simp only; omega)]
  rfl

/-! WriteBits -/

theorem natBits_zero (v : Nat) : natBits 0 v = [] := rfl

theorem natBits_succ (n v : Nat) : natBits (n + 1) v = v.testBit 0 :: natBits n (v / 2) := by
  simp [natBits, List.range_succ_eq_map, Function.comp_def, Nat.testBit_succ]

@[simp] theorem natBits_length (n v : Nat) : (natBits n v).length = n := by simp [natBits]

theorem writeBits_succ (cap v n : Nat) (w : Writer) :
    writeBits cap v (n + 1) w = (pushBit cap (v.testBit 0) w).bind (fun w => writeBits cap (v / 2) n w) := rfl

/-- WriteBits(v, n) with room for n bits appends the n low-order bits of v (40_bitstream R143). -/
theorem writeBits_appended (h : w.Ok p) (v n : Nat) (hr : w.Room p n) :
    ∃ w', writeBits p.outCap v n w = .ok w' ∧ Writer.Appended p w w' (natBits n v) := by
  induction n generalizing w v with
  | zero => exact ⟨w, rfl, .refl h⟩
  | succ n ih =>
    obtain ⟨w₁, e₁, a₁⟩ := pushBit_appended h (v.testBit 0)
      (by simp only [Writer.Room] at hr ⊢; omega)
    obtain ⟨w₂, e₂, a₂⟩ := ih a₁.ok (v / 2)
      (by rw [a₁.room]; simpa [Nat.add_comm] using hr)
    refine ⟨w₂, by rw [writeBits_succ, e₁]; exact e₂, ?_⟩
    rw [natBits_succ]
    exact a₁.trans a₂

/-- WriteBits(v, n) without room raises OutputOverflow (40_bitstream R141, R143). -/
theorem writeBits_overflow (h : w.Ok p) (v n : Nat) (hr : ¬ w.Room p n) :
    writeBits p.outCap v n w = .error .outputOverflow := by
  induction n generalizing w v with
  | zero => exact absurd (by simp only [Writer.Room, Writer.bitPos]; have := h.1; have := h.2.1; omega) hr
  | succ n ih =>
    rw [writeBits_succ]
    by_cases h1 : w.Room p 1
    · obtain ⟨w₁, e₁, a₁⟩ := pushBit_appended h (v.testBit 0) h1
      rw [e₁]
      exact ih a₁.ok _ (by rw [a₁.room]; simpa [Nat.add_comm] using hr)
    · rw [pushBit_overflow h _ h1]; rfl

/-- Everything WriteBits can do to a writer in its invariant. -/
theorem writeBits_cases (h : w.Ok p) (v n : Nat) :
    (w.Room p n ∧ ∃ w', writeBits p.outCap v n w = .ok w' ∧ Writer.Appended p w w' (natBits n v)) ∨
      (¬ w.Room p n ∧ writeBits p.outCap v n w = .error .outputOverflow) := by
  by_cases hr : w.Room p n
  · exact .inl ⟨hr, writeBits_appended h v n hr⟩
  · exact .inr ⟨hr, writeBits_overflow h v n hr⟩

/-! A procedure that appends bits -/

/-- `f` appends `bits` where they fit and raises OutputOverflow where they do not: what every writing procedure of the
core does. -/
def Appends (p : Params) (f : Writer → Except Err Writer) (bits : List Bool) : Prop :=
  ∀ w : Writer, w.Ok p →
    (w.Room p bits.length ∧ ∃ w', f w = .ok w' ∧ Writer.Appended p w w' bits) ∨
      (¬ w.Room p bits.length ∧ f w = .error .outputOverflow)

theorem appends_writeBits (p : Params) (v n : Nat) : Appends p (writeBits p.outCap v n) (natBits n v) := by
  intro w h
  simpa using writeBits_cases h v n

theorem appends_ok (p : Params) : Appends p .ok [] := by
  intro w h
  refine .inl ⟨?_, w, rfl, .refl h⟩
  simp only [Writer.Room, Writer.bitPos, List.length_nil]
  have := h.1; have := h.2.1; omega

/-- Two appending procedures in sequence append their bits in sequence. -/
theorem Appends.bind {f g : Writer → Except Err Writer} {xs ys : List Bool} (hf : Appends p f xs)
    (hg : Appends p g ys) : Appends p (fun w => (f w).bind g) (xs ++ ys) := by
  intro w h
  simp only [List.length_append]
  rcases hf w h with ⟨hr, w₁, e₁, a₁⟩ | ⟨hr, e₁⟩
  · rcases hg w₁ a₁.ok with ⟨hr₂, w₂, e₂, a₂⟩ | ⟨hr₂, e₂⟩
    · exact .inl ⟨a₁.room.1 hr₂, w₂, by simp only [e₁]; exact e₂, a₁.trans a₂⟩
    · exact .inr ⟨fun hn => hr₂ (a₁.room.2 hn), by simp only [e₁]; exact e₂⟩
  · refine .inr ⟨fun hn => hr ?_, by simp only [e₁]; rfl⟩
    simp only [Writer.Room] at hn ⊢; omega

theorem appends_writeBytes (p : Params) (bytes : List Byte) :
    Appends p (writeBytes p.outCap bytes) (bytes.flatMap (fun b => natBits 8 b.toNat)) := by
  induction bytes with
  | nil => exact appends_ok p
  | cons b rest ih => exact (appends_writeBits p b.toNat 8).bind ih

theorem appends_writeHeader (p : Params) (final : Bool) (btype : Nat) :
    Appends p (writeHeader p.outCap final btype) (blockHeader final btype) :=
  (appends_writeBits p (bitOf final) 1).bind (appends_writeBits p btype 2)

theorem appends_writeEach (p : Params) (n : Nat) (vs : List Nat) :
    Appends p (writeEach p.outCap n vs) (vs.flatMap (natBits n)) := by
  induction vs with
  | nil => exact appends_ok p
  | cons v rest ih => exact (appends_writeBits p v n).bind ih

/-! Codes -/

theorem revBits_testBit (n c i : Nat) : (revBits n c).testBit i = (decide (i < n) && c.testBit (n - 1 - i)) := by
  induction n generalizing i with
  | zero => simp [revBits]
  | succ n ih =>
    cases i with
    | zero =>
      simp only [revBits, Nat.testBit_zero, Nat.add_sub_cancel, Nat.sub_zero]
      cases c.testBit n <;> simp
    | succ i =>
      rw [Nat.testBit_succ]
      have : ((c.testBit n).toNat + 2 * revBits n c) / 2 = revBits n c := by
        have := Bool.toNat_le (c.testBit n); omega
      rw [revBits, this, ih]
      have e : n + 1 - 1 - (i + 1) = n - 1 - i := by omega
      rw [e]; simp

theorem natBits_revBits (n c : Nat) :
    natBits n (revBits n c) = (List.range n).map (fun i => c.testBit (n - 1 - i)) := by
  apply List.ext_getElem (by simp [natBits])
  intro i h _
  have : i < n := by simpa using h
  simp [natBits, revBits_testBit, this]

/-- Encode(T, s) appends the code of s, most significant bit first (41_huffman R180). -/
theorem appends_encodeSymbol (p : Params) (t : Table) (s : Nat) :
    Appends p (encodeSymbol p.outCap t s) (t.codeBits s) := by
  have := appends_writeBits p (revBits (t.lenOf s) (t.code s)) (t.lenOf s)
  rwa [natBits_revBits] at this

end Sys2Proof.Machine
end

