-- ==== Sys2Proof/Laws/Reader.lean ====
section
/-! SUPPORT. What the reader's primitives do: each moves the cursor along the bits that remain and returns them, or
raises UnexpectedEnd exactly when fewer remain. -/

namespace Sys2Proof.Machine

open Sys2Proof

variable {p : Params} {r : Reader} {inb : Nat → Byte}

/-! The cursor -/

theorem Reader.Ok.bitPos_le (h : r.Ok p) : r.bitPos ≤ 8 * r.lim.toNat := by
  obtain ⟨hle, -, hz⟩ := h
  simp only [Reader.bitPos]
  have hb := r.bit.isLt
  rcases Nat.lt_or_ge r.pos.toNat r.lim.toNat with hlt | hge
  · omega
  · have e : r.pos = r.lim := BitVec.eq_of_toNat_eq (by omega)
    have : r.bit.toNat = 0 := by rw [hz e]; rfl
    omega

theorem Reader.Ok.remaining_eq (h : r.Ok p) : r.remaining = (r.left : Int) := by
  have := h.bitPos_le
  simp only [Reader.remaining, Reader.left, Reader.bitPos] at *
  omega

theorem Reader.Ok.lim_lt (h : r.Ok p) : 8 * r.lim.toNat ≤ 8 * 2 ^ 31 := by
  have := h.2.1; have := p.inSize_bounds.2; omega

theorem Reader.skip_bitPos (h : r.Ok p) {n : Nat} (hn : n ≤ r.left) : (r.skip n).bitPos = r.bitPos + n := by
  have h1 := h.bitPos_le
  have h2 := h.lim_lt
  simp only [Reader.left] at hn
  simp only [Reader.skip]
  rw [Reader.bitPos]
  simp only [BitVec.toNat_ofNat]
  omega

@[simp] theorem Reader.skip_lim (r : Reader) (n : Nat) : (r.skip n).lim = r.lim := rfl

theorem Reader.skip_left (h : r.Ok p) {n : Nat} (hn : n ≤ r.left) : (r.skip n).left = r.left - n := by
  rw [Reader.left, Reader.skip_bitPos h hn, Reader.left, Reader.skip_lim]; omega

/-- The cursor stays in its invariant along the bits that remain. -/
theorem Reader.skip_ok (h : r.Ok p) {n : Nat} (hn : n ≤ r.left) : (r.skip n).Ok p := by
  have h1 := h.bitPos_le
  have h2 := h.lim_lt
  have hp : (r.bitPos + n) / 8 < 2 ^ 32 := by simp only [Reader.left] at hn; omega
  refine ⟨?_, h.2.1, ?_⟩
  · simp only [Reader.skip, BitVec.toNat_ofNat, Reader.left] at *
    omega
  · intro e
    have e' := congrArg BitVec.toNat e
    simp only [Reader.skip, BitVec.toNat_ofNat] at e'
    rw [Nat.mod_eq_of_lt hp] at e'
    simp only [Reader.left] at hn
    have : (r.bitPos + n) % 8 = 0 := by omega
    simp only [Reader.skip, this]
    rfl

theorem Reader.eq_of_bitPos {r r' : Reader} (hb : r.bitPos = r'.bitPos) (hl : r.lim = r'.lim) : r = r' := by
  obtain ⟨a, l, b⟩ := r
  obtain ⟨a', l', b'⟩ := r'
  simp only [Reader.bitPos] at hb hl
  have := b.isLt; have := b'.isLt
  subst hl
  have h1 : a = a' := BitVec.eq_of_toNat_eq (by omega)
  have h2 : b = b' := BitVec.eq_of_toNat_eq (by omega)
  rw [h1, h2]

theorem Reader.skip_zero (r : Reader) : r.skip 0 = r := by
  obtain ⟨a, l, b⟩ := r
  have := b.isLt; have := a.isLt
  simp only [Reader.skip, Reader.bitPos, Nat.add_zero]
  congr 1
  · exact BitVec.eq_of_toNat_eq (by rw [BitVec.toNat_ofNat]; omega)
  · exact BitVec.eq_of_toNat_eq (by rw [BitVec.toNat_ofNat]; omega)

theorem Reader.skip_skip (h : r.Ok p) {m n : Nat} (hn : m + n ≤ r.left) : (r.skip m).skip n = r.skip (m + n) := by
  have hl := Reader.skip_left h (n := m) (by omega)
  apply Reader.eq_of_bitPos
  · rw [Reader.skip_bitPos (Reader.skip_ok h (by omega)) (by omega), Reader.skip_bitPos h (by omega),
      Reader.skip_bitPos h hn, Nat.add_assoc]
  · rfl

/-! The bits -/

@[simp] theorem Reader.next_length (n : Nat) (r : Reader) : (r.next inb n).length = n := by simp [Reader.next]

@[simp] theorem Reader.rest_length (r : Reader) : (r.rest inb).length = r.left := by simp [Reader.rest]

theorem Reader.next_zero (r : Reader) : r.next inb 0 = [] := rfl

/-- The next m + n bits are the next m and, from there, the next n. -/
theorem Reader.next_add (h : r.Ok p) {m n : Nat} (hn : m + n ≤ r.left) :
    r.next inb (m + n) = r.next inb m ++ (r.skip m).next inb n := by
  apply List.ext_getElem
  · simp
  intro i h1 _
  simp only [Reader.next_length] at h1
  by_cases hi : i < m
  · rw [List.getElem_append_left (by simpa using hi)]
    simp [Reader.next]
  · rw [List.getElem_append_right (by simp; omega)]
    simp only [Reader.next, Reader.skip_bitPos h (by omega : m ≤ r.left), List.getElem_map, List.getElem_range,
      List.length_map, List.length_range]
    have e : r.bitPos + m + (i - m) = r.bitPos + i := by omega
    rw [e]

/-- What remains is the next n bits and what remains after them. -/
theorem Reader.rest_eq (h : r.Ok p) {n : Nat} (hn : n ≤ r.left) :
    r.rest inb = r.next inb n ++ (r.skip n).rest inb := by
  rw [Reader.rest, Reader.rest, Reader.skip_left h hn, ← Reader.next_add h (by omega)]
  congr 1; omega

theorem Reader.next_eq_take (h : r.Ok p) {n : Nat} (hn : n ≤ r.left) : r.next inb n = (r.rest inb).take n := by
  rw [Reader.rest_eq h hn, List.take_append_of_le_length (by simp), List.take_of_length_le (by simp)]

theorem Reader.rest_skip (h : r.Ok p) {n : Nat} (hn : n ≤ r.left) : (r.skip n).rest inb = (r.rest inb).drop n := by
  rw [Reader.rest_eq h hn, List.drop_append_of_le_length (by simp), List.drop_of_length_le (by simp), List.nil_append]

/-- Bits that begin what remains are the next bits, and they fit. -/
theorem Reader.next_of_prefix (h : r.Ok p) {bits : List Bool} (hp : bits <+: r.rest inb) :
    bits.length ≤ r.left ∧ r.next inb bits.length = bits := by
  have hl : bits.length ≤ r.left := by simpa using hp.length_le
  refine ⟨hl, ?_⟩
  rw [Reader.next_eq_take h hl]
  exact (List.prefix_iff_eq_take.1 hp).symm

theorem Reader.prefix_skip (h : r.Ok p) {xs ys : List Bool} (hp : xs ++ ys <+: r.rest inb) :
    ys <+: (r.skip xs.length).rest inb := by
  have hl : xs.length ≤ r.left := by
    have := hp.length_le
    simp only [List.length_append, Reader.rest_length] at this; omega
  rw [Reader.rest_skip h hl]
  obtain ⟨t, ht⟩ := hp
  exact ⟨t, by rw [← ht]; simp⟩

/-! Numbers and bits -/

theorem bitsNat_lt (bs : List Bool) : bitsNat bs < 2 ^ bs.length := by
  induction bs with
  | nil => simp [bitsNat]
  | cons b rest ih =>
    have := Bool.toNat_le b
    simp only [bitsNat, List.length_cons, Nat.pow_succ]
    omega

theorem natBits_bitsNat (bs : List Bool) : natBits bs.length (bitsNat bs) = bs := by
  induction bs with
  | nil => rfl
  | cons b rest ih =>
    have e : (b.toNat + 2 * bitsNat rest) / 2 = bitsNat rest := by
      have := Bool.toNat_le b; omega
    rw [List.length_cons, natBits_succ, bitsNat, e, ih]
    congr 1
    rw [Nat.testBit_zero]
    cases b <;> simp

theorem bitsNat_natBits (n v : Nat) : bitsNat (natBits n v) = v % 2 ^ n := by
  induction n generalizing v with
  | zero => simp [natBits_zero, bitsNat, Nat.mod_one]
  | succ n ih =>
    rw [natBits_succ, bitsNat, ih, Nat.testBit_zero, Nat.pow_succ', Nat.mod_mul]
    rcases Nat.mod_two_eq_zero_or_one v with h | h <;> simp [h]

/-! ReadBits -/

theorem Reader.advance_eq (h : r.Ok p) (h1 : 1 ≤ r.left) : r.advance = r.skip 1 := by
  have hb := h.bitPos_le
  have hl := h.lim_lt
  simp only [Reader.left] at h1
  have h7 : (7#3 : BitVec 3).toNat = 7 := rfl
  have hbit := r.bit.isLt
  apply Reader.eq_of_bitPos
  · rw [Reader.skip_bitPos h (by simp only [Reader.left]; omega)]
    unfold Reader.advance
    split
    · rename_i e
      have e' : r.bit.toNat = 7 := by rw [e]; rfl
      have o1 : (1 : Word).toNat = 1 := rfl
      have o0 : (0 : BitVec 3).toNat = 0 := rfl
      simp only [Reader.bitPos, BitVec.toNat_add, o1, o0] at *
      omega
    · rename_i e
      have e' : r.bit.toNat ≠ 7 := fun e' => e (BitVec.eq_of_toNat_eq (by rw [e', h7]))
      have o1 : (1 : BitVec 3).toNat = 1 := rfl
      simp only [Reader.bitPos, BitVec.toNat_add, o1] at *
      omega
  · unfold Reader.advance; split <;> rfl

theorem Reader.nextBit_eq (r : Reader) : r.next inb 1 = [r.nextBit inb] := by
  have := r.bit.isLt
  have e1 : (8 * r.pos.toNat + r.bit.toNat) / 8 = r.pos.toNat := by omega
  have e2 : (8 * r.pos.toNat + r.bit.toNat) % 8 = r.bit.toNat := by omega
  simp [Reader.next, Reader.nextBit, Reader.bitPos, e1, e2]

/-- The loop of ReadBits gives the next n bits, the first as bit 0, and the cursor past them (40_bitstream R151). -/
theorem takeBits_eq (h : r.Ok p) {n : Nat} (hn : n ≤ r.left) :
    takeBits inb n r = (bitsNat (r.next inb n), r.skip n) := by
  induction n generalizing r with
  | zero => simp [takeBits, Reader.next_zero, bitsNat, Reader.skip_zero]
  | succ n ih =>
    have e := Reader.advance_eq h (by omega)
    have h1 : (r.skip 1).Ok p := Reader.skip_ok h (by omega)
    have hl := Reader.skip_left h (n := 1) (by omega)
    rw [takeBits, e, ih h1 (by omega)]
    rw [Nat.add_comm n 1, Reader.next_add h (by omega), Reader.nextBit_eq, Reader.skip_skip h (by omega)]
    rfl

theorem readBits_ok (h : r.Ok p) {n : Nat} (hn : n ≤ r.left) :
    readBits inb n r = .ok (bitsNat (r.next inb n), r.skip n) := by
  rw [readBits, h.remaining_eq, if_neg (by omega), takeBits_eq h hn]

theorem readBits_end (h : r.Ok p) {n : Nat} (hn : r.left < n) : readBits inb n r = .error .unexpectedEnd := by
  rw [readBits, h.remaining_eq, if_pos (by omega)]

/-- Everything ReadBits can do to a cursor in its invariant (40_bitstream R151). -/
theorem readBits_cases (inb : Nat → Byte) (h : r.Ok p) (n : Nat) :
    (n ≤ r.left ∧ readBits inb n r = .ok (bitsNat (r.next inb n), r.skip n)) ∨
      (r.left < n ∧ readBits inb n r = .error .unexpectedEnd) := by
  rcases Nat.lt_or_ge r.left n with hn | hn
  · exact .inr ⟨hn, readBits_end h hn⟩
  · exact .inl ⟨hn, readBits_ok h hn⟩

/-- ReadBits where the bits of a number come next. -/
theorem readBits_natBits (h : r.Ok p) {n v : Nat} (hv : v < 2 ^ n) (hp : natBits n v <+: r.rest inb) :
    readBits inb n r = .ok (v, r.skip n) := by
  obtain ⟨hl, hn⟩ := Reader.next_of_prefix h hp
  rw [natBits_length] at hl hn
  rw [readBits_ok h hl, hn, bitsNat_natBits, Nat.mod_eq_of_lt hv]

/-! AlignToByte -/

/-- The bits AlignToByte discards are there: a partly read byte lies below BR_END (40_bitstream R152). -/
theorem Reader.Ok.align_le (h : r.Ok p) : (8 - r.bit.toNat) % 8 ≤ r.left := by
  have hb := h.bitPos_le
  have := r.bit.isLt
  simp only [Reader.left, Reader.bitPos] at *
  omega

/-- Everything AlignToByte can do to a cursor in its invariant (40_bitstream R152). -/
theorem alignToByte_eq (h : r.Ok p) :
    alignToByte r = ((8 - r.bit.toNat) % 8, r.skip ((8 - r.bit.toNat) % 8)) := by
  have ha := h.align_le
  have hl := h.lim_lt
  have hbp := h.bitPos_le
  have hb := r.bit.isLt
  unfold alignToByte
  split
  · rename_i e
    have : r.bit.toNat = 0 := by rw [e]; rfl
    simp [this, Reader.skip_zero]
  · rename_i e
    have h0 : r.bit.toNat ≠ 0 := fun e' => e (BitVec.eq_of_toNat_eq (by rw [e']; rfl))
    have e8 : (8 - r.bit.toNat) % 8 = 8 - r.bit.toNat := by omega
    rw [e8] at ha ⊢
    congr 1
    apply Reader.eq_of_bitPos
    · rw [Reader.skip_bitPos h ha]
      have o1 : (1 : Word).toNat = 1 := rfl
      have o0 : (0 : BitVec 3).toNat = 0 := rfl
      simp only [Reader.bitPos, Reader.left, BitVec.toNat_add, o1, o0] at *
      omega
    · rfl

end Sys2Proof.Machine
end

