-- ==== Sys2Proof/Laws/Window.lean ====
section
/-! SUPPORT. What EmitByte, Copy and the data loop of a stored block do: each emits its bytes to OUT and to the window, or
raises OutputOverflow exactly when they do not fit. -/

namespace Sys2Proof.Machine

open Sys2Proof

variable {p : Params} {st st' st₁ st₂ : Stream} {win : Window}

/-! The window's history -/

@[simp] theorem Window.history_length (win : Window) : win.history.length = win.fill.toNat := by
  simp [Window.history]

theorem Window.history_get (win : Window) {i : Nat} (h : i < win.fill.toNat) :
    win.history.getD i 0 = win.back (i + 1) := by
  simp [Window.history, List.getD, h]

/-- The window with one more byte (44_inflate R280). -/
def Window.push (win : Window) (b : Byte) : Window where
  bytes := win.bytes.write win.pos.toNat b
  pos := win.pos + 1
  fill := BitVec.ofNat 32 (min (win.fill.toNat + 1) Config.wsize)

theorem Window.push_fill (win : Window) (b : Byte) :
    (win.push b).fill.toNat = min (win.fill.toNat + 1) Config.wsize := by
  simp only [Window.push, BitVec.toNat_ofNat, Config.wsize]; omega

theorem Window.push_back_one (win : Window) (b : Byte) : (win.push b).back 1 = b := by
  have e : win.pos + 1 - BitVec.ofNat 15 1 = win.pos := by
    rw [show (BitVec.ofNat 15 1) = (1 : BitVec 15) from rfl, BitVec.add_sub_cancel]
  simp only [Window.push, Window.back, e, Memory.read_write_same]

theorem Window.push_index (pos : BitVec 15) (d : Nat) :
    pos + 1 - BitVec.ofNat 15 (d + 1) = pos - BitVec.ofNat 15 d := by
  apply BitVec.eq_of_toNat_eq
  have o1 : (1 : BitVec 15).toNat = 1 := rfl
  have := pos.isLt
  simp only [BitVec.toNat_sub, BitVec.toNat_add, BitVec.toNat_ofNat, o1]
  omega

theorem Window.index_ne (pos : BitVec 15) {d : Nat} (h1 : 1 ≤ d) (h2 : d < 32768) :
    (pos - BitVec.ofNat 15 d).toNat ≠ pos.toNat := by
  have := pos.isLt
  simp only [BitVec.toNat_sub, BitVec.toNat_ofNat]
  omega

theorem Window.push_back (win : Window) (b : Byte) {d : Nat} (h1 : 1 ≤ d) (h2 : d < 32768) :
    (win.push b).back (d + 1) = win.back d := by
  simp only [Window.push, Window.back, Window.push_index]
  exact Memory.read_write_other _ _ _ (Window.index_ne _ h1 h2)

/-- Pushing a byte puts it before the history; the oldest byte falls out when the window is full (10_state R33, R38). -/
theorem Window.push_history (win : Window) (b : Byte) (h : win.Ok) :
    (win.push b).history = (b :: win.history).take Config.wsize := by
  have hf := h.1
  apply List.ext_getElem
  · simp only [Window.history_length, Window.push_fill, List.length_take, List.length_cons]; omega
  intro i h1 h2
  simp only [Window.history_length, Window.push_fill] at h1
  simp only [Config.wsize] at h1 hf
  rw [List.getElem_take]
  cases i with
  | zero => simp [Window.history, Window.push_back_one]
  | succ i =>
    simp only [Window.history, List.getElem_map, List.getElem_range, List.getElem_cons_succ]
    exact Window.push_back win b (by omega) (by omega)

theorem Window.push_ok (win : Window) (b : Byte) (h : win.Ok) : (win.push b).Ok := by
  obtain ⟨hf, hp, hl⟩ := h
  simp only [Config.wsize] at hf hp
  refine ⟨?_, ?_, ?_⟩
  · rw [Window.push_fill]; omega
  · intro hlt
    rw [Window.push_fill] at hlt ⊢
    simp only [Config.wsize] at hlt ⊢
    have o1 : (1 : BitVec 15).toNat = 1 := rfl
    have := hp (by omega)
    simp only [Window.push, BitVec.toNat_add, o1]
    omega
  · intro i hi
    rw [Window.push_fill] at hi
    simp only [Config.wsize] at hi
    simp only [Window.push, Memory.write, lookupCell_insertCell]
    cases i with
    | zero =>
      have e : win.pos + 1 - BitVec.ofNat 15 1 = win.pos := by
        rw [show (BitVec.ofNat 15 1) = (1 : BitVec 15) from rfl, BitVec.add_sub_cancel]
      rw [Nat.zero_add, e, if_pos rfl]; rfl
    | succ i =>
      rw [Window.push_index, if_neg (Window.index_ne _ (by omega) (by omega))]
      exact hl i (by omega)

/-! EmitByte -/

/-- The stream state after EmitByte(b) with room for it. -/
def Stream.emit (st : Stream) (b : Byte) : Stream :=
  { st with
    writer :=
      { st.writer with
        out := st.writer.out.write st.writer.outPos.toNat b
        outPos := st.writer.outPos + 1 }
    window := st.window.push b }

/-- Everything EmitByte can do (44_inflate R280). -/
theorem emitByte_cases (cap : Nat) (b : Byte) (st : Stream) :
    (st.writer.outPos.toNat < cap ∧ emitByte cap b st = .ok (st.emit b)) ∨
      (cap ≤ st.writer.outPos.toNat ∧ emitByte cap b st = .error .outputOverflow) := by
  rcases putByte_cases cap b st.writer with ⟨h, e⟩ | ⟨h, e⟩
  · exact .inr ⟨h, by rw [emitByte, e]; rfl⟩
  · exact .inl ⟨h, by rw [emitByte, e]; rfl⟩

theorem Stream.Emitted.refl (h : st.window.Ok) : st.Emitted st [] where
  outPos := by simp
  written i h := absurd h (by simp)
  outside _ _ := rfl
  pending := ⟨rfl, rfl⟩
  history := by
    rw [List.reverse_nil, List.nil_append, List.take_of_length_le]
    rw [Window.history_length]; exact h.1
  windowOk := h

theorem Stream.Emitted.trans {xs ys : List Byte} (h₁ : st.Emitted st₁ xs) (h₂ : st₁.Emitted st₂ ys) :
    st.Emitted st₂ (xs ++ ys) where
  outPos := by rw [h₂.outPos, h₁.outPos, List.length_append, Nat.add_assoc]
  written i hi := by
    rw [List.length_append] at hi
    have hp := h₁.outPos
    by_cases hx : i < xs.length
    · rw [h₂.outside _ (.inl (by omega)), h₁.written i hx, List.getElem_append_left hx]
    · rw [List.getElem_append_right (by omega), ← h₂.written _ (by omega), hp]
      congr 1; omega
  outside a ha := by
    have hp := h₁.outPos
    have hq := h₂.outPos
    rw [h₂.outside a (by omega), h₁.outside a (by omega)]
  pending := ⟨h₂.pending.1.trans h₁.pending.1, h₂.pending.2.trans h₁.pending.2⟩
  history := by
    rw [h₂.history, h₁.history, List.reverse_append, List.append_assoc]
    have : ∀ (as bs : List Byte) (n : Nat), (as ++ bs.take n).take n = (as ++ bs).take n := by
      intro as bs n
      rw [List.take_append, List.take_append, List.take_take]
      congr 2; omega
    rw [this]
  windowOk := h₂.windowOk

theorem Stream.emit_emitted (b : Byte) (h : st.window.Ok) (hc : st.writer.outPos.toNat < p.outCap) :
    st.Emitted (st.emit b) [b] := by
  have hs := outPos_succ (w := st.writer) hc
  refine ⟨?_, ?_, ?_, ⟨rfl, rfl⟩, ?_, Window.push_ok _ _ h⟩
  · simpa [Stream.emit] using hs
  · intro i hi
    simp only [List.length_singleton] at hi
    obtain rfl : i = 0 := by omega
    simp [Stream.emit]
  · intro a ha
    simp only [Stream.emit, hs] at ha ⊢
    exact Memory.read_write_other _ _ _ (by omega)
  · simpa [Stream.emit] using Window.push_history st.window b h

/-! Procedures that emit -/

/-- What an emitting procedure keeps. -/
structure Stream.SameButEmitted (st st' : Stream) : Prop where
  reader : st'.reader = st.reader
  litlen : st'.litlen = st.litlen
  dist : st'.dist = st.dist
  clen : st'.clen = st.clen

theorem Stream.SameButEmitted.trans (h₁ : st.SameButEmitted st₁) (h₂ : st₁.SameButEmitted st₂) :
    st.SameButEmitted st₂ where
  reader := h₂.reader.trans h₁.reader
  litlen := h₂.litlen.trans h₁.litlen
  dist := h₂.dist.trans h₁.dist
  clen := h₂.clen.trans h₁.clen

/-- EmitByte in its two cases, with what it emits. -/
theorem emitByte_emitted (b : Byte) (h : st.window.Ok) :
    (st.writer.outPos.toNat + 1 ≤ p.outCap ∧
        ∃ st', emitByte p.outCap b st = .ok st' ∧ st.Emitted st' [b] ∧ st.SameButEmitted st') ∨
      (p.outCap < st.writer.outPos.toNat + 1 ∧ emitByte p.outCap b st = .error .outputOverflow) := by
  rcases emitByte_cases p.outCap b st with ⟨hc, e⟩ | ⟨hc, e⟩
  · exact .inl ⟨hc, _, e, Stream.emit_emitted b h hc, rfl, rfl, rfl, rfl⟩
  · exact .inr ⟨by omega, e⟩

/-- The bytes of a match, oldest first, with `hist` before them, newest first (42_lz77 R217(c)). -/
def copied (d : Nat) : Nat → List Byte → List Byte
  | 0, _ => []
  | l + 1, hist => hist.getD (d - 1) 0 :: copied d l (hist.getD (d - 1) 0 :: hist)

@[simp] theorem copied_length (d l : Nat) (hist : List Byte) : (copied d l hist).length = l := by
  induction l generalizing hist with
  | zero => rfl
  | succ l ih => simp [copied, ih]

/-- Replaying a match puts its bytes before the history. -/
theorem replayToken_mtch (l d : Nat) (hist : List Byte) :
    replayToken hist (.mtch l d) = (copied d l hist).reverse ++ hist := by
  simp only [replayToken]
  induction l generalizing hist with
  | zero => rfl
  | succ l ih => rw [Function.iterate_succ_apply, ih]; simp [copied]

/-- Only the newest 32768 bytes matter to a legal distance. -/
theorem copied_take (d l : Nat) (hist : List Byte) (h1 : 1 ≤ d) (h2 : d ≤ Config.wsize) :
    copied d l (hist.take Config.wsize) = copied d l hist := by
  induction l generalizing hist with
  | zero => rfl
  | succ l ih =>
    have e : (hist.take Config.wsize).getD (d - 1) 0 = hist.getD (d - 1) 0 := by
      simp only [List.getD, List.getElem?_take]
      rw [if_pos (by omega)]
    simp only [copied, e]
    congr 1
    rw [← ih (_ :: hist.take _), ← ih (_ :: hist)]
    congr 1
    rw [List.take_cons (by decide), List.take_cons (by decide), List.take_take]
    congr 2

/-- Everything the loop of Copy(l, d) can do where d is legal (44_inflate R289). -/
theorem copyBytes_cases (l d : Nat) (h : st.window.Ok) (h1 : 1 ≤ d) (h2 : d ≤ st.window.fill.toNat) :
    (st.writer.outPos.toNat + l ≤ p.outCap ∧
        ∃ st', copyBytes p.outCap l d st = .ok st' ∧ st.Emitted st' (copied d l st.window.history) ∧
          st.SameButEmitted st') ∨
      (p.outCap < st.writer.outPos.toNat + l ∧
        (st.writer.outPos.toNat ≤ p.outCap → copyBytes p.outCap l d st = .error .outputOverflow)) := by
  induction l generalizing st with
  | zero =>
    rcases Nat.lt_or_ge p.outCap st.writer.outPos.toNat with hc | hc
    · exact .inr ⟨hc, fun hn => absurd hn (by omega)⟩
    · exact .inl ⟨hc, st, rfl, .refl h, rfl, rfl, rfl, rfl⟩
  | succ l ih =>
    have hb : st.window.history.getD (d - 1) 0 = st.window.back d := by
      rw [Window.history_get _ (by omega)]; congr 1; omega
    have hf := h.1
    simp only [Config.wsize] at hf
    rcases emitByte_emitted (p := p) (st.window.back d) h with ⟨hc, st₁, e₁, a₁, k₁⟩ | ⟨hc, e₁⟩
    · have hp := a₁.outPos
      simp only [List.length_singleton] at hp
      have hfill : d ≤ st₁.window.fill.toNat := by
        rw [← Window.history_length, a₁.history]
        simp only [List.length_take, List.length_append, Window.history_length, List.reverse_cons,
          List.reverse_nil, List.nil_append, List.length_singleton, Config.wsize]
        omega
      have hcons : copied d (l + 1) st.window.history =
          [st.window.back d] ++ copied d l st₁.window.history := by
        rw [copied, hb, a₁.history, copied_take _ _ _ h1 (by simp only [Config.wsize]; omega)]; rfl
      rcases ih a₁.windowOk hfill with ⟨hr, st₂, e₂, a₂, k₂⟩ | ⟨hr, e₂⟩
      · refine .inl ⟨by omega, st₂, ?_, ?_, k₁.trans k₂⟩
        · rw [copyBytes, e₁]; exact e₂
        · rw [hcons]; exact a₁.trans a₂
      · refine .inr ⟨by omega, fun _ => ?_⟩
        rw [copyBytes, e₁]; exact e₂ (by omega)
    · refine .inr ⟨by omega, fun _ => ?_⟩
      rw [copyBytes, e₁]; rfl

/-- Everything Copy(l, d) can do for 1 ≤ d, on a writer within OUT (44_inflate R289). -/
theorem copyMatch_cases (l d : Nat) (h : st.window.Ok) (h1 : 1 ≤ d) (hw : st.writer.outPos.toNat ≤ p.outCap) :
    (st.window.fill.toNat < d ∧ copyMatch p.outCap l d st = .error .invalidDistance) ∨
      (d ≤ st.window.fill.toNat ∧ st.writer.outPos.toNat + l ≤ p.outCap ∧
        ∃ st', copyMatch p.outCap l d st = .ok st' ∧ st.Emitted st' (copied d l st.window.history) ∧
          st.SameButEmitted st') ∨
      (d ≤ st.window.fill.toNat ∧ p.outCap < st.writer.outPos.toNat + l ∧
        copyMatch p.outCap l d st = .error .outputOverflow) := by
  rcases Nat.lt_or_ge st.window.fill.toNat d with hd | hd
  · exact .inl ⟨hd, by rw [copyMatch, if_pos hd]⟩
  · have e : copyMatch p.outCap l d st = copyBytes p.outCap l d st := by rw [copyMatch, if_neg (by omega)]
    rw [e]
    rcases copyBytes_cases l d h h1 hd with ⟨hc, h⟩ | ⟨hc, h⟩
    · exact .inr (.inl ⟨hd, hc, h⟩)
    · exact .inr (.inr ⟨hd, hc, h hw⟩)

end Sys2Proof.Machine
end

