-- ==== Sys2Proof/Laws/Outcome.lean ====
section
/-! SUPPORT. What an instruction can end in, said once for all of them, and the shared operand checks. -/

namespace Sys2Proof.Machine

open Sys2Proof

/-! Checks -/

@[simp] theorem failIf_true (e : Err) : failIf true e = .error e := rfl
@[simp] theorem failIf_false (e : Err) : failIf false e = .ok () := rfl

theorem checkRange_ok {p : Params} {start n : Nat} (h : start + n ≤ p.inSize) : checkRange p start n = .ok () := by
  rw [checkRange, if_neg (by omega)]

theorem checkRange_error {p : Params} {start n : Nat} (h : p.inSize < start + n) :
    checkRange p start n = .error .invalidRange := by rw [checkRange, if_pos h]

@[simp] theorem except_ok_bind {ε α β : Type} (a : α) (f : α → Except ε β) : (Except.ok a >>= f) = f a := rfl
@[simp] theorem except_error_bind {ε α β : Type} (e : ε) (f : α → Except ε β) :
    ((Except.error e : Except ε α) >>= f) = .error e := rfl

/-- What a sequence that ends without `raise` went through. -/
theorem except_bind_ok {ε α β : Type} {x : Except ε α} {f : α → Except ε β} {b : β} (h : (x >>= f) = .ok b) :
    ∃ a, x = .ok a ∧ f a = .ok b := by
  cases x with
  | error e => cases h
  | ok a => exact ⟨a, rfl, h⟩

@[simp] theorem tableIdOf_number (id : TableId) : tableIdOf (tableNumber id) = .ok id := by cases id <;> rfl

theorem tableIdOf_bad {n : Nat} (h : 2 < n) : tableIdOf n = .error .invalidCommand := by
  rw [tableIdOf, if_neg (by omega), if_neg (by omega), if_neg (by omega)]

/-! Completing -/

/-- A command ends with its results or with its error. -/
theorem conclude_cases (r : Except Err Result) (s : State) :
    (∃ v, r = .ok v ∧ conclude r s = .next (complete v s)) ∨ (∃ e, r = .error e ∧ conclude r s = .next (raise e s)) := by
  cases r with
  | ok v => exact .inl ⟨v, rfl, rfl⟩
  | error e => exact .inr ⟨e, rfl, rfl⟩

/-- A block ends its command, with results or with an error, or leaves a DECOMPRESS at the next header (log 9). -/
theorem concludeBlock_cases (final : Bool) (r : Except Err (Nat × Stream)) (s : State) :
    (∃ k st, r = .ok (k, st) ∧ concludeBlock final r s = .next (blockEnd final k st s)) ∨
      (∃ e, r = .error e ∧ concludeBlock final r s = .next (raise e s)) := by
  cases r with
  | error e => exact .inr ⟨e, rfl, rfl⟩
  | ok v =>
    refine .inl ⟨v.1, v.2, rfl, ?_⟩
    simp only [concludeBlock, blockEnd, decompressResult]
    split
    · split <;> rfl
    · rfl

/-- What a block leaves of its command. -/
theorem blockEnd_cases (final : Bool) (k : Nat) (st : Stream) (s : State) :
    (∃ v : Result, v.stream = st ∧ blockEnd final k st s = complete v s) ∨
      (s.latch.word = 0x48#32 ∧ final = false ∧ blockEnd final k st s = { s with run := .inflating, stream := st }) := by
  unfold blockEnd
  split
  · rename_i h
    cases final
    · exact .inr ⟨h, rfl, rfl⟩
    · exact .inl ⟨_, rfl, rfl⟩
  · exact .inl ⟨_, rfl, rfl⟩

/-- Everything an instruction can end in: an error, a completion, or the next block boundary of a DECOMPRESS.
RESET_STREAM also clears ERROR and ERR. -/
theorem exec_cases (i : Instr) (s : State) :
    (∃ e, exec i s = .next (raise e s)) ∨
      (∃ v, i ≠ .resetStream ∧ exec i s = .next (complete v s)) ∨
      (i = .resetStream ∧
        exec i s = .next (complete ⟨clearStream s.stream, 0, 0⟩ { s with error := false, err := none })) ∨
      (∃ st, s.latch.word = 0x48#32 ∧ exec i s = .next { s with run := .inflating, stream := st }) := by
  have hc : ∀ r : Except Err Result, (∃ e, conclude r s = .next (raise e s)) ∨ (∃ v, conclude r s = .next (complete v s)) := by
    intro r
    rcases conclude_cases r s with ⟨v, -, h⟩ | ⟨e, -, h⟩
    · exact .inr ⟨v, h⟩
    · exact .inl ⟨e, h⟩
  have hb : ∀ (f : Bool) (r : Except Err (Nat × Stream)),
      (∃ e, concludeBlock f r s = .next (raise e s)) ∨ (∃ v, concludeBlock f r s = .next (complete v s)) ∨
        (∃ st, s.latch.word = 0x48#32 ∧ concludeBlock f r s = .next { s with run := .inflating, stream := st }) := by
    intro f r
    rcases concludeBlock_cases f r s with ⟨k, st, -, h⟩ | ⟨e, -, h⟩
    · rcases blockEnd_cases f k st s with ⟨v, -, h'⟩ | ⟨hw, -, h'⟩
      · exact .inr (.inl ⟨v, by rw [h, h']⟩)
      · exact .inr (.inr ⟨st, hw, by rw [h, h']⟩)
    · exact .inl ⟨e, h⟩
  have lift : ∀ {o : Host.Outcome State Fault Refusal}, i ≠ .resetStream →
      ((∃ e, o = .next (raise e s)) ∨ (∃ v, o = .next (complete v s))) →
      (∃ e, o = .next (raise e s)) ∨ (∃ v, i ≠ .resetStream ∧ o = .next (complete v s)) ∨
        (i = .resetStream ∧
          o = .next (complete ⟨clearStream s.stream, 0, 0⟩ { s with error := false, err := none })) ∨
        (∃ st, s.latch.word = 0x48#32 ∧ o = .next { s with run := .inflating, stream := st }) := by
    rintro o hi (h | ⟨v, h⟩)
    · exact .inl h
    · exact .inr (.inl ⟨v, hi, h⟩)
  have liftB : ∀ {o : Host.Outcome State Fault Refusal}, i ≠ .resetStream →
      ((∃ e, o = .next (raise e s)) ∨ (∃ v, o = .next (complete v s)) ∨
        (∃ st, s.latch.word = 0x48#32 ∧ o = .next { s with run := .inflating, stream := st })) →
      (∃ e, o = .next (raise e s)) ∨ (∃ v, i ≠ .resetStream ∧ o = .next (complete v s)) ∨
        (i = .resetStream ∧
          o = .next (complete ⟨clearStream s.stream, 0, 0⟩ { s with error := false, err := none })) ∨
        (∃ st, s.latch.word = 0x48#32 ∧ o = .next { s with run := .inflating, stream := st }) := by
    rintro o hi (h | ⟨v, h⟩ | h)
    · exact .inl h
    · exact .inr (.inl ⟨v, hi, h⟩)
    · exact .inr (.inr (.inr h))
  cases i with
  | resetStream => exact .inr (.inr (.inl ⟨rfl, rfl⟩))
  | streamBlockStored f => exact liftB (by simp) (hb f _)
  | streamBlockFixed f => exact liftB (by simp) (hb f _)
  | streamBlockDynamic f => exact liftB (by simp) (hb f _)
  | streamBlockReserved f => exact liftB (by simp) (hb f (.error .invalidBlockType))
  | nop => exact lift (by simp) (hc (.ok ⟨s.stream, 0, 0⟩))
  | bwInit => exact lift (by simp) (hc _)
  | bwWriteBits => exact lift (by simp) (hc _)
  | bwFlush => exact lift (by simp) (hc _)
  | brInit => exact lift (by simp) (hc _)
  | brReadBits => exact lift (by simp) (hc _)
  | brAlign => exact lift (by simp) (hc (.ok (brAlignBody s)))
  | hufBuild => exact lift (by simp) (hc _)
  | hufLoadFixed => exact lift (by simp) (hc (.ok ⟨loadFixed s.stream, 0, 0⟩))
  | hufDecode => exact lift (by simp) (hc _)
  | hufEncode => exact lift (by simp) (hc _)
  | lzScan => exact lift (by simp) (hc _)
  | deflStored => exact lift (by simp) (hc _)
  | deflHuff => exact lift (by simp) (hc _)
  | compress => exact lift (by simp) (hc _)
  | inflBlock => exact lift (by simp) (hc _)
  | decompress => exact lift (by simp) (hc _)

end Sys2Proof.Machine
end

