-- ==== Sys2Proof/Laws/Canonical.lean ====
section
/-! SUPPORT. Canonical tables: the over-subscription check and the Kraft sum, the codes and the symbol order, and what
BuildTable can do. -/

namespace Sys2Proof.Machine

open Sys2Proof

variable {t : Table} {id : TableId}

/-! The over-subscription check -/

/-- The codes of length at most l end here: `left` is what is left of 2^l (41_huffman R171, R172). -/
def Table.ends (t : Table) (l : Nat) : Nat := t.first l + t.count l

theorem Table.ends_zero (t : Table) : t.ends 0 = 0 := rfl

theorem Table.first_succ (t : Table) (l : Nat) : t.first (l + 1) = 2 * t.ends l := rfl

theorem Table.ends_succ (t : Table) (l : Nat) : t.ends (l + 1) = 2 * t.ends l + t.count (l + 1) := rfl

theorem Table.leftAfter_eq (t : Table) (l : Nat) :
    t.leftAfter l = if t.ends l ≤ 2 ^ l then some (2 ^ l - t.ends l) else none := by
  induction l with
  | zero => rfl
  | succ l ih =>
    rw [Table.leftAfter, ih, Table.ends_succ, Nat.pow_succ']
    by_cases h : t.ends l ≤ 2 ^ l
    · simp only [h, if_true]
      by_cases h2 : 2 * t.ends l + t.count (l + 1) ≤ 2 * 2 ^ l
      · rw [if_neg (by omega), if_pos h2]; congr 1; omega
      · rw [if_pos (by omega), if_neg h2]
    · simp only [h, if_false]
      rw [if_neg (by omega)]

theorem Table.overSubscribed_iff (t : Table) : t.overSubscribed = false ↔ t.ends 15 ≤ 2 ^ 15 := by
  rw [Table.overSubscribed, Table.leftAfter_eq]
  split <;> simp_all

theorem Table.ends_mono (t : Table) (l k : Nat) : 2 ^ k * t.ends l ≤ t.ends (l + k) := by
  induction k with
  | zero => simp
  | succ k ih =>
    rw [← Nat.add_assoc, Table.ends_succ, Nat.pow_succ', Nat.mul_assoc]
    omega

theorem Table.ends_le (h : t.overSubscribed = false) {l : Nat} (hl : l ≤ 15) : t.ends l ≤ 2 ^ l := by
  have h15 := (Table.overSubscribed_iff t).1 h
  have := Table.ends_mono t l (15 - l)
  rw [Nat.add_sub_cancel' hl] at this
  have e : (2 : Nat) ^ 15 = 2 ^ (15 - l) * 2 ^ l := by rw [← Nat.pow_add]; congr 1; omega
  rw [e] at h15
  exact Nat.le_of_mul_le_mul_left (le_trans this h15) (by positivity)

theorem Table.ends_cons (a : Nat) (ls : List Nat) (l : Nat) :
    (Table.mk (a :: ls)).ends l = (Table.mk ls).ends l + (if a = 0 ∨ l < a then 0 else 2 ^ (l - a)) := by
  induction l with
  | zero =>
    rw [Table.ends_zero, Table.ends_zero]
    rcases Nat.eq_zero_or_pos a with h | h <;> simp [h]
  | succ l ih =>
    have hc : (Table.mk (a :: ls)).count (l + 1) = (Table.mk ls).count (l + 1) + (if a = l + 1 then 1 else 0) := by
      simp only [Table.count, Nat.succ_ne_zero, if_false, List.count_cons, beq_iff_eq]
    rw [Table.ends_succ, Table.ends_succ, ih, hc]
    by_cases h0 : a = 0
    · simp [h0]
    · by_cases h1 : a = l + 1
      · subst h1; simp; omega
      · by_cases h2 : l < a
        · have : l + 1 < a := by omega
          simp [h0, h1, h2, this]
        · have h3 : ¬ l + 1 < a := by omega
          have e : l + 1 - a = (l - a) + 1 := by omega
          simp only [h0, h1, h2, h3, or_self, if_false, e, Nat.pow_succ']
          omega

/-- For lengths of at most 15 the check measures the Kraft sum (41_huffman R171). -/
theorem Table.ends_eq_kraft (ls : List Nat) (h : ∀ l ∈ ls, l ≤ 15) : (Table.mk ls).ends 15 = kraft ls := by
  induction ls with
  | nil => simp [Table.ends, Table.first, Table.count, kraft]
  | cons a ls ih =>
    rw [Table.ends_cons, ih (fun l hl => h l (List.mem_cons_of_mem _ hl))]
    have : ¬ 15 < a := by have := h a List.mem_cons_self; omega
    simp only [this, or_false, kraft, List.map_cons, List.sum_cons]
    omega

theorem overSubscribed_iff_kraft {ls : List Nat} (h : ∀ l ∈ ls, l ≤ 15) :
    (Table.mk ls).overSubscribed = false ↔ kraft ls ≤ 32768 := by
  rw [Table.overSubscribed_iff, Table.ends_eq_kraft ls h]; rfl

theorem kraft_append_zeros (ls : List Nat) (n : Nat) : kraft (ls ++ List.replicate n 0) = kraft ls := by
  simp [kraft]

/-- Everything BuildTable can do with lengths of at most 15 (41_huffman R175). -/
theorem buildTable_cases (size : Nat) (ls : List Nat) (h : ∀ l ∈ ls, l ≤ 15) :
    (kraft ls ≤ 32768 ∧ buildTable size ls = .ok (tableOfLengths size ls)) ∨
      (32768 < kraft ls ∧ buildTable size ls = .error .invalidCode) := by
  have h' : ∀ l ∈ ls ++ List.replicate (size - ls.length) 0, l ≤ 15 := by
    intro l hl
    rcases List.mem_append.1 hl with hl | hl
    · exact h l hl
    · rw [List.eq_of_mem_replicate hl]; omega
  have hi := overSubscribed_iff_kraft h'
  rw [kraft_append_zeros] at hi
  rcases Nat.lt_or_ge 32768 (kraft ls) with hk | hk
  · refine .inr ⟨hk, ?_⟩
    have : (Table.mk (ls ++ List.replicate (size - ls.length) 0)).overSubscribed = true := by
      rw [← Bool.not_eq_false]; intro e; have := hi.1 e; omega
    simp [buildTable, this]
  · refine .inl ⟨hk, ?_⟩
    simp [buildTable, hi.2 hk, tableOfLengths]

/-! Codes -/

theorem Table.lenOf_lt {s : Nat} (h : t.lenOf s ≠ 0) : s < t.len.length := by
  by_contra hs
  exact h (by rw [Table.lenOf, List.getD_eq_default _ _ (by omega)])

theorem Table.lenOf_eq {s : Nat} (h : s < t.len.length) : t.lenOf s = t.len[s] := by
  simp [Table.lenOf, List.getD, h]

theorem Table.Ok.lenOf_le (h : t.Ok id) (s : Nat) : t.lenOf s ≤ 15 := by
  by_cases hs : s < t.len.length
  · rw [Table.lenOf_eq hs]
    refine le_trans (h.2.1 _ (List.getElem_mem hs)) ?_
    cases id <;> decide
  · rw [Table.lenOf, List.getD_eq_default _ _ (by omega)]; omega

/-- The rank of a symbol among those of its length. -/
def Table.rank (t : Table) (s : Nat) : Nat := (t.len.take s).count (t.lenOf s)

theorem Table.code_eq (t : Table) (s : Nat) : t.code s = t.first (t.lenOf s) + t.rank s := rfl

theorem Table.rank_lt {s : Nat} (h : t.lenOf s ≠ 0) : t.rank s < t.count (t.lenOf s) := by
  have hs := Table.lenOf_lt h
  rw [Table.count, if_neg h, Table.rank]
  conv_rhs => rw [← List.take_append_drop s t.len]
  rw [List.count_append, List.drop_eq_getElem_cons hs, ← Table.lenOf_eq hs, List.count_cons_self]
  omega

theorem Table.code_lt_ends {s : Nat} (h : t.lenOf s ≠ 0) : t.code s < t.ends (t.lenOf s) := by
  have := Table.rank_lt h
  rw [Table.code_eq, Table.ends]; omega

theorem Table.first_le_code (t : Table) (s : Nat) : t.first (t.lenOf s) ≤ t.code s := by
  rw [Table.code_eq]; omega

theorem Table.code_lt (ht : t.Ok id) {s : Nat} (h : t.lenOf s ≠ 0) : t.code s < 2 ^ t.lenOf s :=
  lt_of_lt_of_le (Table.code_lt_ends h) (Table.ends_le ht.2.2 (ht.lenOf_le s))

/-- The first code of a longer length lies beyond every code of a shorter one, extended. -/
theorem Table.ends_le_code {s l : Nat} (hl : l < t.lenOf s) :
    2 ^ (t.lenOf s - l) * t.ends l ≤ t.code s := by
  refine le_trans ?_ (Table.first_le_code t s)
  obtain ⟨k, hk⟩ : ∃ k, t.lenOf s = l + k + 1 := ⟨t.lenOf s - l - 1, by omega⟩
  have e : l + k + 1 - l = k + 1 := by omega
  rw [hk, Table.first_succ, e, Nat.pow_succ', Nat.mul_assoc]
  exact Nat.mul_le_mul_left 2 (Table.ends_mono t l k)

/-! Symbols of one length -/

theorem Table.symsOfLen_mem {l s : Nat} : s ∈ t.symsOfLen l ↔ s < t.len.length ∧ t.lenOf s = l := by
  simp [Table.symsOfLen]

theorem filter_range_take (ls : List Nat) (l n : Nat) (hn : n ≤ ls.length) :
    ((List.range n).filter (fun s => ls.getD s 0 == l)).length = (ls.take n).count l := by
  induction n with
  | zero => rfl
  | succ n ih =>
    have hl : n < ls.length := by omega
    rw [List.range_succ, List.filter_append, List.length_append, ih (by omega), List.take_add_one, List.count_append]
    have e : ls.getD n 0 = ls[n] := by simp [List.getD, hl]
    simp only [List.getElem?_eq_getElem hl, Option.toList_some, List.filter_cons, List.filter_nil, e]
    by_cases h : ls[n] = l <;> simp [h]

theorem filter_range_get (ls : List Nat) (l n : Nat) (hn : n ≤ ls.length) (k : Nat)
    (hk : k < ((List.range n).filter (fun s => ls.getD s 0 == l)).length) :
    (ls.take (((List.range n).filter (fun s => ls.getD s 0 == l))[k])).count l = k := by
  induction n with
  | zero => simp at hk
  | succ n ih =>
    have hlen := filter_range_take ls l n (by omega)
    have hr : (List.range (n + 1)).filter (fun s => ls.getD s 0 == l) =
        (List.range n).filter (fun s => ls.getD s 0 == l) ++ (if ls.getD n 0 == l then [n] else []) := by
      rw [List.range_succ, List.filter_append]
      simp [List.filter_cons]
    simp only [hr] at hk ⊢
    by_cases h : k < ((List.range n).filter (fun s => ls.getD s 0 == l)).length
    · rw [List.getElem_append_left h]
      exact ih (by omega) h
    · rw [List.getElem_append_right (by omega)]
      split at hk
      · rename_i hc
        simp only [List.length_append, List.length_singleton] at hk
        have e : k = ((List.range n).filter (fun s => ls.getD s 0 == l)).length := by omega
        simp only [hc, if_true]
        simp only [List.getElem_singleton]
        rw [e, hlen]
      · simp only [List.append_nil] at hk
        omega

theorem Table.symsOfLen_length (t : Table) {l : Nat} (h : l ≠ 0) : (t.symsOfLen l).length = t.count l := by
  have := filter_range_take t.len l t.len.length le_rfl
  rw [List.take_length] at this
  rw [Table.count, if_neg h, ← this]
  rfl

theorem Table.symsOfLen_rank {l k : Nat} (hk : k < (t.symsOfLen l).length) :
    t.rank (t.symsOfLen l)[k] = k ∧ t.lenOf (t.symsOfLen l)[k] = l := by
  have hm := (Table.symsOfLen_mem.1 (List.getElem_mem hk)).2
  refine ⟨?_, hm⟩
  rw [Table.rank, hm]
  exact filter_range_get t.len l t.len.length le_rfl k hk

theorem Table.symsOfLen_sorted (t : Table) (l : Nat) : (t.symsOfLen l).Pairwise (· < ·) :=
  (List.pairwise_lt_range).filter _

theorem Table.symsOfLen_getElem {s : Nat} (h : t.lenOf s ≠ 0)
    (hr : t.rank s < (t.symsOfLen (t.lenOf s)).length) : (t.symsOfLen (t.lenOf s))[t.rank s] = s := by
  obtain ⟨k, hk, e⟩ := List.getElem_of_mem (Table.symsOfLen_mem.2 ⟨Table.lenOf_lt h, rfl⟩ : s ∈ t.symsOfLen (t.lenOf s))
  have := (Table.symsOfLen_rank hk).1
  rw [e] at this
  simp only [this]
  exact e

/-- Two coded symbols with the same length and code are the same. -/
theorem Table.code_inj {s s' : Nat} (h : t.lenOf s ≠ 0) (hl : t.lenOf s = t.lenOf s') (hc : t.code s = t.code s') :
    s = s' := by
  have h' : t.lenOf s' ≠ 0 := by rw [← hl]; exact h
  have hr : t.rank s = t.rank s' := by
    rw [Table.code_eq, Table.code_eq, hl] at hc; omega
  have b := Table.rank_lt h
  have b' := Table.rank_lt h'
  rw [← Table.symsOfLen_length t h] at b
  rw [← Table.symsOfLen_length t h'] at b'
  have e := Table.symsOfLen_getElem h b
  have e' := Table.symsOfLen_getElem h' b'
  simp only [hl, hr] at e
  rw [← e]; exact e'

/-- Every code value of a length is the code of one symbol of that length. -/
theorem Table.exists_code {l v : Nat} (h : l ≠ 0) (h1 : t.first l ≤ v) (h2 : v < t.ends l) :
    ∃ s, t.lenOf s = l ∧ t.code s = v := by
  have hk : v - t.first l < (t.symsOfLen l).length := by
    rw [Table.symsOfLen_length t h]; rw [Table.ends] at h2; omega
  obtain ⟨hr, hl⟩ := Table.symsOfLen_rank hk
  refine ⟨_, hl, ?_⟩
  rw [Table.code_eq, hl, hr]; omega

/-! SYMS -/

/-- OFF[l]: the number of symbols with a code shorter than l (41_huffman R174). -/
def Table.off (t : Table) (l : Nat) : Nat := ((List.range l).map t.count).sum

theorem Table.off_succ (t : Table) (l : Nat) : t.off (l + 1) = t.off l + t.count l := by
  simp [Table.off, List.range_succ]

theorem Table.off_one (t : Table) : t.off 1 = 0 := by simp [Table.off, Table.count]

theorem flatMap_range_get {α : Type} (f : Nat → List α) (n m k : Nat) (hm : m < n) (hk : k < (f m).length) :
    ((List.range n).flatMap f)[((List.range m).map (fun i => (f i).length)).sum + k]? = some (f m)[k] := by
  obtain ⟨d, rfl⟩ : ∃ d, n = m + 1 + d := ⟨n - m - 1, by omega⟩
  have hl : ((List.range m).flatMap f).length = ((List.range m).map (fun i => (f i).length)).sum := by
    rw [List.length_flatMap]
  have e : List.range (m + 1 + d) = List.range m ++ ([m] ++ (List.range d).map (m + 1 + ·)) := by
    rw [List.range_add, List.range_succ, List.append_assoc]
  rw [e, List.flatMap_append, List.flatMap_append, List.getElem?_append_right (by omega)]
  have e2 : ((List.range m).map (fun i => (f i).length)).sum + k - ((List.range m).flatMap f).length = k := by omega
  rw [e2, List.getElem?_append_left (by simpa using hk)]
  simp [hk]

/-- SYMS holds the symbols of length l from OFF[l] on, in increasing order (41_huffman R174). -/
theorem Table.syms_get {l k : Nat} (h1 : 1 ≤ l) (h15 : l ≤ 15) (hk : k < (t.symsOfLen l).length) :
    t.syms.getD (t.off l + k) 0 = (t.symsOfLen l)[k] := by
  obtain ⟨m, rfl⟩ : ∃ m, l = m + 1 := ⟨l - 1, by omega⟩
  have e : t.off (m + 1) = ((List.range m).map (fun i => (t.symsOfLen (i + 1)).length)).sum := by
    clear hk h15 h1
    induction m with
    | zero => simp [Table.off_one]
    | succ m ih =>
      rw [Table.off_succ, ih, List.range_succ, List.map_append, List.sum_append]
      simp [Table.symsOfLen_length t (Nat.succ_ne_zero m)]
  have := flatMap_range_get (fun i => t.symsOfLen (i + 1)) 15 m k (by omega) hk
  rw [List.getD, Table.syms, e, this]
  rfl

theorem Table.syms_code {s : Nat} (ht : t.Ok id) (h : t.lenOf s ≠ 0) :
    t.syms.getD (t.off (t.lenOf s) + t.code s - t.first (t.lenOf s)) 0 = s := by
  have hr := Table.rank_lt h
  rw [← Table.symsOfLen_length t h] at hr
  have e : t.off (t.lenOf s) + t.code s - t.first (t.lenOf s) = t.off (t.lenOf s) + t.rank s := by
    rw [Table.code_eq]; omega
  rw [e, Table.syms_get (by omega) (ht.lenOf_le s) hr, Table.symsOfLen_getElem h hr]

end Sys2Proof.Machine
end

