-- ==== Sys2Proof/Laws/Decode.lean ====
section
/-! SUPPORT. What Decode does on a table that is not over-subscribed: it finds the one coded symbol whose code begins the
remaining bits, or meets the first of its two errors. -/

namespace Sys2Proof.Machine

open Sys2Proof

variable {p : Params} {t : Table} {id : TableId} {r : Reader} {inb : Nat → Byte}

/-! Numbers read most significant bit first -/

/-- The number whose bits these are, most significant first. -/
def msbNat (bs : List Bool) : Nat := bs.foldl (fun v b => 2 * v + b.toNat) 0

theorem msbNat_snoc (bs : List Bool) (b : Bool) : msbNat (bs ++ [b]) = 2 * msbNat bs + b.toNat := by
  simp [msbNat, List.foldl_append]

/-- The n low bits of a number, most significant first. -/
def msbBits (n c : Nat) : List Bool := (List.range n).map (fun i => c.testBit (n - 1 - i))

@[simp] theorem msbBits_length (n c : Nat) : (msbBits n c).length = n := by simp [msbBits]

theorem Table.codeBits_eq (t : Table) (s : Nat) : t.codeBits s = msbBits (t.lenOf s) (t.code s) := rfl

@[simp] theorem Table.codeBits_length (t : Table) (s : Nat) : (t.codeBits s).length = t.lenOf s := by
  simp [Table.codeBits_eq]

theorem msbBits_succ (n c : Nat) : msbBits (n + 1) c = msbBits n (c / 2) ++ [c.testBit 0] := by
  rw [msbBits, List.range_succ, List.map_append]
  congr 1
  · apply List.map_congr_left
    intro i hi
    have : i < n := List.mem_range.1 hi
    rw [← Nat.testBit_succ]
    congr 1; omega
  · simp

/-- The first l of n bits are the bits of the number shifted. -/
theorem msbBits_take (n c l : Nat) (h : l ≤ n) : (msbBits n c).take l = msbBits l (c / 2 ^ (n - l)) := by
  obtain ⟨k, rfl⟩ : ∃ k, n = l + k := ⟨n - l, by omega⟩
  rw [Nat.add_sub_cancel_left]
  induction k generalizing c with
  | zero => simp [List.take_of_length_le]
  | succ k ih =>
    rw [← Nat.add_assoc, msbBits_succ, List.take_append_of_le_length (by simp), ih _ (by omega), Nat.div_div_eq_div_mul,
      ← Nat.pow_succ']

theorem msbNat_msbBits (n c : Nat) (h : c < 2 ^ n) : msbNat (msbBits n c) = c := by
  induction n generalizing c with
  | zero =>
    have : c = 0 := by simpa using h
    subst this; rfl
  | succ n ih =>
    rw [Nat.pow_succ] at h
    rw [msbBits_succ, msbNat_snoc, ih _ (by omega), Nat.testBit_zero]
    rcases Nat.mod_two_eq_zero_or_one c with e | e <;> simp [e] <;> omega

theorem msbBits_msbNat (bs : List Bool) : msbBits bs.length (msbNat bs) = bs := by
  induction bs using List.reverseRecOn with
  | nil => rfl
  | append_singleton bs b ih =>
    have e : (2 * msbNat bs + b.toNat) / 2 = msbNat bs := by have := Bool.toNat_le b; omega
    rw [List.length_append, List.length_singleton, msbNat_snoc, msbBits_succ, e, ih, Nat.testBit_zero]
    congr 2
    cases b <;> simp

theorem msbNat_inj {as bs : List Bool} (hl : as.length = bs.length) (h : msbNat as = msbNat bs) : as = bs := by
  rw [← msbBits_msbNat as, ← msbBits_msbNat bs, hl, h]

/-- The first l bits of a longer code lie beyond every code of length l. -/
theorem Table.ends_le_prefix {s l : Nat} (ht : t.Ok id) (hs : t.lenOf s ≠ 0) (hl : l < t.lenOf s) :
    t.ends l ≤ msbNat ((t.codeBits s).take l) := by
  have hc := Table.code_lt ht hs
  have he := Table.ends_le_code hl
  rw [Table.codeBits_eq, msbBits_take _ _ _ (by omega)]
  have hp : (2 : Nat) ^ t.lenOf s = 2 ^ l * 2 ^ (t.lenOf s - l) := by rw [← Nat.pow_add]; congr 1; omega
  rw [hp] at hc
  rw [msbNat_msbBits _ _ (by rw [Nat.div_lt_iff_lt_mul (by positivity)]; exact hc)]
  rw [Nat.le_div_iff_mul_le (by positivity), Nat.mul_comm]
  exact he

/-! One bit of the walk -/

theorem readBits_one (h : r.Ok p) (h1 : 1 ≤ r.left) :
    ∃ b : Bool, readBits inb 1 r = .ok (b.toNat, r.skip 1) ∧ r.next inb 1 = [b] := by
  refine ⟨r.nextBit inb, ?_, Reader.nextBit_eq r⟩
  rw [readBits_ok h h1, Reader.nextBit_eq]
  simp [bitsNat]

/-- The number of the first j bits that remain. -/
def Reader.head (inb : Nat → Byte) (r : Reader) (j : Nat) : Nat := msbNat ((r.rest inb).take j)

theorem Reader.head_succ (h : r.Ok p) {j : Nat} (hj : j + 1 ≤ r.left) :
    ∃ b : Bool, readBits inb 1 (r.skip j) = .ok (b.toNat, r.skip (j + 1)) ∧
      r.head inb (j + 1) = 2 * r.head inb j + b.toNat := by
  have hl := Reader.skip_left h (n := j) (by omega)
  obtain ⟨b, e, hb⟩ := readBits_one (inb := inb) (Reader.skip_ok h (n := j) (by omega)) (by omega)
  refine ⟨b, by rw [e, Reader.skip_skip h hj], ?_⟩
  rw [Reader.head, Reader.head, ← Reader.next_eq_take h hj, ← Reader.next_eq_take h (by omega), Reader.next_add h hj, hb,
    msbNat_snoc]

theorem decodeWalk_succ (t : Table) (inb : Nat → Byte) (n code first index : Nat) (r : Reader) :
    decodeWalk t inb (n + 1) code first index r =
      (readBits inb 1 r).bind (fun br =>
        if first ≤ code + br.1 ∧ code + br.1 < first + t.count (15 - n) then
          .ok ((t.syms.getD (index + (code + br.1) - first) 0, 15 - n), br.2)
        else
          decodeWalk t inb n (2 * (code + br.1)) (2 * (first + t.count (15 - n))) (index + t.count (15 - n)) br.2) := rfl

/-! The walk -/

/-- The walk finds the coded symbol whose code begins the remaining bits (41_huffman R178). -/
theorem decodeWalk_found {s : Nat} (ht : t.Ok id) (hr : r.Ok p) (hs : t.lenOf s ≠ 0)
    (hp : t.codeBits s <+: r.rest inb) (n j : Nat) (hn : n + j = 15) (hj : j < t.lenOf s) :
    decodeWalk t inb n (2 * r.head inb j) (t.first (j + 1)) (t.off (j + 1)) (r.skip j) =
      .ok ((s, t.lenOf s), r.skip (t.lenOf s)) := by
  have hlen : t.lenOf s ≤ r.left := by simpa using hp.length_le
  have h15 := ht.lenOf_le s
  have htake : ∀ l, l ≤ t.lenOf s → (r.rest inb).take l = (t.codeBits s).take l := by
    intro l hl
    obtain ⟨u, hu⟩ := hp
    rw [← hu, List.take_append_of_le_length (by simpa using hl)]
  induction n generalizing j with
  | zero => omega
  | succ n ih =>
    obtain ⟨b, e, hb⟩ := Reader.head_succ (inb := inb) hr (j := j) (by omega)
    have hl : 15 - n = j + 1 := by omega
    rw [decodeWalk_succ, e]
    simp only [Except.bind, hl, ← hb]
    have hhead : r.head inb (j + 1) = msbNat ((t.codeBits s).take (j + 1)) := by
      rw [Reader.head, htake _ (by omega)]
    by_cases heq : j + 1 = t.lenOf s
    · have hv : r.head inb (j + 1) = t.code s := by
        rw [hhead, heq, List.take_of_length_le (by simp), Table.codeBits_eq, msbNat_msbBits _ _ (Table.code_lt ht hs)]
      have h1 := Table.first_le_code t s
      have h2 := Table.code_lt_ends hs
      rw [hv, heq, if_pos ⟨h1, h2⟩, Table.syms_code ht hs]
    · have hle : t.ends (j + 1) ≤ r.head inb (j + 1) := by
        rw [hhead]; exact Table.ends_le_prefix ht hs (by omega)
      rw [if_neg (by rw [← Table.ends]; omega)]
      rw [← Table.ends, ← Table.first_succ, ← Table.off_succ]
      exact ih (j + 1) (by omega) (by omega)

/-- Where no code begins the remaining bits, the walk ends in the first of its two errors (41_huffman R178). -/
theorem decodeWalk_none (ht : t.Ok id) (hr : r.Ok p)
    (hno : ∀ s, t.lenOf s ≠ 0 → ¬ t.codeBits s <+: r.rest inb) (n j : Nat) (hn : n + j = 15) (hj : j ≤ r.left)
    (hf : t.first (j + 1) ≤ 2 * r.head inb j) :
    decodeWalk t inb n (2 * r.head inb j) (t.first (j + 1)) (t.off (j + 1)) (r.skip j) =
      .error (if 15 ≤ (r.rest inb).length then .invalidCode else .unexpectedEnd) := by
  rw [Reader.rest_length]
  induction n generalizing j with
  | zero => rw [decodeWalk, if_pos (by omega)]
  | succ n ih =>
    rcases Nat.lt_or_ge j r.left with hlt | hge
    · obtain ⟨b, e, hb⟩ := Reader.head_succ (inb := inb) hr (j := j) hlt
      have hl : 15 - n = j + 1 := by omega
      rw [decodeWalk_succ, e]
      simp only [Except.bind, hl, ← hb]
      by_cases hc : r.head inb (j + 1) < t.ends (j + 1)
      · exfalso
        obtain ⟨s, hsl, hsc⟩ := Table.exists_code (t := t) (l := j + 1) (by omega) (by omega) hc
        apply hno s (by omega)
        have : t.codeBits s = (r.rest inb).take (j + 1) := by
          apply msbNat_inj
          · rw [Table.codeBits_length, List.length_take, Reader.rest_length]; omega
          · rw [Table.codeBits_eq, msbNat_msbBits _ _ (Table.code_lt ht (by omega)), hsc]; rfl
        rw [this]
        exact List.take_prefix _ _
      · rw [if_neg (by rw [← Table.ends]; omega)]
        rw [← Table.ends, ← Table.first_succ, ← Table.off_succ]
        exact ih (j + 1) (by omega) hlt (by rw [Table.first_succ]; omega)
    · have e : readBits inb 1 (r.skip j) = .error .unexpectedEnd := by
        apply readBits_end (Reader.skip_ok hr hj)
        rw [Reader.skip_left hr hj]; omega
      rw [decodeWalk_succ, e, if_neg (by omega)]
      rfl

theorem Reader.head_zero (r : Reader) : r.head inb 0 = 0 := by simp [Reader.head, msbNat]

theorem decodeSymbol_eq (t : Table) (inb : Nat → Byte) (r : Reader) :
    decodeSymbol t inb r = decodeWalk t inb 15 (2 * r.head inb 0) (t.first 1) (t.off 1) (r.skip 0) := by
  have e : t.first 1 = 0 := rfl
  rw [Reader.head_zero, Reader.skip_zero, Table.off_one, e]
  rfl

/-- Decode where the code of a symbol comes next. -/
theorem decodeSymbol_found {s : Nat} (ht : t.Ok id) (hr : r.Ok p) (hs : t.lenOf s ≠ 0)
    (hp : t.codeBits s <+: r.rest inb) :
    decodeSymbol t inb r = .ok ((s, t.lenOf s), r.skip (t.lenOf s)) := by
  rw [decodeSymbol_eq]
  exact decodeWalk_found ht hr hs hp 15 0 rfl (by omega)

/-- Decode where no code comes next. -/
theorem decodeSymbol_none (ht : t.Ok id) (hr : r.Ok p)
    (hno : ∀ s, t.lenOf s ≠ 0 → ¬ t.codeBits s <+: r.rest inb) :
    decodeSymbol t inb r = .error (if 15 ≤ (r.rest inb).length then .invalidCode else .unexpectedEnd) := by
  rw [decodeSymbol_eq]
  exact decodeWalk_none ht hr hno 15 0 rfl (by omega) (Nat.zero_le _)

/-- A symbol beyond the table's lengths is not coded, so that only the others need be tried. -/
theorem Table.unmatched_of_lt {pre rest : List Bool} (hp : pre <+: rest)
    (h : ∀ k < t.len.length, t.lenOf k ≠ 0 → ¬ pre ++ t.codeBits k <+: rest) : t.Unmatched pre rest :=
  ⟨hp, fun k hk => h k (Table.lenOf_lt hk) hk⟩

/-- Decode past the bits `pre`, where no code comes next. -/
theorem decodeSymbol_unmatched {pre : List Bool} (ht : t.Ok id) (hr : r.Ok p) (hu : t.Unmatched pre (r.rest inb)) :
    decodeSymbol t inb (r.skip pre.length) = .error (unmatchedError pre (r.rest inb)) := by
  obtain ⟨hp, hno⟩ := hu
  have hl : pre.length ≤ r.left := by simpa using hp.length_le
  have hrest : r.rest inb = pre ++ (r.skip pre.length).rest inb := by
    rw [Reader.rest_skip hr hl]; exact (List.prefix_iff_eq_append.1 hp).symm
  rw [decodeSymbol_none ht (Reader.skip_ok hr hl), unmatchedError]
  · have e : 15 ≤ ((r.skip pre.length).rest inb).length ↔ pre.length + 15 ≤ (r.rest inb).length := by
      rw [Reader.rest_length, Reader.rest_length, Reader.skip_left hr hl]; omega
    simp only [e]
  · intro s hs hc
    refine hno s hs ?_
    rw [hrest]
    exact (List.prefix_append_right_inj pre).2 hc

/-- Everything Decode can do to a cursor in its invariant (41_huffman R178). -/
theorem decodeSymbol_cases (inb : Nat → Byte) (ht : t.Ok id) (hr : r.Ok p) :
    (∃ s, t.lenOf s ≠ 0 ∧ t.codeBits s <+: r.rest inb ∧
        decodeSymbol t inb r = .ok ((s, t.lenOf s), r.skip (t.lenOf s))) ∨
      ((∀ s, t.lenOf s ≠ 0 → ¬ t.codeBits s <+: r.rest inb) ∧
        decodeSymbol t inb r = .error (if 15 ≤ (r.rest inb).length then .invalidCode else .unexpectedEnd)) := by
  by_cases h : ∃ s, t.lenOf s ≠ 0 ∧ t.codeBits s <+: r.rest inb
  · obtain ⟨s, hs, hp⟩ := h
    exact .inl ⟨s, hs, hp, decodeSymbol_found ht hr hs hp⟩
  · have hno : ∀ s, t.lenOf s ≠ 0 → ¬ t.codeBits s <+: r.rest inb := fun s hs hp => h ⟨s, hs, hp⟩
    exact .inr ⟨hno, decodeSymbol_none ht hr hno⟩

/-- A symbol Decode returns lies in the table. -/
theorem decodeSymbol_lt {s l : Nat} {r' : Reader} (ht : t.Ok id) (hr : r.Ok p)
    (h : decodeSymbol t inb r = .ok ((s, l), r')) :
    t.lenOf s ≠ 0 ∧ l = t.lenOf s ∧ s < tableSize id ∧ l ≤ r.left ∧ r' = r.skip l ∧ t.codeBits s <+: r.rest inb := by
  rcases decodeSymbol_cases inb ht hr with ⟨s', hs, hp, e⟩ | ⟨-, e⟩
  · rw [e] at h
    cases h
    have hl : t.lenOf s ≤ r.left := by simpa using hp.length_le
    exact ⟨hs, rfl, by have := Table.lenOf_lt hs; rw [ht.1] at this; exact this, hl, rfl, hp⟩
  · rw [e] at h; cases h

end Sys2Proof.Machine
end

