-- ==== Sys2Proof/Laws/Deflate.lean ====
section
/-! SUPPORT. What the block procedures of the deflator append, and what FlushToByte and the record writer do. -/

namespace Sys2Proof.Machine

open Sys2Proof

variable {p : Params} {w w' : Writer}

/-! FlushToByte -/

theorem Writer.Room_mono {m n : Nat} (h : w.Room p n) (hm : m ≤ n) : w.Room p m := by
  simp only [Writer.Room] at *; omega

/-- Everything FlushToByte can do to a writer in its invariant (40_bitstream R144). -/
theorem flushToByte_cases (h : w.Ok p) :
    (w.cnt.toNat = 0 ∧ flushToByte p.outCap w = .ok (0, w)) ∨
      (w.cnt.toNat ≠ 0 ∧ w.outPos.toNat < p.outCap ∧
        ∃ w', flushToByte p.outCap w = .ok (8 - w.cnt.toNat, w') ∧
          Writer.Appended p w w' (List.replicate (8 - w.cnt.toNat) false) ∧ w'.cnt = 0 ∧ w'.acc = 0) ∨
      (w.cnt.toNat ≠ 0 ∧ w.outPos.toNat = p.outCap ∧ flushToByte p.outCap w = .error .outputOverflow) := by
  obtain ⟨hpos, hc, ha⟩ := h
  by_cases h0 : w.cnt.toNat = 0
  · have e : w.cnt = 0 := BitVec.eq_of_toNat_eq (by rw [h0]; rfl)
    exact .inl ⟨h0, by rw [flushToByte, if_pos e]⟩
  · have e : ¬ w.cnt = 0 := fun e => h0 (by rw [e]; rfl)
    rcases putByte_cases p.outCap w.acc w with ⟨hf, eq⟩ | ⟨hf, eq⟩
    · exact .inr (.inr ⟨h0, by omega, by rw [flushToByte, if_neg e, eq]; rfl⟩)
    · refine .inr (.inl ⟨h0, hf, _, by rw [flushToByte, if_neg e, eq]; rfl, ?_, rfl, rfl⟩)
      have hs := outPos_succ hf
      have z4 : (0 : BitVec 4).toNat = 0 := rfl
      have hz : ∀ j, w.cnt.toNat ≤ j → w.acc.getLsbD j = false := fun j hj =>
        Nat.testBit_lt_two_pow (lt_of_lt_of_le ha (Nat.pow_le_pow_right (by decide) hj))
      refine ⟨?_, ?_, ?_, ?_, ?_⟩
      · simp only [Writer.bitPos, hs, z4, List.length_replicate]; omega
      · intro i hi
        simp only [Writer.bitPos] at hi
        simp only [Writer.bitAt, hs]
        rw [if_pos (by omega)]
        by_cases h8 : i < 8 * w.outPos.toNat
        · rw [if_pos h8, Memory.read_write_other _ _ _ (by omega)]
        · have e8 : i / 8 = w.outPos.toNat := by omega
          rw [if_neg h8, e8, Memory.read_write_same]
          congr 1; omega
      · intro i hi
        simp only [List.length_replicate] at hi
        simp only [Writer.bitAt, Writer.bitPos, hs, List.getElem_replicate]
        have e8 : (8 * w.outPos.toNat + w.cnt.toNat + i) / 8 = w.outPos.toNat := by omega
        rw [if_pos (by omega), e8, Memory.read_write_same]
        exact hz _ (by omega)
      · intro a ha'
        simp only [hs] at ha'
        exact Memory.read_write_other _ _ _ (by omega)
      · refine ⟨?_, ?_, ?_⟩
        · simp only [hs]; omega
        · simp
        · simp

/-! Records -/

/-- Everything a run of PutByte can do (40_bitstream R141). -/
theorem putBytes_cases (bytes : List Byte) (h : w.outPos.toNat ≤ p.outCap) :
    (w.outPos.toNat + bytes.length ≤ p.outCap ∧
        ∃ out, putBytes p.outCap bytes w =
            .ok { w with out := out, outPos := BitVec.ofNat 32 (w.outPos.toNat + bytes.length) } ∧
          Memory.holds .outByte out w.outPos.toNat bytes ∧
          ∀ a, a < w.outPos.toNat ∨ w.outPos.toNat + bytes.length ≤ a →
            out.read .outByte a = w.out.read .outByte a) ∨
      (p.outCap < w.outPos.toNat + bytes.length ∧ putBytes p.outCap bytes w = .error .outputOverflow) := by
  induction bytes generalizing w with
  | nil =>
    refine .inl ⟨by simpa using h, w.out, ?_, fun i hi => absurd hi (by simp), fun _ _ => rfl⟩
    have e : BitVec.ofNat 32 (w.outPos.toNat + 0) = w.outPos := by simp
    simp only [putBytes, List.length_nil, e]
  | cons b rest ih =>
    rcases putByte_cases p.outCap b w with ⟨hf, eq⟩ | ⟨hf, eq⟩
    · exact .inr ⟨by simp only [List.length_cons]; omega, by rw [putBytes, eq]; rfl⟩
    · have hs := outPos_succ hf
      rcases ih (w := { w with out := w.out.write w.outPos.toNat b, outPos := w.outPos + 1 })
          (by simp only [hs]; omega) with ⟨hr, out, e, hh, ho⟩ | ⟨hr, e⟩
      · simp only [hs] at hr hh ho e
        refine .inl ⟨by simp only [List.length_cons]; omega, out, ?_, ?_, ?_⟩
        · rw [putBytes, eq]
          simp only [List.length_cons]
          rw [show w.outPos.toNat + (rest.length + 1) = w.outPos.toNat + 1 + rest.length by omega]
          exact e
        · intro i hi
          cases i with
          | zero =>
            rw [Nat.add_zero, ho _ (.inl (by omega)), Memory.read_write_same]; rfl
          | succ i =>
            have := hh i (by simpa using hi)
            rw [show w.outPos.toNat + (i + 1) = w.outPos.toNat + 1 + i by omega, this]
            rfl
        · intro a ha
          simp only [List.length_cons] at ha
          rw [ho a (by omega)]
          exact Memory.read_write_other _ _ _ (by omega)
      · simp only [hs] at hr
        exact .inr ⟨by simp only [List.length_cons]; omega, by rw [putBytes, eq]; exact e⟩

/-! Tokens -/

theorem except_bind_assoc₃ (x : Except Err Writer) (f g h : Writer → Except Err Writer) :
    (x >>= fun a => f a >>= fun b => g b >>= h) = (((x.bind f).bind g).bind h) := by
  cases x with
  | error e => rfl
  | ok a =>
    simp only [except_ok_bind, Except.bind]
    cases f a with
    | error e => rfl
    | ok b =>
      simp only [except_ok_bind]
      cases g b <;> rfl

theorem appends_emitToken (p : Params) (ll dl : Table) (t : Token) :
    Appends p (emitToken p.outCap ll dl t) (tokenCode ll dl t) := by
  cases t with
  | lit b =>
    intro w hw
    simp only [emitToken, tokenCode]
    exact appends_encodeSymbol p ll b.toNat w hw
  | mtch l d =>
    have h := (((appends_encodeSymbol p ll (lsym l)).bind (appends_writeBits p (l - lbase (lsym l)) (lextra (lsym l)))).bind
      (appends_encodeSymbol p dl (dsym d))).bind (appends_writeBits p (d - dbase (dsym d)) (dextra (dsym d)))
    intro w hw
    have e : emitToken p.outCap ll dl (.mtch l d) w =
        ((((encodeSymbol p.outCap ll (lsym l) w).bind
          (writeBits p.outCap (l - lbase (lsym l)) (lextra (lsym l)))).bind
            (encodeSymbol p.outCap dl (dsym d))).bind (writeBits p.outCap (d - dbase (dsym d)) (dextra (dsym d)))) := by
      exact except_bind_assoc₃ _ _ _ _
    rw [e]
    exact h w hw

/-- EmitTokens(T) appends the tokens' bits and the end-of-block code (43_deflate R240). -/
theorem appends_emitTokens (p : Params) (ll dl : Table) (ts : List Token) :
    Appends p (emitTokens p.outCap ll dl ts) (bodyBits ll dl ts) := by
  induction ts with
  | nil => exact appends_encodeSymbol p ll 256
  | cons t rest ih =>
    have := (appends_emitToken p ll dl t).bind ih
    rw [bodyBits, List.flatMap_cons, List.append_assoc]
    exact this

/-- The code-length sequence appends each symbol's code and its extra bits (43_deflate R247). -/
theorem appends_writeSeq (p : Params) (clen : Table) (seq : List (Nat × Nat)) :
    Appends p (writeSeq p.outCap clen seq)
      (seq.flatMap (fun ke => clen.codeBits ke.1 ++ natBits (clenExtra ke.1) ke.2)) := by
  induction seq with
  | nil => exact appends_ok p
  | cons ke rest ih =>
    have h := ((appends_encodeSymbol p clen ke.1).bind (appends_writeBits p ke.2 (clenExtra ke.1))).bind ih
    intro w hw
    have e : writeSeq p.outCap clen (ke :: rest) w =
        (((encodeSymbol p.outCap clen ke.1 w).bind (writeBits p.outCap ke.2 (clenExtra ke.1))).bind
          (writeSeq p.outCap clen rest)) := by
      obtain ⟨k, e⟩ := ke
      simp only [writeSeq]
      cases encodeSymbol p.outCap clen k w <;> rfl
    rw [e]
    exact h w hw

/-! Blocks -/

/-- FixedBlock(T, final) appends its bits and loads the fixed tables, or raises OutputOverflow (43_deflate R242). -/
theorem fixedBlock_cases (ts : List Token) (final : Bool) (st : Stream) (h : st.writer.Ok p) :
    (st.writer.Room p (fixedBits ts final).length ∧
        ∃ w', fixedBlock p.outCap ts final st = .ok { loadFixed st with writer := w' } ∧
          Writer.Appended p st.writer w' (fixedBits ts final)) ∨
      (¬ st.writer.Room p (fixedBits ts final).length ∧
        fixedBlock p.outCap ts final st = .error .outputOverflow) := by
  have ha := (appends_writeHeader p final 1).bind (appends_emitTokens p fixedLitlenTable fixedDistTable ts)
  have e : fixedBlock p.outCap ts final st =
      ((writeHeader p.outCap final 1 st.writer).bind
        (emitTokens p.outCap fixedLitlenTable fixedDistTable ts)).map
          (fun w' => { loadFixed st with writer := w' }) := by
    simp only [fixedBlock, loadFixed]
    cases writeHeader p.outCap final 1 st.writer with
    | error e => rfl
    | ok w1 =>
      simp only [except_ok_bind, Except.bind]
      cases emitTokens p.outCap fixedLitlenTable fixedDistTable ts w1 <;> rfl
  rcases ha st.writer h with ⟨hr, w', e', a⟩ | ⟨hr, e'⟩
  · simp only at e'
    exact .inl ⟨hr, w', by rw [e, e']; rfl, a⟩
  · simp only at e'
    exact .inr ⟨hr, by rw [e, e']; rfl⟩

/-- StoredBlock(B, final) appends its bits, the pad bits up to the byte boundary among them, or raises OutputOverflow
(43_deflate R241). -/
theorem storedBlock_cases (bytes : List Byte) (final : Bool) (h : w.Ok p) :
    (w.Room p (storedBits w.cnt.toNat bytes final).length ∧
        ∃ w', storedBlock p.outCap bytes final w = .ok w' ∧
          Writer.Appended p w w' (storedBits w.cnt.toNat bytes final)) ∨
      (¬ w.Room p (storedBits w.cnt.toNat bytes final).length ∧
        storedBlock p.outCap bytes final w = .error .outputOverflow) := by
  let pad := padLen w.cnt.toNat
  let tail := fun w => (writeBits p.outCap bytes.length 16 w).bind (fun w =>
    (writeBits p.outCap (65535 - bytes.length) 16 w).bind (writeBytes p.outCap bytes))
  have htail : Appends p tail (natBits 16 bytes.length ++ (natBits 16 (65535 - bytes.length) ++
      bytes.flatMap (fun b => natBits 8 b.toNat))) :=
    (appends_writeBits p bytes.length 16).bind
      ((appends_writeBits p (65535 - bytes.length) 16).bind (appends_writeBytes p bytes))
  have e : storedBlock p.outCap bytes final w =
      (writeHeader p.outCap final 0 w).bind (fun w => (flushToByte p.outCap w).bind (fun r => tail r.2)) := by
    simp only [storedBlock]; rfl
  have hbits : storedBits w.cnt.toNat bytes final = blockHeader final 0 ++ (List.replicate pad false ++
      (natBits 16 bytes.length ++ (natBits 16 (65535 - bytes.length) ++
        bytes.flatMap (fun b => natBits 8 b.toNat)))) := by
    simp only [storedBits, List.append_assoc]; rfl
  have hlen3 : (blockHeader final 0).length = 3 := by simp [blockHeader]
  rw [hbits, e]
  generalize hT : (natBits 16 bytes.length ++ (natBits 16 (65535 - bytes.length) ++
    bytes.flatMap (fun b => natBits 8 b.toNat))) = T at *
  have hT32 : 32 ≤ T.length := by
    rw [← hT]; simp only [List.length_append, natBits_length]; omega
  rcases appends_writeHeader p final 0 w h with ⟨hr1, w1, e1, a1⟩ | ⟨hr1, e1⟩
  · rw [e1]
    have hbp := a1.bitPos
    rw [hlen3] at hbp
    have hc1 := a1.ok.2.1
    have hpad : pad = (8 - w1.cnt.toNat) % 8 := by
      simp only [pad, padLen, Writer.bitPos] at *; omega
    have step : (w1.Room p (pad + T.length) ∧ ∃ w', (flushToByte p.outCap w1).bind (fun r => tail r.2) = .ok w' ∧
          Writer.Appended p w1 w' (List.replicate pad false ++ T)) ∨
        (¬ w1.Room p (pad + T.length) ∧
          (flushToByte p.outCap w1).bind (fun r => tail r.2) = .error .outputOverflow) := by
      rcases flushToByte_cases a1.ok with ⟨h0, ef⟩ | ⟨h0, hf, w2, ef, a2, -, -⟩ | ⟨h0, hf, ef⟩
      · have hp0 : pad = 0 := by omega
        rw [hp0, ef, List.replicate_zero, List.nil_append, Nat.zero_add]
        exact htail w1 a1.ok
      · have hp8 : pad = 8 - w1.cnt.toNat := by omega
        rw [ef, hp8]
        rcases htail w2 a2.ok with ⟨hr, w3, e3, a3⟩ | ⟨hr, e3⟩
        · refine .inl ⟨?_, w3, e3, a2.trans a3⟩
          have := a2.room.1 hr
          simpa using this
        · refine .inr ⟨fun hn => hr (a2.room.2 (by simpa using hn)), e3⟩
      · refine .inr ⟨?_, by rw [ef]; rfl⟩
        simp only [Writer.Room, Writer.bitPos]
        omega
    rcases step with ⟨hr, w', e', a⟩ | ⟨hr, e'⟩
    · refine .inl ⟨?_, w', e', a1.trans a⟩
      have := a1.room.1 hr
      simpa [hlen3, Nat.add_assoc] using this
    · refine .inr ⟨fun hn => hr (a1.room.2 ?_), e'⟩
      simpa [hlen3, Nat.add_assoc] using hn
  · refine .inr ⟨fun hn => hr1 ?_, by rw [e1]; rfl⟩
    exact Writer.Room_mono hn (by simp only [List.length_append]; omega)

end Sys2Proof.Machine
end

