-- ==== Sys2Proof/Laws/Symbols.lean ====
section
/-! SUPPORT. The encoder's symbol maps: LSYM and DSYM give a symbol whose base is at most the value, with an extra value
that fits its extra bits (30_encoding R114, R115). -/

namespace Sys2Proof.Machine

open Sys2Proof

/-- The largest index whose entry is at most `v`, among the first `n`. -/
theorem filter_getLastD (bases : List Nat) (v n : Nat) (h0 : bases.getD 0 0 ≤ v) (hn : 0 < n) :
    let i := ((List.range n).filter (fun i => decide (bases.getD i 0 ≤ v))).getLastD 0
    i < n ∧ bases.getD i 0 ≤ v ∧ ∀ j, i < j → j < n → v < bases.getD j 0 := by
  induction n with
  | zero => omega
  | succ n ih =>
    simp only [List.range_succ, List.filter_append, List.filter_cons, List.filter_nil]
    by_cases hv : bases.getD n 0 ≤ v
    · simp only [hv, decide_true, if_true, List.getLastD_concat]
      exact ⟨by omega, trivial, fun j h1 h2 => by omega⟩
    · have hpos : 0 < n := by
        rcases Nat.eq_zero_or_pos n with e | e
        · rw [e] at hv; exact absurd h0 hv
        · exact e
      obtain ⟨h1, h2, h3⟩ := ih hpos
      simp only [hv, decide_false, Bool.false_eq_true, if_false, List.append_nil]
      refine ⟨by omega, h2, fun j hj hjn => ?_⟩
      rcases Nat.lt_or_ge j n with h | h
      · exact h3 j hj h
      · have e : j = n := by omega
        rw [e]; omega

theorem dsym_spec {d : Nat} (h1 : 1 ≤ d) (h2 : d ≤ 32768) :
    dsym d < 30 ∧ dbase (dsym d) ≤ d ∧ d - dbase (dsym d) < 2 ^ dextra (dsym d) := by
  have h := filter_getLastD distBases d 30 (by simpa [distBases] using h1) (by decide)
  have e : ((List.range 30).filter (fun i => decide (distBases.getD i 0 ≤ d))).getLastD 0 = dsym d := rfl
  simp only [e] at h
  obtain ⟨hi, hb, hmax⟩ := h
  refine ⟨hi, hb, ?_⟩
  have hstep : ∀ i < 29, distBases.getD (i + 1) 0 = distBases.getD i 0 + 2 ^ distExtras.getD i 0 := by decide
  have hlast : distBases.getD 29 0 + 2 ^ distExtras.getD 29 0 = 32769 := by decide
  simp only [dbase, dextra]
  rcases Nat.lt_or_ge (dsym d) 29 with h | h
  · have := hmax (dsym d + 1) (by omega) (by omega)
    rw [hstep _ h] at this
    omega
  · have e29 : dsym d = 29 := by omega
    rw [e29] at hb ⊢
    omega

theorem lsym_spec {l : Nat} (h1 : 3 ≤ l) (h2 : l ≤ 258) :
    257 ≤ lsym l ∧ lsym l ≤ 285 ∧ lbase (lsym l) ≤ l ∧ l - lbase (lsym l) < 2 ^ lextra (lsym l) := by
  by_cases h : l = 258
  · subst h; decide
  have hf := filter_getLastD (lengthBases.take 28) l 28 (by simpa [lengthBases] using h1) (by decide)
  have e : 257 + ((List.range 28).filter (fun i => decide ((lengthBases.take 28).getD i 0 ≤ l))).getLastD 0 = lsym l := by
    rw [lsym, if_neg h]; rfl
  generalize ((List.range 28).filter (fun i => decide ((lengthBases.take 28).getD i 0 ≤ l))).getLastD 0 = i at hf e
  simp only at hf
  obtain ⟨hi, hb, hmax⟩ := hf
  have hstep : ∀ i < 27,
      (lengthBases.take 28).getD (i + 1) 0 = (lengthBases.take 28).getD i 0 + 2 ^ lengthExtras.getD i 0 := by decide
  have hsame : ∀ i < 28, lengthBases.getD i 0 = (lengthBases.take 28).getD i 0 := by decide
  have hlast : (lengthBases.take 28).getD 27 0 + 2 ^ lengthExtras.getD 27 0 = 259 := by decide
  rw [← e]
  simp only [lbase, lextra, Nat.add_sub_cancel_left, hsame i hi]
  refine ⟨by omega, by omega, hb, ?_⟩
  rcases Nat.lt_or_ge i 27 with h' | h'
  · have := hmax (i + 1) (by omega) (by omega)
    rw [hstep _ h'] at this
    omega
  · have e27 : i = 27 := by omega
    rw [e27] at hb ⊢
    omega

end Sys2Proof.Machine
end

