-- ==== Sys2Proof/Laws/Inflate.lean ====
section
/-! SUPPORT. What the inflater's loops do: the data of a stored block, and the symbol loop over the codes of legal
tokens. -/

namespace Sys2Proof.Machine

open Sys2Proof

variable {p : Params} {st st' : Stream} {inb : Nat → Byte}

/-! Spans -/

@[simp] theorem spanOf_nil : spanOf [] = 0 := rfl

theorem spanOf_cons (t : Token) (ts : List Token) : spanOf (t :: ts) = Token.span t + spanOf ts := by
  simp [spanOf]

/-- The bytes of tokens after `hist`, oldest first. -/
def emitted (hist : List Byte) : List Token → List Byte
  | [] => []
  | .lit b :: rest => b :: emitted (b :: hist) rest
  | .mtch l d :: rest => copied d l hist ++ emitted ((copied d l hist).reverse ++ hist) rest

theorem emitted_length (hist : List Byte) (ts : List Token) : (emitted hist ts).length = spanOf ts := by
  induction ts generalizing hist with
  | nil => rfl
  | cons t rest ih =>
    cases t with
    | lit b => simp [emitted, ih, spanOf_cons, Token.span]; omega
    | mtch l d => simp [emitted, ih, spanOf_cons, Token.span]

theorem replayOnto_eq (hist : List Byte) (ts : List Token) :
    replayOnto hist ts = (emitted hist ts).reverse ++ hist := by
  induction ts generalizing hist with
  | nil => rfl
  | cons t rest ih =>
    have e : replayOnto hist (t :: rest) = replayOnto (replayToken hist t) rest := rfl
    rw [e, ih]
    cases t with
    | lit b => simp [emitted, replayToken]
    | mtch l d => rw [replayToken_mtch]; simp [emitted]

/-- Only the newest 32768 bytes matter to tokens with legal distances. -/
theorem emitted_take (hist : List Byte) (ts : List Token) (h : ∀ t ∈ ts, t.wf = true) :
    emitted (hist.take Config.wsize) ts = emitted hist ts := by
  have key : ∀ (ts : List Token), (∀ t ∈ ts, t.wf = true) → ∀ h1 h2 : List Byte,
      h1.take Config.wsize = h2.take Config.wsize → emitted h1 ts = emitted h2 ts := by
    intro ts
    induction ts with
    | nil => intros; rfl
    | cons t rest ih =>
      intro hw h1 h2 he
      have hr : ∀ t ∈ rest, t.wf = true := fun t ht => hw t (List.mem_cons_of_mem _ ht)
      cases t with
      | lit b =>
        simp only [emitted]
        rw [ih hr (b :: h1) (b :: h2)]
        have e1 : ∀ h : List Byte, (b :: h).take Config.wsize = b :: (h.take Config.wsize).take 32767 := by
          intro h
          rw [List.take_cons (by decide), List.take_take]
          congr 2
        rw [e1, e1, he]
      | mtch l d =>
        have hd := hw _ List.mem_cons_self
        simp only [Token.wf, Bool.and_eq_true, decide_eq_true_eq] at hd
        have ec : copied d l h1 = copied d l h2 := by
          rw [← copied_take d l h1 hd.1.2 hd.2, ← copied_take d l h2 hd.1.2 hd.2, he]
        simp only [emitted, ec]
        rw [ih hr]
        rw [List.take_append, List.take_append]
        congr 1
        have : ∀ h : List Byte, h.take (Config.wsize - (copied d l h2).reverse.length) =
            (h.take Config.wsize).take (Config.wsize - (copied d l h2).reverse.length) := by
          intro h; rw [List.take_take]; congr 1; omega
        rw [this h1, this h2, he]
  exact key ts h _ _ (by rw [List.take_take, Nat.min_self])

/-! The data of a stored block -/

theorem Reader.prefix_byte {r : Reader} (hr : r.Ok p) {b : Byte} {xs : List Bool}
    (hp : natBits 8 b.toNat ++ xs <+: r.rest inb) :
    readBits inb 8 r = .ok (b.toNat, r.skip 8) ∧ 8 ≤ r.left ∧ xs <+: (r.skip 8).rest inb := by
  have h1 : natBits 8 b.toNat <+: r.rest inb := (List.prefix_append _ _).trans hp
  refine ⟨readBits_natBits hr b.isLt h1, ?_, ?_⟩
  · simpa using h1.length_le
  · simpa using Reader.prefix_skip hr hp

/-- The data loop of a stored block whose bytes come next and fit in OUT (44_inflate R282). -/
theorem storedBytes_ok (bytes : List Byte) (hr : st.reader.Ok p) (hw : st.window.Ok)
    (hc : st.writer.outPos.toNat + bytes.length ≤ p.outCap)
    (hp : bytes.flatMap (fun b => natBits 8 b.toNat) <+: st.reader.rest inb) :
    ∃ st', storedBytes p.outCap inb bytes.length st = .ok st' ∧ st.Emitted st' bytes ∧
      st'.reader = st.reader.skip (8 * bytes.length) ∧
      st'.litlen = st.litlen ∧ st'.dist = st.dist ∧ st'.clen = st.clen := by
  induction bytes generalizing st with
  | nil => exact ⟨st, rfl, .refl hw, (Reader.skip_zero _).symm, rfl, rfl, rfl⟩
  | cons b rest ih =>
    simp only [List.length_cons] at hc
    rw [List.flatMap_cons] at hp
    obtain ⟨e, h8, hp'⟩ := Reader.prefix_byte hr hp
    rcases emitByte_emitted (p := p) (st := { st with reader := st.reader.skip 8 }) b hw with
      ⟨-, st₁, e₁, a₁, k₁⟩ | ⟨h, -⟩
    · have hpos := a₁.outPos
      simp only [List.length_singleton] at hpos
      have hr₁ : st₁.reader = st.reader.skip 8 := k₁.reader
      have hrest : rest.flatMap (fun b => natBits 8 b.toNat) <+: st₁.reader.rest inb := by rw [hr₁]; exact hp'
      obtain ⟨st₂, e₂, a₂, r₂, l₂, d₂, c₂⟩ := ih (st := st₁) (by rw [hr₁]; exact Reader.skip_ok hr h8) a₁.windowOk
        (by omega) hrest
      refine ⟨st₂, ?_, Stream.Emitted.trans (xs := [b]) (st₁ := st₁) ?_ a₂, ?_, l₂.trans k₁.litlen, d₂.trans k₁.dist,
        c₂.trans k₁.clen⟩
      · rw [List.length_cons, storedBytes, e]
        simp only [except_ok_bind]
        rw [BitVec.ofNat_toNat, BitVec.setWidth_eq, e₁]
        exact e₂
      · exact ⟨a₁.outPos, a₁.written, a₁.outside, a₁.pending, a₁.history, a₁.windowOk⟩
      · have hl : 8 + 8 * rest.length ≤ st.reader.left := by
          have := hp.length_le
          simp only [List.length_append, natBits_length, Reader.rest_length, List.length_flatMap, List.map_const',
            List.sum_replicate, smul_eq_mul] at this
          omega
        rw [r₂, hr₁, Reader.skip_skip hr hl, List.length_cons]
        congr 1; omega
    · simp only at h; omega

/-! The symbol loop -/

/-- Length(s) of a length symbol whose extra bits come next (44_inflate R287). -/
theorem readLength_ok {r : Reader} {l : Nat} {xs : List Bool} (hr : r.Ok p) (h1 : 3 ≤ l) (h2 : l ≤ 258)
    (hp : natBits (lextra (lsym l)) (l - lbase (lsym l)) ++ xs <+: r.rest inb) :
    readLength inb (lsym l) r = .ok (l, r.skip (lextra (lsym l))) ∧ lextra (lsym l) ≤ r.left ∧
      xs <+: (r.skip (lextra (lsym l))).rest inb := by
  obtain ⟨-, -, hb, hx⟩ := lsym_spec h1 h2
  have hpre := (List.prefix_append _ _).trans hp
  refine ⟨?_, by simpa using hpre.length_le, by simpa using Reader.prefix_skip hr hp⟩
  rw [readLength, readBits_natBits hr hx hpre]
  simp only [except_ok_bind]
  rw [Nat.add_sub_cancel' hb]

/-- Distance() where the code and the extra bits of a distance come next (44_inflate R288). -/
theorem readDistance_ok {r : Reader} {t : Table} {id : TableId} {d : Nat} {xs : List Bool} (ht : t.Ok id) (hr : r.Ok p)
    (h1 : 1 ≤ d) (h2 : d ≤ 32768) (hs : t.lenOf (dsym d) ≠ 0)
    (hp : t.codeBits (dsym d) ++ (natBits (dextra (dsym d)) (d - dbase (dsym d)) ++ xs) <+: r.rest inb) :
    ∃ n, n ≤ r.left ∧ n = (t.codeBits (dsym d)).length + dextra (dsym d) ∧
      readDistance t inb r = .ok (d, r.skip n) ∧ xs <+: (r.skip n).rest inb := by
  obtain ⟨hlt, hb, hx⟩ := dsym_spec h1 h2
  have hpre := (List.prefix_append _ _).trans hp
  have hl : t.lenOf (dsym d) ≤ r.left := by simpa using hpre.length_le
  have hp' := Reader.prefix_skip hr hp
  rw [Table.codeBits_length] at hp'
  have hr' := Reader.skip_ok hr hl
  have hpre' := (List.prefix_append _ _).trans hp'
  have hl' : dextra (dsym d) ≤ (r.skip (t.lenOf (dsym d))).left := by simpa using hpre'.length_le
  rw [Reader.skip_left hr hl] at hl'
  refine ⟨t.lenOf (dsym d) + dextra (dsym d), by omega, by simp, ?_, ?_⟩
  · rw [readDistance, decodeSymbol_found ht hr hs hpre]
    have : decide (29 < dsym d) = false := by simp; omega
    simp only [except_ok_bind, this, failIf_false]
    rw [readBits_natBits hr' hx hpre']
    simp only [except_ok_bind]
    rw [Nat.add_sub_cancel' hb, Reader.skip_skip hr (by omega)]
  · have := Reader.prefix_skip hr' hp'
    rw [natBits_length, Reader.skip_skip hr (by omega)] at this
    exact this

/-- The window holds at least the bytes emitted, up to its size. -/
theorem Stream.Emitted.fill_ge {bytes : List Byte} (h : st.Emitted st' bytes) :
    min (st.window.fill.toNat + bytes.length) Config.wsize ≤ st'.window.fill.toNat := by
  rw [← Window.history_length st'.window, h.history, List.length_take, List.length_append, List.length_reverse,
    Window.history_length]
  omega

/-- One pass of the symbol loop where the code of a legal token comes next and its bytes fit (44_inflate R286). -/
theorem huffLoop_token (t : Token) {xs : List Bool} (hll : st.litlen.Ok .litlen) (hdl : st.dist.Ok .dist)
    (hr : st.reader.Ok p) (hw : st.window.Ok) (hc : st.writer.outPos.toNat + Token.span t ≤ p.outCap)
    (hwf : t.wf = true) (hcoded : tokenCoded st.litlen st.dist t = true)
    (hd : ∀ l d, t = .mtch l d → d ≤ st.window.fill.toNat)
    (hp : tokenCode st.litlen st.dist t ++ xs <+: st.reader.rest inb) :
    ∃ st', (∀ f k, huffLoop p.outCap inb (f + 1) k st = huffLoop p.outCap inb f (k + Token.span t) st') ∧
      st.Emitted st' (emitted st.window.history [t]) ∧
      st'.reader = st.reader.skip (tokenCode st.litlen st.dist t).length ∧
      (tokenCode st.litlen st.dist t).length ≤ st.reader.left ∧ 1 ≤ (tokenCode st.litlen st.dist t).length ∧
      st'.litlen = st.litlen ∧ st'.dist = st.dist ∧ st'.clen = st.clen ∧ xs <+: st'.reader.rest inb := by
  cases t with
  | lit b =>
    simp only [tokenCoded, bne_iff_ne, ne_eq] at hcoded
    simp only [tokenCode, Token.span, emitted] at *
    have hpre := (List.prefix_append _ _).trans hp
    have hl : st.litlen.lenOf b.toNat ≤ st.reader.left := by simpa using hpre.length_le
    have hdec := decodeSymbol_found (inb := inb) hll hr hcoded hpre
    rcases emitByte_emitted (p := p) (st := { st with reader := st.reader.skip (st.litlen.lenOf b.toNat) }) b hw with
      ⟨-, st₁, e₁, a₁, k₁⟩ | ⟨h, -⟩
    · refine ⟨st₁, ?_, ⟨a₁.outPos, a₁.written, a₁.outside, a₁.pending, a₁.history, a₁.windowOk⟩, ?_, by simpa using hl,
        by simp; omega, k₁.litlen, k₁.dist, k₁.clen, ?_⟩
      · intro f k
        have h256 : b.toNat < 256 := b.isLt
        rw [huffLoop, hdec]
        simp only [except_ok_bind, h256, if_true]
        rw [BitVec.ofNat_toNat, BitVec.setWidth_eq, e₁]
        rfl
      · rw [k₁.reader, Table.codeBits_length]
      · rw [k₁.reader]
        have := Reader.prefix_skip hr hp
        rwa [Table.codeBits_length] at this
    · simp only at h; omega
  | mtch l d =>
    have hdd := hd l d rfl
    simp only [tokenCoded, Bool.and_eq_true, bne_iff_ne, ne_eq] at hcoded
    simp only [Token.wf, Bool.and_eq_true, decide_eq_true_eq] at hwf
    obtain ⟨⟨⟨hl3, hl258⟩, hd1⟩, hdw⟩ := hwf
    obtain ⟨hs1, hs2, -, -⟩ := lsym_spec hl3 hl258
    simp only [tokenCode, List.append_assoc] at hp
    have hpre := (List.prefix_append _ _).trans hp
    have hlen1 : st.litlen.lenOf (lsym l) ≤ st.reader.left := by simpa using hpre.length_le
    have hdec := decodeSymbol_found (inb := inb) hll hr hcoded.1 hpre
    have hr1 := Reader.skip_ok hr hlen1
    have hp1 := Reader.prefix_skip hr hp
    rw [Table.codeBits_length] at hp1
    obtain ⟨eL, hlen2, hp2⟩ := readLength_ok hr1 hl3 hl258 hp1
    have hr2 := Reader.skip_ok hr1 hlen2
    obtain ⟨n, hn, hnl, eD, hp3⟩ := readDistance_ok hdl hr2 hd1 hdw hcoded.2 hp2
    rw [Reader.skip_left hr hlen1] at hlen2
    have e2 := Reader.skip_skip hr (m := st.litlen.lenOf (lsym l)) (n := lextra (lsym l)) (by omega)
    rw [e2] at hn eD hp3
    rw [Reader.skip_left hr (by omega)] at hn
    have e3 := Reader.skip_skip hr (m := st.litlen.lenOf (lsym l) + lextra (lsym l)) (n := n) (by omega)
    rw [e3] at eD hp3
    have htl : (tokenCode st.litlen st.dist (.mtch l d)).length = st.litlen.lenOf (lsym l) + lextra (lsym l) + n := by
      simp only [tokenCode, List.length_append, Table.codeBits_length, natBits_length] at *
      omega
    simp only [Token.span] at hc
    rcases copyMatch_cases (p := p)
        (st := { st with reader := st.reader.skip (st.litlen.lenOf (lsym l) + lextra (lsym l) + n) }) l d hw hd1
        (by simp only; omega) with ⟨h, -⟩ | ⟨-, -, st₁, e₁, a₁, k₁⟩ | ⟨-, h, -⟩
    · simp only at h; omega
    · refine ⟨st₁, ?_, ?_, ?_, by omega, by omega, k₁.litlen, k₁.dist, k₁.clen, ?_⟩
      · intro f k
        have h1 : ¬ lsym l < 256 := by omega
        have h2 : ¬ lsym l = 256 := by omega
        have h3 : ¬ 285 < lsym l := by omega
        rw [huffLoop, hdec]
        simp only [except_ok_bind, h1, h2, h3, if_false]
        rw [eL]
        simp only [except_ok_bind]
        rw [e2, eD]
        simp only [except_ok_bind]
        rw [e₁]
        rfl
      · have : emitted st.window.history [.mtch l d] = copied d l st.window.history := by simp [emitted]
        rw [this]
        exact ⟨a₁.outPos, a₁.written, a₁.outside, a₁.pending, a₁.history, a₁.windowOk⟩
      · rw [k₁.reader, htl]
      · rw [k₁.reader]; exact hp3
    · simp only at h; omega

theorem tokensFit_wf {produced : Nat} {ts : List Token} (h : tokensFit produced ts = true) : ∀ t ∈ ts, t.wf = true := by
  induction ts generalizing produced with
  | nil => simp
  | cons u us ih =>
    simp only [tokensFit, Bool.and_eq_true] at h
    intro x hx
    rcases List.mem_cons.1 hx with rfl | hx
    · exact h.1.1
    · exact ih h.2 x hx

/-- The symbol loop over the codes of legal tokens (44_inflate R286). -/
theorem huffLoop_tokens (ts : List Token) {xs : List Bool} (hll : st.litlen.Ok .litlen) (hdl : st.dist.Ok .dist)
    (hr : st.reader.Ok p) (hw : st.window.Ok) (hc : st.writer.outPos.toNat + spanOf ts ≤ p.outCap)
    {produced : Nat} (hfill : min produced Config.wsize ≤ st.window.fill.toNat) (hfit : tokensFit produced ts = true)
    (hcoded : ts.all (tokenCoded st.litlen st.dist) = true)
    (hp : ts.flatMap (tokenCode st.litlen st.dist) ++ xs <+: st.reader.rest inb) :
    ∃ st', (∀ f k, huffLoop p.outCap inb (ts.length + f) k st = huffLoop p.outCap inb f (k + spanOf ts) st') ∧
      st.Emitted st' (emitted st.window.history ts) ∧
      st'.reader = st.reader.skip (ts.flatMap (tokenCode st.litlen st.dist)).length ∧
      ts.length ≤ (ts.flatMap (tokenCode st.litlen st.dist)).length ∧
      (ts.flatMap (tokenCode st.litlen st.dist)).length ≤ st.reader.left ∧
      st'.litlen = st.litlen ∧ st'.dist = st.dist ∧ st'.clen = st.clen ∧ xs <+: st'.reader.rest inb := by
  induction ts generalizing st produced with
  | nil =>
    exact ⟨st, fun f k => by simp, .refl hw, (Reader.skip_zero _).symm, by simp, by simp, rfl, rfl, rfl, by simpa using hp⟩
  | cons t rest ih =>
    rw [spanOf_cons] at hc
    rw [List.flatMap_cons, List.append_assoc] at hp
    simp only [List.all_cons, Bool.and_eq_true] at hcoded
    simp only [tokensFit, Bool.and_eq_true] at hfit
    obtain ⟨⟨hwf, hdist⟩, hfit'⟩ := hfit
    have hd : ∀ l d, t = .mtch l d → d ≤ st.window.fill.toNat := by
      rintro l d rfl
      simp only [decide_eq_true_eq] at hdist
      simp only [Token.wf, Bool.and_eq_true, decide_eq_true_eq] at hwf
      have := hwf.2
      omega
    obtain ⟨st₁, hstep, a₁, r₁, hl₁, hge₁, l₁, d₁, c₁, hp₁⟩ :=
      huffLoop_token t hll hdl hr hw (by omega) hwf hcoded.1 hd hp
    have hlen₁ : (emitted st.window.history [t]).length = Token.span t := by
      rw [emitted_length, spanOf_cons]; simp
    have hpos := a₁.outPos
    rw [hlen₁] at hpos
    have hfill₁ := a₁.fill_ge
    rw [hlen₁] at hfill₁
    obtain ⟨st₂, hstep₂, a₂, r₂, hlt₂, hl₂, l₂, d₂, c₂, hp₂⟩ :=
      ih (st := st₁) (produced := produced + Token.span t) (by rw [l₁]; exact hll) (by rw [d₁]; exact hdl)
        (by rw [r₁]; exact Reader.skip_ok hr hl₁) a₁.windowOk (by omega) (by omega) hfit'
        (by rw [l₁, d₁]; exact hcoded.2) (by rw [l₁, d₁]; exact hp₁)
    rw [l₁, d₁] at r₂ hlt₂ hl₂
    rw [r₁, Reader.skip_left hr hl₁] at hl₂
    have hem : emitted st.window.history (t :: rest) =
        emitted st.window.history [t] ++ emitted st₁.window.history rest := by
      have hall := tokensFit_wf hfit'
      rw [a₁.history, emitted_take _ _ hall]
      cases t with
      | lit b => simp [emitted]
      | mtch l d => simp [emitted]
    refine ⟨st₂, ?_, ?_, ?_, ?_, ?_, l₂.trans l₁, d₂.trans d₁, c₂.trans c₁, hp₂⟩
    · intro f k
      have e : (t :: rest).length + f = (rest.length + f) + 1 := by simp only [List.length_cons]; omega
      rw [e, hstep, hstep₂, spanOf_cons, Nat.add_assoc]
    · rw [hem]; exact a₁.trans a₂
    · rw [r₂, r₁, Reader.skip_skip hr (by omega), List.flatMap_cons, List.length_append]
    · simp only [List.flatMap_cons, List.length_append, List.length_cons]; omega
    · simp only [List.flatMap_cons, List.length_append]; omega

end Sys2Proof.Machine
end

