-- ==== Sys2Proof/Laws/PackageMerge.lean ====
section
/-! SUPPORT. What package-merge chooses: at every level a prefix of the leaves, shallower prefixes longer, so that the
chosen symbols make a code whose Kraft sum is known (41_huffman R181, R183). -/

namespace Sys2Proof.Machine

open Sys2Proof

/-! Merge -/

/-- A prefix of a merge is a prefix of each list; a leaf no heavier than a chosen package is chosen before it. -/
theorem mergeItems_take (fuel : Nat) (as bs : List Item) (hs : as.Pairwise (fun x y => x.w ≤ y.w))
    (hf : as.length + bs.length ≤ fuel) (n : Nat) (hn : n ≤ as.length + bs.length) :
    ∃ a b, a + b = n ∧ a ≤ as.length ∧ b ≤ bs.length ∧
      ((mergeItems fuel as bs).take n).Perm (as.take a ++ bs.take b) ∧
      ∀ i (hi : i < as.length) j (hj : j < bs.length), j < b → as[i].w ≤ bs[j].w → i < a := by
  induction fuel generalizing as bs n with
  | zero =>
    have ha : as = [] := List.length_eq_zero_iff.1 (by omega)
    have hb : bs = [] := List.length_eq_zero_iff.1 (by omega)
    subst ha hb
    exact ⟨0, 0, by simp at hn; omega, by simp, by simp, by simp [mergeItems], fun i hi => absurd hi (by simp)⟩
  | succ fuel ih =>
    cases as with
    | nil =>
      simp only [List.length_nil, Nat.zero_add] at hn
      exact ⟨0, n, by omega, by simp, hn, by simp [mergeItems], fun i hi => absurd hi (by simp)⟩
    | cons x as =>
      cases bs with
      | nil =>
        simp only [List.length_nil, Nat.add_zero] at hn
        exact ⟨n, 0, by omega, hn, by simp, by simp [mergeItems], fun i hi j hj => absurd hj (by simp)⟩
      | cons y bs =>
        simp only [List.length_cons] at hf hn
        cases n with
        | zero => exact ⟨0, 0, rfl, by simp, by simp, by simp, fun i hi j hj h => absurd h (by omega)⟩
        | succ n =>
          rw [List.pairwise_cons] at hs
          simp only [mergeItems]
          split
          · obtain ⟨a, b, e, ha, hb, hp, hm⟩ :=
              ih as (y :: bs) hs.2 (by simp only [List.length_cons]; omega) n (by simp only [List.length_cons]; omega)
            refine ⟨a + 1, b, by omega, by simp only [List.length_cons]; omega, hb, ?_, ?_⟩
            · simp only [List.take_succ_cons, List.cons_append]
              exact hp.cons x
            · intro i hi j hj hjb hw
              cases i with
              | zero => omega
              | succ i =>
                have := hm i (by simpa using hi) j hj hjb (by simpa using hw)
                omega
          · rename_i hlt
            obtain ⟨a, b, e, ha, hb, hp, hm⟩ :=
              ih (x :: as) bs (List.pairwise_cons.2 hs) (by simp only [List.length_cons]; omega) n
                (by simp only [List.length_cons]; omega)
            refine ⟨a, b + 1, by omega, ha, by simp only [List.length_cons]; omega, ?_, ?_⟩
            · simp only [List.take_succ_cons]
              exact (hp.cons y).trans List.perm_middle.symm
            · intro i hi j hj hjb hw
              cases j with
              | zero =>
                exfalso
                simp only [List.getElem_cons_zero] at hw
                cases i with
                | zero => simp only [List.getElem_cons_zero] at hw; omega
                | succ i =>
                  simp only [List.getElem_cons_succ] at hw
                  have hi' : i < as.length := by simpa using hi
                  have := hs.1 as[i] (List.getElem_mem hi')
                  omega
              | succ j => exact hm i hi j (by simpa using hj) (by omega) (by simpa using hw)

theorem mergeItems_length (fuel : Nat) (as bs : List Item) (hf : as.length + bs.length ≤ fuel) :
    (mergeItems fuel as bs).length = as.length + bs.length := by
  induction fuel generalizing as bs with
  | zero =>
    have ha : as = [] := List.length_eq_zero_iff.1 (by omega)
    have hb : bs = [] := List.length_eq_zero_iff.1 (by omega)
    subst ha hb; rfl
  | succ fuel ih =>
    cases as with
    | nil => simp [mergeItems]
    | cons x as =>
      cases bs with
      | nil => simp [mergeItems]
      | cons y bs =>
        simp only [List.length_cons] at hf
        simp only [mergeItems]
        split
        · rw [List.length_cons, ih as (y :: bs) (by simp only [List.length_cons]; omega)]
          simp only [List.length_cons]; omega
        · rw [List.length_cons, ih (x :: as) bs (by simp only [List.length_cons]; omega)]
          simp only [List.length_cons]; omega

/-! Packages -/

theorem packages_length : ∀ l : List Item, (packages l).length = l.length / 2
  | [] => rfl
  | [_] => by simp [packages]
  | _ :: _ :: rest => by
    rw [packages, List.length_cons, packages_length rest]
    simp only [List.length_cons]; omega

/-- The first b packages hold the symbols of the first 2b items. -/
theorem packages_take : ∀ (l : List Item) (b : Nat), 2 * b ≤ l.length →
    ((packages l).take b).flatMap Item.syms = (l.take (2 * b)).flatMap Item.syms
  | _, 0, _ => by simp
  | [], b + 1, h => by simp at h
  | [_], b + 1, h => by simp only [List.length_singleton] at h; omega
  | x :: y :: rest, b + 1, h => by
    simp only [List.length_cons] at h
    have e : 2 * (b + 1) = (2 * b + 1) + 1 := by omega
    rw [packages, List.take_succ_cons, List.flatMap_cons, packages_take rest b (by omega), e, List.take_succ_cons,
      List.take_succ_cons]
    simp

/-- A package is made of two items. -/
theorem packages_mem : ∀ (l : List Item) (x : Item), x ∈ packages l →
    ∃ y ∈ l, ∃ z ∈ l, x.w = y.w + z.w ∧ x.syms = y.syms ++ z.syms
  | [], _, h => by simp [packages] at h
  | [_], _, h => by simp [packages] at h
  | a :: b :: rest, x, h => by
    rw [packages, List.mem_cons] at h
    rcases h with rfl | h
    · exact ⟨a, by simp, b, by simp, rfl, rfl⟩
    · obtain ⟨y, hy, z, hz, h1, h2⟩ := packages_mem rest x h
      exact ⟨y, by simp [hy], z, by simp [hz], h1, h2⟩

/-! The lists of LengthAssign -/

/-- Leaves as LengthAssign sorts them: one symbol each, no two the same, weights ascending. -/
structure SortedLeaves (leaves : List Item) (sym : Nat → Nat) : Prop where
  sorted : leaves.Pairwise (fun x y => x.w ≤ y.w)
  single : ∀ i (h : i < leaves.length), leaves[i].syms = [sym i]
  inj : ∀ i j, i < leaves.length → j < leaves.length → sym i = sym j → i = j

variable {leaves : List Item} {sym : Nat → Nat}

theorem packageList_length (leaves : List Item) (k : Nat) :
    (packageList leaves (k + 1)).length = leaves.length + (packageList leaves k).length / 2 := by
  rw [packageList, mergeItems_length _ _ _ le_rfl, packages_length]

/-- The list has at least 2n - 2 items after k passes once n ≤ 2^(k+1) (41_huffman R181). -/
theorem packageList_length_ge (leaves : List Item) (k : Nat) (h : leaves.length ≤ 2 ^ (k + 1)) :
    2 * leaves.length - 2 ≤ (packageList leaves k).length := by
  have key : ∀ k, 2 ^ k * (2 * leaves.length - (packageList leaves k).length) ≤ leaves.length + 2 ^ k - 1 ∧
      (packageList leaves k).length ≤ 2 * leaves.length := by
    intro k
    induction k with
    | zero => simp only [packageList, Nat.pow_zero]; omega
    | succ k ih =>
      obtain ⟨h1, h2⟩ := ih
      rw [packageList_length]
      refine ⟨?_, by omega⟩
      have hpos : 0 < 2 ^ k := by positivity
      have e1 : 2 * (2 * leaves.length - (leaves.length + (packageList leaves k).length / 2)) ≤
          2 * leaves.length - (packageList leaves k).length + 1 := by omega
      have e2 := Nat.mul_le_mul_left (2 ^ k) e1
      rw [Nat.mul_add] at e2
      rw [Nat.pow_succ, Nat.mul_assoc]
      omega
  obtain ⟨h1, h2⟩ := key k
  by_contra hlt
  have h3 : 3 ≤ 2 * leaves.length - (packageList leaves k).length := by omega
  have := Nat.mul_le_mul_left (2 ^ k) h3
  have hpos : 0 < 2 ^ k := by positivity
  rw [Nat.pow_succ] at h
  omega

/-- The list never reaches twice the number of leaves. -/
theorem packageList_length_le (leaves : List Item) (k : Nat) :
    (packageList leaves k).length ≤ 2 * leaves.length - 1 := by
  induction k with
  | zero => simp only [packageList]; omega
  | succ k ih => rw [packageList_length]; omega

/-- Every item's weight is at least that of each leaf it holds, and it holds only leaves' symbols. -/
theorem packageList_weights (hl : SortedLeaves leaves sym) (k : Nat) :
    ∀ x ∈ packageList leaves k,
      (∀ s ∈ x.syms, ∃ i, i < leaves.length ∧ sym i = s) ∧
        ∀ i (h : i < leaves.length), sym i ∈ x.syms → leaves[i].w ≤ x.w := by
  have leaf : ∀ x ∈ leaves, (∀ s ∈ x.syms, ∃ i, i < leaves.length ∧ sym i = s) ∧
      ∀ i (h : i < leaves.length), sym i ∈ x.syms → leaves[i].w ≤ x.w := by
    intro x hx
    obtain ⟨j, hj, rfl⟩ := List.getElem_of_mem hx
    rw [hl.single j hj]
    refine ⟨fun s hs => ⟨j, hj, (List.mem_singleton.1 hs).symm⟩, fun i hi hm => ?_⟩
    have : i = j := hl.inj i j hi hj (List.mem_singleton.1 hm)
    subst this; exact le_rfl
  induction k with
  | zero => exact leaf
  | succ k ih =>
    intro x hx
    rw [packageList] at hx
    have hlen := mergeItems_length _ leaves (packages (packageList leaves k)) le_rfl
    obtain ⟨a, b, e, ha, hb, hp, -⟩ :=
      mergeItems_take _ leaves (packages (packageList leaves k)) hl.sorted le_rfl _ le_rfl
    rw [List.take_of_length_le (by rw [hlen])] at hp
    rw [hp.mem_iff, List.mem_append] at hx
    rcases hx with hx | hx
    · exact leaf x (List.mem_of_mem_take hx)
    · obtain ⟨y, hy, z, hz, hw, hs⟩ := packages_mem _ x (List.mem_of_mem_take hx)
      have hy' := ih y hy
      have hz' := ih z hz
      rw [hs, hw]
      refine ⟨?_, ?_⟩
      · intro s hm
        rcases List.mem_append.1 hm with hm | hm
        · exact hy'.1 s hm
        · exact hz'.1 s hm
      · intro i hi hm
        rcases List.mem_append.1 hm with hm | hm
        · have := hy'.2 i hi hm; omega
        · have := hz'.2 i hi hm; omega

/-- How often leaf i occurs among the first `n` items after k passes. -/
def chosenCount (leaves : List Item) (sym : Nat → Nat) (k n i : Nat) : Nat :=
  (((packageList leaves k).take n).flatMap Item.syms).count (sym i)

theorem count_leaves_take (hl : SortedLeaves leaves sym) (a : Nat) (ha : a ≤ leaves.length) (i : Nat)
    (hi : i < leaves.length) : ((leaves.take a).flatMap Item.syms).count (sym i) = if i < a then 1 else 0 := by
  induction a with
  | zero => simp
  | succ a ih =>
    have hlt : a < leaves.length := by omega
    rw [List.take_add_one, List.getElem?_eq_getElem hlt, List.flatMap_append, List.count_append, ih (by omega)]
    simp only [Option.toList_some, List.flatMap_cons, List.flatMap_nil, List.append_nil, hl.single a hlt,
      List.count_singleton, beq_iff_eq]
    by_cases h1 : i < a
    · have h2 : i ≠ a := by omega
      have : sym a ≠ sym i := fun e => h2 (hl.inj i a hi hlt e.symm)
      have h3 : i < a + 1 := by omega
      simp [h1, h3, this]
    · by_cases h2 : i = a
      · subst h2; simp
      · have : sym a ≠ sym i := fun e => h2 (hl.inj i a hi hlt e.symm)
        have h3 : ¬ i < a + 1 := by omega
        simp [h1, h3, this]

/-- The first n items after k + 1 passes: the first a leaves and the symbols of the first 2b items before, where every
leaf among the latter is one of the former. -/
theorem chosenCount_succ (hl : SortedLeaves leaves sym) (k n : Nat)
    (hn : n ≤ (packageList leaves (k + 1)).length) :
    ∃ a b, a + b = n ∧ a ≤ leaves.length ∧ 2 * b ≤ (packageList leaves k).length ∧
      (∀ i < leaves.length, chosenCount leaves sym (k + 1) n i =
        (if i < a then 1 else 0) + chosenCount leaves sym k (2 * b) i) ∧
      ∀ i < leaves.length, chosenCount leaves sym k (2 * b) i ≠ 0 → i < a := by
  rw [packageList_length] at hn
  obtain ⟨a, b, e, ha, hb, hp, hm⟩ :=
    mergeItems_take _ leaves (packages (packageList leaves k)) hl.sorted le_rfl n (by rw [packages_length]; exact hn)
  rw [packages_length] at hb
  have h2b : 2 * b ≤ (packageList leaves k).length := by omega
  have hcount : ∀ i < leaves.length, chosenCount leaves sym (k + 1) n i =
      (if i < a then 1 else 0) + chosenCount leaves sym k (2 * b) i := by
    intro i hi
    have hperm := hp.flatMap_right Item.syms
    rw [chosenCount, packageList, hperm.count_eq, List.flatMap_append, List.count_append, count_leaves_take hl a ha i hi,
      packages_take _ _ h2b]
    rfl
  refine ⟨a, b, e, ha, h2b, hcount, ?_⟩
  intro i hi hc
  rw [chosenCount, ← packages_take _ _ h2b] at hc
  have hmem : sym i ∈ ((packages (packageList leaves k)).take b).flatMap Item.syms :=
    List.count_pos_iff.1 (Nat.pos_of_ne_zero hc)
  obtain ⟨x, hx, hs⟩ := List.mem_flatMap.1 hmem
  obtain ⟨j, hj, rfl⟩ := List.getElem_of_mem hx
  rw [List.length_take] at hj
  have hjl : j < (packages (packageList leaves k)).length := by omega
  rw [List.getElem_take] at hs
  refine hm i hi j hjl (by omega) ?_
  obtain ⟨y, hy, z, hz, hw, hs'⟩ := packages_mem _ _ (List.getElem_mem hjl)
  rw [hs'] at hs
  rw [hw]
  rcases List.mem_append.1 hs with hs | hs
  · have := (packageList_weights hl k y hy).2 i hi hs; omega
  · have := (packageList_weights hl k z hz).2 i hi hs; omega

/-- What the first n items hold: at most k + 1 of each leaf, never more of a heavier one, and in total the Kraft sum that
n items of width 1/2 make (41_huffman R183). -/
theorem chosenCount_spec (hl : SortedLeaves leaves sym) (k n : Nat) (hn : n ≤ (packageList leaves k).length) :
    (∀ i < leaves.length, chosenCount leaves sym k n i ≤ k + 1) ∧
      (∀ i j, i ≤ j → j < leaves.length → chosenCount leaves sym k n j ≤ chosenCount leaves sym k n i) ∧
      ((List.range leaves.length).map (fun i => 2 ^ (k + 1) - 2 ^ (k + 1 - chosenCount leaves sym k n i))).sum =
        2 ^ k * n := by
  induction k generalizing n with
  | zero =>
    have e : ∀ i < leaves.length, chosenCount leaves sym 0 n i = if i < n then 1 else 0 := by
      intro i hi
      rw [chosenCount, packageList]
      exact count_leaves_take hl n hn i hi
    refine ⟨fun i hi => by rw [e i hi]; split <;> omega, ?_, ?_⟩
    · intro i j hij hj
      rw [e i (by omega), e j hj]
      split <;> split <;> omega
    · rw [List.map_congr_left (g := fun i => if i < n then 1 else 0)]
      · have : ∀ m, ((List.range m).map (fun i => if i < n then 1 else 0)).sum = min n m := by
          intro m
          induction m with
          | zero => simp
          | succ m ih =>
            rw [List.range_succ, List.map_append, List.sum_append, ih]
            simp only [List.map_cons, List.map_nil, List.sum_cons, List.sum_nil]
            split <;> omega
        rw [this]
        simp only [packageList] at hn
        omega
      · intro i hi
        rw [e i (List.mem_range.1 hi)]
        split <;> simp
  | succ k ih =>
    obtain ⟨a, b, hab, ha, hb, hc, hz⟩ := chosenCount_succ hl k n hn
    obtain ⟨h1, h2, h3⟩ := ih (2 * b) hb
    refine ⟨?_, ?_, ?_⟩
    · intro i hi
      rw [hc i hi]
      have := h1 i hi
      split <;> omega
    · intro i j hij hj
      rw [hc i (by omega), hc j hj]
      have := h2 i j hij hj
      split <;> split <;> omega
    · rw [List.map_congr_left (g := fun i => 2 ^ (k + 1) * (if i < a then 1 else 0) +
        (2 ^ (k + 1) - 2 ^ (k + 1 - chosenCount leaves sym k (2 * b) i)))]
      · have hsum : ∀ (m : Nat) (f g : Nat → Nat), ((List.range m).map (fun i => f i + g i)).sum =
            ((List.range m).map f).sum + ((List.range m).map g).sum := by
          intro m f g
          induction m with
          | zero => simp
          | succ m ihm => simp only [List.range_succ, List.map_append, List.sum_append, ihm, List.map_cons, List.map_nil,
              List.sum_cons, List.sum_nil]; omega
        have hind : ∀ m, a ≤ m → ((List.range m).map (fun i => 2 ^ (k + 1) * (if i < a then 1 else 0))).sum =
            2 ^ (k + 1) * a := by
          have : ∀ m, ((List.range m).map (fun i => 2 ^ (k + 1) * (if i < a then 1 else 0))).sum =
              2 ^ (k + 1) * min a m := by
            intro m
            induction m with
            | zero => simp
            | succ m ihm =>
              rw [List.range_succ, List.map_append, List.sum_append, ihm]
              simp only [List.map_cons, List.map_nil, List.sum_cons, List.sum_nil, Nat.add_zero]
              split
              · rw [← Nat.mul_add]; congr 1; omega
              · rw [Nat.mul_zero, Nat.add_zero]; congr 1; omega
          intro m hm
          rw [this, Nat.min_eq_left hm]
        rw [hsum, hind _ ha, h3, ← hab]
        rw [Nat.pow_succ]; ring
      · intro i hi
        have hi' := List.mem_range.1 hi
        rw [hc i hi']
        have hle := h1 i hi'
        by_cases hia : i < a
        · simp only [hia, if_true, Nat.mul_one]
          have e : k + 1 + 1 - (1 + chosenCount leaves sym k (2 * b) i) =
              k + 1 - chosenCount leaves sym k (2 * b) i := by omega
          rw [e]
          have hp : 2 ^ (k + 1 - chosenCount leaves sym k (2 * b) i) ≤ 2 ^ (k + 1) :=
            Nat.pow_le_pow_right (by decide) (by omega)
          have e2 : 2 ^ (k + 1 + 1) = 2 ^ (k + 1) + 2 ^ (k + 1) := by rw [Nat.pow_succ 2 (k + 1)]; omega
          rw [e2]
          generalize 2 ^ (k + 1) = P at hp ⊢
          omega
        · have h0 : chosenCount leaves sym k (2 * b) i = 0 := by
            by_contra hne; exact hia (hz i hi' hne)
          simp [hia, h0]

/-- Every leaf occurs among the first 2n - 2 items (41_huffman R183(a)). -/
theorem chosenCount_pos (hl : SortedLeaves leaves sym) (h2 : 2 ≤ leaves.length) (k : Nat) :
    ∀ i < leaves.length,
      1 ≤ chosenCount leaves sym k (min (2 * leaves.length - 2) (packageList leaves k).length) i := by
  induction k with
  | zero =>
    intro i hi
    rw [chosenCount, packageList, count_leaves_take hl _ (by omega) i hi, if_pos (by omega)]
  | succ k ih =>
    intro i hi
    obtain ⟨a, b, hab, ha, hb, hc, hz⟩ :=
      chosenCount_succ hl k (min (2 * leaves.length - 2) (packageList leaves (k + 1)).length) (by omega)
    rw [hc i hi]
    by_cases hia : i < a
    · simp [hia]
    · have hlen := packageList_length leaves k
      have hle := packageList_length_le leaves k
      have hbig : 2 * leaves.length - 2 ≤ 2 * b := by omega
      have hmin : min (2 * leaves.length - 2) (packageList leaves k).length = 2 * leaves.length - 2 := by omega
      have hb2 : 2 * b = 2 * leaves.length - 2 := by
        rcases Nat.lt_or_ge (2 * leaves.length - 2) (2 * b) with h | h
        · omega
        · omega
      have := ih i hi
      rw [hmin, ← hb2] at this
      omega

end Sys2Proof.Machine
end

