-- ==== Sys2Proof/Laws/PerInstr.lean ====
section
/-! SUPPORT. What holds of every instruction as syntax, one lemma per constructor. -/

namespace Sys2Proof.Laws.RoundTrip

open Sys2Proof

/-- The instruction is well formed and is the one its own code word decodes to (30_encoding R90..R93, R101, R102). -/
def Statement (i : Instr) : Prop := i.wf = true ∧ decode (encode i) = .ok i

theorem nop : Statement .nop := ⟨rfl, rfl⟩

theorem resetStream : Statement .resetStream := ⟨rfl, rfl⟩

theorem bwInit : Statement .bwInit := ⟨rfl, rfl⟩

theorem bwWriteBits : Statement .bwWriteBits := ⟨rfl, rfl⟩

theorem bwFlush : Statement .bwFlush := ⟨rfl, rfl⟩

theorem brInit : Statement .brInit := ⟨rfl, rfl⟩

theorem brReadBits : Statement .brReadBits := ⟨rfl, rfl⟩

theorem brAlign : Statement .brAlign := ⟨rfl, rfl⟩

theorem hufBuild : Statement .hufBuild := ⟨rfl, rfl⟩

theorem hufLoadFixed : Statement .hufLoadFixed := ⟨rfl, rfl⟩

theorem hufDecode : Statement .hufDecode := ⟨rfl, rfl⟩

theorem hufEncode : Statement .hufEncode := ⟨rfl, rfl⟩

theorem lzScan : Statement .lzScan := ⟨rfl, rfl⟩

theorem deflStored : Statement .deflStored := ⟨rfl, rfl⟩

theorem deflHuff : Statement .deflHuff := ⟨rfl, rfl⟩

theorem compress : Statement .compress := ⟨rfl, rfl⟩

theorem inflBlock : Statement .inflBlock := ⟨rfl, rfl⟩

theorem decompress : Statement .decompress := ⟨rfl, rfl⟩

theorem streamBlockStored (bfinal : Bool) : Statement (.streamBlockStored bfinal) := by cases bfinal <;> exact ⟨rfl, rfl⟩

theorem streamBlockFixed (bfinal : Bool) : Statement (.streamBlockFixed bfinal) := by cases bfinal <;> exact ⟨rfl, rfl⟩

theorem streamBlockDynamic (bfinal : Bool) : Statement (.streamBlockDynamic bfinal) := by cases bfinal <;> exact ⟨rfl, rfl⟩

theorem streamBlockReserved (bfinal : Bool) : Statement (.streamBlockReserved bfinal) := by cases bfinal <;> exact ⟨rfl, rfl⟩

end Sys2Proof.Laws.RoundTrip
end

