-- ==== Sys2Proof/Tests/Slice0.lean ====
section
/-! SUPPORT. Tests of the model: decoding and well-formedness against words written out from the spec's tables, one step
per instruction against the vectors of 95_test_vectors and the examples of the rules, and for every obligation with
hypotheses a state that meets them. -/

namespace Sys2Proof.Tests

set_option Elab.async false

open Sys2Proof Sys2Proof.Machine

/-! Decoding (30_encoding R90, R91, R101, R102) -/

theorem test_decode_control :
    decode (.cmd 0b00000000000000000000000000000000#32) = .ok .nop ∧
      decode (.cmd 0b00000000000000000000000000000001#32) = .ok .resetStream := by decide

theorem test_decode_bitstream :
    decode (.cmd 0b00000000000000000000000000010000#32) = .ok .bwInit ∧
      decode (.cmd 0b00000000000000000000000000010001#32) = .ok .bwWriteBits ∧
      decode (.cmd 0b00000000000000000000000000010010#32) = .ok .bwFlush ∧
      decode (.cmd 0b00000000000000000000000000011000#32) = .ok .brInit ∧
      decode (.cmd 0b00000000000000000000000000011001#32) = .ok .brReadBits ∧
      decode (.cmd 0b00000000000000000000000000011010#32) = .ok .brAlign := by decide

theorem test_decode_huffman :
    decode (.cmd 0b00000000000000000000000000100000#32) = .ok .hufBuild ∧
      decode (.cmd 0b00000000000000000000000000100001#32) = .ok .hufLoadFixed ∧
      decode (.cmd 0b00000000000000000000000000100010#32) = .ok .hufDecode ∧
      decode (.cmd 0b00000000000000000000000000100011#32) = .ok .hufEncode := by decide

theorem test_decode_matchfinder_deflator :
    decode (.cmd 0b00000000000000000000000000101000#32) = .ok .lzScan ∧
      decode (.cmd 0b00000000000000000000000000110000#32) = .ok .deflStored ∧
      decode (.cmd 0b00000000000000000000000000110001#32) = .ok .deflHuff ∧
      decode (.cmd 0b00000000000000000000000000111000#32) = .ok .compress := by decide

theorem test_decode_inflator :
    decode (.cmd 0b00000000000000000000000001000000#32) = .ok .inflBlock ∧
      decode (.cmd 0b00000000000000000000000001001000#32) = .ok .decompress := by decide

/-- BFINAL is bit 0, BTYPE bits 2:1. -/
theorem test_decode_block_headers :
    decode (.header 0b001#3) = .ok (.streamBlockStored true) ∧
      decode (.header 0b011#3) = .ok (.streamBlockFixed true) ∧
      decode (.header 0b100#3) = .ok (.streamBlockDynamic false) ∧
      decode (.header 0b110#3) = .ok (.streamBlockReserved false) := by decide

/-- CT-2, CT-3, CT-4: an unassigned opcode, and a RSVD bit. -/
theorem test_decode_rejects :
    decode (.cmd 0x00000002#32) = .error (.unassignedOpcode 0x02#8) ∧
      decode (.cmd 0x0000004F#32) = .error (.unassignedOpcode 0x4F#8) ∧
      decode (.cmd 0x00000100#32) = .error (.reservedBits 1#24) := by decide

theorem test_decodeTableWord :
    decodeTableWord 32 0x48 = some .decompress ∧ decodeTableWord 32 0x148 = none ∧ decodeTableWord 32 0x50 = none ∧
      decodeTableWord 8 0b011 = some (.streamBlockFixed true) := by decide

/-! Well-formedness: a term each check refuses (00_scope R16, 30_encoding R97) -/

theorem test_wf_refuses_tokens :
    (Token.mtch 2 1).wf = false ∧ (Token.mtch 259 1).wf = false ∧ (Token.mtch 3 0).wf = false ∧
      (Token.mtch 3 32769).wf = false ∧ (Token.mtch 258 32768).wf = true := by decide

/-- DF-13, DF-14, DF-15. -/
theorem test_wf_refuses_records :
    recordWf 0x00000100#32 = false ∧ recordWf 0x80008000#32 = false ∧ recordWf 0x81000000#32 = false ∧
      recordWf 0x80FF7FFF#32 = true := by decide

theorem test_wf_instructions : Instr.nop.wf = true ∧ (Instr.streamBlockReserved true).wf = true := by decide

/-! States for the tests -/

/-- IN and OUT of 64 and 8 bytes. -/
def small : Params where
  inSize := 64
  outCap := 8
  numInstances := 2
  regBase := 0
  inBase := 65536
  outBase := 131072
  exposeBusy := false
  inSize_bounds := by decide
  outCap_bounds := by decide
  numInstances_pos := by decide

/-- A memory that holds bytes from index 0. -/
def bytesFrom (bs : List Nat) : Memory := ⟨(List.range bs.length).map (fun i => (i, BitVec.ofNat 8 (bs.getD i 0))), [(0, 0)]⟩

/-- The reset state of the small platform, with bytes in IN and the latched operands set. -/
def st (bs : List Nat) (x y z : Nat) : State :=
  { State.resetWith small 0 with
    input := bytesFrom bs
    latch := { Latch.zero with arg0 := BitVec.ofNat 32 x, arg1 := BitVec.ofNat 32 y, arg2 := BitVec.ofNat 32 z } }

/-- The same with the reader over IN[0 .. n). -/
def rd' (n : Nat) (s : State) : State := { s with stream := { s.stream with reader := ⟨0, BitVec.ofNat 32 n, 0⟩ } }

/-- The same with the reader past the first three bits. -/
def past3 (n : Nat) (s : State) : State := { s with stream := { s.stream with reader := ⟨0, BitVec.ofNat 32 n, 3⟩ } }

/-- The same with the writer at an index, with bits pending. -/
def wrAt (q acc cnt : Nat) (s : State) : State :=
  { s with
    stream :=
      { s.stream with
        writer :=
          { s.stream.writer with
            outPos := BitVec.ofNat 32 q
            acc := BitVec.ofNat 8 acc
            cnt := BitVec.ofNat 4 cnt } } }

/-- The same with the fixed tables loaded. -/
def fixedLoaded (s : State) : State := { s with stream := loadFixed s.stream }

/-- The same with one byte in the window. -/
def winA (s : State) : State :=
  { s with stream := { s.stream with window := ⟨⟨[(0, 0x41#8)], [(0, 0)]⟩, 1, 1⟩ } }

/-- The state after a step. -/
def next (o : Host.Outcome State Fault Refusal) : Option State :=
  match o with
  | .next t => some t
  | .fault _ => none
  | .refused _ => none

/-- The step in which the host issues a command with operands. -/
def issue (w : Word) (x y z : Nat) (s : State) : Option State :=
  next (step { s with
    arg0 := BitVec.ofNat 32 x
    arg1 := BitVec.ofNat 32 y
    arg2 := BitVec.ofNat 32 z
    host := [wr 0x004 w] })

/-- STATUS, ERR, RES0 and RES1 of a state, an error leaving the results out. -/
def seen (s : State) : Nat × Nat × Option (Nat × Nat) :=
  ((statusWord s).toNat, (errWord s.err).toNat, if s.error then none else some (s.res0.toNat, s.res1.toNat))

/-- The first bytes of OUT. -/
def outBytes (n : Nat) (s : State) : List Nat := (List.range n).map (fun i => (s.stream.writer.out.read .outByte i).toNat)

/-! One step per instruction (95_test_vectors) -/

/-- The codes of 60_exceptions R341. -/
theorem test_error_codes :
    [none, some Err.unexpectedEnd, some .invalidCode, some .invalidBlockType, some .lengthMismatch, some .invalidDistance,
      some .invalidRange, some .outputOverflow, some .invalidCommand].map (fun e => (errWord e).toNat) =
      [0, 1, 2, 3, 4, 5, 6, 7, 8] := by decide

/-- CT-1. -/
theorem test_nop : (issue 0x00 0 0 0 (st [] 0 0 0)).map seen = some (2, 0, some (0, 0)) := by decide

/-- CT-5: RESET_STREAM under ERROR. -/
theorem test_reset_stream :
    (issue 0x01 0 0 0 (wrAt 3 1 1 { st [] 0 0 0 with error := true, err := some .invalidCommand })).map
      (fun t => (seen t, t.stream.writer.outPos.toNat, t.stream.writer.cnt.toNat)) =
      some ((2, 0, some (0, 0)), 0, 0) := by decide

/-- R142's example, with pending bits (BW-11). -/
theorem test_bw_init :
    (issue 0x10 4 0 0 (wrAt 0 7 3 (st [] 0 0 0))).map
      (fun t => (seen t, t.stream.writer.outPos.toNat, (readReg t 0x048).toNat)) = some ((2, 0, some (0, 0)), 4, 0) := by
  decide

/-- BW-9: one past OUT_CAP. -/
theorem test_bw_init_range : (issue 0x10 9 0 0 (st [] 0 0 0)).map seen = some (4, 6, none) := by decide

/-- BW-1, the second command. -/
theorem test_bw_write_bits :
    (issue 0x11 0x1F 5 0 (wrAt 0 5 3 (st [] 0 0 0))).map
      (fun t => (seen t, outBytes 1 t, t.stream.writer.outPos.toNat, (readReg t 0x048).toNat)) =
      some ((2, 0, some (0, 0)), [0xFD], 1, 0) := by decide

/-- BW-8: the eighth bit of a byte without room. -/
theorem test_bw_write_bits_overflow :
    (issue 0x11 0xFF 8 0 (wrAt 8 0 0 (st [] 0 0 0))).map seen = some (4, 7, none) := by decide

/-- R146's example. -/
theorem test_bw_flush :
    (issue 0x12 0 0 0 (wrAt 0 5 3 (st [] 0 0 0))).map
      (fun t => (seen t, outBytes 1 t, t.stream.writer.outPos.toNat)) = some ((2, 0, some (5, 0)), [5], 1) := by decide

/-- R153's example. -/
theorem test_br_init :
    (issue 0x18 0 2 0 (st [] 0 0 0)).map
      (fun t => (seen t, (readReg t 0x038).toNat, (readReg t 0x03C).toNat, (readReg t 0x040).toNat)) =
      some ((2, 0, some (0, 0)), 0, 2, 0) := by decide

/-- BR-7: the sum does not wrap. -/
theorem test_br_init_no_wrap : (issue 0x18 0xFFFFFFFF 2 0 (st [] 0 0 0)).map seen = some (4, 6, none) := by decide

/-- BR-1, the first read. -/
theorem test_br_read_bits :
    (issue 0x19 3 0 0 (rd' 2 (st [0xFD, 0] 0 0 0))).map (fun t => (seen t, (readReg t 0x040).toNat)) =
      some ((2, 0, some (5, 0)), 3) := by decide

/-- BR-1, the last read: fewer bits remain. -/
theorem test_br_read_bits_end : (issue 0x19 9 0 0 (rd' 1 (st [0xFD, 0] 0 0 0))).map seen = some (4, 1, none) := by decide

/-- R155's example. -/
theorem test_br_align :
    (issue 0x1A 0 0 0 (past3 2 (st [0, 0] 0 0 0))).map
      (fun t => (seen t, (readReg t 0x038).toNat, (readReg t 0x040).toNat)) = some ((2, 0, some (5, 0)), 1, 0) := by
  decide

/-- R185's example: the codes 010, 011, 100, 101, 110, 00, 1110, 1111. -/
theorem test_huf_build :
    (issue 0x20 2 8 0 (st [3, 3, 3, 3, 3, 2, 4, 4] 0 0 0)).map
      (fun t => (seen t, (List.range 8).map t.stream.clen.code)) =
      some ((2, 0, some (0, 0)), [2, 3, 4, 5, 6, 0, 14, 15]) := by decide

/-- HU-2: over-subscribed lengths. -/
theorem test_huf_build_oversubscribed :
    (issue 0x20 1 3 0 (st [1, 1, 1] 0 0 0)).map seen = some (4, 2, none) := by decide

/-- R109's corner codes. -/
theorem test_huf_load_fixed :
    (issue 0x21 0 0 0 (st [] 0 0 0)).map
      (fun t => (seen t, [0, 144, 256, 287].map t.stream.litlen.code, t.stream.dist.code 31)) =
      some ((2, 0, some (0, 0)), [0x30, 0x190, 0, 0xC7], 31) := by decide +kernel

/-- HU-17: symbol 286 is not rejected. -/
theorem test_huf_decode :
    (issue 0x22 0 0 0 (rd' 2 (fixedLoaded (st [0x63, 0] 0 0 0)))).map seen = some (2, 0, some (286, 8)) := by
  decide +kernel

/-- HU-16: an all-zero table and 8 bits. -/
theorem test_huf_decode_end : (issue 0x22 0 0 0 (rd' 1 (st [0] 0 0 0))).map seen = some (4, 1, none) := by decide +kernel

/-- R188's example: the bits 0,1,1,1,0,0,0,1. -/
theorem test_huf_encode :
    (issue 0x23 0 0x41 0 (fixedLoaded (st [] 0 0 0))).map (fun t => (seen t, outBytes 1 t)) =
      some ((2, 0, some (0x71, 8)), [0x8E]) := by decide +kernel

/-- HU-12: a symbol that is not coded. -/
theorem test_huf_encode_uncoded : (issue 0x23 0 0 0 (st [] 0 0 0)).map seen = some (4, 8, none) := by decide

/-- LZ-2: an overlapping match. -/
theorem test_lz_scan :
    (issue 0x28 0 4 0 (st [0x61, 0x61, 0x61, 0x61] 0 0 0)).map (fun t => (seen t, outBytes 8 t)) =
      some ((2, 0, some (2, 0)), [0x61, 0, 0, 0, 0, 0, 0, 0x80]) := by decide +kernel

/-- LZ-12: bits pending. -/
theorem test_lz_scan_partial_byte : (issue 0x28 0 3 0 (wrAt 0 1 1 (st [1, 2, 3] 0 0 0))).map seen = some (4, 8, none) := by
  decide +kernel

/-- DF-3: the header follows three pending bits. -/
theorem test_defl_stored :
    (issue 0x30 0 2 1 (wrAt 0 5 3 (st [0x61, 0x62] 0 0 0))).map (fun t => (seen t, outBytes 7 t)) =
      some ((2, 0, some (53, 0)), [0x0D, 2, 0, 0xFD, 0xFF, 0x61, 0x62]) := by decide +kernel

/-- DF-7: the fixed block of "A". -/
theorem test_defl_huff :
    (issue 0x31 0 1 1 (st [0x41, 0, 0, 0] 0 0 0)).map (fun t => (seen t, outBytes 2 t, (readReg t 0x048).toNat)) =
      some ((2, 0, some (18, 0)), [0x73, 0x04], 0x200) := by decide +kernel

/-- DF-14: a record with bit 15 set. -/
theorem test_defl_huff_bad_record : (issue 0x31 0 1 1 (st [0, 0x80, 0, 0x80] 0 0 0)).map seen = some (4, 8, none) := by
  decide +kernel

/-- R251's example: "A" in FIXED mode. -/
theorem test_compress :
    (issue 0x38 0 1 0 { st [0x41] 0 0 0 with config := 0x0D#5 }).map (fun t => (seen t, outBytes 3 t)) =
      some ((2, 0, some (3, 1)), [0x73, 0x04, 0x00]) := by decide +kernel

/-- L1.1: the empty input in DYNAMIC mode needs 12 bytes. -/
theorem test_compress_overflow :
    (issue 0x38 0 0 0 { st [] 0 0 0 with config := 0x0E#5 }).map seen = some (4, 7, none) := by decide +kernel

/-- IN-23. -/
theorem test_infl_block :
    (issue 0x40 0 0 0 (rd' 5 (st [1, 0, 0, 0xFF, 0xFF] 0 0 0))).map (fun t => (seen t, (readReg t 0x038).toNat)) =
      some ((2, 0, some (0, 1)), 5) := by decide +kernel

/-- IN-24. -/
theorem test_decompress :
    (issue 0x48 0 3 0 (st [0x73, 0x04, 0x00] 0 0 0)).map (fun t => (seen t, outBytes 1 t)) =
      some ((2, 0, some (1, 3)), [0x41]) := by decide +kernel

/-- IN-8: a distance beyond the bytes produced. -/
theorem test_decompress_distance :
    (issue 0x48 0 3 0 (st [0x73, 0x04, 0x42] 0 0 0)).map seen = some (4, 5, none) := by decide +kernel

/-- IN-5's block after its header, within INFL_BLOCK. -/
theorem test_stream_block_stored :
    (next (exec (.streamBlockStored true) (past3 8 (st [1, 3, 0, 0xFC, 0xFF, 0x41, 0x42, 0x43] 0 0 0)))).map
      (fun t => (seen t, outBytes 3 t, (readReg t 0x04C).toNat)) =
      some ((2, 0, some (3, 1)), [0x41, 0x42, 0x43], 3) := by decide +kernel

/-- IN-13's block after its header: an overlapping copy fills OUT (here of 8 bytes) and overflows. -/
theorem test_stream_block_fixed_overflow :
    (next (exec (.streamBlockFixed true) (past3 5 (st [0x73, 0x74, 0x42, 0x40, 0] 0 0 0)))).map seen =
      some (4, 7, none) := by decide +kernel

/-- IN-24's block after its header. -/
theorem test_stream_block_fixed :
    (next (exec (.streamBlockFixed true) (past3 3 (st [0x73, 0x04, 0x00] 0 0 0)))).map (fun t => (seen t, outBytes 1 t)) =
      some ((2, 0, some (1, 1)), [0x41]) := by decide +kernel

/-- L1.1: the empty dynamic block after its header. -/
theorem test_stream_block_dynamic :
    (next (exec (.streamBlockDynamic true)
      (past3 12 (st [0x05, 0xC1, 0x81, 0, 0, 0, 0, 0, 0x10, 0xFF, 0xD5, 0x08] 0 0 0)))).map seen =
      some (2, 0, some (0, 1)) := by decide +kernel

/-- IN-14: repeat code 16 with no previous length. -/
theorem test_stream_block_dynamic_repeat :
    (next (exec (.streamBlockDynamic true) (past3 4 (st [0x05, 0x00, 0x02, 0x24] 0 0 0)))).map seen =
      some (4, 2, none) := by decide +kernel

/-- IN-3. -/
theorem test_stream_block_reserved :
    (next (exec (.streamBlockReserved true) (past3 1 (st [0x07] 0 0 0)))).map seen = some (4, 3, none) := by decide +kernel

/-- CT-2: an illegal word keeps the stream state. -/
theorem test_illegal_word :
    (issue 0x02 0 0 0 (wrAt 3 1 1 (st [] 0 0 0))).map
      (fun t => (seen t, t.stream.writer.outPos.toNat, t.stream.writer.cnt.toNat)) = some ((4, 8, none), 3, 1) := by
  decide

/-- CT-8: BLOCK_TOKENS written with 0, 0x20000, 0x1FFFF, 70000, 65536. -/
theorem test_block_tokens :
    [0, 0x20000, 0x1FFFF, 70000, 65536].map (fun v => (clampBlockTokens (BitVec.ofNat 32 v)).toNat) =
      [1, 1, 65536, 65536, 65536] := by decide

/-- CT-12, CT-13: the interrupt output. -/
theorem test_irq :
    (issue 0x00 0 0 0 { st [] 0 0 0 with config := 0x1C#5 }).map (fun t => (t.irq, (writeStatus 2 t).irq)) =
        some (true, false) ∧
      (issue 0x02 0 0 0 { st [] 0 0 0 with config := 0x1C#5 }).map (fun t => (t.irq, (writeStatus 2 t).irq)) =
        some (true, true) := by decide

/-- The placed instruction is the one that the next step runs: NOP, and the reserved block header. -/
theorem test_withFetchWord :
    (next (step (State.reset.withFetchWord 32 0x00))).map seen = some (2, 0, some (0, 0)) ∧
      (next (step (State.reset.withFetchWord 8 0b110))).map seen = some (4, 3, none) := by decide +kernel

/-! Witnesses: for every obligation with hypotheses, states and operands that meet them -/

/-- A state that an outcome reaches and that has a property. -/
theorem of_next {o : Host.Outcome State Fault Refusal} {P : State → Bool} (h : (next o).elim false P = true) :
    ∃ t, o = .next t ∧ P t = true := by
  cases o with
  | next t => exact ⟨t, rfl, h⟩
  | fault r => simp [next] at h
  | refused r => simp [next] at h

/-- The bytes of a bit sequence, the last one filled with zeros. -/
def pack : Nat → List Bool → List Nat
  | 0, _ => []
  | n + 1, bs => bitsNat (bs.take 8) :: pack n (bs.drop 8)

/-- The platform that shows BUSY = 1. -/
def exposed : Params := { small with exposeBusy := true }

theorem test_witness_TokenRecordsAgree :
    (Token.mtch 3 1).wf = true ∧ (Token.mtch 258 32768).wf = true ∧ (Token.lit 255).wf = true ∧
      tokenOf 0x80FF7FFF#32 = some (.mtch 258 32768) ∧ tokenOf 0x000000FF#32 = some (.lit 255) := by decide

theorem test_witness_IllegalWordIsInvalidCommand :
    rsvdOf 0x101#32 ≠ 0 ∧ opcodeOf 0x4F#32 ∉ [0x00#8, 0x01#8, 0x48#8] ∧ decodeCmd 0x4F#32 ≠ .ok .decompress ∧
      State.busy { st [] 0 0 0 with run := .started } = true ∧ (st [] 0 0 0).busy = false ∧
      (st [] 0 0 0).error = false ∧ (st [] 0 0 0).params.exposeBusy = false ∧
      (State.resetWith exposed 0).params.exposeBusy = true ∧ (State.resetWith exposed 0).busy = false := by decide

theorem test_witness_StepRunsTheIssuedCommand :
    (let s : State := { st [] 0 0 0 with host := [wr 0x004 0x48#32, .wait] };
      decodeCmd 0x48#32 = .ok .decompress ∧ s.inReset = false ∧ s.busy = false ∧ s.error = false ∧
        s.host = wr 0x004 0x48#32 :: [.wait] ∧ s.params.exposeBusy = false) ∧
      (let s : State := { State.resetWith exposed 0 with error := true, host := [wr 0x004 1#32] };
        decodeCmd 1#32 = .ok .resetStream ∧ s.inReset = false ∧ s.busy = false ∧ s.error = true ∧
          s.host = wr 0x004 1#32 :: [] ∧ s.params.exposeBusy = true) ∧
      (let s : State := { start 0x28#32 (State.resetWith exposed 0) with host := [.turn] };
        decodeCmd s.latch.word = .ok .lzScan ∧ s.inReset = false ∧ s.run = .started ∧ s.host = .turn :: []) ∧
      (start 0x28#32 (State.resetWith exposed 0)).host = [] := by decide

theorem test_witness_StepRunsTheFetchedBlock :
    (let s : State := { rd' 1 (st [0x03] 0 0 0) with run := .inflating };
      s.inReset = false ∧ s.run = .inflating ∧ s.host = [] ∧ s.stream.reader.Ok s.params ∧
        encode (.streamBlockFixed true) = .header 3#3 ∧ 3 ≤ s.stream.reader.left ∧
        s.stream.reader.next s.inByte 3 = natBits 3 (3#3).toNat) ∧
      (Reader.Ok small ⟨0, 1, 5⟩ ∧ Reader.left ⟨0, 1, 5⟩ = 3) ∧ (Reader.Ok small ⟨0, 1, 6⟩ ∧ Reader.left ⟨0, 1, 6⟩ < 3) := by
  decide +kernel

theorem test_witness_CmdWriteIsDroppedOrStarts :
    (let s : State := { st [] 0 0 0 with run := .started, host := [wr 0x004 0x11#32] };
      s.inReset = false ∧ s.host = wr 0x004 0x11#32 :: [] ∧ s.busy = true) ∧
      (let s : State := { st [] 0 0 0 with error := true, host := [wr 0x004 0x11#32] };
        s.inReset = false ∧ s.host = wr 0x004 0x11#32 :: [] ∧ s.error = true ∧ (0x11#32 : Word) ≠ 0 ∧ (0x11#32 : Word) ≠ 1) ∧
      (State.resetWith exposed 0).params.exposeBusy = true ∧ (State.resetWith exposed 0).busy = false ∧
      (State.resetWith exposed 0).error = false := by decide

theorem test_witness_OnlyTheLatchedOperandsAreRead :
    (∃ t, exec .hufLoadFixed (st [] 0 0 0) = .next t ∧ t.done = true) ∧
      (∃ t, exec .deflStored (st [] 0 0 1) = .next t ∧ t.done = true) ∧
      (0xFFFFFFFF#32).getLsbD 0 = (st [] 0 0 1).latch.arg2.getLsbD 0 ∧
      (0xFFFFFFFD#32).getLsbD 0 = (st [] 0 0 1).latch.arg2.getLsbD 0 ∧
      (0xFFFFFFFD#32).getLsbD 1 = (st [] 0 0 1).latch.arg2.getLsbD 1 ∧
      (∃ t, exec .hufLoadFixed (st [] 7 7 7) = .next t ∧ t.done = true) ∧
      (∃ t, exec .brReadBits (rd' 1 (st [0xFD, 0] 3 0 0)) = .next t ∧ t.done = true) :=
  ⟨of_next (P := fun t => t.done) (by decide +kernel), of_next (P := fun t => t.done) (by decide +kernel),
    by decide, by decide, by decide, of_next (P := fun t => t.done) (by decide +kernel),
    of_next (P := fun t => t.done) (by decide +kernel)⟩

theorem test_witness_ErrorsKeepWhatTheyCouldNotWrite :
    (let s : State := wrAt 3 0 0 { st [] 0 33 0 with latch := ⟨0x11, 0, 33, 0, 0, 0, 0, 3⟩ };
      s.latch.word ≠ 0x38#32 ∧ s.latch.word ≠ 0x48#32 ∧ s.latch.outStart.toNat ≤ s.stream.writer.outPos.toNat ∧
        0 < s.latch.outStart.toNat) ∧
      ∃ t, exec .bwWriteBits (wrAt 3 0 0 { st [] 0 33 0 with latch := ⟨0x11, 0, 33, 0, 0, 0, 0, 3⟩ }) = .next t ∧
        t.error = true :=
  ⟨by decide, of_next (P := fun t => t.error) (by decide +kernel)⟩

theorem test_witness_ControlCommandsComplete :
    State.busy { st [] 0 0 0 with run := .inflating } = true ∧ (st [] 0 0 0).busy = false ∧
      (st [] 0 0 0).params.exposeBusy = false := by decide

theorem test_witness_InitCommandsComplete :
    (st [] 9 0 0).params.outCap < (st [] 9 0 0).a0 ∧ (st [] 8 0 0).a0 ≤ (st [] 8 0 0).params.outCap ∧
      (st [] 0 65 0).params.inSize < (st [] 0 65 0).a0 + (st [] 0 65 0).a1 ∧
      (st [] 0xFFFFFFFF 2 0).params.inSize < (st [] 0xFFFFFFFF 2 0).a0 + (st [] 0xFFFFFFFF 2 0).a1 ∧
      (st [] 64 0 0).a0 + (st [] 64 0 0).a1 ≤ (st [] 64 0 0).params.inSize := by decide

theorem test_witness_WriterCommandsComplete :
    (wrAt 8 0x7F 7 (st [] 0 33 0)).stream.writer.Ok small ∧ 32 < (st [] 0 33 0).a1 ∧
      ((wrAt 4 0 0 (st [] 0 32 0)).stream.writer.Ok small ∧ (st [] 0 32 0).a1 ≤ 32 ∧
        (wrAt 4 0 0 (st [] 0 32 0)).stream.writer.Room small 32) ∧
      (wrAt 8 0x7F 7 (st [] 0 1 0)).stream.writer.Room small 0 ∧ ¬ (wrAt 8 0x7F 7 (st [] 0 1 0)).stream.writer.Room small 1 ∧
      (wrAt 8 0 0 (st [] 0 0 0)).stream.writer.cnt = 0 ∧ (wrAt 7 1 1 (st [] 0 0 0)).stream.writer.cnt ≠ 0 ∧
      (wrAt 7 1 1 (st [] 0 0 0)).stream.writer.Ok small ∧ (wrAt 8 1 1 (st [] 0 0 0)).stream.writer.Ok small := by decide

theorem test_witness_ReaderCommandsComplete :
    (past3 5 (st [1, 2, 3, 4, 5] 33 0 0)).stream.reader.Ok small ∧ 32 < (st [] 33 0 0).a0 ∧
      ((past3 4 (st [] 32 0 0)).stream.reader.left < (st [] 32 0 0).a0 ∧ (past3 4 (st [] 32 0 0)).stream.reader.Ok small) ∧
      ((rd' 4 (st [] 32 0 0)).stream.reader.left = (st [] 32 0 0).a0 ∧ (rd' 4 (st [] 32 0 0)).stream.reader.Ok small) := by
  decide

/-- R185's example as a table. -/
def exampleTable : Table := tableOfLengths 19 [3, 3, 3, 3, 3, 2, 4, 4]

theorem test_witness_CanonicalCodes :
    exampleTable.Ok .clen ∧ exampleTable.lenOf 5 ≠ 0 ∧ exampleTable.lenOf 7 ≠ 0 ∧
      exampleTable.codeBits 5 <+: exampleTable.codeBits 5 ∧ 0 < exampleTable.count 4 := by decide +kernel

theorem test_witness_HufBuildCompletes :
    2 < (st [] 3 0 0).a0 ∧ (st [] 2 20 0).a0 = tableNumber .clen ∧ tableSize .clen < (st [] 2 20 0).a1 ∧
      (st [] 2 19 46).a1 ≤ tableSize .clen ∧ small.inSize < (st [] 2 19 46).a2 + (st [] 2 19 46).a1 ∧
      (st [] 2 19 45).a2 + (st [] 2 19 45).a1 ≤ small.inSize ∧
      (∃ l ∈ (List.range 1).map (fun i => ((st [8] 2 1 0).inByte (0 + i)).toNat), tableMaxLen .clen < l) ∧
      (let ls := (List.range 3).map (fun i => ((st [1, 1, 1] 1 3 0).inByte (0 + i)).toNat);
        (∀ l ∈ ls, l ≤ tableMaxLen .dist) ∧ 32768 < kraft ls) ∧
      (let ls := (List.range 2).map (fun i => ((st [1, 1] 1 2 0).inByte (0 + i)).toNat);
        (∀ l ∈ ls, l ≤ tableMaxLen .dist) ∧ kraft ls = 32768) := by decide +kernel

theorem test_witness_HufDecodeCompletes :
    2 < (st [] 3 0 0).a0 ∧
      (let s : State := rd' 1 { st [0x00] 2 0 0 with stream := { (st [] 0 0 0).stream with clen := exampleTable } };
        let s' : State := rd' 1 (st [0x00] 2 0 0);
        s.a0 = tableNumber .clen ∧ s'.stream.reader.Ok small ∧ (s'.stream.table .clen).Ok .clen ∧
          (∀ sym < 19, (s'.stream.table .clen).lenOf sym = 0) ∧ s'.stream.reader.left < 15) ∧
      (let s : State := rd' 1 (st [0x0F] 2 0 0);
        exampleTable.lenOf 7 ≠ 0 ∧ exampleTable.codeBits 7 <+: s.stream.reader.rest s.inByte) ∧
      (rd' 2 (st [0, 0] 2 0 0)).stream.reader.left ≥ 15 := by decide +kernel

theorem test_witness_HufEncodeCompletes :
    2 < (st [] 3 0 0).a0 ∧
      (let s := fixedLoaded (st [] 1 32 0);
        s.a0 = tableNumber .dist ∧ s.stream.writer.Ok small ∧ tableSize .dist ≤ s.a1) ∧
      (let s := fixedLoaded (wrAt 7 7 3 (st [] 1 31 0));
        s.a0 = tableNumber .dist ∧ s.stream.writer.Ok small ∧ s.a1 < tableSize .dist ∧
          (s.stream.table .dist).lenOf s.a1 ≠ 0 ∧ s.stream.writer.Room small ((s.stream.table .dist).lenOf s.a1)) ∧
      (let s := fixedLoaded (wrAt 8 7 3 (st [] 1 31 0));
        s.stream.writer.Ok small ∧ ¬ s.stream.writer.Room small ((s.stream.table .dist).lenOf s.a1)) := by decide +kernel

theorem test_witness_DecodeAfterEncode :
    ∃ w' w'' k, exampleTable.Ok .clen ∧ exampleTable.lenOf 6 ≠ 0 ∧ (wrAt 6 0x3F 6 (st [] 0 0 0)).stream.writer.Ok small ∧
      encodeSymbol small.outCap exampleTable 6 (wrAt 6 0x3F 6 (st [] 0 0 0)).stream.writer = .ok w' ∧
      flushToByte small.outCap w' = .ok (k, w'') := by
  refine ⟨_, _, _, by decide +kernel, by decide +kernel, by decide, rfl, rfl⟩

theorem test_witness_LookupTableDecodesAlike :
    exampleTable.Ok .clen ∧ Reader.Ok small ⟨63, 64, 7⟩ ∧ Reader.Ok small ⟨64, 64, 0⟩ := by decide +kernel

theorem test_witness_LengthAssignGivesACompleteCode :
    2 ≤ [0, 0].length ∧ [0, 0].length ≤ 2 ^ 1 ∧ 0 < (forceTwo [0, 0]).getD 0 0 ∧
      2 ≤ [5, 0, 1].length ∧ [5, 0, 1].length ≤ 2 ^ 15 ∧ 0 < [5, 0, 1].getD 2 0 ∧
      (forceTwo [5, 0, 1]).getD 2 0 < (forceTwo [5, 0, 1]).getD 0 0 ∧ (forceTwo [5, 0, 1]).getD 1 0 = 0 := by decide

/-- The input of LZ-2. -/
def aaaa : Nat → Byte := fun _ => 0x61

theorem test_witness_FindMatchReturnsTheNearestLongest :
    findMatch aaaa 4 128 1 = some (3, 1) ∧ findMatch aaaa 4 0 1 = none ∧ findMatch aaaa 4 128 2 = none ∧
      matchLen aaaa 4 0 1 = 3 := by decide +kernel

theorem test_witness_LzScanCompletes :
    (wrAt 0 0 0 (st [] 0 65 0)).stream.writer.Ok small ∧ small.inSize < (st [] 0 65 0).a0 + (st [] 0 65 0).a1 ∧
      (wrAt 0 1 1 (st [] 0 0 0)).stream.writer.Ok small ∧ (wrAt 0 1 1 (st [] 0 0 0)).stream.writer.cnt ≠ 0 ∧
      (let s := st [0x61, 0x61, 0x61, 0x61] 0 4 0;
        small.outCap < (wrAt 1 0 0 s).stream.writer.outPos.toNat + 4 * (commandTokens s).length ∧
          s.stream.writer.outPos.toNat + 4 * (commandTokens { s with latch := { s.latch with config := 0x04, maxChain := 1 } }).length ≤
            small.outCap) := by decide +kernel

theorem test_witness_DeflStoredCompletes :
    65535 < (st [] 0 65536 0).a1 ∧ (st [] 64 1 0).a1 ≤ 65535 ∧ small.inSize < (st [] 64 1 0).a0 + (st [] 64 1 0).a1 ∧
      (let s := st [1, 2, 3, 4] 0 4 1;
        s.a0 + s.a1 ≤ small.inSize ∧ s.stream.writer.Ok small ∧
          ¬ s.stream.writer.Room small
            (storedBits s.stream.writer.cnt.toNat ((List.range s.a1).map (fun i => s.inByte (s.a0 + i))) true).length) ∧
      (let s := st [1, 2, 3] 0 3 1;
        s.stream.writer.Room small
          (storedBits s.stream.writer.cnt.toNat ((List.range s.a1).map (fun i => s.inByte (s.a0 + i))) true).length) := by
  decide +kernel

theorem test_witness_DeflHuffCompletes :
    small.inSize < (st [] 61 1 0).a0 + 4 * (st [] 61 1 0).a1 ∧
      (let s := st [0x41, 0, 0, 0] 0 1 1;
        let ts := [Token.lit 0x41];
        s.stream.writer.Ok small ∧ s.a0 + 4 * s.a1 ≤ small.inSize ∧ ts.length = s.a1 ∧ (∀ t ∈ ts, t.wf = true) ∧
          (∀ i (h : i < ts.length), s.input.readLE .inByte (s.a0 + 4 * i) 4 = (tokenRecord ts[i]).toNat) ∧
          s.stream.writer.Room small (fixedBits ts true).length ∧ ¬ s.stream.writer.Room small (dynBits ts true).length) ∧
      (let s := st [0, 0x80, 0, 0x80] 0 1 1;
        s.a0 + 4 * s.a1 ≤ small.inSize ∧ 0 < s.a1 ∧
          recordWf (BitVec.ofNat 32 (s.input.readLE .inByte (s.a0 + 4 * 0) 4)) = false) := by decide +kernel

theorem test_witness_RleExpandsBack : ∀ l ∈ List.replicate 139 0 ++ List.replicate 8 15, l ≤ 15 := by decide +kernel

theorem test_witness_PartitionSplitsTheTokens :
    1 ≤ 1 ∧ ∀ t ∈ [Token.lit 0, .mtch 258 1], t.wf = true := by decide

theorem test_witness_AutoTakesTheShortestBlock :
    (blockBits aaaa .fixed 0 ⟨[], 0, 0⟩ true).length = (blockBits aaaa (autoKind 0 ⟨[], 0, 0⟩) 0 ⟨[], 0, 0⟩ true).length ∧
      (let b : Block := ⟨List.replicate 5 (.lit 255), 0, 0⟩;
        (blockBits aaaa .stored 0 b true).length = (blockBits aaaa (autoKind 0 b) 0 b true).length) := by decide +kernel

theorem test_witness_CompressCompletes :
    small.inSize < (st [] 60 5 0).a0 + (st [] 60 5 0).a1 ∧
      (let s := st [1, 2, 3, 4] 0 4 0;
        s.a0 + s.a1 ≤ small.inSize ∧ small.outCap < ((compressBits s).length + 7) / 8) ∧
      (let s := st [1, 2, 3] 0 3 0;
        s.a0 + s.a1 ≤ small.inSize ∧ ((compressBits s).length + 7) / 8 = small.outCap) := by decide +kernel

/-- The five pad bits of IN-5. -/
def pad5 : List Bool := List.replicate 5 false

theorem test_witness_StoredBlockCompletes :
    (let s := past3 8 (st [1, 3, 0, 0xFC, 0xFF, 0x41, 0x42, 0x43] 0 0 0);
      let b : SentBlock := .stored pad5 [0x41, 0x42, 0x43];
      s.stream.reader.Ok small ∧ s.stream.window.Ok ∧ s.stream.writer.outPos.toNat + b.span ≤ small.outCap ∧
        b.valid s.stream.reader.bitPos s.stream.window.fill.toNat = true ∧
        b.body <+: s.stream.reader.rest s.inByte) := by decide +kernel

theorem test_witness_FixedBlockCompletes :
    (let s := past3 4 (winA (st (pack 4 (SentBlock.bits true (.fixed [.lit 0x42, .mtch 7 2]))) 0 0 0));
      let b : SentBlock := .fixed [.lit 0x42, .mtch 7 2];
      s.stream.reader.Ok small ∧ s.stream.window.Ok ∧ s.stream.writer.outPos.toNat + b.span = small.outCap ∧
        b.valid s.stream.reader.bitPos s.stream.window.fill.toNat = true ∧
        b.body <+: s.stream.reader.rest s.inByte) := by decide +kernel

/-- The code-length-code lengths of L1.1's dynamic block, in the order sent: CLEN symbols 18 and 1 have length 1. -/
def cl11 : List Nat := [0, 0, 1] ++ List.replicate 14 0 ++ [1]

/-- The code-length sequence of L1.1's dynamic block. -/
def seq11 : List (Nat × Nat) := [(1, 0), (18, 127), (18, 106), (1, 0), (1, 0), (1, 0)]

theorem test_witness_DynamicBlockCompletes :
    (let s := past3 12 (st [0x05, 0xC1, 0x81, 0, 0, 0, 0, 0, 0x10, 0xFF, 0xD5, 0x08] 0 0 0);
      let b : SentBlock := .dynamic 0 1 cl11 seq11 [];
      s.stream.reader.Ok small ∧ s.stream.window.Ok ∧ s.stream.writer.outPos.toNat + b.span ≤ small.outCap ∧
        b.valid s.stream.reader.bitPos s.stream.window.fill.toNat = true ∧
        b.body <+: s.stream.reader.rest s.inByte) := by decide +kernel

theorem test_witness_InflBlockCompletes :
    (let s := rd' 3 (st [0x73, 0x04, 0x00] 0 0 0);
      let b : SentBlock := .fixed [.lit 0x41];
      s.stream.writer.cnt = 0 ∧ s.stream.reader.Ok small ∧ s.stream.window.Ok ∧
        s.stream.writer.outPos.toNat + b.span ≤ small.outCap ∧
        b.valid (s.stream.reader.bitPos + 3) s.stream.window.fill.toNat = true ∧
        b.bits true <+: s.stream.reader.rest s.inByte) ∧
      (let s := rd' 3 (wrAt 8 0 0 (st [0x73, 0x04, 0x00] 0 0 0));
        let b : SentBlock := .fixed [.lit 0x41];
        s.stream.writer.cnt = 0 ∧ s.stream.reader.Ok small ∧ s.stream.window.Ok ∧
          b.valid (s.stream.reader.bitPos + 3) s.stream.window.fill.toNat = true ∧
          b.bits true <+: s.stream.reader.rest s.inByte ∧ s.stream.writer.outPos.toNat ≤ small.outCap ∧
          small.outCap < s.stream.writer.outPos.toNat + b.span) := by decide +kernel

theorem test_witness_DecompressDecodesValidStreams :
    (let s := st [0x00, 0, 0, 0xFF, 0xFF, 0x73, 0x04, 0x00] 0 8 0;
      let bs : List SentBlock := [.stored pad5 [], .fixed [.lit 0x41]];
      s.a0 + s.a1 ≤ small.inSize ∧ bs ≠ [] ∧ sentValid 0 0 bs = true ∧ (sentBits bs).length ≤ 8 * s.a1 ∧
        (∀ i (h : i < (sentBits bs).length), (s.inByte (s.a0 + i / 8)).getLsbD (i % 8) = (sentBits bs)[i]) ∧
        (sentOutput bs).length ≤ small.outCap) ∧
      (let s := st [0x01, 9, 0, 0xF6, 0xFF, 1, 2, 3, 4, 5, 6, 7, 8, 9] 0 14 0;
        let bs : List SentBlock := [.stored pad5 [1, 2, 3, 4, 5, 6, 7, 8, 9]];
        s.a0 + s.a1 ≤ small.inSize ∧ bs ≠ [] ∧ sentValid 0 0 bs = true ∧ (sentBits bs).length ≤ 8 * s.a1 ∧
          (∀ i (h : i < (sentBits bs).length), (s.inByte (s.a0 + i / 8)).getLsbD (i % 8) = (sentBits bs)[i]) ∧
          small.outCap < (sentOutput bs).length) := by decide +kernel

theorem test_witness_InflaterCommandChecks :
    (wrAt 0 1 1 (st [] 0 0 0)).stream.writer.cnt ≠ 0 ∧
      (let s := rd' 0 (st [] 0 0 0);
        s.stream.writer.cnt = 0 ∧ s.stream.reader.Ok small ∧ s.stream.reader.left < 3) ∧
      (let s := rd' 1 (st [0x07] 0 1 0);
        s.stream.reader.Ok small ∧ [true, true, true] <+: s.stream.reader.rest s.inByte ∧
          s.a0 + s.a1 ≤ small.inSize ∧ 1 ≤ s.a1 ∧ (s.inByte s.a0).extractLsb' 1 2 = 3#2) ∧
      small.inSize < (st [] 64 1 0).a0 + (st [] 64 1 0).a1 ∧
      ((st [] 64 0 0).a0 + (st [] 64 0 0).a1 ≤ small.inSize ∧ (st [] 64 0 0).a1 = 0) := by decide +kernel

theorem test_witness_StoredBlockErrors :
    (let s := past3 4 (st [1, 0, 0, 0xFF] 0 0 0);
      s.stream.reader.Ok small ∧ pad5.length = (8 - s.stream.reader.bit.toNat) % 8 ∧
        (s.stream.reader.rest s.inByte).length < pad5.length + 32) ∧
      (let s := past3 5 (st [1, 9, 0, 0, 0] 0 0 0);
        pad5 ++ natBits 16 9 ++ natBits 16 0 <+: s.stream.reader.rest s.inByte ∧ 0 ≠ 65535 - 9) ∧
      (let s := past3 7 (st [1, 3, 0, 0xFC, 0xFF, 0x41, 0x42] 0 0 0);
        pad5 ++ natBits 16 3 ++ natBits 16 65532 <+: s.stream.reader.rest s.inByte ∧ 65532 = 65535 - 3 ∧
          ((s.stream.reader.rest s.inByte).length - (pad5.length + 32)) / 8 < 3 ∧
          s.stream.writer.outPos.toNat + ((s.stream.reader.rest s.inByte).length - (pad5.length + 32)) / 8 ≤
            small.outCap) ∧
      (let s := wrAt 7 0 0 (past3 7 (st [1, 3, 0, 0xFC, 0xFF, 0x41, 0x42] 0 0 0));
        pad5 ++ natBits 16 3 ++ natBits 16 65532 <+: s.stream.reader.rest s.inByte ∧
          s.stream.writer.outPos.toNat ≤ small.outCap ∧
          small.outCap <
            s.stream.writer.outPos.toNat +
              min 3 (((s.stream.reader.rest s.inByte).length - (pad5.length + 32)) / 8)) := by decide +kernel

/-- A block of the given type with these bits after its header, the input ending with them, filled with zeros to a whole
byte. -/
def blockSt (btype : Nat) (bits : List Bool) : State :=
  let all := blockHeader true btype ++ bits
  past3 ((all.length + 7) / 8) (st (pack ((all.length + 7) / 8) all) 0 0 0)

/-- The bits that remain in a state. -/
def restOf (s : State) : List Bool := s.stream.reader.rest s.inByte

/-- The hypotheses of each clause of FixedBlockErrors, with the tokens before the error; a clause that needs no code of its
own to match has its lemma below. -/
theorem test_witness_FixedBlockErrors :
    (let s := blockSt 1 (fixedLitlenTable.codeBits 286);
      s.stream.reader.Ok small ∧ s.stream.window.Ok ∧ s.stream.writer.outPos.toNat + spanOf [] ≤ small.outCap ∧
        tokensFit s.stream.window.fill.toNat [] = true ∧ fixedLitlenTable.lenOf 286 ≠ 0 ∧
        [] ++ fixedLitlenTable.codeBits 286 <+: restOf s) ∧
      (let s := past3 3 (st [0x73, 0x04, 0x3E] 0 0 0);
        let pre := [Token.lit 0x41].flatMap (tokenCode fixedLitlenTable fixedDistTable);
        tokensFit s.stream.window.fill.toNat [.lit 0x41] = true ∧ fixedLitlenTable.lenOf (lsym 3) ≠ 0 ∧
          fixedDistTable.lenOf 30 ≠ 0 ∧
          pre ++ (lengthCode fixedLitlenTable 3 ++ fixedDistTable.codeBits 30) <+: restOf s) ∧
      (let s := past3 3 (st [0x73, 0x04, 0x42] 0 0 0);
        let pre := [Token.lit 0x41].flatMap (tokenCode fixedLitlenTable fixedDistTable);
        (Token.mtch 3 2).wf = true ∧ tokenCoded fixedLitlenTable fixedDistTable (.mtch 3 2) = true ∧
          s.stream.window.fill.toNat + spanOf [.lit 0x41] < 2 ∧
          pre ++ tokenCode fixedLitlenTable fixedDistTable (.mtch 3 2) <+: restOf s) ∧
      (let s := wrAt 8 0 0 (blockSt 1 (tokenCode fixedLitlenTable fixedDistTable (.lit 0x41)));
        s.stream.writer.outPos.toNat + spanOf [] ≤ small.outCap ∧
          tokensFit s.stream.window.fill.toNat ([] ++ [.lit 0x41]) = true ∧
          tokenCoded fixedLitlenTable fixedDistTable (.lit 0x41) = true ∧
          small.outCap < s.stream.writer.outPos.toNat + spanOf ([] ++ [.lit 0x41]) ∧
          [] ++ tokenCode fixedLitlenTable fixedDistTable (.lit 0x41) <+: restOf s) ∧
      (let s := blockSt 1 ((lengthCode fixedLitlenTable 19).take 5);
        3 ≤ 19 ∧ 19 ≤ 258 ∧ fixedLitlenTable.lenOf (lsym 19) ≠ 0 ∧ [] <+: restOf s ∧
          restOf s <+: [] ++ lengthCode fixedLitlenTable 19 ∧ restOf s ≠ [] ++ lengthCode fixedLitlenTable 19) ∧
      (let s := blockSt 1 ((tokenCode fixedLitlenTable fixedDistTable (.mtch 3 9)).take 13);
        (Token.mtch 3 9).wf = true ∧ tokenCoded fixedLitlenTable fixedDistTable (.mtch 3 9) = true ∧
          restOf s <+: [] ++ tokenCode fixedLitlenTable fixedDistTable (.mtch 3 9) ∧
          restOf s ≠ [] ++ tokenCode fixedLitlenTable fixedDistTable (.mtch 3 9)) ∧
      (let s := past3 1 (st [0x02] 0 0 0);
        [] <+: restOf s ∧ restOf s <+: [] ++ bodyBits fixedLitlenTable fixedDistTable [] ∧
          restOf s ≠ [] ++ bodyBits fixedLitlenTable fixedDistTable []) := by decide +kernel

/-- An input that ends inside a literal/length code, and one that ends inside a distance code. -/
theorem test_witness_FixedBlockErrors_unmatched :
    fixedLitlenTable.Unmatched [] (restOf (past3 1 (st [0x02] 0 0 0))) ∧
      fixedDistTable.Unmatched ([] ++ lengthCode fixedLitlenTable 19)
        (restOf (blockSt 1 (lengthCode fixedLitlenTable 19 ++ [false, false, false, false]))) :=
  ⟨Table.unmatched_of_lt (by decide +kernel) (by decide +kernel),
    Table.unmatched_of_lt (by decide +kernel) (by decide +kernel)⟩

/-- The bits of a dynamic block up to its code-length sequence. -/
def countBits (hlit hdist : Nat) (cl : List Nat) : List Bool :=
  natBits 5 hlit ++ natBits 5 hdist ++ natBits 4 (cl.length - 4) ++ cl.flatMap (natBits 3)

/-- The bits of a code-length sequence. -/
def seqBits (cl : List Nat) (seq : List (Nat × Nat)) : List Bool :=
  seq.flatMap (fun ke => (sentClen cl).codeBits ke.1 ++ natBits (clenExtra ke.1) ke.2)

/-- A header whose LITLEN codes 0, 256, 257 and 286 with 3 bits each and whose DIST codes 0 and 30 with 2 bits each. -/
def clD : List Nat := [0, 0, 2] ++ List.replicate 10 0 ++ [1, 0, 2]

/-- Its code-length sequence, with HLIT = 30 and HDIST = 30. -/
def seqD : List (Nat × Nat) :=
  [(3, 0), (18, 127), (18, 106), (3, 0), (3, 0), (18, 17), (3, 0), (2, 0), (18, 18), (2, 0)]

/-- Its tables and its bits. -/
def llD : Table := sentLitlen 30 seqD
def dlD : Table := sentDist 30 seqD
def hdrD : List Bool := countBits 30 30 clD ++ seqBits clD seqD

/-- The malformed headers that no unmatched code makes. -/
theorem test_witness_DynamicHeaderErrors :
    (let s := past3 4 (st [0x05, 0x00, 0x92, 0x04] 0 0 0);
      s.stream.reader.Ok small ∧ 4 ≤ [1, 1, 1, 1].length ∧ (∀ l ∈ [1, 1, 1, 1], l ≤ 7) ∧
        32768 < kraft (sentClen [1, 1, 1, 1]).len ∧ countBits 0 0 [1, 1, 1, 1] <+: s.stream.reader.rest s.inByte) ∧
      (let s := past3 4 (st [0x05, 0x00, 0x02, 0x24] 0 0 0);
        kraft (sentClen [1, 0, 0, 1]).len ≤ 32768 ∧ (sentClen [1, 0, 0, 1]).lenOf 16 ≠ 0 ∧
          countBits 0 0 [1, 0, 0, 1] ++ (sentClen [1, 0, 0, 1]).codeBits 16 <+: s.stream.reader.rest s.inByte) ∧
      (let s := past3 6 (st [0x05, 0x00, 0x80, 0xE4, 0xFF, 0x1F] 0 0 0);
        let cl := [0, 0, 1, 1];
        kraft (sentClen cl).len ≤ 32768 ∧ (sentClen cl).lenOf 18 ≠ 0 ∧ 127 < 2 ^ clenExtra 18 ∧
          (expandPairs [] [(18, 127)]).length < 258 ∧ 258 < (expandPairs [] ([(18, 127)] ++ [(18, 127)])).length ∧
          countBits 0 0 cl ++ seqBits cl [(18, 127)] ++ seqBits cl [(18, 127)] <+: s.stream.reader.rest s.inByte) ∧
      (let seq := [(1, 0), (1, 0), (1, 0), (18, 127), (18, 106)];
        let s := past3 20 (st (pack 20 ([true, false, true] ++ countBits 0 0 cl11 ++ seqBits cl11 seq)) 0 0 0);
        kraft (sentClen cl11).len ≤ 32768 ∧ (∀ ke ∈ seq, (sentClen cl11).lenOf ke.1 ≠ 0 ∧ ke.2 < 2 ^ clenExtra ke.1) ∧
          seq.head?.map Prod.fst ≠ some 16 ∧ (expandPairs [] seq).length = 0 + 257 + (0 + 1) ∧
          32768 < kraft (sentLitlen 0 seq).len ∧ s.stream.reader.Ok small ∧
          countBits 0 0 cl11 ++ seqBits cl11 seq <+: s.stream.reader.rest s.inByte) ∧
      (let s := blockSt 2 ((countBits 30 30 clD).take 29);
        restOf s <+: countBits 30 30 clD ∧ restOf s ≠ countBits 30 30 clD) ∧
      (let s := blockSt 2 (hdrD.take 69);
        kraft (sentClen clD).len ≤ 32768 ∧ (expandPairs [] seqD.dropLast).length < 318 ∧
          countBits 30 30 clD <+: restOf s ∧ restOf s <+: hdrD ∧ restOf s ≠ hdrD) := by decide +kernel

/-- A code-length symbol that no code matches in 15 bits, and one in which the input ends. -/
theorem test_witness_DynamicHeaderErrors_unmatched :
    (sentClen [0, 0, 1, 0]).Unmatched (countBits 0 0 [0, 0, 1, 0] ++ seqBits [0, 0, 1, 0] [])
        (restOf (blockSt 2 (countBits 0 0 [0, 0, 1, 0] ++ List.replicate 15 true))) ∧
      (sentClen clD).Unmatched (countBits 30 30 clD ++ seqBits clD (List.replicate 6 (3, 0)))
        (restOf (blockSt 2 (countBits 30 30 clD ++ seqBits clD (List.replicate 6 (3, 0)) ++ [true]))) ∧
      (expandPairs [] (List.replicate 6 (3, 0))).length < 318 :=
  ⟨Table.unmatched_of_lt (by decide +kernel) (by decide +kernel),
    Table.unmatched_of_lt (by decide +kernel) (by decide +kernel), by decide⟩

/-- The hypotheses of the body's errors: the header, and each clause of BodyErrors after it. -/
theorem test_witness_DynamicHeaderErrors_body :
    (let s := blockSt 2 (hdrD ++ llD.codeBits 286);
      s.stream.reader.Ok small ∧ 4 ≤ clD.length ∧ clD.length ≤ 19 ∧ (∀ l ∈ clD, l ≤ 7) ∧
        kraft (sentClen clD).len ≤ 32768 ∧
        (∀ ke ∈ seqD, ke.1 ≤ 18 ∧ (sentClen clD).lenOf ke.1 ≠ 0 ∧ ke.2 < 2 ^ clenExtra ke.1) ∧
        seqD.head?.map Prod.fst ≠ some 16 ∧ (expandPairs [] seqD).length = 30 + 257 + (30 + 1) ∧
        kraft llD.len ≤ 32768 ∧ kraft dlD.len ≤ 32768 ∧ s.stream.window.Ok ∧
        s.stream.writer.outPos.toNat + spanOf [] ≤ small.outCap ∧ llD.lenOf 286 ≠ 0 ∧
        hdrD ++ llD.codeBits 286 <+: restOf s) ∧
      (llD.lenOf (lsym 3) ≠ 0 ∧ dlD.lenOf 30 ≠ 0 ∧
        hdrD ++ (lengthCode llD 3 ++ dlD.codeBits 30) <+:
          restOf (blockSt 2 (hdrD ++ lengthCode llD 3 ++ dlD.codeBits 30))) ∧
      ((Token.mtch 3 1).wf = true ∧ tokenCoded llD dlD (.mtch 3 1) = true ∧
        (st [] 0 0 0).stream.window.fill.toNat + spanOf [] < 1 ∧
        hdrD ++ tokenCode llD dlD (.mtch 3 1) <+: restOf (blockSt 2 (hdrD ++ tokenCode llD dlD (.mtch 3 1)))) ∧
      (let s := wrAt 8 0 0 (blockSt 2 (hdrD ++ tokenCode llD dlD (.lit 0)));
        s.stream.writer.outPos.toNat + spanOf [] ≤ small.outCap ∧ tokenCoded llD dlD (.lit 0) = true ∧
          tokensFit s.stream.window.fill.toNat ([] ++ [.lit 0]) = true ∧
          small.outCap < s.stream.writer.outPos.toNat + spanOf ([] ++ [.lit 0]) ∧
          hdrD ++ tokenCode llD dlD (.lit 0) <+: restOf s) ∧
      (let s := blockSt 2 (hdrD ++ tokenCode llD dlD (.lit 0));
        let pre := hdrD ++ [Token.lit 0].flatMap (tokenCode llD dlD);
        tokensFit s.stream.window.fill.toNat [.lit 0] = true ∧ [Token.lit 0].all (tokenCoded llD dlD) = true ∧
          restOf s = pre ∧ restOf s ≠ pre ++ lengthCode llD 3 ∧ restOf s ≠ pre ++ tokenCode llD dlD (.lit 0) ∧
          restOf s <+: hdrD ++ bodyBits llD dlD [.lit 0] ∧ restOf s ≠ hdrD ++ bodyBits llD dlD [.lit 0]) := by
  decide +kernel

/-- A literal/length symbol and a distance symbol that no code matches. -/
theorem test_witness_DynamicHeaderErrors_body_unmatched :
    llD.Unmatched hdrD (restOf (blockSt 2 (hdrD ++ List.replicate 15 true))) ∧
      dlD.Unmatched (hdrD ++ lengthCode llD 3) (restOf (blockSt 2 (hdrD ++ lengthCode llD 3 ++ List.replicate 15 true))) :=
  ⟨Table.unmatched_of_lt (by decide +kernel) (by decide +kernel),
    Table.unmatched_of_lt (by decide +kernel) (by decide +kernel)⟩

/-- A COMPRESS of "A" in FIXED mode (R251's example), in STORED mode, and the host's copy of its output. -/
def fixedA : State := { st [0x41] 0 1 0 with latch := ⟨0x38, 0, 1, 0, 0x0D, 128, 16384, 0⟩ }

theorem test_witness_CompressThenDecompress :
    ∃ t, exec .compress fixedA = .next t ∧ (!t.error && t.res0.toNat == 3 &&
      (let u : State := { st [] 0 3 0 with input := t.stream.writer.out };
        u.a1 == t.res0.toNat && decide (u.a0 + u.a1 ≤ small.inSize) &&
          (List.range u.a1).all (fun i => u.inByte (u.a0 + i) == t.stream.writer.out.read .outByte i) &&
          decide (fixedA.a1 ≤ small.outCap))) = true :=
  of_next (by decide +kernel)

theorem test_witness_StoredRoundTrip :
    cfgMode (st [0x41] 0 1 0).latch.config = 0 ∧
      ∃ t, exec .compress (st [0x41] 0 1 0) = .next t ∧ (!t.error && t.res0.toNat == 6 &&
        (let u : State := { st [] 0 6 0 with input := t.stream.writer.out };
          u.a1 == t.res0.toNat && decide (u.a0 + u.a1 ≤ small.inSize) &&
            (List.range u.a1).all (fun i => u.inByte (u.a0 + i) == t.stream.writer.out.read .outByte i) &&
            decide (1 ≤ small.outCap))) = true :=
  ⟨by decide, of_next (by decide +kernel)⟩

theorem test_witness_TrailingInputIsIgnored :
    ∃ t, exec .decompress (st [0x73, 0x04, 0x00, 0xAA] 0 4 0) = .next t ∧ (!t.error &&
      (List.range t.stream.reader.bitPos).all (fun i =>
        ((bytesFrom [0x73, 0x04, 0xFC, 0xBB]).read .inByte (i / 8)).getLsbD (i % 8) ==
          ((st [0x73, 0x04, 0x00, 0xAA] 0 4 0).inByte (i / 8)).getLsbD (i % 8))) = true :=
  of_next (by decide +kernel)

/-- Whether an instruction completes without error in a state. -/
def completes (i : Instr) (s : State) : Bool := (next (exec i s)).elim false (fun t => !t.error)

theorem test_witness_FrameOfCommandsThatStoreNothing :
    [(Instr.nop, st [] 0 0 0), (.resetStream, st [] 0 0 0), (.bwInit, st [] 8 0 0), (.brInit, st [] 0 64 0),
      (.brReadBits, st [] 0 0 0), (.brAlign, past3 1 (st [] 0 0 0)), (.hufBuild, st [1, 1] 1 2 0),
      (.hufLoadFixed, st [] 0 0 0), (.hufDecode, rd' 2 (fixedLoaded (st [0x63, 0] 0 0 0)))].all
      (fun x => completes x.1 x.2) = true := by decide +kernel

theorem test_witness_FrameOfWritingCommands :
    [(Instr.bwWriteBits, wrAt 7 0 0 (st [] 255 8 0)), (.bwFlush, wrAt 7 1 1 (st [] 0 0 0)),
      (.hufEncode, fixedLoaded (wrAt 7 7 3 (st [] 1 31 0))), (.lzScan, st [1, 2] 0 2 0), (.deflStored, st [1] 0 1 1),
      (.deflHuff, st [0x41, 0, 0, 0] 0 1 1), (.compress, fixedA)].all
      (fun x => completes x.1 x.2 && decide (x.2.stream.writer.Ok x.2.params)) = true := by decide +kernel

theorem test_witness_FrameOfInflaterInstructions :
    [(Instr.inflBlock, rd' 3 (st [0x73, 0x04, 0x00] 0 0 0)), (.decompress, st [0x73, 0x04, 0x00] 0 3 0),
      (.streamBlockStored true, past3 5 (st [1, 0, 0, 0xFF, 0xFF] 0 0 0)),
      (.streamBlockFixed true, past3 3 (st [0x73, 0x04, 0x00] 0 0 0)),
      (.streamBlockDynamic true, past3 12 (st [0x05, 0xC1, 0x81, 0, 0, 0, 0, 0, 0x10, 0xFF, 0xD5, 0x08] 0 0 0))].all
      (fun x => completes x.1 x.2) = true := by decide +kernel

theorem test_witness_RegisterReads :
    0x0FC % 4 = 0 ∧ 0x0FC < 0x100 ∧ (st [] 0 0 0).busy = false ∧
      ∃ t, hostRead .inp 0 .word (st [1, 2, 3, 4] 0 0 0) = .next t ∧ (t.readData == 0x04030201#32) = true :=
  ⟨by decide, by decide, by decide, of_next (by decide +kernel)⟩

theorem test_witness_RegisterWrites :
    0x028 % 4 = 0 ∧ 0x028 < 0x100 ∧ 0x0FC ∉ [0x004, 0x008, 0x010, 0x014, 0x018, 0x020, 0x024, 0x028] ∧
      Width.half ≠ .word ∧ 0x002 % 4 ≠ 0 ∧ 0x100 ≤ 0x100 := by decide

theorem test_witness_MemoryAccessByTheHost :
    small.inSize < 61 + Width.word.bytes ∧ 60 + Width.word.bytes ≤ small.inSize ∧ 0 < Width.word.bytes ∧
      State.busy { st [] 0 0 0 with run := .started } = true ∧ (st [] 0 0 0).busy = false ∧
      small.outCap < 7 + Width.half.bytes ∧ 6 + Width.half.bytes ≤ small.outCap := by decide

theorem test_witness_IrqFollowsDoneAndError :
    (2#32 : Word).getLsbD 1 = true ∧ (st [] 0 0 0).config.getLsbD 4 = false ∧
      ∃ t, exec .resetStream (st [] 0 0 0) = .next t ∧ t.done = true :=
  ⟨by decide, by decide, of_next (P := fun t => t.done) (by decide)⟩

theorem test_witness_HardReset :
    State.inReset { st [] 0 0 0 with inReset := true } = true ∧ HostMove.wait ≠ .resetRelease ∧
      (st [] 0 0 0).inReset = false ∧ (st [] 0 0 0).run = .idle ∧ (st [] 0 0 0).host = [] := by decide

/-- The instances of a platform draw from different numbers (log 3). -/
theorem test_instances_draw_apart :
    (Cluster.reset small []).cores.map (fun s => (s.input.regions, s.draws)) = [([(0, 0)], 2), ([(0, 1)], 3)] := by decide

theorem test_witness_InstancesAreIsolated :
    (match Cluster.stepAt 0 (Cluster.reset small []) with | .next _ => true | _ => false) = true ∧ 1 ≠ 0 ∧
      (Cluster.reset small []).cores[0]? = (Cluster.reset small [1]).cores[0]? ∧
      (Cluster.reset small []).cores.length = 2 := by decide +kernel

/-- A state that meets every invariant and takes a step that changes the stream state. -/
theorem test_witness_StepKeepsTheInvariants :
    (let s := { wrAt 0 5 3 (winA (st [] 0 0 0)) with arg0 := 0x1F, arg1 := 5, host := [wr 0x004 0x11#32] };
      s.FlagsOk ∧ s.ConfigOk ∧ s.MemoriesOk ∧ s.CursorsOk ∧ s.WindowOk ∧ s.TablesOk) ∧
      ∃ t, step { wrAt 0 5 3 (winA (st [] 0 0 0)) with arg0 := 0x1F, arg1 := 5, host := [wr 0x004 0x11#32] } = .next t ∧
        (t.stream.writer.outPos == 1) = true :=
  ⟨by decide +kernel, of_next (by decide +kernel)⟩

end Sys2Proof.Tests
end

/-! What the procedures of the writer, the deflator, the reader and the inflater keep, in whatever state they start: one
lemma per procedure, along its own recursion. -/

namespace Sys2Proof.Machine

open Sys2Proof

/-! ### Partial correctness of the procedures that may `raise` -/

/-- What holds of the value a procedure ends with, where it ends without `raise`. -/
def Yields {ε α : Type} (x : Except ε α) (Q : α → Prop) : Prop := ∀ a, x = .ok a → Q a

section Yields

variable {ε α β : Type} {x : Except ε α} {f : α → Except ε β} {P Q : α → Prop} {R : β → Prop}

theorem Yields.ok {a : α} (h : Q a) : Yields (.ok a : Except ε α) Q := by
  rintro _ ⟨⟩; exact h

theorem Yields.error (e : ε) : Yields (.error e : Except ε α) Q := by rintro _ ⟨⟩

theorem Yields.mono (h : Yields x P) (hPQ : ∀ a, P a → Q a) : Yields x Q :=
  fun a ha => hPQ a (h a ha)

theorem Yields.bind (hx : Yields x P) (hf : ∀ a, P a → Yields (f a) R) : Yields (x >>= f) R := by
  intro b hb
  obtain ⟨a, ha, hb⟩ := except_bind_ok hb
  exact hf a (hx a ha) b hb

/-- A procedure about whose value nothing need be known, such as a check. -/
theorem Yields.after (hf : ∀ a, Yields (f a) R) : Yields (x >>= f) R :=
  Yields.bind (P := fun _ => True) (fun _ _ => trivial) (fun a _ => hf a)

theorem Yields.ite {c : Prop} [Decidable c] {y : Except ε α} (hx : c → Yields x Q) (hy : ¬ c → Yields y Q) :
    Yields (if c then x else y) Q := by
  split
  · exact hx ‹_›
  · exact hy ‹_›

theorem Yields.map {g : α → β} (h : Yields x (fun a => R (g a))) : Yields (x.map g) R := by
  cases x with
  | error e => exact .error e
  | ok a => exact .ok (h a rfl)

end Yields

theorem checkRange_yields (p : Params) (start n : Nat) :
    Yields (checkRange p start n) (fun _ => start + n ≤ p.inSize) :=
  Yields.ite (fun _ => .error _) (fun h => .ok (by omega))

theorem failIf_yields (bad : Bool) (e : Err) : Yields (failIf bad e) (fun _ => bad = false) := by
  cases bad with
  | false => exact .ok rfl
  | true => exact .error e

/-! ### Memories within their size -/

/-- A memory in its canonical form with no byte at or beyond `n` (10_state R36..R38, log 4). -/
abbrev Memory.Legal (n : Nat) (m : Memory) : Prop := m.wf = true ∧ m.below n = true

theorem Memory.Legal.write {n a : Nat} {m : Memory} (h : m.Legal n) (v : Byte) (ha : a < n) : (m.write a v).Legal n :=
  ⟨Memory.write_wf a v h.1, Memory.write_below v h.2 ha⟩

theorem Memory.Legal.forgetFrom {n : Nat} {m : Memory} (h : m.Legal n) (start draw : Nat) :
    (m.forgetFrom start draw).Legal n :=
  ⟨Memory.forgetFrom_wf start draw h.1, Memory.forgetFrom_below start draw h.2⟩

theorem Memory.Legal.writeLE {size a n : Nat} {m : Memory} (h : m.Legal size) (v : Nat) (ha : a + n ≤ size) :
    (m.writeLE a n v).Legal size :=
  ⟨Memory.writeLE_wf h.1 a n v, Memory.writeLE_below h.2 v ha⟩

theorem Memory.unwritten_legal (d n : Nat) : (Memory.unwritten d).Legal n :=
  ⟨Memory.unwritten_wf d, Memory.unwritten_below d n⟩

/-! ### What the writer's procedures keep -/

/-- What every procedure of the writer keeps, in whatever state it starts: OUT_POS does not fall, no byte outside those
it moves over changes, OUT stays within its size, and the writer's invariant is kept (10_state R31, R32, R37). -/
structure Writer.Grown (p : Params) (w w' : Writer) : Prop where
  le : w.outPos.toNat ≤ w'.outPos.toNat
  outside : ∀ a, a < w.outPos.toNat ∨ w'.outPos.toNat ≤ a → w'.out.read .outByte a = w.out.read .outByte a
  legal : w.out.Legal p.outCap → w'.out.Legal p.outCap
  ok : w.Ok p → w'.Ok p

section Writer

variable {p : Params} {w w₁ w₂ : Writer}

theorem Writer.Grown.refl (w : Writer) : Writer.Grown p w w := ⟨le_rfl, fun _ _ => rfl, id, id⟩

theorem Writer.Grown.trans (h₁ : Writer.Grown p w w₁) (h₂ : Writer.Grown p w₁ w₂) : Writer.Grown p w w₂ where
  le := h₁.le.trans h₂.le
  outside a ha := by
    have := h₁.le; have := h₂.le
    rw [h₂.outside a (by omega), h₁.outside a (by omega)]
  legal h := h₂.legal (h₁.legal h)
  ok h := h₂.ok (h₁.ok h)

/-- A procedure of the writer followed by another grows the writer as the two do in turn. -/
theorem Yields.grow {x : Except Err Writer} {f : Writer → Except Err Writer}
    (hx : Yields x (Writer.Grown p w)) (hf : ∀ w₁, Yields (f w₁) (Writer.Grown p w₁)) :
    Yields (x >>= f) (Writer.Grown p w) :=
  hx.bind fun w₁ h₁ => (hf w₁).mono fun _ h₂ => h₁.trans h₂

theorem putByte_grown (b : Byte) (w : Writer) : Yields (putByte p.outCap b w) (Writer.Grown p w) := by
  rcases putByte_cases p.outCap b w with ⟨-, e⟩ | ⟨h, e⟩
  · rw [e]; exact .error _
  · have hs := outPos_succ h
    rw [e]
    refine .ok ⟨?_, ?_, fun hm => hm.write b h, fun ⟨_, hc, ha⟩ => ⟨?_, hc, ha⟩⟩
    · simp only [hs]; omega
    · intro a ha
      simp only [hs] at ha
      exact Memory.read_write_other _ _ _ (by omega)
    · simp only [hs]; omega

theorem putByte_fits (b : Byte) (w : Writer) :
    Yields (putByte p.outCap b w) (fun w' => w'.outPos.toNat ≤ p.outCap) := by
  rcases putByte_cases p.outCap b w with ⟨-, e⟩ | ⟨h, e⟩
  · rw [e]; exact .error _
  · rw [e]; exact .ok (by simp only [outPos_succ h]; omega)

/-- A byte put from a partial byte, which then is empty: the end of a byte in WriteBits and FlushToByte (40_bitstream
R143, R144). -/
theorem putByte_clear_grown (b acc : Byte) (cnt : BitVec 4) (w : Writer) :
    Yields (putByte p.outCap b { w with acc := acc, cnt := cnt })
      (fun w' => Writer.Grown p w { w' with acc := 0, cnt := 0 }) := by
  intro w' hw'
  have hg := putByte_grown b _ w' hw'
  exact ⟨hg.le, hg.outside, hg.legal, fun _ => ⟨putByte_fits b _ w' hw', by simp, by simp⟩⟩

theorem pushBit_grown (b : Bool) (w : Writer) : Yields (pushBit p.outCap b w) (Writer.Grown p w) := by
  rw [pushBit_eq]
  refine .ite (fun _ => ?_) (fun h8 => .ok ⟨le_rfl, fun _ _ => rfl, id, fun ⟨hpos, hc, ha⟩ => ?_⟩)
  · exact Yields.bind (putByte_clear_grown _ _ _ w) fun _ h => .ok h
  · have h7 : w.cnt.toNat ≠ 7 := fun e => h8 ((cnt_succ_eq hc).2 e)
    have hs := cnt_succ_toNat hc
    exact ⟨hpos, by simp only [hs]; omega, by simp only [hs]; exact accPush_lt hc ha⟩

theorem writeBits_grown (v n : Nat) (w : Writer) : Yields (writeBits p.outCap v n w) (Writer.Grown p w) := by
  induction n generalizing v w with
  | zero => exact .ok (.refl w)
  | succ n ih => exact .grow (pushBit_grown _ w) (ih _)

theorem flushToByte_grown (w : Writer) : Yields (flushToByte p.outCap w) (fun r => Writer.Grown p w r.2) :=
  .ite (fun _ => .ok (.refl w)) fun _ => Yields.bind (putByte_clear_grown w.acc w.acc w.cnt w) fun _ h => .ok h

theorem writeBytes_grown (bytes : List Byte) (w : Writer) :
    Yields (writeBytes p.outCap bytes w) (Writer.Grown p w) := by
  induction bytes generalizing w with
  | nil => exact .ok (.refl w)
  | cons b rest ih => exact .grow (writeBits_grown _ 8 w) ih

theorem putBytes_grown (bytes : List Byte) (w : Writer) : Yields (putBytes p.outCap bytes w) (Writer.Grown p w) := by
  induction bytes generalizing w with
  | nil => exact .ok (.refl w)
  | cons b rest ih => exact .grow (putByte_grown b w) ih

theorem writeEach_grown (n : Nat) (vs : List Nat) (w : Writer) :
    Yields (writeEach p.outCap n vs w) (Writer.Grown p w) := by
  induction vs generalizing w with
  | nil => exact .ok (.refl w)
  | cons v rest ih => exact .grow (writeBits_grown v n w) ih

theorem encodeSymbol_grown (t : Table) (s : Nat) (w : Writer) :
    Yields (encodeSymbol p.outCap t s w) (Writer.Grown p w) := writeBits_grown _ _ w

theorem emitToken_grown (ll dl : Table) (t : Token) (w : Writer) :
    Yields (emitToken p.outCap ll dl t w) (Writer.Grown p w) := by
  cases t with
  | lit b => exact encodeSymbol_grown ll _ w
  | mtch l d =>
    exact .grow (encodeSymbol_grown ll _ w) fun w => .grow (writeBits_grown _ _ w) fun w =>
      .grow (encodeSymbol_grown dl _ w) fun w => writeBits_grown _ _ w

theorem emitTokens_grown (ll dl : Table) (ts : List Token) (w : Writer) :
    Yields (emitTokens p.outCap ll dl ts w) (Writer.Grown p w) := by
  induction ts generalizing w with
  | nil => exact encodeSymbol_grown ll 256 w
  | cons t rest ih => exact .grow (emitToken_grown ll dl t w) ih

theorem writeSeq_grown (clen : Table) (seq : List (Nat × Nat)) (w : Writer) :
    Yields (writeSeq p.outCap clen seq w) (Writer.Grown p w) := by
  induction seq generalizing w with
  | nil => exact .ok (.refl w)
  | cons ke rest ih =>
    exact .grow (encodeSymbol_grown clen ke.1 w) fun w => .grow (writeBits_grown ke.2 _ w) ih

theorem writeHeader_grown (final : Bool) (btype : Nat) (w : Writer) :
    Yields (writeHeader p.outCap final btype w) (Writer.Grown p w) :=
  .grow (writeBits_grown _ 1 w) fun w => writeBits_grown btype 2 w

theorem storedBlock_grown (bytes : List Byte) (final : Bool) (w : Writer) :
    Yields (storedBlock p.outCap bytes final w) (Writer.Grown p w) :=
  .grow (writeHeader_grown final 0 w) fun w => Yields.bind (flushToByte_grown w) fun r h =>
    (Yields.grow (writeBits_grown bytes.length 16 r.2) fun w =>
      .grow (writeBits_grown _ 16 w) (writeBytes_grown bytes)).mono fun _ => h.trans

end Writer

/-! ### What the deflator's procedures keep -/

/-- What the writing procedures keep of a stream state: they move the writer only, and may load tables. -/
structure Stream.Written (p : Params) (st st' : Stream) : Prop where
  reader : st'.reader = st.reader
  window : st'.window = st.window
  writer : Writer.Grown p st.writer st'.writer

section Deflator

variable {p : Params} {st st₁ st₂ : Stream}

theorem Stream.Written.refl (st : Stream) : Stream.Written p st st := ⟨rfl, rfl, .refl _⟩

theorem Stream.Written.trans (h₁ : Stream.Written p st st₁) (h₂ : Stream.Written p st₁ st₂) :
    Stream.Written p st st₂ :=
  ⟨h₂.reader.trans h₁.reader, h₂.window.trans h₁.window, h₁.writer.trans h₂.writer⟩

theorem fixedBlock_written (ts : List Token) (final : Bool) (st : Stream) :
    Yields (fixedBlock p.outCap ts final st) (Stream.Written p st) :=
  Yields.bind (writeHeader_grown final 1 st.writer) fun w₁ h₁ =>
    Yields.bind (emitTokens_grown _ _ ts w₁) fun _ h₂ => .ok ⟨rfl, rfl, h₁.trans h₂⟩

/-- The writing of DynamicBlock(T, final): the header, the counts, the code lengths and the tokens (43_deflate R247). -/
theorem dynamicBlock_written (ts : List Token) (final : Bool) (st : Stream) :
    Yields (dynamicBlock p.outCap ts final st) (Stream.Written p st) :=
  Yields.after fun _ => Yields.after fun _ => Yields.after fun _ =>
    Yields.bind (writeHeader_grown final 2 st.writer) fun w₁ h₁ =>
    Yields.bind (writeBits_grown _ 5 w₁) fun w₂ h₂ =>
    Yields.bind (writeBits_grown _ 5 w₂) fun w₃ h₃ =>
    Yields.bind (writeBits_grown _ 4 w₃) fun w₄ h₄ =>
    Yields.bind (writeEach_grown 3 _ w₄) fun w₅ h₅ =>
    Yields.bind (writeSeq_grown _ _ w₅) fun w₆ h₆ =>
    Yields.bind (emitTokens_grown _ _ ts w₆) fun _ h₇ =>
      .ok ⟨rfl, rfl, h₁.trans <| h₂.trans <| h₃.trans <| h₄.trans <| h₅.trans <| h₆.trans h₇⟩

theorem writeBlock_written (d : Nat → Byte) (k : BlockKind) (b : Block) (final : Bool) (st : Stream) :
    Yields (writeBlock p.outCap d k b final st) (Stream.Written p st) := by
  cases k with
  | stored => exact Yields.bind (storedBlock_grown _ final st.writer) fun _ h => .ok ⟨rfl, rfl, h⟩
  | fixed => exact fixedBlock_written b.tokens final st
  | dynamic => exact dynamicBlock_written b.tokens final st

theorem writeBlocks_written (d : Nat → Byte) (mode : Nat) (bs : List Block) (st : Stream) :
    Yields (writeBlocks p.outCap d mode bs st) (Stream.Written p st) := by
  induction bs generalizing st with
  | nil => exact .ok (.refl st)
  | cons b rest ih =>
    exact Yields.bind (writeBlock_written d _ b _ st) fun st₁ h => (ih st₁).mono fun _ => h.trans

theorem writeStored_written (d : Nat → Byte) (bs : List Block) (st : Stream) :
    Yields (writeStored p.outCap d bs st) (Stream.Written p st) := by
  induction bs generalizing st with
  | nil => exact .ok (.refl st)
  | cons b rest ih =>
    exact Yields.bind (writeBlock_written d .stored b _ st) fun st₁ h => (ih st₁).mono fun _ => h.trans

end Deflator

/-! ### What the reader's procedures keep -/

/-- What every procedure of the reader keeps: BR_END, and the reader's invariant (10_state R30). -/
structure Reader.Moved (p : Params) (r r' : Reader) : Prop where
  lim : r'.lim = r.lim
  ok : r.Ok p → r'.Ok p

section Reader

variable {p : Params} {r r₁ r₂ : Reader} {α : Type} (inb : Nat → Byte)

theorem Reader.Moved.refl (r : Reader) : Reader.Moved p r r := ⟨rfl, id⟩

theorem Reader.Moved.trans (h₁ : Reader.Moved p r r₁) (h₂ : Reader.Moved p r₁ r₂) : Reader.Moved p r r₂ :=
  ⟨h₂.lim.trans h₁.lim, fun h => h₂.ok (h₁.ok h)⟩

/-- A procedure of the reader followed by one whose value and cursor are `g` of its own. -/
theorem Yields.move {β : Type} {x : Except Err (α × Reader)} {f : α × Reader → Except Err β} {g : β → Reader}
    (hx : Yields x (fun v => Reader.Moved p r v.2))
    (hf : ∀ v, Yields (f v) (fun b => Reader.Moved p v.2 (g b))) :
    Yields (x >>= f) (fun b => Reader.Moved p r (g b)) :=
  hx.bind fun v h => (hf v).mono fun _ => h.trans

theorem Reader.advance_lim (r : Reader) : r.advance.lim = r.lim := by
  unfold Reader.advance; split <;> rfl

theorem takeBits_lim (n : Nat) (r : Reader) : (takeBits inb n r).2.lim = r.lim := by
  induction n generalizing r with
  | zero => rfl
  | succ n ih => exact (ih r.advance).trans (Reader.advance_lim r)

theorem readBits_moved (n : Nat) (r : Reader) :
    Yields (readBits inb n r) (fun v => Reader.Moved p r v.2) := by
  refine .ite (fun _ => .error _) (fun hn => .ok ⟨takeBits_lim inb n r, fun h => ?_⟩)
  have hl : n ≤ r.left := by rw [h.remaining_eq] at hn; omega
  rw [takeBits_eq h hl]
  exact Reader.skip_ok h hl

theorem alignToByte_moved (r : Reader) : Reader.Moved p r (alignToByte r).2 where
  lim := by unfold alignToByte; split <;> rfl
  ok h := by rw [alignToByte_eq h]; exact Reader.skip_ok h h.align_le

theorem decodeWalk_moved (t : Table) (n code first index : Nat) (r : Reader) :
    Yields (decodeWalk t inb n code first index r) (fun v => Reader.Moved p r v.2) := by
  induction n generalizing code first index r with
  | zero => exact .error _
  | succ n ih =>
    refine .move (readBits_moved inb 1 r) fun v => ?_
    exact .ite (fun _ => .ok (.refl _)) fun _ => ih _ _ _ v.2

theorem decodeSymbol_moved (t : Table) (r : Reader) :
    Yields (decodeSymbol t inb r) (fun v => Reader.Moved p r v.2) := decodeWalk_moved inb t 15 0 0 0 r

theorem readLength_moved (s : Nat) (r : Reader) :
    Yields (readLength inb s r) (fun v => Reader.Moved p r v.2) :=
  .move (readBits_moved inb _ r) fun _ => .ok (.refl _)

theorem readDistance_moved (dist : Table) (r : Reader) :
    Yields (readDistance dist inb r) (fun v => Reader.Moved p r v.2) :=
  .move (decodeSymbol_moved inb dist r) fun v => Yields.after fun _ =>
    .move (readBits_moved inb _ v.2) fun _ => .ok (.refl _)

theorem readEach_moved (n k : Nat) (r : Reader) :
    Yields (readEach inb n k r) (fun v => Reader.Moved p r v.2) := by
  induction k generalizing r with
  | zero => exact .ok (.refl r)
  | succ k ih => exact .move (readBits_moved inb n r) fun v => .move (ih v.2) fun _ => .ok (.refl _)

theorem lengthStep_moved (n k : Nat) (vs : List Nat) (r : Reader) :
    Yields (lengthStep inb n k vs r) (fun v => Reader.Moved p r v.2) := by
  have repeats : ∀ (m v base : Nat), Yields (readBits inb m r >>= fun x => appendRepeat n vs v (base + x.1) >>=
      fun vs => Except.ok (vs, x.2)) (fun v => Reader.Moved p r v.2) := fun m v base =>
    .move (readBits_moved inb m r) fun _ => Yields.after fun _ => .ok (.refl _)
  refine .ite (fun _ => .ok (.refl r)) fun _ => .ite (fun _ => ?_) fun _ =>
    .ite (fun _ => repeats 3 0 3) fun _ => repeats 7 0 11
  cases vs.getLast? with
  | none => exact .error _
  | some v => exact repeats 2 v 3

theorem lengthsLoop_moved (clen : Table) (n fuel : Nat) (vs : List Nat) (r : Reader) :
    Yields (lengthsLoop clen inb n fuel vs r) (fun v => Reader.Moved p r v.2) := by
  induction fuel generalizing vs r with
  | zero => exact .ok (.refl r)
  | succ fuel ih =>
    refine .ite (fun _ => .ok (.refl r)) fun _ => ?_
    exact .move (decodeSymbol_moved inb clen r) fun v => .move (lengthStep_moved inb n _ vs v.2) fun w => ih w.1 w.2

theorem readHeader_moved (r : Reader) : Yields (readHeader inb r) (fun v => Reader.Moved p r v.2) :=
  .move (readBits_moved inb 1 r) fun v => .move (readBits_moved inb 2 v.2) fun _ => .ok (.refl _)

end Reader

/-! ### What the inflater's procedures keep -/

/-- What EmitByte keeps of the window: its invariant and the form of WIN (10_state R33, R38). -/
structure Window.Fed (win win' : Window) : Prop where
  ok : win.Ok → win'.Ok
  legal : win.bytes.Legal Config.wsize → win'.bytes.Legal Config.wsize

/-- The three tables of a stream state are those of another. -/
abbrev Stream.SameTables (st st' : Stream) : Prop :=
  st'.litlen = st.litlen ∧ st'.dist = st.dist ∧ st'.clen = st.clen

/-- What every procedure of the inflater keeps, in whatever state it starts; the pending bits stay. -/
structure Stream.Inflates (p : Params) (st st' : Stream) : Prop where
  reader : Reader.Moved p st.reader st'.reader
  writer : Writer.Grown p st.writer st'.writer
  pending : st'.writer.acc = st.writer.acc ∧ st'.writer.cnt = st.writer.cnt
  window : Window.Fed st.window st'.window

section Inflator

variable {p : Params} {st st₁ st₂ : Stream} (inb : Nat → Byte)

theorem Window.Fed.refl (win : Window) : Window.Fed win win := ⟨id, id⟩

theorem Window.Fed.push (win : Window) (b : Byte) : Window.Fed win (win.push b) :=
  ⟨Window.push_ok win b, fun h => h.write b win.pos.isLt⟩

theorem Stream.Inflates.refl (st : Stream) : Stream.Inflates p st st := ⟨.refl _, .refl _, ⟨rfl, rfl⟩, .refl _⟩

theorem Stream.Inflates.trans (h₁ : Stream.Inflates p st st₁) (h₂ : Stream.Inflates p st₁ st₂) :
    Stream.Inflates p st st₂ where
  reader := h₁.reader.trans h₂.reader
  writer := h₁.writer.trans h₂.writer
  pending := ⟨h₂.pending.1.trans h₁.pending.1, h₂.pending.2.trans h₁.pending.2⟩
  window := ⟨fun h => h₂.window.ok (h₁.window.ok h), fun h => h₂.window.legal (h₁.window.legal h)⟩

theorem Stream.SameTables.trans (h₁ : st.SameTables st₁) (h₂ : st₁.SameTables st₂) : st.SameTables st₂ :=
  ⟨h₂.1.trans h₁.1, h₂.2.1.trans h₁.2.1, h₂.2.2.trans h₁.2.2⟩

/-- A stream state whose reader alone moved, with the same or other tables. -/
theorem Reader.Moved.inflates {r : Reader} (h : Reader.Moved p st.reader r) (ll dl cl : Table) :
    Stream.Inflates p st { st with reader := r, litlen := ll, dist := dl, clen := cl } :=
  ⟨h, .refl _, ⟨rfl, rfl⟩, .refl _⟩

theorem emitByte_inflates (b : Byte) (st : Stream) :
    Yields (emitByte p.outCap b st) (fun st' => Stream.Inflates p st st' ∧ st.SameTables st') := by
  have hw := putByte_grown (p := p) b st.writer
  rcases emitByte_cases p.outCap b st with ⟨hc, e⟩ | ⟨-, e⟩
  · rw [e]
    exact .ok ⟨⟨.refl _, hw _ (putByte_ok hc), ⟨rfl, rfl⟩, .push _ b⟩, rfl, rfl, rfl⟩
  · rw [e]; exact .error _

theorem copyBytes_inflates (l d : Nat) (st : Stream) :
    Yields (copyBytes p.outCap l d st) (Stream.Inflates p st) := by
  induction l generalizing st with
  | zero => exact .ok (.refl st)
  | succ l ih => exact Yields.bind (emitByte_inflates _ st) fun st₁ h => (ih st₁).mono fun _ => h.1.trans

theorem copyMatch_inflates (l d : Nat) (st : Stream) :
    Yields (copyMatch p.outCap l d st) (Stream.Inflates p st) :=
  .ite (fun _ => .error _) fun _ => copyBytes_inflates l d st

theorem storedBytes_inflates (n : Nat) (st : Stream) :
    Yields (storedBytes p.outCap inb n st) (fun st' => Stream.Inflates p st st' ∧ st.SameTables st') := by
  induction n generalizing st with
  | zero => exact .ok ⟨.refl st, rfl, rfl, rfl⟩
  | succ n ih =>
    exact Yields.bind (readBits_moved inb 8 st.reader) fun v h₁ =>
      Yields.bind (emitByte_inflates _ { st with reader := v.2 }) fun st₂ h₂ =>
        (ih st₂).mono fun _ h₃ =>
          ⟨(h₁.inflates _ _ _).trans (h₂.1.trans h₃.1), Stream.SameTables.trans h₂.2 h₃.2⟩

/-- The body of a stored block moves the reader and emits its bytes; it loads no table (44_inflate R282). -/
theorem storedBlockBody_inflates (st : Stream) :
    Yields (storedBlockBody p.outCap inb st) (fun v => Stream.Inflates p st v.2 ∧ st.SameTables v.2) :=
  Yields.bind (readBits_moved inb 16 (alignToByte st.reader).2) fun v₁ h₁ =>
  Yields.bind (readBits_moved inb 16 v₁.2) fun v₂ h₂ =>
  Yields.after fun _ =>
  Yields.bind (storedBytes_inflates inb v₁.1 { st with reader := v₂.2 }) fun _ h₃ =>
    .ok ⟨((((alignToByte_moved st.reader).trans h₁).trans h₂).inflates _ _ _).trans h₃.1, h₃.2⟩

theorem huffLoop_inflates (fuel produced : Nat) (st : Stream) :
    Yields (huffLoop p.outCap inb fuel produced st) (fun v => Stream.Inflates p st v.2) := by
  induction fuel generalizing produced st with
  | zero => exact .error _
  | succ fuel ih =>
    refine Yields.bind (decodeSymbol_moved (p := p) inb st.litlen st.reader) fun v₁ h₁ => ?_
    have hr : Stream.Inflates p st { st with reader := v₁.2 } := h₁.inflates _ _ _
    refine .ite (fun _ => ?literal) fun _ => .ite (fun _ => .ok hr) fun _ => .ite (fun _ => .error _) fun _ => ?copy
    case literal =>
      exact Yields.bind (emitByte_inflates _ _) fun st₂ h₂ =>
        (ih _ st₂).mono fun _ h₃ => hr.trans (h₂.1.trans h₃)
    case copy =>
      exact Yields.bind (readLength_moved inb _ v₁.2) fun v₂ h₂ =>
        Yields.bind (readDistance_moved inb st.dist v₂.2) fun v₃ h₃ =>
        Yields.bind (copyMatch_inflates _ _ { st with reader := v₃.2 }) fun st₄ h₄ =>
          (ih _ st₄).mono fun _ h₅ => (((h₁.trans h₂).trans h₃).inflates _ _ _).trans (h₄.trans h₅)

theorem huffBody_inflates (st : Stream) :
    Yields (huffBody p.outCap inb st) (fun v => Stream.Inflates p st v.2) := huffLoop_inflates inb _ 0 st

theorem fixedBlockBody_inflates (st : Stream) :
    Yields (fixedBlockBody p.outCap inb st) (fun v => Stream.Inflates p st v.2) :=
  (huffBody_inflates inb (loadFixed st)).mono fun _ h => ((Reader.Moved.refl st.reader).inflates _ _ _).trans h

theorem dynamicHeader_inflates (st : Stream) :
    Yields (dynamicHeader inb st) (Stream.Inflates p st) :=
  Yields.bind (readBits_moved inb 5 st.reader) fun v₁ h₁ =>
  Yields.bind (readBits_moved inb 5 v₁.2) fun v₂ h₂ =>
  Yields.bind (readBits_moved inb 4 v₂.2) fun v₃ h₃ =>
  Yields.bind (readEach_moved inb 3 _ v₃.2) fun v₄ h₄ =>
  Yields.after fun _ =>
  Yields.bind (lengthsLoop_moved inb _ _ _ _ v₄.2) fun _ h₅ =>
  Yields.after fun _ => Yields.after fun _ =>
    .ok ((h₁.trans <| h₂.trans <| h₃.trans <| h₄.trans h₅).inflates _ _ _)

theorem dynamicBlockBody_inflates (st : Stream) :
    Yields (dynamicBlockBody p.outCap inb st) (fun v => Stream.Inflates p st v.2) :=
  Yields.bind (dynamicHeader_inflates inb st) fun st₁ h => (huffBody_inflates inb st₁).mono fun _ => h.trans

/-- InflateBlock moves the reader and emits the block's bytes, whatever the block's type (44_inflate R281). -/
theorem inflateBlock_inflates (st : Stream) :
    Yields (inflateBlock p.outCap inb st) (fun v => Stream.Inflates p st v.2) := by
  refine Yields.bind (readHeader_moved (p := p) inb st.reader) fun v h => .ite (fun _ => .error _) fun _ => ?_
  have hr : Stream.Inflates p st { st with reader := v.2 } := h.inflates _ _ _
  refine .ite (fun _ => ?_) fun _ => .ite (fun _ => ?_) fun _ => ?_
  · exact Yields.bind (storedBlockBody_inflates inb _) fun _ h => .ok (hr.trans h.1)
  · exact Yields.bind (fixedBlockBody_inflates inb _) fun _ h => .ok (hr.trans h)
  · exact Yields.bind (dynamicBlockBody_inflates inb _) fun _ h => .ok (hr.trans h)

theorem inflateLoop_inflates (fuel : Nat) (st : Stream) :
    Yields (inflateLoop p.outCap inb fuel st) (Stream.Inflates p st) := by
  induction fuel generalizing st with
  | zero => exact .error _
  | succ fuel ih =>
    exact Yields.bind (inflateBlock_inflates inb st) fun v h =>
      .ite (fun _ => .ok h) fun _ => (ih v.2).mono fun _ => h.trans

end Inflator

end Sys2Proof.Machine

/-! What an instruction leaves of the stream state, what one step can do, and the invariants that every step keeps. -/

namespace Sys2Proof.Machine

open Sys2Proof

/-! ### The stream state an instruction leaves -/

/-- The stream state that an instruction leaves where it ends without `raise`. -/
def streamAfter (i : Instr) (s : State) : Except Err Stream :=
  match i with
  | .nop => .ok s.stream
  | .resetStream => .ok (clearStream s.stream)
  | .bwInit => (bwInitBody s).map Result.stream
  | .bwWriteBits => (bwWriteBitsBody s).map Result.stream
  | .bwFlush => (bwFlushBody s).map Result.stream
  | .brInit => (brInitBody s).map Result.stream
  | .brReadBits => (brReadBitsBody s).map Result.stream
  | .brAlign => .ok (brAlignBody s).stream
  | .hufBuild => (hufBuildBody s).map Result.stream
  | .hufLoadFixed => .ok (loadFixed s.stream)
  | .hufDecode => (hufDecodeBody s).map Result.stream
  | .hufEncode => (hufEncodeBody s).map Result.stream
  | .lzScan => (lzScanBody s).map Result.stream
  | .deflStored => (deflStoredBody s).map Result.stream
  | .deflHuff => (deflHuffBody s).map Result.stream
  | .compress => (compressBody s).map Result.stream
  | .inflBlock => (inflBlockBody s).map Result.stream
  | .decompress => (decompressBody s).map Result.stream
  | .streamBlockStored _ => (storedBlockBody s.params.outCap s.inByte s.stream).map Prod.snd
  | .streamBlockFixed _ => (fixedBlockBody s.params.outCap s.inByte s.stream).map Prod.snd
  | .streamBlockDynamic _ => (dynamicBlockBody s.params.outCap s.inByte s.stream).map Prod.snd
  | .streamBlockReserved _ => .error .invalidBlockType

/-- The states in which an instruction that leaves the stream state `st` ends: its command completes, RESET_STREAM has
cleared the error, or a DECOMPRESS goes on to its next block (log 9). -/
inductive Ended (s : State) (st : Stream) : State → Prop
  | completed (v : Result) (hv : v.stream = st) : Ended s st (complete v s)
  | cleared (hst : st = clearStream s.stream) :
      Ended s st (complete ⟨clearStream s.stream, 0, 0⟩ { s with error := false, err := none })
  | paused : Ended s st { s with run := .inflating, stream := st }

/-- An instruction ends with its error, or leaves its stream state. -/
abbrev EndsBy (r : Except Err Stream) (s t : State) : Prop :=
  (∃ e, t = raise e s) ∨ ∃ st, r = .ok st ∧ Ended s st t

theorem Ended.stream_eq {s t : State} {st : Stream} (h : Ended s st t) : t.stream = st := by
  cases h with
  | completed v hv => exact hv
  | cleared hst => exact hst.symm
  | paused => rfl

theorem conclude_ends {r : Except Err Result} {s t : State} (h : conclude r s = .next t) :
    EndsBy (r.map Result.stream) s t := by
  cases r with
  | error e => cases h; exact .inl ⟨e, rfl⟩
  | ok v => cases h; exact .inr ⟨v.stream, rfl, .completed v rfl⟩

theorem concludeBlock_ok (f : Bool) (k : Nat) (st : Stream) (s : State) :
    concludeBlock f (.ok (k, st)) s = .next (blockEnd f k st s) := by
  rcases concludeBlock_cases f (.ok (k, st)) s with ⟨_, _, h, e⟩ | ⟨_, h, -⟩
  · cases h; exact e
  · cases h

theorem concludeBlock_ends {f : Bool} {r : Except Err (Nat × Stream)} {s t : State}
    (h : concludeBlock f r s = .next t) : EndsBy (r.map Prod.snd) s t := by
  rcases r with e | ⟨k, st⟩
  · cases h; exact .inl ⟨e, rfl⟩
  · rw [concludeBlock_ok] at h
    obtain rfl := Host.Outcome.next.inj h
    refine .inr ⟨st, rfl, ?_⟩
    rcases blockEnd_cases f k st s with ⟨v, hv, e⟩ | ⟨-, -, e⟩
    · rw [e]; exact .completed v hv
    · rw [e]; exact .paused

/-- Every instruction ends with its error or leaves `streamAfter` in one of the ways of `Ended`. -/
theorem exec_ends {i : Instr} {s t : State} (h : exec i s = .next t) : EndsBy (streamAfter i s) s t := by
  cases i with
  | resetStream => cases h; exact .inr ⟨_, rfl, .cleared rfl⟩
  | streamBlockStored | streamBlockFixed | streamBlockDynamic => exact concludeBlock_ends h
  | streamBlockReserved f => exact concludeBlock_ends (f := f) (r := .error .invalidBlockType) h
  | nop => exact conclude_ends (r := .ok ⟨s.stream, 0, 0⟩) h
  | brAlign => exact conclude_ends (r := .ok (brAlignBody s)) h
  | hufLoadFixed => exact conclude_ends (r := .ok ⟨loadFixed s.stream, 0, 0⟩) h
  | bwInit | bwWriteBits | bwFlush | brInit | brReadBits | hufBuild | hufDecode | hufEncode | lzScan | deflStored
  | deflHuff | compress | inflBlock | decompress => exact conclude_ends h

/-- An instruction that ends without error leaves `streamAfter`. -/
theorem streamAfter_of_noError {i : Instr} {s t : State} (h : exec i s = .next t) (he : t.error = false) :
    streamAfter i s = .ok t.stream := by
  rcases exec_ends h with ⟨e, rfl⟩ | ⟨st, hst, hend⟩
  · cases he
  · rw [hend.stream_eq]; exact hst

/-! ### What each command leaves of the stream state -/

/-- The reader over a range of IN is in its invariant (40_bitstream R153). -/
theorem Reader.over_ok {p : Params} {a n : Word} (h : a.toNat + n.toNat ≤ p.inSize) : (Reader.over a n).Ok p := by
  have := p.inSize_bounds.2
  have hl : (a + n).toNat = a.toNat + n.toNat := by rw [BitVec.toNat_add]; omega
  exact ⟨by simp only [Reader.over, hl]; omega, by simp only [Reader.over, hl]; exact h, fun _ => rfl⟩

section Commands

variable (s : State)

/-- The commands of the reader move it and change nothing else. -/
theorem readerCommand_leaves {i : Instr} (hi : i ∈ [Instr.brInit, .brReadBits, .brAlign, .hufDecode]) :
    Yields (streamAfter i s) (fun st =>
      ∃ r, (s.stream.reader.Ok s.params → r.Ok s.params) ∧ st = { s.stream with reader := r }) := by
  simp only [List.mem_cons, List.not_mem_nil, or_false] at hi
  rcases hi with rfl | rfl | rfl | rfl
  · refine .map (Yields.bind (checkRange_yields s.params s.a0 s.a1) fun _ h => .ok ⟨_, fun _ => ?_, rfl⟩)
    exact Reader.over_ok h
  · exact .map <| Yields.after fun _ =>
      Yields.bind (readBits_moved s.inByte s.a0 s.stream.reader) fun v h => .ok ⟨_, h.ok, rfl⟩
  · exact .ok ⟨_, (alignToByte_moved s.stream.reader).ok, rfl⟩
  · exact .map <| Yields.after fun _ =>
      Yields.bind (decodeSymbol_moved s.inByte _ s.stream.reader) fun v h => .ok ⟨_, h.ok, rfl⟩

/-- The commands that write through the bit writer at its place grow it and change nothing else. -/
theorem writerCommand_leaves {i : Instr}
    (hi : i ∈ [Instr.bwWriteBits, .bwFlush, .hufEncode, .lzScan, .deflStored]) :
    Yields (streamAfter i s) (fun st =>
      ∃ w, Writer.Grown s.params s.stream.writer w ∧ st = { s.stream with writer := w }) := by
  simp only [List.mem_cons, List.not_mem_nil, or_false] at hi
  rcases hi with rfl | rfl | rfl | rfl | rfl
  · exact .map <| Yields.after fun _ =>
      Yields.bind (writeBits_grown s.a0 s.a1 s.stream.writer) fun w h => .ok ⟨w, h, rfl⟩
  · exact .map <| Yields.bind (flushToByte_grown s.stream.writer) fun r h => .ok ⟨r.2, h, rfl⟩
  · exact .map <| Yields.after fun _ => Yields.after fun _ =>
      Yields.bind (encodeSymbol_grown _ s.a1 s.stream.writer) fun w h => .ok ⟨w, h, rfl⟩
  · exact .map <| Yields.after fun _ => Yields.after fun _ =>
      Yields.bind (putBytes_grown _ s.stream.writer) fun w h => .ok ⟨w, h, rfl⟩
  · exact .map <| Yields.after fun _ => Yields.after fun _ =>
      Yields.bind (storedBlock_grown _ _ s.stream.writer) fun w h => .ok ⟨w, h, rfl⟩

theorem deflHuff_leaves : Yields (streamAfter .deflHuff s) (Stream.Written s.params s.stream) := by
  refine .map <| Yields.after fun _ => Yields.after fun ts => ?_
  refine .ite (fun _ => ?_) fun _ => ?_
  · exact Yields.bind (dynamicBlock_written ts _ s.stream) fun _ h => .ok h
  · exact Yields.bind (fixedBlock_written ts _ s.stream) fun _ h => .ok h

/-- COMPRESS writes on from the restarted writer (43_deflate R251). -/
theorem compress_leaves : Yields (streamAfter .compress s) (Stream.Written s.params (restartWriter s.stream)) := by
  have flushed : ∀ (st : Stream) (n : Nat), Stream.Written s.params (restartWriter s.stream) st →
      Yields (flushToByte s.params.outCap st.writer >>= fun r =>
        Except.ok (⟨{ st with writer := r.2 }, r.2.outPos.toNat, n⟩ : Result))
        (fun v => Stream.Written s.params (restartWriter s.stream) v.stream) := fun st n h =>
    Yields.bind (flushToByte_grown st.writer) fun r hr => .ok ⟨h.reader, h.window, h.writer.trans hr⟩
  refine .map <| Yields.after fun _ => .ite (fun _ => ?_) fun _ => ?_
  · exact Yields.bind (writeStored_written _ _ _) fun st h => flushed st _ h
  · exact Yields.bind (writeBlocks_written _ _ _ _) fun st h => flushed st _ h

theorem hufBuild_leaves : Yields (streamAfter .hufBuild s) (fun st => ∃ id t, st = s.stream.setTable id t) :=
  .map <| Yields.after fun id => Yields.after fun _ => Yields.after fun _ => Yields.after fun _ =>
    Yields.after fun t => .ok ⟨id, t, rfl⟩

/-- BW_INIT restarts the writer within OUT (40_bitstream R142). -/
theorem bwInit_leaves : Yields (streamAfter .bwInit s) (fun st => s.a0 ≤ s.params.outCap ∧
    st = { s.stream with writer := { s.stream.writer with outPos := s.latch.arg0, acc := 0, cnt := 0 } }) :=
  .map <| Yields.bind (failIf_yields _ _) fun _ h => .ok ⟨by simpa using h, rfl⟩

/-- INFL_BLOCK and the block headers emit from where the writer stands (44_inflate R281, R290). -/
theorem inflaterBlock_leaves {i : Instr} (f : Bool)
    (hi : i ∈ [Instr.inflBlock, .streamBlockStored f, .streamBlockFixed f, .streamBlockDynamic f,
      .streamBlockReserved f]) :
    Yields (streamAfter i s) (Stream.Inflates s.params s.stream) := by
  simp only [List.mem_cons, List.not_mem_nil, or_false] at hi
  rcases hi with rfl | rfl | rfl | rfl | rfl
  · exact .map <| Yields.bind (P := (· = s.stream)) (Yields.after fun _ => .ok rfl) fun st h =>
      Yields.bind (inflateBlock_inflates s.inByte st) fun v hv => .ok (h ▸ hv)
  · exact .map ((storedBlockBody_inflates s.inByte s.stream).mono fun _ h => h.1)
  · exact .map (fixedBlockBody_inflates s.inByte s.stream)
  · exact .map (dynamicBlockBody_inflates s.inByte s.stream)
  · exact .error _

/-- The stream state DECOMPRESS starts its blocks with (44_inflate R291). -/
def decompressStream (s : State) : Stream :=
  { restartWriter s.stream with
    reader := .over s.latch.arg0 s.latch.arg1
    window := { s.stream.window with fill := 0, pos := 0 } }

theorem decompressStart_yields :
    Yields (decompressStart s) (fun st => s.a0 + s.a1 ≤ s.params.inSize ∧ st = decompressStream s) :=
  Yields.bind (checkRange_yields s.params s.a0 s.a1) fun _ h => .ok ⟨h, rfl⟩

theorem decompress_leaves : Yields (streamAfter .decompress s)
    (fun st => s.a0 + s.a1 ≤ s.params.inSize ∧ Stream.Inflates s.params (decompressStream s) st) :=
  .map <| Yields.bind (decompressStart_yields s) fun st₀ h₀ =>
    Yields.bind (inflateLoop_inflates s.inByte _ st₀) fun _ h => .ok ⟨h₀.1, h₀.2 ▸ h⟩

end Commands

/-! ### What every turn of a running core keeps of the stream state -/

/-- The invariants of the parts of a stream state, each kept (10_state R30..R33, R37, R38). -/
structure Stream.Kept (p : Params) (st st' : Stream) : Prop where
  reader : st.reader.Ok p → st'.reader.Ok p
  writer : st.writer.Ok p → st'.writer.Ok p
  window : st.window.Ok → st'.window.Ok
  out : st.writer.out.Legal p.outCap → st'.writer.out.Legal p.outCap
  win : st.window.bytes.Legal Config.wsize → st'.window.bytes.Legal Config.wsize

section Kept

variable {p : Params} {st st₁ st₂ : Stream}

theorem Stream.Kept.refl (st : Stream) : Stream.Kept p st st := ⟨id, id, id, id, id⟩

theorem Stream.Kept.trans (h₁ : Stream.Kept p st st₁) (h₂ : Stream.Kept p st₁ st₂) : Stream.Kept p st st₂ :=
  ⟨h₂.reader ∘ h₁.reader, h₂.writer ∘ h₁.writer, h₂.window ∘ h₁.window, h₂.out ∘ h₁.out, h₂.win ∘ h₁.win⟩

theorem Stream.Written.kept (h : Stream.Written p st st₁) : Stream.Kept p st st₁ where
  reader hr := h.reader ▸ hr
  writer := h.writer.ok
  window hw := h.window ▸ hw
  out := h.writer.legal
  win hw := h.window ▸ hw

theorem Stream.Inflates.kept (h : Stream.Inflates p st st₁) : Stream.Kept p st st₁ :=
  ⟨h.reader.ok, h.writer.ok, h.window.ok, h.writer.legal, h.window.legal⟩

theorem Reader.zero_ok : Reader.Ok p ⟨0, 0, 0⟩ := ⟨le_rfl, by simp, fun _ => rfl⟩

theorem Window.cleared_ok (m : Memory) : Window.Ok ⟨m, 0, 0⟩ :=
  ⟨by simp [Config.wsize], fun _ => rfl, fun i hi => absurd hi (by simp)⟩

theorem Writer.restarted_ok {q : Word} (out : Memory) (h : q.toNat ≤ p.outCap) : Writer.Ok p ⟨out, q, 0, 0⟩ :=
  ⟨h, by simp, by simp⟩

theorem restartWriter_kept (st : Stream) : Stream.Kept p st (restartWriter st) :=
  ⟨id, fun _ => Writer.restarted_ok _ (by simp), id, id, id⟩

theorem clearStream_kept (st : Stream) : Stream.Kept p st (clearStream st) :=
  ⟨fun _ => Reader.zero_ok, fun _ => Writer.restarted_ok _ (by simp), fun _ => Window.cleared_ok _, id, id⟩

theorem setTable_kept (st : Stream) (tid : TableId) (t : Table) : Stream.Kept p st (st.setTable tid t) := by
  cases tid <;> exact ⟨id, id, id, id, id⟩

end Kept

theorem decompressStream_kept {s : State} (h : s.a0 + s.a1 ≤ s.params.inSize) :
    Stream.Kept s.params s.stream (decompressStream s) :=
  ⟨fun _ => Reader.over_ok h, fun _ => Writer.restarted_ok _ (by simp), fun _ => Window.cleared_ok _, id, id⟩

/-- Every instruction keeps the invariants of the stream state, as far as it ends without `raise`. -/
theorem streamAfter_kept (i : Instr) (s : State) : Yields (streamAfter i s) (Stream.Kept s.params s.stream) := by
  have reader := fun h => (readerCommand_leaves s (i := i) h).mono (Q := Stream.Kept s.params s.stream)
    (by rintro _ ⟨r, hr, rfl⟩; exact ⟨hr, id, id, id, id⟩)
  have writer := fun h => (writerCommand_leaves s (i := i) h).mono (Q := Stream.Kept s.params s.stream)
    (by rintro _ ⟨w, hw, rfl⟩; exact ⟨id, hw.ok, id, hw.legal, id⟩)
  have block := fun f h => (inflaterBlock_leaves s (i := i) f h).mono fun _ h => h.kept
  cases i with
  | nop => exact .ok (.refl _)
  | resetStream => exact .ok (clearStream_kept _)
  | bwInit =>
    refine (bwInit_leaves s).mono ?_
    rintro _ ⟨h, rfl⟩
    exact ⟨id, fun _ => Writer.restarted_ok _ h, id, id, id⟩
  | brInit | brReadBits | brAlign | hufDecode => exact reader (by simp)
  | bwWriteBits | bwFlush | hufEncode | lzScan | deflStored => exact writer (by simp)
  | hufBuild =>
    refine (hufBuild_leaves s).mono ?_
    rintro _ ⟨id, t, rfl⟩
    exact setTable_kept s.stream id t
  | hufLoadFixed => exact .ok ⟨id, id, id, id, id⟩
  | deflHuff => exact (deflHuff_leaves s).mono fun _ h => h.kept
  | compress => exact (compress_leaves s).mono fun _ h => (restartWriter_kept s.stream).trans h.kept
  | decompress => exact (decompress_leaves s).mono fun _ h => (decompressStream_kept h.1).trans h.2.kept
  | inflBlock => exact block false (by simp)
  | streamBlockStored f | streamBlockFixed f | streamBlockDynamic f | streamBlockReserved f =>
    exact block f (by simp)

/-! ### What one step can do -/

/-- The stream states that a turn of a running core leaves without `raise`: those of the latched command, of the block
whose header the inflater fetches, or of the inflater's start (45_control R322, 44_inflate R281). -/
inductive Leaves (s : State) : Stream → Prop
  | command {i : Instr} {st : Stream} (h : streamAfter i s = .ok st) : Leaves s st
  | block {b : BitVec 3} {r : Reader} {st : Stream} (hr : readHeader s.inByte s.stream.reader = .ok (b, r))
      (h : streamAfter (decodeHeader b) { s with stream := { s.stream with reader := r } } = .ok st) : Leaves s st
  | inflBlock {st : Stream} (h : inflBlockStart s = .ok st) : Leaves s st
  | decompress {st : Stream} (h : decompressStart s = .ok st) : Leaves s st

/-- The states a turn of a running core ends in. -/
inductive Turned (s : State) : State → Prop
  | illegal : Turned s (raiseIllegalWord s)
  | raised (e : Err) : Turned s (raise e s)
  | ended {st : Stream} {t : State} (hst : Leaves s st) (h : Ended s st t) : Turned s t

/-- The states a step reaches, once the host's move is taken off its list: what a host access leaves, a CMD write, a
turn of the core, or a change of the reset input. -/
inductive Effect (s : State) : State → Prop
  | read (x : Word) (n : Nat) : Effect s { s with readData := x, draws := n }
  | status (v : Word) : Effect s (writeStatus v s)
  | registers (c : BitVec 5) (m : BitVec 16) (x y z : Word) :
      Effect s { s with config := c, maxChain := m, arg0 := x, arg1 := y, arg2 := z }
  | blockTokens (v : Word) : Effect s { s with blockTokens := clampBlockTokens v }
  | input (i n v : Nat) (h : i + n ≤ s.params.inSize) : Effect s { s with input := s.input.writeLE i n v }
  | resetAssert : Effect s (resetAssert s)
  | resetRelease : Effect s { State.resetWith s.params s.draws with host := s.host, readData := s.readData }
  | start (w : Word) : Effect s (start w s)
  | turned {t : State} (hb : s.busy = true) (h : Turned s t) : Effect s t
  | ran (w : Word) {t : State} (h : Turned (start w s) t) : Effect s t

section Inversion

variable {s t : State}

theorem EndsBy.turned {r : Except Err Stream} (h : EndsBy r s t) (hl : ∀ st, r = .ok st → Leaves s st) :
    Turned s t := by
  rcases h with ⟨e, rfl⟩ | ⟨st, hst, hend⟩
  · exact .raised e
  · exact .ended (hl st hst) hend

theorem runLatched_turned (h : runLatched s = .next t) : Turned s t := by
  unfold runLatched at h
  split at h
  · cases h; exact .illegal
  · exact (exec_ends h).turned fun _ => .command

/-- The inflater's start of a command, which may already raise. -/
theorem enterInflater_turned {r : Except Err Stream} (h : enterInflater r s = t) (hl : ∀ st, r = .ok st → Leaves s st) :
    Turned s t := by
  subst h
  cases r with
  | error e => exact .raised e
  | ok st => exact .ended (hl st rfl) .paused

/-- A block whose header the inflater fetched ends as a block of the command that runs: what an error makes unspecified
does not depend on the reader (10_state R43). -/
theorem inflateTurn_turned (h : inflateTurn s = .next t) : Turned s t := by
  unfold inflateTurn fetchHeader at h
  rcases hr : readHeader s.inByte s.stream.reader with e | v
  · rw [hr] at h; cases h; exact .raised e
  · rw [hr] at h
    have hl : ∀ st, streamAfter (decodeHeader v.1) { s with stream := { s.stream with reader := v.2 } } = .ok st →
        Leaves s st := fun _ => .block hr
    rcases exec_ends h with ⟨e, rfl⟩ | ⟨st, hst, hend⟩
    · exact .raised e
    · cases hend with
      | completed w hw => exact .ended (hl st hst) (.completed w hw)
      | cleared hc => exact .ended (hl st hst) (.cleared hc)
      | paused => exact .ended (hl st hst) .paused

theorem coreTurn_effect (h : coreTurn s = .next t) : Effect s t := by
  unfold coreTurn at h
  split at h
  · cases h; exact .read s.readData s.draws
  · rename_i hrun
    refine .turned (by simp [State.busy, hrun]) ?_
    split at h
    · exact enterInflater_turned (Host.Outcome.next.inj h) fun _ => .inflBlock
    · split at h
      · exact enterInflater_turned (Host.Outcome.next.inj h) fun _ => .decompress
      · exact runLatched_turned h
  · rename_i hrun
    exact .turned (by simp [State.busy, hrun]) (inflateTurn_turned h)

theorem writeCmd_effect {w : Word} (h : writeCmd w s = .next t) : Effect s t := by
  unfold writeCmd at h
  split at h
  · cases h; exact .read s.readData s.draws
  · split at h
    · cases h; exact .start w
    · exact .ran w (runLatched_turned h)

theorem writeReg_effect {off : Nat} {v : Word} (h : writeReg off v s = .next t) : Effect s t := by
  unfold writeReg at h
  split_ifs at h
  · exact writeCmd_effect h
  all_goals cases h
  · exact .status v
  · exact .registers (v.setWidth 5) s.maxChain s.arg0 s.arg1 s.arg2
  · exact .registers s.config (v.setWidth 16) s.arg0 s.arg1 s.arg2
  · exact .blockTokens v
  · exact .registers s.config s.maxChain v s.arg1 s.arg2
  · exact .registers s.config s.maxChain s.arg0 v s.arg2
  · exact .registers s.config s.maxChain s.arg0 s.arg1 v
  · exact .read s.readData s.draws

/-- A host read changes the value it returned and, where that value is unspecified, the count of draws. -/
theorem hostRead_next {sp : Space} {i : Nat} {w : Width} (h : hostRead sp i w s = .next t) :
    t = { s with readData := t.readData, draws := t.draws } := by
  unfold hostRead at h
  cases sp with
  | reg =>
    cases hr : regRefusal i w with
    | some r => simp [hr] at h
    | none =>
      simp only [hr] at h
      split at h <;> cases h <;> rfl
  | inp =>
    simp only at h
    split at h <;> cases h
    rfl
  | out =>
    simp only at h
    split_ifs at h <;> cases h <;> rfl

theorem hostWrite_effect {sp : Space} {i : Nat} {w : Width} {v : Word} (h : hostWrite sp i w v s = .next t) :
    Effect s t := by
  unfold hostWrite at h
  cases sp with
  | reg =>
    cases hr : regRefusal i w with
    | some r => simp [hr] at h
    | none => simp only [hr] at h; exact writeReg_effect h
  | inp =>
    simp only at h
    split_ifs at h with hi hb
    cases h
    exact .input i w.bytes v.toNat (by omega)
  | out =>
    simp only at h
    split_ifs at h with hi
    cases h
    exact .read s.readData s.draws

theorem hostRead_effect {sp : Space} {i : Nat} {w : Width} (h : hostRead sp i w s = .next t) : Effect s t := by
  rw [hostRead_next h]; exact .read t.readData t.draws

theorem resetRelease_effect (s : State) : Effect s (resetRelease s) := by
  unfold resetRelease
  split
  · exact .resetRelease
  · exact .read s.readData s.draws

theorem hostAccess_effect {m : HostMove} (h : hostAccess m s = .next t) : ∃ ms, Effect { s with host := ms } t := by
  cases m with
  | read sp i w => exact ⟨s.host, hostRead_effect h⟩
  | write sp i w v => exact ⟨s.host, hostWrite_effect h⟩
  | busRead a w =>
    rcases hl : locate s.params a with _ | ⟨sp, i⟩
    · simp [hostAccess, hl] at h
    · simp only [hostAccess, hl] at h
      exact ⟨s.host, hostRead_effect h⟩
  | busWrite a w v =>
    rcases hl : locate s.params a with _ | ⟨sp, i⟩
    · simp [hostAccess, hl] at h
    · simp only [hostAccess, hl] at h
      exact ⟨s.host, hostWrite_effect h⟩
  | wait =>
    simp only [hostAccess, hostWait] at h
    split at h
    · exact ⟨_, coreTurn_effect h⟩
    · cases h; exact ⟨s.host, .read _ s.draws⟩
  | turn => exact ⟨s.host, coreTurn_effect h⟩
  | resetAssert => cases h; exact ⟨s.host, .resetAssert⟩
  | resetRelease => cases h; exact ⟨s.host, resetRelease_effect s⟩

theorem perform_effect {m : HostMove} (h : perform m s = .next t) : ∃ ms, Effect { s with host := ms } t := by
  unfold perform at h
  split at h
  · refine ⟨s.host, ?_⟩
    cases m with
    | resetRelease => cases h; exact resetRelease_effect s
    | read | write | busRead | busWrite | wait | turn | resetAssert => cases h; exact .read s.readData s.draws
  · exact hostAccess_effect h

/-- Everything a step can do. -/
theorem step_effect (h : step s = .next t) : ∃ ms, Effect { s with host := ms } t := by
  unfold step stepMachine at h
  split at h
  · refine ⟨s.host, ?_⟩
    split at h
    · cases h; exact .read s.readData s.draws
    · exact coreTurn_effect h
  · obtain ⟨ms, he⟩ := perform_effect h
    exact ⟨ms, he⟩

end Inversion

/-! ### The invariants -/

theorem Leaves.kept {s : State} {st : Stream} (h : Leaves s st) : Stream.Kept s.params s.stream st := by
  cases h with
  | @command i _ h => exact streamAfter_kept i s st h
  | @block b r _ hr h =>
    have hm : Reader.Moved s.params s.stream.reader r := readHeader_moved s.inByte s.stream.reader (b, r) hr
    have hk : Stream.Kept s.params { s.stream with reader := r } st := streamAfter_kept (decodeHeader b) _ st h
    exact ⟨fun h => hk.reader (hm.ok h), hk.writer, hk.window, hk.out, hk.win⟩
  | inflBlock h =>
    obtain rfl : s.stream = st := Yields.after (fun _ => .ok rfl) st h
    exact .refl _
  | decompress h =>
    obtain ⟨hn, rfl⟩ := decompressStart_yields s st h
    exact decompressStream_kept hn

/-- An invariant of the stream state that holds of an initial one and that every turn keeps is kept by every step, for
stream states that no error made unspecified (10_state R43). -/
theorem step_keeps_stream {Q : Params → Stream → Prop} (hinit : ∀ p out win, Q p (.initial out win))
    (hleaves : ∀ s st, Leaves s st → Q s.params s.stream → Q s.params st) {s t : State}
    (h : s.error = false → Q s.params s.stream) (hstep : step s = .next t) : t.error = false → Q t.params t.stream := by
  have turned : ∀ {s t : State}, (s.error = false → Q s.params s.stream) → Turned s t →
      t.error = false → Q t.params t.stream := by
    intro s t h ht he
    cases ht with
    | illegal | raised e => cases he
    | ended hst hend =>
      cases hend with
      | completed v hv => subst hv; exact hleaves s _ hst (h he)
      | cleared => exact hinit _ _ _
      | paused => exact hleaves s _ hst (h he)
  obtain ⟨ms, he⟩ := step_effect hstep
  cases he with
  | turned _ ht => exact turned (s := { s with host := ms }) h ht
  | ran w ht => exact turned (s := Machine.start w { s with host := ms }) h ht
  | resetRelease => exact fun _ => hinit _ _ _
  | read | status | registers | blockTokens | input | resetAssert | start => exact h

/-- Settles O57: the cursors' invariants are among what every turn keeps of the stream state. -/
theorem stepKeepsCursors : Obligations.StepKeepsCursors := fun _ _ h hstep =>
  step_keeps_stream (Q := fun p st => st.reader.Ok p ∧ st.writer.Ok p)
    (fun _ _ _ => ⟨Reader.zero_ok, Writer.restarted_ok _ (by simp)⟩)
    (fun _ _ hst hq => ⟨hst.kept.reader hq.1, hst.kept.writer hq.2⟩) h hstep

/-- Settles O58: the window's invariant is among what every turn keeps of the stream state. -/
theorem stepKeepsWindow : Obligations.StepKeepsWindow := fun _ _ h hstep =>
  step_keeps_stream (Q := fun _ st => st.window.Ok) (fun _ _ _ => Window.cleared_ok _)
    (fun _ _ hst => hst.kept.window) h hstep

/-! Flags, configuration and memories -/

theorem clampBlockTokens_toNat (v : Word) :
    (clampBlockTokens v).toNat = min (max (v.extractLsb' 0 17).toNat 1) 65536 := by
  rw [clampBlockTokens, BitVec.toNat_ofNat, Nat.mod_eq_of_lt (by omega)]

theorem clampBlockTokens_bounds (v : Word) : 1 ≤ (clampBlockTokens v).toNat ∧ (clampBlockTokens v).toNat ≤ 65536 := by
  rw [clampBlockTokens_toNat]
  omega

theorem Turned.flagsOk {s t : State} (ht : Turned s t) (hb : s.busy = true) (h : s.FlagsOk) : t.FlagsOk := by
  cases ht with
  | illegal | raised e => exact ⟨rfl, fun _ => rfl⟩
  | ended hst hend =>
    cases hend with
    | completed v hv => exact ⟨h.1, fun hi => by cases hi⟩
    | cleared => exact ⟨rfl, fun hi => by cases hi⟩
    | paused => exact ⟨h.1, fun _ => h.2 hb⟩

theorem Effect.flagsOk {s t : State} (he : Effect s t) (h : s.FlagsOk) : t.FlagsOk := by
  cases he with
  | read | registers | blockTokens | input => exact h
  | status v => exact ⟨h.1, fun hb => by simp [h.2 hb]⟩
  | resetAssert => exact ⟨h.1, fun hi => by cases hi⟩
  | resetRelease => exact ⟨rfl, fun _ => rfl⟩
  | start w => exact ⟨h.1, fun _ => rfl⟩
  | turned hb ht => exact ht.flagsOk hb h
  | ran w ht => exact ht.flagsOk rfl ⟨h.1, fun _ => rfl⟩

theorem Turned.configOk {s t : State} (ht : Turned s t) (h : s.ConfigOk) : t.ConfigOk := by
  cases ht with
  | illegal | raised e => exact h
  | ended hst hend => cases hend <;> exact h

theorem Effect.configOk {s t : State} (he : Effect s t) (h : s.ConfigOk) : t.ConfigOk := by
  cases he with
  | read | status | registers | input | resetAssert | start => exact h
  | blockTokens v => exact clampBlockTokens_bounds v
  | resetRelease => exact ⟨by simp [State.resetWith], by simp [State.resetWith]⟩
  | turned hb ht => exact ht.configOk h
  | ran w ht => exact ht.configOk h

/-- IN, OUT and WIN within their sizes: `State.MemoriesOk` memory by memory. -/
structure State.MemoriesLegal (s : State) : Prop where
  input : s.input.Legal s.params.inSize
  out : s.stream.writer.out.Legal s.params.outCap
  win : s.stream.window.bytes.Legal Config.wsize

theorem State.memoriesLegal_iff (s : State) : s.MemoriesLegal ↔ s.MemoriesOk :=
  ⟨fun ⟨⟨a, b⟩, ⟨c, d⟩, ⟨e, f⟩⟩ => ⟨a, b, c, d, e, f⟩, fun ⟨a, b, c, d, e, f⟩ => ⟨⟨a, b⟩, ⟨c, d⟩, ⟨e, f⟩⟩⟩

theorem Turned.memoriesLegal {s t : State} (ht : Turned s t) (h : s.MemoriesLegal) : t.MemoriesLegal := by
  cases ht with
  | illegal => exact ⟨h.input, h.out, h.win⟩
  | raised e => exact ⟨h.input, h.out.forgetFrom _ _, h.win.forgetFrom _ _⟩
  | ended hst hend =>
    cases hend with
    | completed v hv => subst hv; exact ⟨h.input, hst.kept.out h.out, hst.kept.win h.win⟩
    | cleared => exact ⟨h.input, h.out, h.win⟩
    | paused => exact ⟨h.input, hst.kept.out h.out, hst.kept.win h.win⟩

theorem Effect.memoriesLegal {s t : State} (he : Effect s t) (h : s.MemoriesLegal) : t.MemoriesLegal := by
  cases he with
  | read | status | registers | blockTokens | resetAssert | start => exact ⟨h.input, h.out, h.win⟩
  | input i n v hi => exact ⟨h.input.writeLE v hi, h.out, h.win⟩
  | resetRelease =>
    exact ⟨Memory.unwritten_legal _ _, Memory.unwritten_legal _ _, Memory.unwritten_legal _ _⟩
  | turned hb ht => exact ht.memoriesLegal h
  | ran w ht => exact ht.memoriesLegal (s := Machine.start w s) ⟨h.input, h.out, h.win⟩

/-- Settles O56: each of the three invariants is kept by every effect of a step. -/
theorem stepKeepsFlagsConfigMemories : Obligations.StepKeepsFlagsConfigMemories := by
  rintro s t ⟨hf, hc, hm⟩ hstep
  obtain ⟨ms, he⟩ := step_effect hstep
  have hm' : State.MemoriesLegal { s with host := ms } := (State.memoriesLegal_iff _).2 hm
  exact ⟨he.flagsOk hf, he.configOk hc, (State.memoriesLegal_iff t).1 (he.memoriesLegal hm')⟩

end Sys2Proof.Machine

/-! The frames of the commands, read off what each leaves of the stream state. -/

namespace Sys2Proof.Machine

open Sys2Proof

theorem setTable_frame (st : Stream) (id : TableId) (t : Table) :
    (st.setTable id t).reader = st.reader ∧ (st.setTable id t).writer = st.writer ∧
      (st.setTable id t).window = st.window := by
  cases id <;> exact ⟨rfl, rfl, rfl⟩

/-- Settles O47: each command changes at most the one part of the stream state that its rule names. -/
theorem frameOfCommandsThatStoreNothing : Obligations.FrameOfCommandsThatStoreNothing := by
  intro i s t hi hexec he
  have hst := streamAfter_of_noError hexec he
  generalize t.stream = st at hst ⊢
  simp only [List.mem_cons, List.not_mem_nil, or_false] at hi
  have reader : i ∈ [Instr.brInit, .brReadBits, .brAlign, .hufDecode] →
      ∃ r, st = { s.stream with reader := r } := fun h =>
    let ⟨r, _, e⟩ := readerCommand_leaves s h st hst
    ⟨r, e⟩
  rcases hi with rfl | rfl | rfl | rfl | rfl | rfl | rfl | rfl | rfl
  · cases hst; simp
  · cases hst; simp
  · obtain ⟨-, rfl⟩ := bwInit_leaves s st hst; simp
  · obtain ⟨r, rfl⟩ := reader (by simp); simp
  · obtain ⟨r, rfl⟩ := reader (by simp); simp
  · obtain ⟨r, rfl⟩ := reader (by simp); simp
  · obtain ⟨id, tbl, rfl⟩ := hufBuild_leaves s st hst
    obtain ⟨hr, hw, hwin⟩ := setTable_frame s.stream id tbl
    simp [hr, hw, hwin]
  · cases hst; simp [loadFixed]
  · obtain ⟨r, rfl⟩ := reader (by simp); simp

/-- Settles O48: the writer grows from where it stands, or from OUT[0] for COMPRESS, and only DEFL_HUFF and COMPRESS
load tables besides. -/
theorem frameOfWritingCommands : Obligations.FrameOfWritingCommands := by
  intro i s t hi _ hexec he
  have hst := streamAfter_of_noError hexec he
  generalize t.stream = st at hst ⊢
  by_cases hc : i = .compress
  · subst hc
    have h := compress_leaves s st hst
    exact ⟨h.reader, h.window, by simp, h.writer.outside⟩
  rw [if_neg hc]
  by_cases hd : i = .deflHuff
  · subst hd
    have h := deflHuff_leaves s st hst
    exact ⟨h.reader, h.window, by simp, h.writer.outside⟩
  · obtain ⟨w, hw, rfl⟩ := writerCommand_leaves s (i := i) (by simpa [hc, hd] using hi) st hst
    exact ⟨rfl, rfl, fun _ => ⟨rfl, rfl, rfl⟩, hw.outside⟩

/-- Settles O49: a block emits from where the writer stands, DECOMPRESS from OUT[0] with nothing pending. -/
theorem frameOfInflaterInstructions : Obligations.FrameOfInflaterInstructions := by
  intro i s t f hi hexec he
  have hst := streamAfter_of_noError hexec he
  generalize t.stream = st at hst ⊢
  by_cases hd : i = .decompress
  · subst hd
    obtain ⟨-, h⟩ := decompress_leaves s st hst
    refine ⟨h.writer.outside, by simp, fun _ => h.pending, by simp, h.reader.lim.trans ?_⟩
    simp [decompressStream, Reader.over, State.a0, State.a1, BitVec.ofNat_add]
  · have hb : i ∈ [Instr.inflBlock, .streamBlockStored f, .streamBlockFixed f, .streamBlockDynamic f,
        .streamBlockReserved f] := by
      simp only [List.mem_cons, List.not_mem_nil, or_false] at hi ⊢
      tauto
    have h := inflaterBlock_leaves s f hb st hst
    rw [if_neg hd, if_neg hd]
    refine ⟨h.writer.outside, fun _ => h.pending, fun e => absurd e hd, ?_, h.reader.lim⟩
    rintro rfl
    exact Yields.map (R := s.stream.SameTables)
      ((storedBlockBody_inflates s.inByte s.stream).mono fun _ h => h.2) st hst

end Sys2Proof.Machine

/-! What a running command does not read: the host's registers, and the latched operands its row of 30_encoding R91
does not name. -/

namespace Sys2Proof.Machine

open Sys2Proof

/-- `f` changes only what the end of a command neither reads nor writes. -/
structure Unread (f : State → State) : Prop where
  complete : ∀ v s, complete v (f s) = f (complete v s)
  raise : ∀ e s, raise e (f s) = f (raise e s)
  clear : ∀ v s, Machine.complete v { f s with error := false, err := none } =
    f (Machine.complete v { s with error := false, err := none })
  stream : ∀ s, (f s).stream = s.stream

/-- A command whose results do not change under `f` ends in the same way under `f`. -/
theorem Unread.conclude {f : State → State} (hf : Unread f) {r r' : Except Err Result} {s t : State} (hr : r' = r)
    (h : conclude r s = .next t) : conclude r' (f s) = .next (f t) := by
  subst hr
  cases r' with
  | ok v => cases h; rw [conclude_ok, hf.complete]
  | error e => cases h; rw [conclude_error, hf.raise]

/-- NOP, RESET_STREAM, BR_ALIGN and HUF_LOAD_FIXED read no operand (30_encoding R91). -/
theorem Unread.noOperand {f : State → State} (hf : Unread f) {i : Instr} {s t : State}
    (hi : i ∈ [Instr.nop, .resetStream, .brAlign, .hufLoadFixed]) (h : exec i s = .next t) :
    exec i (f s) = .next (f t) := by
  simp only [List.mem_cons, List.not_mem_nil, or_false] at hi
  rcases hi with rfl | rfl | rfl | rfl
  · exact hf.conclude (r := .ok ⟨s.stream, 0, 0⟩) (r' := .ok ⟨(f s).stream, 0, 0⟩) (by rw [hf.stream]) h
  · cases h
    rw [← hf.clear, ← hf.stream]
    rfl
  · exact hf.conclude (r := .ok (brAlignBody s)) (r' := .ok (brAlignBody (f s)))
      (by simp only [brAlignBody, hf.stream]) h
  · exact hf.conclude (r := .ok ⟨loadFixed s.stream, 0, 0⟩) (r' := .ok ⟨loadFixed (f s).stream, 0, 0⟩)
      (by rw [hf.stream]) h

theorem readTokens_congr {s s' : State} (h : s'.input = s.input) (a k : Nat) :
    readTokens s' a k = readTokens s a k := by
  induction k generalizing a with
  | zero => rfl
  | succ k ih => simp only [readTokens, h, ih]

/-- DEFL_STORED reads of ARG2 its bit 0 only (43_deflate R252). -/
theorem deflStoredBody_arg2 {s : State} {x : Word} (h : x.getLsbD 0 = s.latch.arg2.getLsbD 0) :
    deflStoredBody { s with latch := { s.latch with arg2 := x } } = deflStoredBody s := by
  have hfinal : State.argFinal { s with latch := { s.latch with arg2 := x } } = s.argFinal := h
  unfold deflStoredBody
  rw [hfinal]
  rfl

/-- DEFL_HUFF reads of ARG2 its bits 0 and 1 only (43_deflate R253). -/
theorem deflHuffBody_arg2 {s : State} {x : Word} (h₀ : x.getLsbD 0 = s.latch.arg2.getLsbD 0)
    (h₁ : x.getLsbD 1 = s.latch.arg2.getLsbD 1) :
    deflHuffBody { s with latch := { s.latch with arg2 := x } } = deflHuffBody s := by
  have hfinal : State.argFinal { s with latch := { s.latch with arg2 := x } } = s.argFinal := h₀
  have hdyn : State.argDyn { s with latch := { s.latch with arg2 := x } } = s.argDyn := h₁
  have htokens := readTokens_congr (s := s) (s' := { s with latch := { s.latch with arg2 := x } }) rfl
  unfold deflHuffBody
  rw [hfinal, hdyn, htokens]
  rfl

/-- Other values in the host's registers of 10_state R24..R27. -/
def State.setRegisters (c : BitVec 5) (m : BitVec 16) (b : BitVec 17) (x y z : Word) (s : State) : State :=
  { s with config := c, maxChain := m, blockTokens := b, arg0 := x, arg1 := y, arg2 := z }

section Registers

variable {c : BitVec 5} {m : BitVec 16} {b : BitVec 17} {x y z : Word} {s t : State}

theorem setRegisters_unread : Unread (State.setRegisters c m b x y z) :=
  ⟨fun _ _ => rfl, fun _ _ => rfl, fun _ _ => rfl, fun _ => rfl⟩

theorem blockEnd_setRegisters (f : Bool) (k : Nat) (st : Stream) :
    blockEnd f k st (s.setRegisters c m b x y z) = (blockEnd f k st s).setRegisters c m b x y z := by
  simp only [blockEnd, apply_ite (State.setRegisters c m b x y z)]
  rfl

theorem concludeBlock_setRegisters {f : Bool} {r : Except Err (Nat × Stream)} (h : concludeBlock f r s = .next t) :
    concludeBlock f r (s.setRegisters c m b x y z) = .next (t.setRegisters c m b x y z) := by
  rcases r with e | ⟨k, st⟩
  · cases h; rfl
  · rw [concludeBlock_ok] at h ⊢
    cases h
    rw [blockEnd_setRegisters]

/-- No instruction reads or changes the host's registers (10_state R42, 70_reset R387). -/
theorem exec_setRegisters {i : Instr} (h : exec i s = .next t) :
    exec i (s.setRegisters c m b x y z) = .next (t.setRegisters c m b x y z) := by
  cases i with
  | nop | resetStream | brAlign | hufLoadFixed => exact setRegisters_unread.noOperand (by simp) h
  | deflHuff =>
    have htokens := readTokens_congr (s := s) (s' := s.setRegisters c m b x y z) rfl
    refine setRegisters_unread.conclude ?_ h
    unfold deflHuffBody
    rw [htokens]
    rfl
  | bwInit | bwWriteBits | bwFlush | brInit | brReadBits | hufBuild | hufDecode | hufEncode | lzScan | deflStored
  | compress | inflBlock | decompress => exact setRegisters_unread.conclude rfl h
  | streamBlockStored | streamBlockFixed | streamBlockDynamic => exact concludeBlock_setRegisters h
  | streamBlockReserved f => exact concludeBlock_setRegisters (f := f) (r := .error .invalidBlockType) h

end Registers

theorem latchArg0_unread (x : Word) : Unread (fun s => { s with latch := { s.latch with arg0 := x } }) :=
  ⟨fun _ _ => rfl, fun _ _ => rfl, fun _ _ => rfl, fun _ => rfl⟩

theorem latchArg1_unread (x : Word) : Unread (fun s => { s with latch := { s.latch with arg1 := x } }) :=
  ⟨fun _ _ => rfl, fun _ _ => rfl, fun _ _ => rfl, fun _ => rfl⟩

theorem latchArg2_unread (x : Word) : Unread (fun s => { s with latch := { s.latch with arg2 := x } }) :=
  ⟨fun _ _ => rfl, fun _ _ => rfl, fun _ _ => rfl, fun _ => rfl⟩

/-- Settles O8: what each command computes its results from does not name the operand, so it ends in the same way. -/
theorem onlyTheLatchedOperandsAreRead : Obligations.OnlyTheLatchedOperandsAreRead := by
  refine ⟨fun i s t c m b x y z h => exec_setRegisters h, ?_, ?_, ?_⟩
  · rintro s t x i (⟨rfl, h₀⟩ | ⟨rfl, h₀, h₁⟩ | hi) h
    · exact (latchArg2_unread x).conclude (deflStoredBody_arg2 h₀) h
    · exact (latchArg2_unread x).conclude (deflHuffBody_arg2 h₀ h₁) h
    · cases i with
      | nop | resetStream | brAlign | hufLoadFixed => exact (latchArg2_unread x).noOperand (by simp) h
      | bwInit | bwWriteBits | bwFlush | brInit | brReadBits | hufDecode | hufEncode | lzScan | compress | inflBlock
      | decompress => exact (latchArg2_unread x).conclude rfl h
      | _ => simp at hi
  · intro s t x i hi h
    cases i with
    | nop | resetStream | brAlign | hufLoadFixed => exact (latchArg1_unread x).noOperand (by simp) h
    | bwInit | bwFlush | brReadBits | hufDecode | inflBlock => exact (latchArg1_unread x).conclude rfl h
    | _ => simp at hi
  · intro s t x i hi h
    cases i with
    | nop | resetStream | brAlign | hufLoadFixed => exact (latchArg0_unread x).noOperand (by simp) h
    | bwFlush | inflBlock => exact (latchArg0_unread x).conclude rfl h
    | _ => simp at hi

end Sys2Proof.Machine

/-! The register block as the host reads and writes it. -/

namespace Sys2Proof.Machine

open Sys2Proof

/-- A field in the low bits of a register reads back as itself. -/
theorem extract_setWidth_low {n : Nat} (x : BitVec n) (hn : n ≤ 32) : (x.setWidth 32).extractLsb' 0 n = x := by
  rw [BitVec.extractLsb'_setWidth_of_le (by omega), BitVec.extractLsb'_eq_self]

/-- The bits of a register above its field read as 0. -/
theorem extract_setWidth_high {n k : Nat} (x : BitVec n) : (x.setWidth 32).extractLsb' n k = 0 := by
  ext i hi
  simp

theorem statusWord_bits (s : State) :
    (statusWord s).getLsbD 0 = s.busy ∧ (statusWord s).getLsbD 1 = s.done ∧ (statusWord s).getLsbD 2 = s.error ∧
      (statusWord s).extractLsb' 3 29 = 0 := by
  unfold statusWord
  generalize s.busy = b, s.done = d, s.error = e
  revert b d e
  decide

/-- BW_STATE holds ACC below CNT (10_state R32). -/
theorem extract_bwState (acc : BitVec 8) (cnt : BitVec 4) :
    ((cnt ++ acc).setWidth 32).extractLsb' 0 8 = acc ∧ ((cnt ++ acc).setWidth 32).extractLsb' 8 4 = cnt :=
  ⟨by rw [BitVec.extractLsb'_setWidth_of_le (by decide), BitVec.extractLsb'_append_eq_right],
    by rw [BitVec.extractLsb'_setWidth_of_le (by decide), BitVec.extractLsb'_append_eq_left]⟩

theorem errWord_high (e : Option Err) : (errWord e).extractLsb' 4 28 = 0 := by
  rcases e with _ | e
  · rfl
  · cases e <;> rfl

theorem errWord_eq_zero (e : Option Err) : e = none ↔ errWord e = 0 := by
  rcases e with _ | e
  · exact ⟨fun _ => rfl, fun _ => rfl⟩
  · cases e <;> decide

/-- IN_SIZE and OUT_CAP fit a register (00_scope R10). -/
theorem ofNat_toNat_of_le {n : Nat} (h : n ≤ 2 ^ 31) : (BitVec.ofNat 32 n).toNat = n := by
  rw [BitVec.toNat_ofNat]; omega

theorem regRefusal_none {off : Nat} (h4 : off % 4 = 0) (hb : off < 0x100) : regRefusal off .word = none := by
  rw [regRefusal, if_neg (by simp), if_neg (by omega), if_neg (by omega)]

theorem regRefusal_some {off : Nat} {w : Width} (h : w ≠ .word ∨ off % 4 ≠ 0 ∨ 0x100 ≤ off) :
    ∃ r ∈ [Refusal.registerWidth, .registerUnaligned, .registerOutsideBlock], regRefusal off w = some r := by
  unfold regRefusal
  split_ifs with hw h4 hb
  · exact ⟨_, by simp, rfl⟩
  · exact ⟨_, by simp, rfl⟩
  · exact ⟨_, by simp, rfl⟩
  · tauto

theorem unspecifiedWhileBusy_iff (off : Nat) :
    unspecifiedWhileBusy off = true ↔ off ∈ [0x030, 0x034, 0x038, 0x03C, 0x040, 0x044, 0x048, 0x04C] := by
  simp [unspecifiedWhileBusy, or_assoc]

/-- A read of a register whose value is specified returns it (10_state R20..R35, 70_reset R389). -/
theorem hostRead_reg {s : State} {off : Nat} (h4 : off % 4 = 0) (hb : off < 0x100)
    (h : s.busy = false ∨ off ∉ [0x030, 0x034, 0x038, 0x03C, 0x040, 0x044, 0x048, 0x04C]) :
    hostRead .reg off .word s = .next { s with readData := readReg s off } := by
  have hs : (s.busy && unspecifiedWhileBusy off) = false := by
    rw [← unspecifiedWhileBusy_iff] at h
    rcases h with h | h <;> simp [h]
  simp [hostRead, regRefusal_none h4 hb, hs]

theorem readReg_other {s : State} {off : Nat}
    (h : off ∉ [0x000, 0x004, 0x008, 0x00C, 0x010, 0x014, 0x018, 0x020, 0x024, 0x028, 0x030, 0x034, 0x038, 0x03C, 0x040,
         0x044, 0x048, 0x04C, 0x050, 0x054]) : readReg s off = 0 := by
  simp only [List.mem_cons, List.not_mem_nil, or_false, not_or] at h
  simp [readReg, h]

/-- Settles O50: each offset reads the field of the state that 10_state gives it. -/
theorem registerReads : Obligations.RegisterReads := by
  refine ⟨fun s off h4 hb => ⟨hostRead_reg h4 hb, ?_⟩, fun sp i w s t h => hostRead_next h⟩
  refine ⟨?_, ?_, ?_, ?_, ?_, ?_, ?_, ?_, ?_, ?_, ?_, ?_, ?_, ?_, ?_, ?_, ?_, ?_, ?_, ?_, readReg_other⟩
  all_goals rintro rfl
  · rfl
  · rfl
  · exact statusWord_bits s
  · refine ⟨errWord_high s.err, errWord_eq_zero s.err, ?_, ?_, ?_, ?_, ?_, ?_, ?_, ?_⟩ <;>
      (intro h; simp [readReg, h, errWord, Err.code])
  · exact ⟨extract_setWidth_low s.config (by decide), extract_setWidth_high s.config⟩
  · exact ⟨extract_setWidth_low s.maxChain (by decide), extract_setWidth_high s.maxChain⟩
  · exact ⟨extract_setWidth_low s.blockTokens (by decide), extract_setWidth_high s.blockTokens⟩
  · rfl
  · rfl
  · rfl
  · rfl
  · rfl
  · rfl
  · rfl
  · exact ⟨extract_setWidth_low s.stream.reader.bit (by decide), extract_setWidth_high s.stream.reader.bit⟩
  · rfl
  · obtain ⟨hacc, hcnt⟩ := extract_bwState s.stream.writer.acc s.stream.writer.cnt
    exact ⟨hacc, hcnt, extract_setWidth_high _⟩
  · rfl
  · exact ofNat_toNat_of_le s.params.inSize_bounds.2
  · exact ofNat_toNat_of_le s.params.outCap_bounds.2

theorem hostWrite_reg {s : State} {off : Nat} (v : Word) (h4 : off % 4 = 0) (hb : off < 0x100) :
    hostWrite .reg off .word v s = writeReg off v s := by
  simp [hostWrite, regRefusal_none h4 hb]

theorem writeReg_other {s : State} {off : Nat} (v : Word)
    (h : off ∉ [0x004, 0x008, 0x010, 0x014, 0x018, 0x020, 0x024, 0x028]) : writeReg off v s = .next s := by
  simp only [List.mem_cons, List.not_mem_nil, or_false, not_or] at h
  simp [writeReg, h]

/-- Settles O51: each writable offset stores its field, every other one but CMD nothing. -/
theorem registerWrites : Obligations.RegisterWrites := by
  refine ⟨fun s off v h4 hb => ?_, fun s off w v h => ?_⟩
  · rw [hostWrite_reg v h4 hb]
    refine ⟨?_, ?_, ?_, ?_, ?_, ?_, ?_, writeReg_other v⟩
    all_goals rintro rfl
    · rfl
    · rw [← BitVec.setWidth_eq_extractLsb' (by decide)]; rfl
    · rw [← BitVec.setWidth_eq_extractLsb' (by decide)]; rfl
    · exact ⟨_, rfl, rfl, clampBlockTokens_toNat v⟩
    · rfl
    · rfl
    · rfl
  · obtain ⟨r, hr, e⟩ := regRefusal_some h
    exact ⟨r, hr, by simp [hostRead, e], by simp [hostWrite, e]⟩

end Sys2Proof.Machine

/-! IN and OUT as the host reads and writes them: little-endian and within their bounds. -/

namespace Sys2Proof.Machine

open Sys2Proof

theorem Width.bytes_le (w : Width) : w.bytes ≤ 4 := by cases w <;> decide

/-- The number of `n` bytes, as the memories count it and as a register's bits do. -/
theorem pow_bytes (n : Nat) : 256 ^ n = 2 ^ (8 * n) := by rw [Nat.pow_mul]

/-! ### The bytes of a little-endian number -/

theorem Memory.readLE_lt (what : Unspecified) (m : Memory) (a n : Nat) : m.readLE what a n < 256 ^ n := by
  induction n generalizing a with
  | zero => simp [Memory.readLE]
  | succ n ih =>
    have hbyte := (m.read what a).isLt
    have hrest := ih (a + 1)
    rw [Memory.readLE, Nat.pow_succ]
    omega

theorem Memory.readLE_digit (what : Unspecified) (m : Memory) (a : Nat) {k n : Nat} (hk : k < n) :
    m.readLE what a n / 256 ^ k % 256 = (m.read what (a + k)).toNat := by
  induction n generalizing a k with
  | zero => omega
  | succ n ih =>
    have hbyte := (m.read what a).isLt
    cases k with
    | zero => rw [Memory.readLE, Nat.pow_zero, Nat.div_one, Nat.add_zero a]; omega
    | succ k =>
      have htail : m.readLE what a (n + 1) / 256 = m.readLE what (a + 1) n := by rw [Memory.readLE]; omega
      rw [Nat.pow_succ', ← Nat.div_div_eq_div_mul, htail, ih (a + 1) (by omega), Nat.add_right_comm, Nat.add_assoc]

theorem Memory.read_writeLE_digit (what : Unspecified) (m : Memory) (a v : Nat) {k n : Nat} (hk : k < n) :
    (m.writeLE a n v).read what (a + k) = BitVec.ofNat 8 (v / 256 ^ k) := by
  induction n generalizing m a v k with
  | zero => omega
  | succ n ih =>
    cases k with
    | zero =>
      rw [Memory.writeLE, Nat.add_zero a, Memory.read_writeLE_other what _ (by omega), Memory.read_write_same,
        Nat.pow_zero, Nat.div_one]
    | succ k =>
      have htail := ih (m.write a (BitVec.ofNat 8 v)) (a + 1) (v / 256) (k := k) (by omega)
      rw [Memory.writeLE, Nat.pow_succ', ← Nat.div_div_eq_div_mul, ← htail, Nat.add_right_comm, Nat.add_assoc]

/-- Byte `k` of a word is its base-256 digit `k`. -/
theorem extractByte_eq_digit (x : Word) (k : Nat) : x.extractLsb' (8 * k) 8 = BitVec.ofNat 8 (x.toNat / 256 ^ k) := by
  apply BitVec.eq_of_toNat_eq
  rw [BitVec.extractLsb'_toNat, BitVec.toNat_ofNat, Nat.shiftRight_eq_div_pow, pow_bytes]

/-- Up to four bytes fit the word a host read returns. -/
theorem Memory.readLE_toNat (what : Unspecified) (m : Memory) (a : Nat) {n : Nat} (hn : n ≤ 4) :
    (BitVec.ofNat 32 (m.readLE what a n)).toNat = m.readLE what a n := by
  have hfit : 256 ^ n ≤ 256 ^ 4 := Nat.pow_le_pow_right (by decide) hn
  have hlt := m.readLE_lt what a n
  rw [BitVec.toNat_ofNat]
  omega

/-- The word a host read returns holds the memory's bytes little-endian, and 0 above them (20_memory R64). -/
theorem Memory.readLE_word (what : Unspecified) (m : Memory) (a : Nat) {n : Nat} (hn : n ≤ 4) :
    (∀ k < n, (BitVec.ofNat 32 (m.readLE what a n)).extractLsb' (8 * k) 8 = m.read what (a + k)) ∧
      (BitVec.ofNat 32 (m.readLE what a n)).toNat < 2 ^ (8 * n) := by
  refine ⟨fun k hk => ?_, ?_⟩
  · apply BitVec.eq_of_toNat_eq
    rw [extractByte_eq_digit, m.readLE_toNat what a hn, BitVec.toNat_ofNat, m.readLE_digit what a hk]
  · rw [m.readLE_toNat what a hn, ← pow_bytes]
    exact m.readLE_lt what a n

/-! ### The accesses (20_memory R62, R63, 70_reset R388) -/

section Accesses

variable {s : State} {i : Nat} {w : Width}

theorem access_inp_outOfRange (v : Word) (h : s.params.inSize < i + w.bytes) :
    hostWrite .inp i w v s = .refused .inOutOfRange ∧ hostRead .inp i w s = .refused .inOutOfRange :=
  ⟨if_pos h, if_pos h⟩

theorem access_out_outOfRange (v : Word) (h : s.params.outCap < i + w.bytes) :
    hostWrite .out i w v s = .refused .outOutOfRange ∧ hostRead .out i w s = .refused .outOutOfRange :=
  ⟨if_pos h, if_pos h⟩

theorem hostRead_inp (h : i + w.bytes ≤ s.params.inSize) :
    hostRead .inp i w s = .next { s with readData := BitVec.ofNat 32 (s.input.readLE .inByte i w.bytes) } :=
  if_neg (Nat.not_lt.2 h)

theorem hostRead_out (h : i + w.bytes ≤ s.params.outCap) (hb : s.busy = false) :
    hostRead .out i w s =
      .next { s with readData := BitVec.ofNat 32 (s.stream.writer.out.readLE .outByte i w.bytes) } := by
  rw [hostRead, if_neg (Nat.not_lt.2 h), hb, if_neg Bool.false_ne_true]

theorem hostWrite_inp_busy (v : Word) (h : i + w.bytes ≤ s.params.inSize) (hb : s.busy = true) :
    hostWrite .inp i w v s = .refused .inWriteWhileBusy := by
  rw [hostWrite, if_neg (Nat.not_lt.2 h), if_pos hb]

theorem hostWrite_inp (v : Word) (h : i + w.bytes ≤ s.params.inSize) (hb : s.busy = false) :
    hostWrite .inp i w v s = .next { s with input := s.input.writeLE i w.bytes v.toNat } := by
  rw [hostWrite, if_neg (Nat.not_lt.2 h), hb, if_neg Bool.false_ne_true]

theorem hostWrite_out (v : Word) (h : i + w.bytes ≤ s.params.outCap) : hostWrite .out i w v s = .next s :=
  if_neg (Nat.not_lt.2 h)

/-- What the host wrote to IN, a read of the same width there returns. -/
theorem hostRead_inp_written (v : Word) (h : i + w.bytes ≤ s.params.inSize) :
    hostRead .inp i w { s with input := s.input.writeLE i w.bytes v.toNat } =
      .next { s with
        input := s.input.writeLE i w.bytes v.toNat
        readData := BitVec.ofNat 32 (v.toNat % 2 ^ (8 * w.bytes)) } := by
  rw [hostRead_inp (by exact h), Memory.readLE_writeLE, pow_bytes]

end Accesses

/-- Settles O52: an access is the little-endian read or write of its memory, within its bounds. -/
theorem memoryAccessByTheHost : Obligations.MemoryAccessByTheHost := by
  refine ⟨fun s i w v => ⟨access_inp_outOfRange v, fun h => ?_, hostWrite_inp_busy v, fun h hb => ?_⟩,
    fun s i w v => ⟨access_out_outOfRange v, fun h => ⟨hostWrite_out v h, fun hb => ?_⟩⟩⟩
  · exact ⟨_, hostRead_inp h, s.input.readLE_word .inByte i w.bytes_le⟩
  · refine ⟨_, hostWrite_inp v h hb, fun k hk => ?_, fun a ha => ?_, hostRead_inp_written v h⟩
    · rw [Memory.read_writeLE_digit .inByte _ _ _ hk, extractByte_eq_digit]
    · exact Memory.read_writeLE_other .inByte _ ha
  · exact ⟨_, hostRead_out h hb, s.stream.writer.out.readLE_word .outByte i w.bytes_le⟩

end Sys2Proof.Machine

/-! The encodings are one to one: instructions and code words (30_encoding R90..R93, R101, R102), well-formed tokens and
token records (R97). -/

namespace Sys2Proof

/-! ### Bits and fields of a word as numbers -/

theorem getLsbD_iff_div_mod {n : Nat} (w : BitVec n) (i : Nat) : w.getLsbD i = true ↔ w.toNat / 2 ^ i % 2 = 1 := by
  rw [← BitVec.testBit_toNat, Nat.testBit_eq_decide_div_mod_eq, decide_eq_true_iff]

theorem toNat_field {n : Nat} (w : BitVec n) (i k : Nat) : (w.extractLsb' i k).toNat = w.toNat / 2 ^ i % 2 ^ k := by
  rw [BitVec.extractLsb'_toNat, Nat.shiftRight_eq_div_pow]

theorem field_eq_zero_iff {n : Nat} (w : BitVec n) (i k : Nat) :
    w.extractLsb' i k = 0 ↔ w.toNat / 2 ^ i % 2 ^ k = 0 := by
  rw [← BitVec.toNat_inj, toNat_field]
  rfl

/-! ### Command words -/

/-- Without RSVD bits a command word is its opcode. -/
theorem setWidth_opcodeOf {w : Word} (h : rsvdOf w = 0) : (opcodeOf w).setWidth 32 = w := by
  have hr : w.toNat / 256 % 16777216 = 0 := (field_eq_zero_iff w 8 24).1 h
  refine BitVec.eq_of_toNat_eq ?_
  rw [opcodeOf, BitVec.toNat_setWidth, toNat_field]
  omega

theorem encode_of_mem_opcodeTable : ∀ row ∈ opcodeTable, encode row.2 = .cmd (row.1.setWidth 32) := by decide

/-- The decoder accepts a word only by a row of the opcode table. -/
theorem decodeCmd_ok {w : Word} {i : Instr} (h : decodeCmd w = .ok i) :
    rsvdOf w = 0 ∧ (opcodeOf w, i) ∈ opcodeTable := by
  unfold decodeCmd at h
  split at h
  next hr =>
    split at h
    next row hrow =>
      have hop : row.1 = opcodeOf w := by simpa using List.find?_some hrow
      cases h
      exact ⟨hr, hop ▸ List.mem_of_find?_eq_some hrow⟩
    next => cases h
  next => cases h

theorem encode_of_decodeCmd {w : Word} {i : Instr} (h : decodeCmd w = .ok i) : encode i = .cmd w := by
  obtain ⟨hr, hrow⟩ := decodeCmd_ok h
  rw [encode_of_mem_opcodeTable _ hrow, setWidth_opcodeOf hr]

/-! ### Block headers -/

theorem headerBits_fields : ∀ h : BitVec 3, headerBits (h.getLsbD 0) (h.extractLsb' 1 2) = h := by decide

/-- Each BTYPE decodes to its block, which encodes with that BTYPE. -/
theorem encode_decodeHeader (h : BitVec 3) : encode (decodeHeader h) = .header h := by
  have hfields := headerBits_fields h
  unfold decodeHeader
  split_ifs with h0 h1 h2
  · exact congrArg Code.header (h0 ▸ hfields)
  · exact congrArg Code.header (h1 ▸ hfields)
  · exact congrArg Code.header (h2 ▸ hfields)
  · have h3 : h.extractLsb' 1 2 = 3#2 := by bv_omega
    exact congrArg Code.header (h3 ▸ hfields)

/-! ### Code words -/

open Laws.RoundTrip in
theorem decode_encode : ∀ i : Instr, decode (encode i) = .ok i
  | .nop => nop.2
  | .resetStream => resetStream.2
  | .bwInit => bwInit.2
  | .bwWriteBits => bwWriteBits.2
  | .bwFlush => bwFlush.2
  | .brInit => brInit.2
  | .brReadBits => brReadBits.2
  | .brAlign => brAlign.2
  | .hufBuild => hufBuild.2
  | .hufLoadFixed => hufLoadFixed.2
  | .hufDecode => hufDecode.2
  | .hufEncode => hufEncode.2
  | .lzScan => lzScan.2
  | .deflStored => deflStored.2
  | .deflHuff => deflHuff.2
  | .compress => compress.2
  | .inflBlock => inflBlock.2
  | .decompress => decompress.2
  | .streamBlockStored f => (streamBlockStored f).2
  | .streamBlockFixed f => (streamBlockFixed f).2
  | .streamBlockDynamic f => (streamBlockDynamic f).2
  | .streamBlockReserved f => (streamBlockReserved f).2

theorem encode_of_decode : ∀ {c : Code} {i : Instr}, decode c = .ok i → encode i = c
  | .cmd _, _, h => encode_of_decodeCmd h
  | .header x, _, h => by cases h; exact encode_decodeHeader x

/-- Settles O1: the decoder is a left inverse of the encoder, and accepts no code word but an encoding. -/
theorem encodeDecodeAgree : Obligations.EncodeDecodeAgree := by
  refine fun c i => ⟨encode_of_decode, fun h => ?_⟩
  rw [← h, decode_encode]

/-- Settles O3: each word decodes by evaluation of the two tables. -/
theorem specWordsDecode : Obligations.SpecWordsDecode := by
  unfold Obligations.SpecWordsDecode
  decide

/-! ### Token records -/

theorem tokenRecord_lit_toNat (b : Byte) : (tokenRecord (.lit b)).toNat = b.toNat :=
  BitVec.toNat_setWidth_of_le (by decide)

/-- The three fields of a match's record do not overlap, so their disjunction is a sum. -/
theorem tokenRecord_mtch_toNat {l d : Nat} (hl : l ≤ 258) (hd : d ≤ 32768) :
    (tokenRecord (.mtch l d)).toNat = 0x80000000 + (0x10000 * (l - 3) + (d - 1)) := by
  have hlow : 0x10000 * (l - 3) ||| (d - 1) = 0x10000 * (l - 3) + (d - 1) :=
    (Nat.two_pow_add_eq_or_of_lt (i := 16) (by omega) _).symm
  have hhigh : 0x80000000 ||| (0x10000 * (l - 3) + (d - 1)) = 0x80000000 + (0x10000 * (l - 3) + (d - 1)) :=
    (Nat.two_pow_add_eq_or_of_lt (i := 31) (by omega) 1).symm
  have hl32 : (BitVec.ofNat 32 (l - 3) <<< 16).toNat = 0x10000 * (l - 3) := by
    rw [BitVec.toNat_shiftLeft, BitVec.toNat_ofNat, Nat.shiftLeft_eq]; omega
  have hd32 : (BitVec.ofNat 32 (d - 1)).toNat = d - 1 := by rw [BitVec.toNat_ofNat]; omega
  rw [tokenRecord, BitVec.toNat_or, BitVec.toNat_or, hl32, hd32, Nat.or_assoc, hlow]
  exact hhigh

theorem Token.wf_mtch_iff (l d : Nat) : (Token.mtch l d).wf = true ↔ (3 ≤ l ∧ l ≤ 258) ∧ 1 ≤ d ∧ d ≤ 32768 := by
  simp [Token.wf, and_assoc]

section Fields

variable (w : Word)

theorem bit31_iff : w.getLsbD 31 = true ↔ w.toNat / 2147483648 % 2 = 1 := getLsbD_iff_div_mod w 31
theorem bit15_iff : w.getLsbD 15 = true ↔ w.toNat / 32768 % 2 = 1 := getLsbD_iff_div_mod w 15
theorem bits30_24_eq_zero_iff : w.extractLsb' 24 7 = 0 ↔ w.toNat / 16777216 % 128 = 0 := field_eq_zero_iff w 24 7
theorem bits30_8_eq_zero_iff : w.extractLsb' 8 23 = 0 ↔ w.toNat / 256 % 8388608 = 0 := field_eq_zero_iff w 8 23

/-- The literal of a record: bit 31 and bits 30:8 are 0. -/
theorem tokenOf_eq_lit_iff (b : Byte) : tokenOf w = some (.lit b) ↔ w.toNat = b.toNat := by
  have hb : w.extractLsb' 0 8 = b ↔ w.toNat % 256 = b.toNat := by
    rw [← BitVec.toNat_inj, BitVec.extractLsb'_toNat, Nat.shiftRight_zero]
  have hw := w.isLt
  unfold tokenOf
  simp only [bit31_iff, bits30_8_eq_zero_iff, ne_eq]
  split_ifs with h31 hbad h8
  · rw [false_iff]; omega
  · simp only [Option.some.injEq, reduceCtorEq, false_iff]; omega
  · rw [Option.some.injEq, Token.lit.injEq, hb]; omega
  · rw [false_iff]; omega

/-- The match of a record: bit 31 is 1, bits 30:24 and bit 15 are 0. -/
theorem tokenOf_eq_mtch_iff (l d : Nat) :
    tokenOf w = some (.mtch l d) ↔
      ((3 ≤ l ∧ l ≤ 258) ∧ 1 ≤ d ∧ d ≤ 32768) ∧ w.toNat = 0x80000000 + (0x10000 * (l - 3) + (d - 1)) := by
  have hl : (w.extractLsb' 16 8).toNat = w.toNat / 65536 % 256 := toNat_field w 16 8
  have hd : (w.extractLsb' 0 15).toNat = w.toNat % 32768 := by
    rw [BitVec.extractLsb'_toNat, Nat.shiftRight_zero]
  have hw := w.isLt
  unfold tokenOf
  simp only [bit31_iff, bit15_iff, bits30_24_eq_zero_iff, ne_eq, hl, hd]
  split_ifs with h31 hbad h8
  · rw [false_iff]; omega
  · rw [Option.some.injEq, Token.mtch.injEq]; omega
  · simp only [Option.some.injEq, reduceCtorEq, false_iff]; omega
  · rw [false_iff]; omega

/-- A record is well-formed exactly where TokenOf raises nothing: the two check the same fields. -/
theorem recordWf_eq_isSome : recordWf w = (tokenOf w).isSome := by
  unfold recordWf tokenOf
  split
  · by_cases hres : w.extractLsb' 24 7 = 0#7
    · cases w.getLsbD 15 <;> simp [hres]
    · simp [hres]
  · by_cases hres : w.extractLsb' 8 23 = 0#23 <;> simp [hres]

end Fields

theorem tokenOf_eq_some_iff (w : Word) : ∀ t : Token, tokenOf w = some t ↔ t.wf = true ∧ tokenRecord t = w
  | .lit b => by
    rw [tokenOf_eq_lit_iff, ← BitVec.toNat_inj, tokenRecord_lit_toNat]
    exact ⟨fun h => ⟨rfl, h.symm⟩, fun h => h.2.symm⟩
  | .mtch l d => by
    rw [tokenOf_eq_mtch_iff, Token.wf_mtch_iff]
    refine and_congr_right fun ⟨⟨_, hl⟩, _, hd⟩ => ?_
    rw [← BitVec.toNat_inj, tokenRecord_mtch_toNat hl hd, eq_comm]

/-- Settles O2: a record decodes to a token exactly when the token is well-formed and it is its record. -/
theorem tokenRecordsAgree : Obligations.TokenRecordsAgree :=
  ⟨fun t ht => (tokenOf_eq_some_iff _ t).2 ⟨ht, rfl⟩, fun w t => (tokenOf_eq_some_iff w t).1, recordWf_eq_isSome⟩

end Sys2Proof

/-! An illegal CMD word: dropped, or started and completed with InvalidCommand (30_encoding R93, 45_control R322). -/

namespace Sys2Proof.Machine

open Sys2Proof

/-! ### Illegal words -/

/-- A word that decodes has no RSVD bits and an opcode of 30_encoding R91. -/
theorem assigned_of_decodeCmd {w : Word} {i : Instr} (h : decodeCmd w = .ok i) :
    rsvdOf w = 0 ∧ opcodeOf w ∈ opcodeTable.map Prod.fst :=
  have ⟨hr, hrow⟩ := decodeCmd_ok h
  ⟨hr, List.mem_map_of_mem hrow⟩

theorem decodeCmd_error_of_illegal {w : Word} (h : rsvdOf w ≠ 0 ∨ opcodeOf w ∉ opcodeTable.map Prod.fst) :
    ∃ e, decodeCmd w = .error e := by
  cases hd : decodeCmd w with
  | error e => exact ⟨e, rfl⟩
  | ok i =>
    obtain ⟨hr, hop⟩ := assigned_of_decodeCmd hd
    exact absurd hop (h.resolve_left (absurd hr))

section Lifecycle

variable {w : Word} {s : State} {e : DecodeError}

/-- An illegal word is no instruction's code word. -/
theorem ne_of_decodeCmd_error {v : Word} (i : Instr) (hi : encode i = .cmd v) (hw : decodeCmd w = .error e) :
    w ≠ v := by
  rintro rfl
  have hok : decodeCmd w = .ok i := by rw [← decode_encode i, hi]; rfl
  cases hw.symm.trans hok

/-! ### A CMD write and a turn of the core -/

theorem cmdDropped_of_busy (h : s.busy = true) : cmdDropped w s = true := by simp [cmdDropped, h]

/-- While ERROR = 1 every word but NOP's and RESET_STREAM's is dropped (45_control R323). -/
theorem cmdDropped_of_error (h : s.error = true) (h0 : w ≠ 0#32) (h1 : w ≠ 1#32) : cmdDropped w s = true := by
  simp [cmdDropped, h, h0, h1]

theorem cmdDropped_of_ready (hb : s.busy = false) (he : s.error = false) : cmdDropped w s = false := by
  simp [cmdDropped, hb, he]

theorem writeCmd_dropped (h : cmdDropped w s = true) : writeCmd w s = .next s := if_pos h

theorem writeCmd_atomic (h : cmdDropped w s = false) (hp : s.params.exposeBusy = false) :
    writeCmd w s = runLatched (start w s) := by
  simp [writeCmd, h, hp]

theorem writeCmd_exposed (h : cmdDropped w s = false) (hp : s.params.exposeBusy = true) :
    writeCmd w s = .next (start w s) := by
  simp [writeCmd, h, hp]

/-- A started command other than INFL_BLOCK and DECOMPRESS completes in one turn (log 8). -/
theorem coreTurn_started (h : s.run = .started) (hi : s.latch.word ≠ 0x40#32) (hd : s.latch.word ≠ 0x48#32) :
    coreTurn s = runLatched s := by
  simp [coreTurn, h, hi, hd]

theorem runLatched_illegal (h : decodeCmd s.latch.word = .error e) : runLatched s = .next (raiseIllegalWord s) := by
  simp [runLatched, h]

end Lifecycle

/-- Settles O4: an illegal word decodes to no instruction, so it is dropped, or its start is followed by the error
completion of an illegal word. -/
theorem illegalWordIsInvalidCommand : Obligations.IllegalWordIsInvalidCommand := by
  intro w s hw
  obtain ⟨e, he⟩ := decodeCmd_error_of_illegal hw
  have hrun : runLatched (start w s) = .next (raiseIllegalWord (start w s)) := runLatched_illegal he
  refine ⟨fun h => writeCmd_dropped ?_, fun hb her hp => ?_, fun hb her hp => ⟨?_, ?_⟩⟩
  · exact h.elim cmdDropped_of_busy fun her =>
      cmdDropped_of_error her (ne_of_decodeCmd_error .nop rfl he) (ne_of_decodeCmd_error .resetStream rfl he)
  · exact (writeCmd_atomic (cmdDropped_of_ready hb her) hp).trans hrun
  · exact writeCmd_exposed (cmdDropped_of_ready hb her) hp
  · have hturn : coreTurn (start w s) = runLatched (start w s) :=
      coreTurn_started (start_run w s) (ne_of_decodeCmd_error .inflBlock rfl he)
        (ne_of_decodeCmd_error .decompress rfl he)
    exact hturn.trans hrun

end Sys2Proof.Machine

/-! The commands of the bit writer and the bit reader: the results each completes with, or the error it raises
(40_bitstream R142..R146, R151..R155). -/

namespace Sys2Proof.Machine

open Sys2Proof

section BitStreamCommands

variable {s : State}

/-! ### From a command's pseudocode to its completion -/

theorem conclude_of_ok {r : Except Err Result} {v : Result} (h : r = .ok v) : conclude r s = .next (complete v s) := by
  rw [h, conclude_ok]

theorem conclude_of_error {r : Except Err Result} {e : Err} (h : r = .error e) : conclude r s = .next (raise e s) := by
  rw [h, conclude_error]

/-! ### BW_INIT and BR_INIT -/

theorem bwInitBody_invalid (h : s.params.outCap < s.a0) : bwInitBody s = .error .invalidRange := by
  simp [bwInitBody, h]

theorem bwInitBody_ok (h : s.a0 ≤ s.params.outCap) :
    bwInitBody s =
      .ok ⟨{ s.stream with writer := { s.stream.writer with outPos := s.latch.arg0, acc := 0, cnt := 0 } }, 0, 0⟩ := by
  simp [bwInitBody, Nat.not_lt.2 h]

/-- The reader over the latched range, its end written as the unbounded sum (40_bitstream R153). -/
theorem Reader.over_operands (s : State) :
    Reader.over s.latch.arg0 s.latch.arg1 = ⟨BitVec.ofNat 32 s.a0, BitVec.ofNat 32 (s.a0 + s.a1), 0⟩ := by
  simp [Reader.over, State.a0, State.a1, BitVec.ofNat_add]

theorem brInitBody_invalid (h : s.params.inSize < s.a0 + s.a1) : brInitBody s = .error .invalidRange := by
  simp [brInitBody, checkRange_error h]

theorem brInitBody_ok (h : s.a0 + s.a1 ≤ s.params.inSize) :
    brInitBody s =
      .ok ⟨{ s.stream with reader := ⟨BitVec.ofNat 32 s.a0, BitVec.ofNat 32 (s.a0 + s.a1), 0⟩ }, 0, 0⟩ := by
  simp [brInitBody, checkRange_ok h, Reader.over_operands]

/-! ### BW_WRITE_BITS and BW_FLUSH -/

theorem bwWriteBitsBody_invalid (h : 32 < s.a1) : bwWriteBitsBody s = .error .invalidCommand := by
  simp [bwWriteBitsBody, h]

/-- With n ≤ 32, BW_WRITE_BITS ends as WriteBits(v, n) ends (40_bitstream R145). -/
theorem bwWriteBitsBody_ok {w : Writer} (hn : s.a1 ≤ 32)
    (h : writeBits s.params.outCap s.a0 s.a1 s.stream.writer = .ok w) :
    bwWriteBitsBody s = .ok ⟨{ s.stream with writer := w }, 0, 0⟩ := by
  simp [bwWriteBitsBody, Nat.not_lt.2 hn, h]

theorem bwWriteBitsBody_error {e : Err} (hn : s.a1 ≤ 32)
    (h : writeBits s.params.outCap s.a0 s.a1 s.stream.writer = .error e) : bwWriteBitsBody s = .error e := by
  simp [bwWriteBitsBody, Nat.not_lt.2 hn, h]

/-- BW_FLUSH ends as FlushToByte() ends (40_bitstream R146). -/
theorem bwFlushBody_ok {k : Nat} {w : Writer} (h : flushToByte s.params.outCap s.stream.writer = .ok (k, w)) :
    bwFlushBody s = .ok ⟨{ s.stream with writer := w }, k, 0⟩ := by
  simp [bwFlushBody, h]

theorem bwFlushBody_error {e : Err} (h : flushToByte s.params.outCap s.stream.writer = .error e) :
    bwFlushBody s = .error e := by
  simp [bwFlushBody, h]

/-! ### BR_READ_BITS and BR_ALIGN -/

theorem brReadBitsBody_invalid (h : 32 < s.a0) : brReadBitsBody s = .error .invalidCommand := by
  simp [brReadBitsBody, h]

/-- With n ≤ 32, BR_READ_BITS ends as ReadBits(n) ends (40_bitstream R154). -/
theorem brReadBitsBody_ok {v : Nat} {r : Reader} (hn : s.a0 ≤ 32)
    (h : readBits s.inByte s.a0 s.stream.reader = .ok (v, r)) :
    brReadBitsBody s = .ok ⟨{ s.stream with reader := r }, v, 0⟩ := by
  simp [brReadBitsBody, Nat.not_lt.2 hn, h]

theorem brReadBitsBody_error {e : Err} (hn : s.a0 ≤ 32) (h : readBits s.inByte s.a0 s.stream.reader = .error e) :
    brReadBitsBody s = .error e := by
  simp [brReadBitsBody, Nat.not_lt.2 hn, h]

/-- BR_ALIGN discards what is left of a partly read byte (40_bitstream R152, R155). -/
theorem brAlignBody_eq (h : s.stream.reader.Ok s.params) :
    brAlignBody s =
      ⟨{ s.stream with reader := s.stream.reader.skip ((8 - s.stream.reader.bit.toNat) % 8) },
        (8 - s.stream.reader.bit.toNat) % 8, 0⟩ := by
  simp [brAlignBody, alignToByte_eq h]

end BitStreamCommands

/-- Settles O14: the cases of WriteBits and of FlushToByte, each carried to the end of its command. -/
theorem writerCommandsComplete : Obligations.WriterCommandsComplete := by
  refine ⟨rfl, rfl, fun s hw => ⟨fun h => ?_, fun hn hr => ?_, fun hn hr => ?_⟩, fun s hw => ?_⟩
  · exact conclude_of_error (bwWriteBitsBody_invalid h)
  · obtain ⟨w', e, ha⟩ := writeBits_appended hw s.a0 s.a1 hr
    exact ⟨w', conclude_of_ok (bwWriteBitsBody_ok hn e), ha⟩
  · exact conclude_of_error (bwWriteBitsBody_error hn (writeBits_overflow hw s.a0 s.a1 hr))
  · have hcnt : s.stream.writer.cnt = 0 ↔ s.stream.writer.cnt.toNat = 0 := BitVec.toNat_inj.symm
    rw [ne_eq, hcnt]
    rcases flushToByte_cases hw with ⟨h0, e⟩ | ⟨h0, hlt, w', e, hw'⟩ | ⟨h0, hfull, e⟩
    · exact ⟨fun _ => conclude_of_ok (bwFlushBody_ok e), fun h => absurd h0 h, fun h => absurd h0 h⟩
    · exact ⟨fun h => absurd h h0, fun _ _ => ⟨w', conclude_of_ok (bwFlushBody_ok e), hw'⟩,
        fun _ h => absurd h hlt.ne⟩
    · exact ⟨fun h => absurd h h0, fun _ h => absurd hfull h.ne, fun _ _ => conclude_of_error (bwFlushBody_error e)⟩

/-- Settles O15: the cases of ReadBits and the one outcome of AlignToByte, each carried to the end of its command. -/
theorem readerCommandsComplete : Obligations.ReaderCommandsComplete := by
  refine ⟨rfl, rfl, fun s hr => ⟨fun h => ?_, fun hn hl => ?_, fun hn hl => ?_⟩, fun s hr => ?_⟩
  · exact conclude_of_error (brReadBitsBody_invalid h)
  · exact conclude_of_error (brReadBitsBody_error hn (readBits_end hr hl))
  · exact conclude_of_ok (brReadBitsBody_ok hn (readBits_ok hr hl))
  · exact conclude_of_ok (congrArg Except.ok (brAlignBody_eq hr))

/-- Settles O13: each command checks its range and then sets its cursor. -/
theorem initCommandsComplete : Obligations.InitCommandsComplete :=
  ⟨rfl, rfl,
    fun _ => ⟨fun h => conclude_of_error (bwInitBody_invalid h), fun h => conclude_of_ok (bwInitBody_ok h)⟩,
    fun _ => ⟨fun h => conclude_of_error (brInitBody_invalid h), fun h => conclude_of_ok (brInitBody_ok h)⟩⟩

end Sys2Proof.Machine

/-! LengthAssign: what ForceTwo, the leaves and the chosen items give, and the Kraft sum of the lengths (41_huffman
R181..R183). -/

namespace Sys2Proof.Machine

open Sys2Proof

/-! ### ForceTwo -/

/-- How many symbols a frequency vector uses. -/
abbrev usedCount (f : List Nat) : Nat := f.countP (fun x => decide (0 < x))

theorem lt_length_of_used {f : List Nat} {s : Nat} (h : 0 < f.getD s 0) : s < f.length := by
  by_contra hs
  rw [List.getD_eq_default _ _ (by omega)] at h
  omega

theorem forceOne_length (f : List Nat) : (forceOne f).length = f.length := by
  unfold forceOne; split <;> simp

/-- A pass of ForceTwo changes the frequency of an unused symbol only. -/
theorem forceOne_getD {f : List Nat} {s : Nat} (h : 0 < f.getD s 0) : (forceOne f).getD s 0 = f.getD s 0 := by
  unfold forceOne
  split
  · have hs := lt_length_of_used h
    have hne : f.idxOf 0 ≠ s := by
      rintro rfl
      rw [List.getD_eq_getElem _ _ hs, List.getElem_idxOf] at h; omega
    simp [List.getD, List.getElem?_set_ne hne]
  · rfl

/-- A pass of ForceTwo adds a symbol where fewer than two of at least two are used. -/
theorem forceOne_usedCount {f : List Nat} (h2 : 2 ≤ f.length) : min 2 (usedCount f + 1) ≤ usedCount (forceOne f) := by
  unfold forceOne
  split
  next hlt =>
    have hmem : 0 ∈ f := by
      by_contra hno
      have hall : usedCount f = f.length := List.countP_eq_length.2 fun x hx =>
        decide_eq_true (Nat.pos_of_ne_zero fun e => hno (e ▸ hx))
      rw [usedCount] at hall
      omega
    have hidx := List.idxOf_lt_length_of_mem hmem
    rw [usedCount, usedCount, List.countP_set hidx, List.getElem_idxOf]
    simp
  next hge => rw [usedCount]; omega

theorem forceTwo_length (f : List Nat) : (forceTwo f).length = f.length := by
  rw [forceTwo, forceOne_length, forceOne_length]

theorem forceTwo_getD {f : List Nat} {s : Nat} (h : 0 < f.getD s 0) : (forceTwo f).getD s 0 = f.getD s 0 := by
  have h1 := forceOne_getD h
  rw [forceTwo, forceOne_getD (by omega), h1]

theorem forceTwo_usedCount {f : List Nat} (h2 : 2 ≤ f.length) : 2 ≤ usedCount (forceTwo f) := by
  have h1 := forceOne_usedCount h2
  have h2' := forceOne_usedCount (f := forceOne f) (by rwa [forceOne_length])
  rw [← forceTwo] at h2'
  omega

/-! ### The leaves -/

/-- The leaf of a symbol (41_huffman R181). -/
def leafOf (f : List Nat) (s : Nat) : Item := ⟨f.getD s 0, [s]⟩

/-- The symbols a frequency vector uses, in increasing order. -/
def usedSymbols (f : List Nat) : List Nat := (List.range f.length).filter (fun s => decide (0 < f.getD s 0))

theorem mem_usedSymbols {f : List Nat} {s : Nat} : s ∈ usedSymbols f ↔ 0 < f.getD s 0 := by
  simp only [usedSymbols, List.mem_filter, List.mem_range, decide_eq_true_eq, and_iff_right_iff_imp]
  exact lt_length_of_used

theorem usedSymbols_nodup (f : List Nat) : (usedSymbols f).Nodup := List.nodup_range.filter _

theorem usedSymbols_length (f : List Nat) : (usedSymbols f).length = usedCount f := by
  have hmap : (List.range f.length).map (fun s => f.getD s 0) = f := by
    apply List.ext_getElem (by simp)
    intro i _ h
    simp [List.getElem?_eq_getElem h]
  rw [usedSymbols, ← List.countP_eq_length_filter]
  conv_rhs => rw [← hmap, usedCount, List.countP_map]
  rfl

theorem insertItem_perm (x : Item) (l : List Item) : (insertItem x l).Perm (x :: l) := by
  induction l with
  | nil => exact .refl _
  | cons y rest ih =>
    rw [insertItem]
    split
    · exact (ih.cons y).trans (.swap x y rest)
    · exact .refl _

theorem insertItem_sorted (x : Item) {l : List Item} (h : l.Pairwise (fun x y => x.w ≤ y.w)) :
    (insertItem x l).Pairwise (fun x y => x.w ≤ y.w) := by
  induction l with
  | nil => simp [insertItem]
  | cons y rest ih =>
    obtain ⟨hy, hrest⟩ := List.pairwise_cons.1 h
    rw [insertItem]
    split
    next hle =>
      refine List.pairwise_cons.2 ⟨fun z hz => ?_, ih hrest⟩
      rcases List.mem_cons.1 ((insertItem_perm x rest).mem_iff.1 hz) with rfl | hz
      · exact hle
      · exact hy z hz
    next hgt =>
      refine List.pairwise_cons.2 ⟨fun z hz => ?_, h⟩
      rcases List.mem_cons.1 hz with rfl | hz
      · omega
      · have := hy z hz; omega

/-- The insertion of the leaves of `ss` one by one, as `leavesOf` does it. -/
def insertLeaves (f ss : List Nat) (acc : List Item) : List Item :=
  ss.foldl (fun acc s => if 0 < f.getD s 0 then insertItem (leafOf f s) acc else acc) acc

theorem leavesOf_eq_insertLeaves (f : List Nat) : leavesOf f = insertLeaves f (List.range f.length) [] := rfl

theorem insertLeaves_cons (f : List Nat) (s : Nat) (ss : List Nat) (acc : List Item) :
    insertLeaves f (s :: ss) acc =
      insertLeaves f ss (if 0 < f.getD s 0 then insertItem (leafOf f s) acc else acc) := rfl

theorem insertLeaves_perm (f ss : List Nat) (acc : List Item) :
    (insertLeaves f ss acc).Perm (acc ++ (ss.filter (fun s => decide (0 < f.getD s 0))).map (leafOf f)) := by
  induction ss generalizing acc with
  | nil => simp [insertLeaves]
  | cons s ss ih =>
    rw [insertLeaves_cons, List.filter_cons]
    by_cases hs : 0 < f.getD s 0
    · rw [if_pos hs, if_pos (decide_eq_true hs), List.map_cons]
      exact ((ih _).trans ((insertItem_perm _ acc).append_right _)).trans List.perm_middle.symm
    · rw [if_neg hs, if_neg (by simpa using hs)]
      exact ih acc

theorem insertLeaves_sorted (f ss : List Nat) {acc : List Item} (h : acc.Pairwise (fun x y => x.w ≤ y.w)) :
    (insertLeaves f ss acc).Pairwise (fun x y => x.w ≤ y.w) := by
  induction ss generalizing acc with
  | nil => exact h
  | cons s ss ih =>
    rw [insertLeaves_cons]
    split
    · exact ih (insertItem_sorted (leafOf f s) h)
    · exact ih h

/-- The leaves are the used symbols' leaves. -/
theorem leavesOf_perm (f : List Nat) : (leavesOf f).Perm ((usedSymbols f).map (leafOf f)) :=
  insertLeaves_perm f _ []

theorem leavesOf_sorted (f : List Nat) : (leavesOf f).Pairwise (fun x y => x.w ≤ y.w) :=
  insertLeaves_sorted f _ .nil

/-- The used symbols in the order of their leaves. -/
def leafSymbols (f : List Nat) : List Nat := (leavesOf f).map (fun x => x.syms.headD 0)

theorem leafSymbols_perm (f : List Nat) : (leafSymbols f).Perm (usedSymbols f) := by
  have h := (leavesOf_perm f).map (fun x => x.syms.headD 0)
  rwa [List.map_map, show (fun x : Item => x.syms.headD 0) ∘ leafOf f = id from rfl, List.map_id] at h

theorem leavesOf_eq_map (f : List Nat) : leavesOf f = (leafSymbols f).map (leafOf f) := by
  rw [leafSymbols, List.map_map]
  refine (List.map_id _).symm.trans (List.map_congr_left fun x hx => ?_)
  obtain ⟨s, -, rfl⟩ := List.mem_map.1 ((leavesOf_perm f).mem_iff.1 hx)
  rfl

theorem leavesOf_length (f : List Nat) : (leavesOf f).length = usedCount f := by
  rw [leavesOf_eq_map, List.length_map, (leafSymbols_perm f).length_eq, usedSymbols_length]

/-- The symbol of leaf `i`. -/
def leafSymbol (f : List Nat) (i : Nat) : Nat := (leafSymbols f).getD i 0

theorem leafSymbols_length (f : List Nat) : (leafSymbols f).length = (leavesOf f).length := List.length_map _

theorem leafSymbol_eq {f : List Nat} {i : Nat} (h : i < (leafSymbols f).length) :
    leafSymbol f i = (leafSymbols f)[i] := List.getD_eq_getElem _ _ h

theorem leavesOf_getElem {f : List Nat} {i : Nat} (h : i < (leavesOf f).length) :
    (leavesOf f)[i] = leafOf f (leafSymbol f i) := by
  simp [leavesOf_eq_map, leafSymbol_eq (leafSymbols_length f ▸ h)]

theorem leavesOf_sortedLeaves (f : List Nat) : SortedLeaves (leavesOf f) (leafSymbol f) where
  sorted := leavesOf_sorted f
  single i h := by rw [leavesOf_getElem h]; rfl
  inj i j hi hj e := by
    rw [← leafSymbols_length] at hi hj
    rw [leafSymbol_eq hi, leafSymbol_eq hj] at e
    exact ((leafSymbols_perm f).nodup_iff.2 (usedSymbols_nodup f)).getElem_inj_iff.1 e

/-- A used symbol is that of one leaf, of its frequency's weight. -/
theorem exists_leaf {f : List Nat} {s : Nat} (h : 0 < f.getD s 0) :
    ∃ i, ∃ hi : i < (leavesOf f).length, leafSymbol f i = s ∧ (leavesOf f)[i].w = f.getD s 0 := by
  obtain ⟨i, hi, e⟩ := List.getElem_of_mem ((leafSymbols_perm f).mem_iff.2 (mem_usedSymbols.2 h))
  have hi' : i < (leavesOf f).length := leafSymbols_length f ▸ hi
  have hs : leafSymbol f i = s := (leafSymbol_eq hi).trans e
  exact ⟨i, hi', hs, by rw [leavesOf_getElem hi', hs]; rfl⟩

theorem leafSymbol_used {f : List Nat} {i : Nat} (h : i < (leavesOf f).length) : 0 < f.getD (leafSymbol f i) 0 := by
  rw [← leafSymbols_length] at h
  rw [leafSymbol_eq h]
  exact mem_usedSymbols.1 ((leafSymbols_perm f).mem_iff.1 (List.getElem_mem h))

/-! ### The lengths -/

/-- The length that package-merge gives a symbol under the frequencies `g`: how often the chosen items hold it. -/
def chosenLength (g : List Nat) (limit s : Nat) : Nat :=
  (((packageList (leavesOf g) (limit - 1)).take (2 * (leavesOf g).length - 2)).flatMap Item.syms).count s

theorem lengthAssign_eq (f : List Nat) (limit : Nat) :
    lengthAssign f limit = (List.range f.length).map (chosenLength (forceTwo f) limit) := rfl

theorem lengthAssign_getD {f : List Nat} {s : Nat} (limit : Nat) (h : s < f.length) :
    (lengthAssign f limit).getD s 0 = chosenLength (forceTwo f) limit s := by
  rw [lengthAssign_eq, List.getD_eq_getElem _ _ (by simpa using h)]
  simp

theorem chosenLength_leafSymbol (g : List Nat) (limit i : Nat) :
    chosenLength g limit (leafSymbol g i) =
      chosenCount (leavesOf g) (leafSymbol g) (limit - 1) (2 * (leavesOf g).length - 2) i := rfl

theorem chosenLength_unused {g : List Nat} {s : Nat} (limit : Nat) (h : g.getD s 0 = 0) :
    chosenLength g limit s = 0 := by
  refine List.count_eq_zero.2 fun hm => ?_
  obtain ⟨x, hx, hs⟩ := List.mem_flatMap.1 hm
  obtain ⟨i, hi, rfl⟩ := (packageList_weights (leavesOf_sortedLeaves g) _ x (List.mem_of_mem_take hx)).1 s hs
  have := leafSymbol_used hi
  omega

theorem leafSymbols_eq_map (g : List Nat) :
    leafSymbols g = (List.range (leavesOf g).length).map (leafSymbol g) := by
  apply List.ext_getElem (by simp [leafSymbols_length])
  intro i h _
  simp [leafSymbol_eq h]

/-- A sum of what is 0 for the unused symbols is a sum over the used ones. -/
theorem sum_filter_used (g : List Nat) {F : Nat → Nat} (hF : ∀ s, g.getD s 0 = 0 → F s = 0) (ss : List Nat) :
    (ss.map F).sum = ((ss.filter (fun s => decide (0 < g.getD s 0))).map F).sum := by
  induction ss with
  | nil => rfl
  | cons s ss ih =>
    rw [List.map_cons, List.sum_cons, ih, List.filter_cons]
    by_cases hs : 0 < g.getD s 0
    · rw [if_pos (decide_eq_true hs), List.map_cons, List.sum_cons]
    · rw [if_neg (by simpa using hs), hF s (by omega), Nat.zero_add]

theorem sum_over_leaves (g : List Nat) {F : Nat → Nat} (hF : ∀ s, g.getD s 0 = 0 → F s = 0) :
    ((List.range g.length).map F).sum = ((List.range (leavesOf g).length).map (fun i => F (leafSymbol g i))).sum :=
  calc ((List.range g.length).map F).sum
      = ((usedSymbols g).map F).sum := sum_filter_used g hF _
    _ = ((leafSymbols g).map F).sum := ((leafSymbols_perm g).map F).sum_eq.symm
    _ = _ := by rw [leafSymbols_eq_map, List.map_map]; rfl

/-- The widths of `m` codes and what each leaves of the whole make `m` wholes. -/
theorem sum_widths_add_rest (limit m : Nat) (c : Nat → Nat) :
    ((List.range m).map (fun i => 2 ^ (limit - c i))).sum +
      ((List.range m).map (fun i => 2 ^ limit - 2 ^ (limit - c i))).sum = m * 2 ^ limit := by
  induction m with
  | zero => simp
  | succ m ih =>
    have hle : 2 ^ (limit - c m) ≤ 2 ^ limit := Nat.pow_le_pow_right (by decide) (by omega)
    simp only [List.range_succ, List.map_append, List.sum_append, List.map_cons, List.map_nil, List.sum_cons,
      List.sum_nil, Nat.succ_mul]
    omega

section Chosen

variable {g : List Nat} {limit : Nat}

/-- The chosen items are there, and are those of the counts of package-merge. -/
theorem chosen_fits (hn : (leavesOf g).length ≤ 2 ^ limit) (h1 : 1 ≤ limit) :
    2 * (leavesOf g).length - 2 ≤ (packageList (leavesOf g) (limit - 1)).length :=
  packageList_length_ge _ _ (by rwa [Nat.sub_add_cancel h1])

/-- Every used symbol gets a length of 1..L (41_huffman R183(a)). -/
theorem chosenLength_bounds (h2 : 2 ≤ (leavesOf g).length) (hn : (leavesOf g).length ≤ 2 ^ limit) (h1 : 1 ≤ limit)
    {i : Nat} (hi : i < (leavesOf g).length) :
    1 ≤ chosenLength g limit (leafSymbol g i) ∧ chosenLength g limit (leafSymbol g i) ≤ limit := by
  have hfits := chosen_fits hn h1
  have hpos := chosenCount_pos (leavesOf_sortedLeaves g) h2 (limit - 1) i hi
  rw [Nat.min_eq_left hfits] at hpos
  have hle := (chosenCount_spec (leavesOf_sortedLeaves g) (limit - 1) _ hfits).1 i hi
  rw [chosenLength_leafSymbol]
  omega

/-- A rarer symbol never gets a shorter code (41_huffman R183(d)). -/
theorem chosenLength_antitone (hn : (leavesOf g).length ≤ 2 ^ limit) (h1 : 1 ≤ limit) {s s' : Nat}
    (hs : 0 < g.getD s 0) (hlt : g.getD s 0 < g.getD s' 0) : chosenLength g limit s' ≤ chosenLength g limit s := by
  obtain ⟨i, hi, rfl, hwi⟩ := exists_leaf hs
  obtain ⟨j, hj, rfl, hwj⟩ := exists_leaf (hs.trans hlt)
  have hij : i ≤ j := by
    by_contra hji
    have := List.pairwise_iff_getElem.1 (leavesOf_sortedLeaves g).sorted j i hj hi (by omega)
    omega
  exact (chosenCount_spec (leavesOf_sortedLeaves g) (limit - 1) _ (chosen_fits hn h1)).2.1 i j hij hj

/-- The chosen items make a complete code: its Kraft sum, in units of 2^-L, is 2^L (41_huffman R183(b)). -/
theorem chosenLength_kraft (h2 : 2 ≤ (leavesOf g).length) (hn : (leavesOf g).length ≤ 2 ^ limit) (h1 : 1 ≤ limit) :
    ((List.range (leavesOf g).length).map (fun i => 2 ^ (limit - chosenLength g limit (leafSymbol g i)))).sum =
      2 ^ limit := by
  obtain ⟨-, -, hsum⟩ := chosenCount_spec (leavesOf_sortedLeaves g) (limit - 1) _ (chosen_fits hn h1)
  simp only [← chosenLength_leafSymbol, Nat.sub_add_cancel h1] at hsum
  have htotal := sum_widths_add_rest limit (leavesOf g).length (fun i => chosenLength g limit (leafSymbol g i))
  have hhalf : 2 ^ (limit - 1) * (2 * (leavesOf g).length - 2) = (leavesOf g).length * 2 ^ limit - 2 ^ limit := by
    obtain ⟨k, rfl⟩ : ∃ k, limit = k + 1 := ⟨limit - 1, by omega⟩
    rw [Nat.add_sub_cancel, Nat.pow_succ, ← Nat.mul_sub_one 2, ← Nat.sub_one_mul, Nat.mul_comm _ (2 ^ k * 2),
      Nat.mul_assoc]
  have hbig : 2 ^ limit ≤ (leavesOf g).length * 2 ^ limit := Nat.le_mul_of_pos_left _ (by omega)
  rw [hsum, hhalf] at htotal
  omega

end Chosen

theorem kraft_lengthAssign {f : List Nat} {limit : Nat} (h2 : 2 ≤ (leavesOf (forceTwo f)).length)
    (hn : (leavesOf (forceTwo f)).length ≤ 2 ^ limit) (h1 : 1 ≤ limit) (h15 : limit ≤ 15) :
    kraft (lengthAssign f limit) = 32768 := by
  have hscale : ∀ i ∈ List.range (leavesOf (forceTwo f)).length,
      (if chosenLength (forceTwo f) limit (leafSymbol (forceTwo f) i) = 0 then 0
        else 2 ^ (15 - chosenLength (forceTwo f) limit (leafSymbol (forceTwo f) i))) =
      2 ^ (15 - limit) * 2 ^ (limit - chosenLength (forceTwo f) limit (leafSymbol (forceTwo f) i)) := by
    intro i hi
    obtain ⟨hpos, hle⟩ := chosenLength_bounds h2 hn h1 (List.mem_range.1 hi)
    rw [if_neg (by omega), ← Nat.pow_add]
    congr 1; omega
  rw [kraft, lengthAssign_eq, List.map_map, ← forceTwo_length f]
  refine (sum_over_leaves (forceTwo f) fun s hs => ?_).trans ?_
  · simp [chosenLength_unused limit hs]
  · simp only [Function.comp_apply]
    rw [List.map_congr_left hscale, List.sum_map_mul_left, chosenLength_kraft h2 hn h1, ← Nat.pow_add,
      Nat.sub_add_cancel h15]

/-! Every vector of at least two and at most 2^L frequencies meets what the lemmas above ask of the leaves. -/

theorem two_le_leaves {f : List Nat} (h2 : 2 ≤ f.length) : 2 ≤ (leavesOf (forceTwo f)).length := by
  rw [leavesOf_length]
  exact forceTwo_usedCount h2

theorem leaves_le {f : List Nat} {n : Nat} (hn : f.length ≤ n) : (leavesOf (forceTwo f)).length ≤ n := by
  have hle : usedCount (forceTwo f) ≤ (forceTwo f).length := List.countP_le_length
  rw [leavesOf_length]
  rw [forceTwo_length] at hle
  omega

theorem one_le_limit {n limit : Nat} (h2 : 2 ≤ n) (hn : n ≤ 2 ^ limit) : 1 ≤ limit := by
  rcases Nat.eq_zero_or_pos limit with rfl | h
  · omega
  · exact h

/-- Settles O23: the chosen items hold each leaf as often as package-merge counts it. -/
theorem lengthAssignGivesACompleteCode : Obligations.LengthAssignGivesACompleteCode := by
  intro f limit h2 hlen h15
  have hn := leaves_le hlen
  have h1 := one_le_limit h2 hlen
  refine ⟨by simp [lengthAssign_eq], fun s _ => forceTwo_getD, forceTwo_usedCount h2, fun s hs hg => ?_,
    fun s hs hg => ?_, kraft_lengthAssign (two_le_leaves h2) hn h1 h15, fun s hs s' hs' hg hlt => ?_⟩
  · obtain ⟨i, hi, rfl, -⟩ := exists_leaf hg
    rw [lengthAssign_getD limit hs]
    exact chosenLength_bounds (two_le_leaves h2) hn h1 hi
  · rw [lengthAssign_getD limit hs, chosenLength_unused limit hg]
  · rw [lengthAssign_getD limit hs, lengthAssign_getD limit hs']
    exact chosenLength_antitone hn h1 hg hlt

end Sys2Proof.Machine

/-! The code tables: what BuildTable, the deflator and the inflater load, and that every step keeps them legal
(41_huffman R170, R171). -/

namespace Sys2Proof.Machine

open Sys2Proof

/-! ### The tables that are built -/

/-- BuildTable makes a legal table of lengths that fit it, or raises (41_huffman R175). -/
theorem buildTable_yields (id : TableId) {ls : List Nat} (hlen : ls.length ≤ tableSize id)
    (hmax : ∀ l ∈ ls, l ≤ tableMaxLen id) : Yields (buildTable (tableSize id) ls) (Table.Ok id) := by
  refine .ite (fun _ => .error _) fun hover => .ok ⟨?_, fun l hl => ?_, by simpa using hover⟩
  · simp only [List.length_append, List.length_replicate]; omega
  · rcases List.mem_append.1 hl with hl | hl
    · exact hmax l hl
    · rw [List.eq_of_mem_replicate hl]; omega

theorem zero_ok (id : TableId) : (Table.zero (tableSize id)).Ok id := by
  refine ⟨by simp [Table.zero], fun l hl => ?_, ?_⟩
  · rw [List.eq_of_mem_replicate hl]; omega
  · refine (overSubscribed_iff_kraft fun l hl => ?_).2 (by simp [kraft])
    rw [List.eq_of_mem_replicate hl]; omega

theorem kraft_append (xs ys : List Nat) : kraft (xs ++ ys) = kraft xs + kraft ys := by simp [kraft]

theorem kraft_replicate (n l : Nat) : kraft (List.replicate n l) = n * (if l = 0 then 0 else 2 ^ (15 - l)) := by
  simp [kraft]

/-- The fixed literal/length code is complete (30_encoding R108, R109). -/
theorem kraft_fixedLitlen : kraft fixedLitlen = 32768 := by
  simp only [fixedLitlen, kraft_append, kraft_replicate]
  decide

theorem kraft_fixedDist : kraft fixedDist = 32768 := by
  simp only [fixedDist, kraft_replicate]
  decide

theorem fixedLitlen_le : ∀ l ∈ fixedLitlen, l ≤ 15 := by
  simp only [fixedLitlen, List.mem_append, List.mem_replicate]
  omega

theorem fixedDist_le : ∀ l ∈ fixedDist, l ≤ 15 := by
  simp only [fixedDist, List.mem_replicate]
  omega

theorem fixedLitlen_length : fixedLitlen.length = 288 := by
  simp only [fixedLitlen, List.length_append, List.length_replicate]

theorem fixedDist_length : fixedDist.length = 32 := List.length_replicate

theorem fixedLitlenTable_ok : fixedLitlenTable.Ok .litlen :=
  ⟨fixedLitlen_length, fixedLitlen_le,
    (overSubscribed_iff_kraft fixedLitlen_le).2 kraft_fixedLitlen.le⟩

theorem fixedDistTable_ok : fixedDistTable.Ok .dist :=
  ⟨fixedDist_length, fixedDist_le,
    (overSubscribed_iff_kraft fixedDist_le).2 kraft_fixedDist.le⟩

/-! ### What the procedures keep of the tables -/

/-- The three tables of a stream state are legal: `State.TablesOk` without an error. -/
abbrev Stream.TablesOk (st : Stream) : Prop := st.litlen.Ok .litlen ∧ st.dist.Ok .dist ∧ st.clen.Ok .clen

/-- `st'` has legal tables where `st` has. -/
def Stream.KeepsTables (st st' : Stream) : Prop := st.TablesOk → st'.TablesOk

section Tables

variable {p : Params} {st st₁ st₂ : Stream}

theorem Stream.KeepsTables.refl (st : Stream) : st.KeepsTables st := id

theorem Stream.KeepsTables.trans (h₁ : st.KeepsTables st₁) (h₂ : st₁.KeepsTables st₂) : st.KeepsTables st₂ :=
  fun h => h₂ (h₁ h)

theorem Stream.SameTables.keepsTables (h : st.SameTables st₁) : st.KeepsTables st₁ := by
  obtain ⟨hll, hdl, hcl⟩ := h
  intro hok
  rwa [Stream.TablesOk, hll, hdl, hcl]

theorem loadFixed_keepsTables (st : Stream) : st.KeepsTables (loadFixed st) :=
  fun h => ⟨fixedLitlenTable_ok, fixedDistTable_ok, h.2.2⟩

theorem setTable_keepsTables (st : Stream) {id : TableId} {t : Table} (ht : t.Ok id) :
    st.KeepsTables (st.setTable id t) := by
  rintro ⟨hll, hdl, hcl⟩
  cases id with
  | litlen => exact ⟨ht, hdl, hcl⟩
  | dist => exact ⟨hll, ht, hcl⟩
  | clen => exact ⟨hll, hdl, ht⟩

theorem initial_tablesOk (out win : Memory) : (Stream.initial out win).TablesOk :=
  ⟨zero_ok .litlen, zero_ok .dist, zero_ok .clen⟩

/-! ### The deflator -/

/-- LengthAssign keeps to its limit (41_huffman R183(a)). -/
theorem lengthAssign_le {f : List Nat} {limit : Nat} (h2 : 2 ≤ f.length) (hn : f.length ≤ 2 ^ limit) :
    ∀ l ∈ lengthAssign f limit, l ≤ limit := by
  intro l hl
  rw [lengthAssign_eq] at hl
  obtain ⟨s, -, rfl⟩ := List.mem_map.1 hl
  rcases Nat.eq_zero_or_pos ((forceTwo f).getD s 0) with h0 | hpos
  · rw [chosenLength_unused limit h0]; omega
  · obtain ⟨i, hi, rfl, -⟩ := exists_leaf hpos
    exact (chosenLength_bounds (two_le_leaves h2) (leaves_le hn) (one_le_limit h2 hn) hi).2

theorem lengthAssign_length (f : List Nat) (limit : Nat) : (lengthAssign f limit).length = f.length := by
  simp [lengthAssign_eq]

/-- The lengths of `n` symbols, each at most `m`. -/
abbrev LengthsOf (n m : Nat) (ls : List Nat) : Prop := ls.length = n ∧ ∀ l ∈ ls, l ≤ m

theorem lengthAssign_lengthsOf {f : List Nat} {n limit : Nat} (hf : f.length = n) (h2 : 2 ≤ n) (hn : n ≤ 2 ^ limit) :
    LengthsOf n limit (lengthAssign f limit) :=
  ⟨by rw [lengthAssign_length, hf], lengthAssign_le (by rwa [hf]) (by rwa [hf])⟩

/-- The three codes of a dynamic block (43_deflate R243..R246). -/
theorem dynPlan_lengthsOf (ts : List Token) :
    LengthsOf 286 15 (dynPlan ts).ll ∧ LengthsOf 30 15 (dynPlan ts).dl ∧ LengthsOf 19 7 (dynPlan ts).cl :=
  ⟨lengthAssign_lengthsOf (by simp [litlenFreqs]) (by decide) (by decide),
    lengthAssign_lengthsOf (by simp [distFreqs]) (by decide) (by decide),
    lengthAssign_lengthsOf (by simp) (by decide) (by decide)⟩

/-- The first lengths of a vector that fits a table build a legal table (43_deflate R247). -/
theorem buildTable_take_yields (id : TableId) {n : Nat} {ls : List Nat} (h : LengthsOf n (tableMaxLen id) ls)
    (hn : n ≤ tableSize id) (k : Nat) : Yields (buildTable (tableSize id) (ls.take k)) (Table.Ok id) :=
  buildTable_yields id ((List.length_take_le' _ _).trans (h.1.le.trans hn)) fun l hl => h.2 l (List.mem_of_mem_take hl)

theorem fixedBlock_keepsTables (ts : List Token) (final : Bool) (st : Stream) :
    Yields (fixedBlock p.outCap ts final st) st.KeepsTables :=
  Yields.after fun _ => Yields.after fun _ => .ok (loadFixed_keepsTables st)

/-- DynamicBlock loads the tables of the lengths that LengthAssign chose (43_deflate R247). -/
theorem dynamicBlock_keepsTables (ts : List Token) (final : Bool) (st : Stream) :
    Yields (dynamicBlock p.outCap ts final st) st.KeepsTables := by
  obtain ⟨hll, hdl, hcl⟩ := dynPlan_lengthsOf ts
  exact Yields.bind (buildTable_yields .clen hcl.1.le hcl.2) fun _ h₁ =>
    Yields.bind (buildTable_take_yields .litlen hll (by decide) _) fun _ h₂ =>
    Yields.bind (buildTable_take_yields .dist hdl (by decide) _) fun _ h₃ =>
    Yields.after fun _ => Yields.after fun _ => Yields.after fun _ => Yields.after fun _ => Yields.after fun _ =>
      Yields.after fun _ => Yields.after fun _ => .ok fun _ => ⟨h₂, h₃, h₁⟩

theorem writeBlock_keepsTables (d : Nat → Byte) (k : BlockKind) (b : Block) (final : Bool) (st : Stream) :
    Yields (writeBlock p.outCap d k b final st) st.KeepsTables := by
  cases k with
  | stored => exact Yields.after fun _ => .ok (.refl st)
  | fixed => exact fixedBlock_keepsTables b.tokens final st
  | dynamic => exact dynamicBlock_keepsTables b.tokens final st

theorem writeBlocks_keepsTables (d : Nat → Byte) (mode : Nat) (bs : List Block) (st : Stream) :
    Yields (writeBlocks p.outCap d mode bs st) st.KeepsTables := by
  induction bs generalizing st with
  | nil => exact .ok (.refl st)
  | cons b rest ih =>
    exact Yields.bind (writeBlock_keepsTables d _ b _ st) fun st₁ h => (ih st₁).mono fun _ => h.trans

theorem writeStored_keepsTables (d : Nat → Byte) (bs : List Block) (st : Stream) :
    Yields (writeStored p.outCap d bs st) st.KeepsTables := by
  induction bs generalizing st with
  | nil => exact .ok (.refl st)
  | cons b rest ih =>
    exact Yields.bind (writeBlock_keepsTables d .stored b _ st) fun st₁ h => (ih st₁).mono fun _ => h.trans

/-! ### The inflater -/

theorem copyBytes_sameTables (l d : Nat) (st : Stream) : Yields (copyBytes p.outCap l d st) st.SameTables := by
  induction l generalizing st with
  | zero => exact .ok ⟨rfl, rfl, rfl⟩
  | succ l ih =>
    exact Yields.bind (emitByte_inflates _ st) fun st₁ h => (ih st₁).mono fun _ => Stream.SameTables.trans h.2

theorem copyMatch_sameTables (l d : Nat) (st : Stream) : Yields (copyMatch p.outCap l d st) st.SameTables :=
  .ite (fun _ => .error _) fun _ => copyBytes_sameTables l d st

variable (inb : Nat → Byte)

/-- HuffBody emits with the tables it starts with (44_inflate R286). -/
theorem huffLoop_sameTables (fuel produced : Nat) (st : Stream) :
    Yields (huffLoop p.outCap inb fuel produced st) (fun v => st.SameTables v.2) := by
  induction fuel generalizing produced st with
  | zero => exact .error _
  | succ fuel ih =>
    refine Yields.after fun v => .ite (fun _ => ?literal) fun _ => .ite (fun _ => .ok ⟨rfl, rfl, rfl⟩) fun _ =>
      .ite (fun _ => .error _) fun _ => ?copy
    case literal =>
      exact Yields.bind (emitByte_inflates _ { st with reader := v.2 }) fun st₁ h =>
        (ih _ st₁).mono fun _ h' => Stream.SameTables.trans h.2 h'
    case copy =>
      exact Yields.after fun _ => Yields.after fun w =>
        Yields.bind (copyMatch_sameTables _ _ { st with reader := w.2 }) fun st₁ h =>
          (ih _ st₁).mono fun _ h' => Stream.SameTables.trans h h'

theorem huffBody_keepsTables (st : Stream) :
    Yields (huffBody p.outCap inb st) (fun v => st.KeepsTables v.2) :=
  (huffLoop_sameTables inb _ 0 st).mono fun _ h => h.keepsTables

theorem takeBits_lt (n : Nat) (r : Reader) : (takeBits inb n r).1 < 2 ^ n := by
  induction n generalizing r with
  | zero => simp [takeBits]
  | succ n ih =>
    have hrest := ih r.advance
    have hbit := Bool.toNat_le (r.nextBit inb)
    rw [takeBits, Nat.pow_succ]
    omega

/-- What ReadBits(n) returns has n bits (40_bitstream R151). -/
theorem readBits_lt (n : Nat) (r : Reader) : Yields (readBits inb n r) (fun v => v.1 < 2 ^ n) :=
  .ite (fun _ => .error _) fun _ => .ok (takeBits_lt inb n r)

theorem readEach_lt (n k : Nat) (r : Reader) :
    Yields (readEach inb n k r) (fun v => ∀ x ∈ v.1, x < 2 ^ n) := by
  induction k generalizing r with
  | zero => exact .ok (by simp)
  | succ k ih =>
    exact Yields.bind (readBits_lt inb n r) fun v hv => Yields.bind (ih v.2) fun w hw =>
      .ok (List.forall_mem_cons.2 ⟨hv, hw⟩)

/-- Setting entries to values of at most `m` keeps a vector of lengths of at most `m`. -/
theorem foldl_set_lengthsOf {n m : Nat} {svs : List (Nat × Nat)} {cl : List Nat} (hsvs : ∀ sv ∈ svs, sv.2 ≤ m)
    (hcl : LengthsOf n m cl) : LengthsOf n m (svs.foldl (fun cl sv => cl.set sv.1 sv.2) cl) := by
  induction svs generalizing cl with
  | nil => exact hcl
  | cons sv svs ih =>
    obtain ⟨hsv, hsvs⟩ := List.forall_mem_cons.1 hsvs
    refine ih hsvs ⟨List.length_set.trans hcl.1, fun l hl => ?_⟩
    rcases List.mem_or_eq_of_mem_set hl with hl | rfl
    · exact hcl.2 l hl
    · exact hsv

/-- The CLEN lengths are those that were sent, and 0 (44_inflate R284). -/
theorem clenLengths_lengthsOf {vs : List Nat} {m : Nat} (h : ∀ v ∈ vs, v ≤ m) :
    LengthsOf Config.numClen m (clenLengths vs) := by
  refine foldl_set_lengthsOf (fun sv hsv => h sv.2 (List.of_mem_zip hsv).2) ⟨List.length_replicate, fun l hl => ?_⟩
  rw [List.eq_of_mem_replicate hl]
  omega

/-- Code lengths of at most 15, not more than `n` of them (44_inflate R285). -/
abbrev LengthsFit (n : Nat) (vs : List Nat) : Prop := vs.length ≤ n ∧ ∀ v ∈ vs, v ≤ 15

theorem appendRepeat_fits {n v : Nat} {vs : List Nat} (hvs : LengthsFit n vs) (hv : v ≤ 15) (r : Nat) :
    Yields (appendRepeat n vs v r) (LengthsFit n) := by
  refine .ite (fun _ => .error _) fun hn => .ok ⟨?_, fun x hx => ?_⟩
  · simp only [List.length_append, List.length_replicate]; omega
  · rcases List.mem_append.1 hx with hx | hx
    · exact hvs.2 x hx
    · rw [List.eq_of_mem_replicate hx]; exact hv

theorem lengthStep_fits {n : Nat} {vs : List Nat} (hvs : LengthsFit n vs) (hn : vs.length < n) (k : Nat) (r : Reader) :
    Yields (lengthStep inb n k vs r) (fun v => LengthsFit n v.1) := by
  have repeats : ∀ m v base, v ≤ 15 → Yields (readBits inb m r >>= fun x => appendRepeat n vs v (base + x.1) >>=
      fun vs => Except.ok (vs, x.2)) (fun v => LengthsFit n v.1) := fun m v base hv =>
    Yields.after fun _ => Yields.bind (appendRepeat_fits hvs hv _) fun _ h => .ok h
  refine .ite (fun hk => .ok ⟨?_, fun x hx => ?_⟩) fun _ => .ite (fun _ => ?_) fun _ =>
    .ite (fun _ => repeats 3 0 3 (by omega)) fun _ => repeats 7 0 11 (by omega)
  · simp only [List.length_append, List.length_singleton]; omega
  · rcases List.mem_append.1 hx with hx | hx
    · exact hvs.2 x hx
    · rw [List.mem_singleton.1 hx]; omega
  · cases hlast : vs.getLast? with
    | none => exact .error _
    | some v => exact repeats 2 v 3 (hvs.2 v (List.mem_of_getLast? hlast))

theorem lengthsLoop_fits {n : Nat} (clen : Table) (fuel : Nat) {vs : List Nat} (hvs : LengthsFit n vs) (r : Reader) :
    Yields (lengthsLoop clen inb n fuel vs r) (fun v => LengthsFit n v.1) := by
  induction fuel generalizing vs r with
  | zero => exact .ok hvs
  | succ fuel ih =>
    exact .ite (fun _ => .ok hvs) fun hn => Yields.after fun v =>
      Yields.bind (lengthStep_fits inb hvs (by omega) _ v.2) fun w hw => ih hw w.2

/-- DynamicHeader builds its tables of lengths that fit them (44_inflate R284, R285). -/
theorem dynamicHeader_keepsTables (st : Stream) : Yields (dynamicHeader inb st) st.KeepsTables := by
  refine Yields.bind (readBits_lt inb 5 st.reader) fun hlit hlit_lt =>
    Yields.bind (readBits_lt inb 5 hlit.2) fun hdist hdist_lt =>
    Yields.after fun hclen => Yields.bind (readEach_lt inb 3 _ hclen.2) fun cl hcl => ?_
  obtain ⟨hlen, hmax⟩ := clenLengths_lengthsOf (vs := cl.1) (m := 7) fun v hv => Nat.le_of_lt_succ (hcl v hv)
  refine Yields.bind (buildTable_yields .clen hlen.le hmax) fun clen hclen =>
    Yields.bind (lengthsLoop_fits inb clen _ ⟨Nat.zero_le _, by simp⟩ cl.2) fun vs ⟨hvs, hvs15⟩ => ?_
  have hll : (vs.1.take (hlit.1 + 257)).length ≤ 288 := by rw [List.length_take]; omega
  have hdl : (vs.1.drop (hlit.1 + 257)).length ≤ 32 := by rw [List.length_drop]; omega
  exact Yields.bind (buildTable_yields .litlen hll fun l hl => hvs15 l (List.mem_of_mem_take hl)) fun _ hll =>
    Yields.bind (buildTable_yields .dist hdl fun l hl => hvs15 l (List.mem_of_mem_drop hl)) fun _ hdl =>
      .ok fun _ => ⟨hll, hdl, hclen⟩

theorem storedBlockBody_keepsTables (st : Stream) :
    Yields (storedBlockBody p.outCap inb st) (fun v => st.KeepsTables v.2) :=
  (storedBlockBody_inflates inb st).mono fun _ h => Stream.SameTables.keepsTables h.2

theorem fixedBlockBody_keepsTables (st : Stream) :
    Yields (fixedBlockBody p.outCap inb st) (fun v => st.KeepsTables v.2) :=
  (huffBody_keepsTables inb (loadFixed st)).mono fun _ => (loadFixed_keepsTables st).trans

theorem dynamicBlockBody_keepsTables (st : Stream) :
    Yields (dynamicBlockBody p.outCap inb st) (fun v => st.KeepsTables v.2) :=
  Yields.bind (dynamicHeader_keepsTables inb st) fun st₁ h => (huffBody_keepsTables inb st₁).mono fun _ => h.trans

theorem inflateBlock_keepsTables (st : Stream) :
    Yields (inflateBlock p.outCap inb st) (fun v => st.KeepsTables v.2) := by
  refine Yields.after fun v => .ite (fun _ => .error _) fun _ => ?_
  refine .ite (fun _ => ?_) fun _ => .ite (fun _ => ?_) fun _ => ?_
  · exact Yields.bind (storedBlockBody_keepsTables inb { st with reader := v.2 }) fun _ h => .ok h
  · exact Yields.bind (fixedBlockBody_keepsTables inb { st with reader := v.2 }) fun _ h => .ok h
  · exact Yields.bind (dynamicBlockBody_keepsTables inb { st with reader := v.2 }) fun _ h => .ok h

theorem inflateLoop_keepsTables (fuel : Nat) (st : Stream) :
    Yields (inflateLoop p.outCap inb fuel st) st.KeepsTables := by
  induction fuel generalizing st with
  | zero => exact .error _
  | succ fuel ih =>
    exact Yields.bind (inflateBlock_keepsTables inb st) fun v h =>
      .ite (fun _ => .ok h) fun _ => (ih v.2).mono fun _ => h.trans

end Tables

/-! ### The instructions -/

/-- HUF_BUILD loads a legal table (41_huffman R185). -/
theorem hufBuild_keepsTables (s : State) : Yields (streamAfter .hufBuild s) s.stream.KeepsTables := by
  refine .map <| Yields.after fun id => Yields.bind (failIf_yields _ _) fun _ hlen => Yields.after fun _ =>
    Yields.bind (failIf_yields _ _) fun _ hmax => ?_
  refine Yields.bind (buildTable_yields id ?_ ?_) fun t ht => .ok (setTable_keepsTables s.stream ht)
  · simpa [State.inBytes] using hlen
  · simpa using hmax

theorem deflHuff_keepsTables (s : State) : Yields (streamAfter .deflHuff s) s.stream.KeepsTables := by
  refine .map <| Yields.after fun _ => Yields.after fun ts => .ite (fun _ => ?_) fun _ => ?_
  · exact Yields.bind (dynamicBlock_keepsTables ts _ s.stream) fun _ h => .ok h
  · exact Yields.bind (fixedBlock_keepsTables ts _ s.stream) fun _ h => .ok h

theorem compress_keepsTables (s : State) : Yields (streamAfter .compress s) s.stream.KeepsTables := by
  refine .map <| Yields.after fun _ => .ite (fun _ => ?_) fun _ => ?_
  · exact Yields.bind (writeStored_keepsTables _ _ (restartWriter s.stream)) fun _ h => Yields.after fun _ => .ok h
  · exact Yields.bind (writeBlocks_keepsTables _ _ _ (restartWriter s.stream)) fun _ h => Yields.after fun _ => .ok h

theorem inflBlock_keepsTables (s : State) : Yields (streamAfter .inflBlock s) s.stream.KeepsTables :=
  .map <| Yields.bind (P := (· = s.stream)) (Yields.after fun _ => .ok rfl) fun st h =>
    Yields.bind (inflateBlock_keepsTables s.inByte st) fun _ hv => .ok (h ▸ hv)

theorem decompress_keepsTables (s : State) : Yields (streamAfter .decompress s) s.stream.KeepsTables :=
  .map <| Yields.bind (decompressStart_yields s) fun st₀ h₀ =>
    Yields.bind (inflateLoop_keepsTables s.inByte _ st₀) fun _ h => .ok (h₀.2 ▸ h : (decompressStream s).KeepsTables _)

/-- Every instruction keeps the tables legal, as far as it ends without `raise`. -/
theorem streamAfter_keepsTables (i : Instr) (s : State) : Yields (streamAfter i s) s.stream.KeepsTables := by
  have reader := fun h => (readerCommand_leaves s (i := i) h).mono (Q := s.stream.KeepsTables)
    (by rintro _ ⟨r, -, rfl⟩; exact .refl s.stream)
  have writer := fun h => (writerCommand_leaves s (i := i) h).mono (Q := s.stream.KeepsTables)
    (by rintro _ ⟨w, -, rfl⟩; exact .refl s.stream)
  cases i with
  | nop => exact .ok (.refl _)
  | resetStream => exact .ok fun _ => initial_tablesOk _ _
  | bwInit =>
    refine (bwInit_leaves s).mono ?_
    rintro _ ⟨-, rfl⟩
    exact .refl s.stream
  | brInit | brReadBits | brAlign | hufDecode => exact reader (by simp)
  | bwWriteBits | bwFlush | hufEncode | lzScan | deflStored => exact writer (by simp)
  | hufBuild => exact hufBuild_keepsTables s
  | hufLoadFixed => exact .ok (loadFixed_keepsTables s.stream)
  | deflHuff => exact deflHuff_keepsTables s
  | compress => exact compress_keepsTables s
  | inflBlock => exact inflBlock_keepsTables s
  | decompress => exact decompress_keepsTables s
  | streamBlockStored f => exact .map (storedBlockBody_keepsTables s.inByte s.stream)
  | streamBlockFixed f => exact .map (fixedBlockBody_keepsTables s.inByte s.stream)
  | streamBlockDynamic f => exact .map (dynamicBlockBody_keepsTables s.inByte s.stream)
  | streamBlockReserved f => exact .error _

theorem Leaves.keepsTables {s : State} {st : Stream} (h : Leaves s st) : s.stream.KeepsTables st := by
  cases h with
  | @command i _ h => exact streamAfter_keepsTables i s st h
  | @block b r _ hr h =>
    have hk := streamAfter_keepsTables (decodeHeader b) _ st h
    exact hk
  | inflBlock h =>
    obtain rfl : s.stream = st := Yields.after (fun _ => .ok rfl) st h
    exact .refl _
  | decompress h =>
    obtain ⟨-, rfl⟩ := decompressStart_yields s st h
    exact .refl s.stream

/-- Settles O59: every turn of a running core keeps the tables legal. -/
theorem stepKeepsTables : Obligations.StepKeepsTables := fun _ _ h hstep =>
  step_keeps_stream (Q := fun _ st => st.TablesOk) (fun _ => initial_tablesOk) (fun _ _ hst => hst.keepsTables) h hstep

end Sys2Proof.Machine

/-! Canonical codes (41_huffman R172..R174): no code begins another one, the symbols are sorted by length, and codes are
consecutive within a length. Then what Decode reads of written codes (R180), and of a lookup table (R179). -/

namespace Sys2Proof.Machine

open Sys2Proof

/-! ### No code begins another one -/

section Codes

variable {t : Table} {id : TableId}

theorem Table.msbNat_codeBits (ht : t.Ok id) {s : Nat} (hs : t.lenOf s ≠ 0) : msbNat (t.codeBits s) = t.code s := by
  rw [Table.codeBits_eq, msbNat_msbBits _ _ (Table.code_lt ht hs)]

/-- Of two codes one of which begins the other, the longer one would lie beyond the shorter one's length. -/
theorem Table.codeBits_prefix_free (ht : t.Ok id) {s s' : Nat} (hs : t.lenOf s ≠ 0) (hs' : t.lenOf s' ≠ 0)
    (hp : t.codeBits s <+: t.codeBits s') : s = s' := by
  have hlen : t.lenOf s ≤ t.lenOf s' := by simpa using hp.length_le
  rcases hlen.lt_or_eq with hlt | heq
  · have htake : (t.codeBits s').take (t.lenOf s) = t.codeBits s := by
      simpa using (List.prefix_iff_eq_take.1 hp).symm
    have hbeyond := Table.ends_le_prefix ht hs' hlt
    rw [htake, Table.msbNat_codeBits ht hs] at hbeyond
    have := Table.code_lt_ends hs
    omega
  · have hbits : t.codeBits s = t.codeBits s' := hp.eq_of_length (by simpa using heq)
    refine Table.code_inj hs heq ?_
    rw [← Table.msbNat_codeBits ht hs, ← Table.msbNat_codeBits ht hs', hbits]

/-! ### The order of the symbols -/

theorem Table.mem_syms (ht : t.Ok id) {s : Nat} : s ∈ t.syms ↔ t.lenOf s ≠ 0 := by
  simp only [Table.syms, List.mem_flatMap, List.mem_range, Table.symsOfLen_mem]
  constructor
  · rintro ⟨i, -, -, hl⟩; omega
  · intro hs
    have := ht.lenOf_le s
    exact ⟨t.lenOf s - 1, by omega, Table.lenOf_lt hs, by omega⟩

theorem Table.syms_sorted (t : Table) :
    t.syms.Pairwise (fun a b => t.lenOf a < t.lenOf b ∨ (t.lenOf a = t.lenOf b ∧ a < b)) := by
  rw [Table.syms, List.pairwise_flatMap]
  refine ⟨fun i _ => (Table.symsOfLen_sorted t (i + 1)).imp_of_mem fun ha hb hlt => .inr ⟨?_, hlt⟩,
    List.pairwise_lt_range.imp fun hij a ha b hb => .inl ?_⟩
  · rw [(Table.symsOfLen_mem.1 ha).2, (Table.symsOfLen_mem.1 hb).2]
  · rw [(Table.symsOfLen_mem.1 ha).2, (Table.symsOfLen_mem.1 hb).2]; omega

/-- SYMS[OFF[l] + k] is the symbol of length l whose code is the first one plus k. -/
theorem Table.syms_consecutive {l k : Nat} (h1 : 1 ≤ l) (h15 : l ≤ 15) (hk : k < t.count l) :
    t.lenOf (t.syms.getD (t.off l + k) 0) = l ∧ t.code (t.syms.getD (t.off l + k) 0) = t.first l + k := by
  rw [← Table.symsOfLen_length t (by omega)] at hk
  obtain ⟨hrank, hlen⟩ := Table.symsOfLen_rank hk
  rw [Table.syms_get h1 h15 hk, Table.code_eq, hlen, hrank]
  exact ⟨rfl, rfl⟩

end Codes

/-- Settles O16: codes of different lengths lie apart, and those of one length follow the symbols' order. -/
theorem canonicalCodes : Obligations.CanonicalCodes := by
  refine ⟨fun id t ht => ⟨fun s => Table.code_lt ht, fun s s' => Table.codeBits_prefix_free ht⟩,
    fun id t ht => ⟨rfl, fun l => ?_, t.syms_sorted, fun s => Table.mem_syms ht, fun l h1 h15 k =>
      Table.syms_consecutive h1 h15⟩⟩
  rw [Table.first_succ, Nat.shiftLeft_eq, Nat.mul_comm]
  rfl

/-! ### Reading back what was written -/

/-- The parameters under which the bytes of OUT are read as IN (41_huffman R180). -/
def readOut (p : Params) : Params := { p with inSize := p.outCap, inSize_bounds := p.outCap_bounds }

/-- The reader over the bytes from the place of `w` to that of `w'`, at the bit where `w` stands. -/
def Writer.readerTo (w w' : Writer) : Reader := ⟨w.outPos, w'.outPos, BitVec.ofNat 3 w.cnt.toNat⟩

section ReadBack

variable {p : Params} {w w' : Writer} {bits : List Bool}

theorem Writer.readerTo_bitPos (h : w.Ok p) : (w.readerTo w').bitPos = w.bitPos := by
  have := h.2.1
  simp only [Reader.bitPos, Writer.bitPos, Writer.readerTo, BitVec.toNat_ofNat]
  omega

/-- With nothing pending, the bits appended end where the written bytes do. -/
theorem Writer.Appended.flushed (ha : Writer.Appended p w w' bits) (h0 : w'.cnt = 0) :
    8 * w'.outPos.toNat = w.bitPos + bits.length := by
  have hz : w'.cnt.toNat = 0 := by rw [h0]; rfl
  rw [← ha.bitPos, Writer.bitPos, hz, Nat.add_zero]

theorem Writer.Appended.readerTo_left (ha : Writer.Appended p w w' bits) (h : w.Ok p) (h0 : w'.cnt = 0) :
    (w.readerTo w').left = bits.length := by
  have hend := ha.flushed h0
  have hlim : (w.readerTo w').lim.toNat = w'.outPos.toNat := rfl
  rw [Reader.left, Writer.readerTo_bitPos h, hlim]
  omega

theorem Writer.Appended.readerTo_ok (ha : Writer.Appended p w w' bits) (h : w.Ok p) (h0 : w'.cnt = 0) :
    (w.readerTo w').Ok (readOut p) := by
  have hend := ha.flushed h0
  have hc := h.2.1
  rw [Writer.bitPos] at hend
  refine ⟨?_, ha.ok.1, fun e => ?_⟩
  · simp only [Writer.readerTo]; omega
  · have hpos : w.outPos.toNat = w'.outPos.toNat := congrArg BitVec.toNat e
    have hcnt : w.cnt.toNat = 0 := by omega
    simp [Writer.readerTo, hcnt]

/-- The bits a reader finds in flushed bytes are those that were appended (40_bitstream R140, R150). -/
theorem Writer.Appended.readerTo_rest (ha : Writer.Appended p w w' bits) (h : w.Ok p) (h0 : w'.cnt = 0) :
    (w.readerTo w').rest (w'.out.read .outByte) = bits := by
  apply List.ext_getElem (by rw [Reader.rest_length, ha.readerTo_left h h0])
  intro i _ hi
  have hin : w.bitPos + i < 8 * w'.outPos.toNat := by rw [ha.flushed h0]; omega
  have hbit := ha.added i hi
  rw [Writer.bitAt, if_pos hin] at hbit
  simpa [Reader.rest, Reader.next, Writer.readerTo_bitPos h] using hbit

end ReadBack

/-- FlushToByte that does not raise appends bits and leaves nothing pending (40_bitstream R144). -/
theorem flushToByte_appended {p : Params} {w w' : Writer} {k : Nat} (h : w.Ok p)
    (hf : flushToByte p.outCap w = .ok (k, w')) : ∃ pad, Writer.Appended p w w' pad ∧ w'.cnt = 0 := by
  rcases flushToByte_cases h with ⟨h0, e⟩ | ⟨-, -, w₁, e, ha, hc, -⟩ | ⟨-, -, e⟩
  · cases hf.symm.trans e
    exact ⟨[], .refl h, BitVec.eq_of_toNat_eq h0⟩
  · cases hf.symm.trans e
    exact ⟨_, ha, hc⟩
  · cases hf.symm.trans e

/-- What an appending procedure that does not raise leaves. -/
theorem Appends.appended {p : Params} {f : Writer → Except Err Writer} {bits : List Bool} {w w' : Writer}
    (hf : Appends p f bits) (h : w.Ok p) (e : f w = .ok w') : Writer.Appended p w w' bits := by
  rcases hf w h with ⟨-, w₁, e₁, ha⟩ | ⟨-, e₁⟩
  · cases e.symm.trans e₁; exact ha
  · cases e.symm.trans e₁

/-- Settles O21: the bits that remain for the reader are the code and the padding, and Decode finds the code. -/
theorem decodeAfterEncode : Obligations.DecodeAfterEncode := by
  intro p id t s k w w' w'' ht hs hw henc hflush
  have hcode := (appends_encodeSymbol p t s).appended hw henc
  obtain ⟨pad, hpad, h0⟩ := flushToByte_appended hcode.ok hflush
  have ha := hcode.trans hpad
  have hrest := ha.readerTo_rest hw h0
  exact decodeSymbol_found ht (ha.readerTo_ok hw h0) hs (hrest ▸ List.prefix_append _ pad)

/-! ### The lookup table -/

theorem natBits_take {l n : Nat} (v : Nat) (h : l ≤ n) : (natBits n v).take l = natBits l v := by
  rw [natBits, ← List.map_take, List.take_range, Nat.min_eq_left h, natBits]

theorem natBits_mod (l v : Nat) : natBits l (v % 2 ^ l) = natBits l v :=
  List.map_congr_left fun i hi => by simp [Nat.testBit_mod_two_pow, List.mem_range.1 hi]

theorem natBits_revBits_code (t : Table) (s : Nat) :
    natBits (t.lenOf s) (revBits (t.lenOf s) (t.code s)) = t.codeBits s := natBits_revBits _ _

/-- An entry of the lookup table is a coded symbol whose code the index begins with (10_state R41). -/
theorem lutEntry_some {t : Table} {k idx s l : Nat} (h : lutEntry t k idx = some (s, l)) :
    t.lenOf s ≠ 0 ∧ l = t.lenOf s ∧ l ≤ k ∧ natBits l idx = t.codeBits s := by
  obtain ⟨s', hfind, he⟩ := Option.map_eq_some_iff.1 h
  cases he
  obtain ⟨⟨hpos, hle⟩, hrev⟩ := by simpa using List.find?_some hfind
  refine ⟨by omega, rfl, hle, ?_⟩
  rw [← natBits_mod, ← hrev, natBits_revBits_code]

/-- The bits a lookup table peeks begin what remains. -/
theorem natBits_peeked {p : Params} {inb : Nat → Byte} {r : Reader} (hr : r.Ok p) {l n : Nat} (hl : l ≤ n)
    (hn : n ≤ r.left) : natBits l (takeBits inb n r).1 <+: r.rest inb := by
  have hbits : natBits n (bitsNat (r.next inb n)) = r.next inb n := by
    simpa using natBits_bitsNat (r.next inb n)
  rw [takeBits_eq hr hn, ← natBits_take _ hl, hbits, Reader.next_eq_take hr hn]
  exact (List.take_prefix _ _).trans (List.take_prefix _ _)

/-- Settles O22: an entry within the bits that remain is the symbol Decode finds; otherwise the walk decodes. -/
theorem lookupTableDecodesAlike : Obligations.LookupTableDecodesAlike := by
  intro p id t inb k r ht hr
  unfold lutDecode
  split
  next s l hentry =>
    obtain ⟨hs, rfl, hk, hbits⟩ := lutEntry_some hentry
    rw [hr.remaining_eq] at hbits ⊢
    split
    next hle =>
      have hle : t.lenOf s ≤ r.left := by omega
      have hpeek := natBits_peeked (inb := inb) hr (l := t.lenOf s) (n := min k r.left) (by omega) (by omega)
      rw [Int.toNat_natCast] at hbits
      rw [hbits] at hpeek
      rw [decodeSymbol_found ht hr hs hpeek, takeBits_eq hr hle]
    next => rfl
  next => rfl

end Sys2Proof.Machine

/-! The commands of the Huffman coder: the results each completes with, or the error it raises (41_huffman R185..R188),
and the codes of the fixed tables (30_encoding R108, R109). -/

namespace Sys2Proof.Machine

open Sys2Proof

section HuffmanCommands

variable {s : State} {id : TableId}

/-! ### HUF_BUILD -/

theorem hufBuildBody_badId (h : 2 < s.a0) : hufBuildBody s = .error .invalidCommand := by
  simp [hufBuildBody, tableIdOf_bad h]

/-- The length bytes HUF_BUILD reads, as numbers (41_huffman R185). -/
def lengthBytes (s : State) : List Nat := (List.range s.a1).map (fun i => (s.inByte (s.a2 + i)).toNat)

/-- HUF_BUILD on a table: its three checks and BuildTable, in the order written (41_huffman R185). -/
theorem hufBuildBody_eq (hid : s.a0 = tableNumber id) :
    hufBuildBody s = (do
      failIf (decide (tableSize id < s.a1)) .invalidCommand
      checkRange s.params s.a2 s.a1
      failIf ((lengthBytes s).any (fun l => decide (tableMaxLen id < l))) .invalidCommand
      let t ← buildTable (tableSize id) (lengthBytes s)
      .ok ⟨s.stream.setTable id t, 0, 0⟩) := by
  have hbytes : (s.inBytes s.a2 s.a1).map BitVec.toNat = lengthBytes s := by
    rw [State.inBytes, List.map_map]; rfl
  rw [hufBuildBody, hid, tableIdOf_number, hbytes]
  rfl

theorem hufBuildBody_tooMany (hid : s.a0 = tableNumber id) (hn : tableSize id < s.a1) :
    hufBuildBody s = .error .invalidCommand := by
  simp [hufBuildBody_eq hid, hn]

theorem hufBuildBody_outOfRange (hid : s.a0 = tableNumber id) (hn : s.a1 ≤ tableSize id)
    (hr : s.params.inSize < s.a2 + s.a1) : hufBuildBody s = .error .invalidRange := by
  simp [hufBuildBody_eq hid, Nat.not_lt.2 hn, checkRange_error hr]

theorem hufBuildBody_tooLong (hid : s.a0 = tableNumber id) (hn : s.a1 ≤ tableSize id)
    (hr : s.a2 + s.a1 ≤ s.params.inSize) (hl : ∃ l ∈ lengthBytes s, tableMaxLen id < l) :
    hufBuildBody s = .error .invalidCommand := by
  have hany : (lengthBytes s).any (fun l => decide (tableMaxLen id < l)) = true := by simpa using hl
  rw [hufBuildBody_eq hid, hany]
  simp [Nat.not_lt.2 hn, checkRange_ok hr]

/-- Past its checks HUF_BUILD ends as BuildTable ends. -/
theorem hufBuildBody_build (hid : s.a0 = tableNumber id) (hn : s.a1 ≤ tableSize id)
    (hr : s.a2 + s.a1 ≤ s.params.inSize) (hl : ∀ l ∈ lengthBytes s, l ≤ tableMaxLen id) :
    hufBuildBody s = (do
      let t ← buildTable (tableSize id) (lengthBytes s)
      .ok ⟨s.stream.setTable id t, 0, 0⟩) := by
  have hany : (lengthBytes s).any (fun l => decide (tableMaxLen id < l)) = false := by simpa using hl
  rw [hufBuildBody_eq hid, hany]
  simp [Nat.not_lt.2 hn, checkRange_ok hr]

theorem tableMaxLen_le (id : TableId) : tableMaxLen id ≤ 15 := by cases id <;> decide

/-! ### HUF_DECODE -/

theorem hufDecodeBody_badId (h : 2 < s.a0) : hufDecodeBody s = .error .invalidCommand := by
  simp [hufDecodeBody, tableIdOf_bad h]

/-- HUF_DECODE on a table ends as Decode(T) ends (41_huffman R187). -/
theorem hufDecodeBody_ok {sym l : Nat} {r : Reader} (hid : s.a0 = tableNumber id)
    (h : decodeSymbol (s.stream.table id) s.inByte s.stream.reader = .ok ((sym, l), r)) :
    hufDecodeBody s = .ok ⟨{ s.stream with reader := r }, sym, l⟩ := by
  simp [hufDecodeBody, hid, h]

theorem hufDecodeBody_error {e : Err} (hid : s.a0 = tableNumber id)
    (h : decodeSymbol (s.stream.table id) s.inByte s.stream.reader = .error e) : hufDecodeBody s = .error e := by
  simp [hufDecodeBody, hid, h]

/-! ### HUF_ENCODE -/

theorem hufEncodeBody_badId (h : 2 < s.a0) : hufEncodeBody s = .error .invalidCommand := by
  simp [hufEncodeBody, tableIdOf_bad h]

theorem hufEncodeBody_uncoded (hid : s.a0 = tableNumber id)
    (h : tableSize id ≤ s.a1 ∨ (s.stream.table id).lenOf s.a1 = 0) : hufEncodeBody s = .error .invalidCommand := by
  have hbad : (decide (tableSize id ≤ s.a1) || (s.stream.table id).lenOf s.a1 == 0) = true := by simpa using h
  simp only [hufEncodeBody, hid, tableIdOf_number, except_ok_bind, hbad, failIf_true, except_error_bind]

/-- HUF_ENCODE of a coded symbol ends as Encode(T, s) ends (41_huffman R188). -/
theorem hufEncodeBody_coded (hid : s.a0 = tableNumber id) (hs : s.a1 < tableSize id)
    (hc : (s.stream.table id).lenOf s.a1 ≠ 0) :
    hufEncodeBody s = (do
      let w ← encodeSymbol s.params.outCap (s.stream.table id) s.a1 s.stream.writer
      .ok ⟨{ s.stream with writer := w }, (s.stream.table id).code s.a1, (s.stream.table id).lenOf s.a1⟩) := by
  have hgood : (decide (tableSize id ≤ s.a1) || (s.stream.table id).lenOf s.a1 == 0) = false := by simpa using ⟨hs, hc⟩
  simp only [hufEncodeBody, hid, tableIdOf_number, except_ok_bind, hgood, failIf_false]

end HuffmanCommands

/-- Settles O18: each check in turn, and then the two outcomes of BuildTable. -/
theorem hufBuildCompletes : Obligations.HufBuildCompletes := by
  refine ⟨rfl, fun s h => conclude_of_error (hufBuildBody_badId h), fun s id hid =>
    ⟨fun hn => conclude_of_error (hufBuildBody_tooMany hid hn), fun hn =>
      ⟨fun hr => conclude_of_error (hufBuildBody_outOfRange hid hn hr), fun hr =>
        ⟨fun hl => conclude_of_error (hufBuildBody_tooLong hid hn hr hl), fun hl => ?_⟩⟩⟩⟩
  have hbody := hufBuildBody_build hid hn hr hl
  rcases buildTable_cases (tableSize id) (lengthBytes s) fun l h => (hl l h).trans (tableMaxLen_le id)
    with ⟨hk, e⟩ | ⟨hk, e⟩
  · rw [e] at hbody
    exact ⟨fun h => absurd hk (Nat.not_le.2 h), fun _ => conclude_of_ok hbody⟩
  · rw [e] at hbody
    exact ⟨fun _ => conclude_of_error hbody, fun h => absurd h (Nat.not_le.2 hk)⟩

/-- Settles O19: the two outcomes of Decode, each carried to the end of the command. -/
theorem hufDecodeCompletes : Obligations.HufDecodeCompletes :=
  ⟨rfl, fun _ h => conclude_of_error (hufDecodeBody_badId h), fun _ _ hid hr ht =>
    ⟨fun _ hs hp => conclude_of_ok (hufDecodeBody_ok hid (decodeSymbol_found ht hr hs hp)),
      fun hno => conclude_of_error (hufDecodeBody_error hid (decodeSymbol_none ht hr hno))⟩⟩

/-- Settles O20: a coded symbol's code is appended, or does not fit. -/
theorem hufEncodeCompletes : Obligations.HufEncodeCompletes := by
  refine ⟨rfl, fun s h => conclude_of_error (hufEncodeBody_badId h), fun s id hid hw =>
    ⟨fun h => conclude_of_error (hufEncodeBody_uncoded hid h), fun hs hc => ?_⟩⟩
  have hbody := hufEncodeBody_coded hid hs hc
  have hcases := appends_encodeSymbol s.params (s.stream.table id) s.a1 s.stream.writer hw
  rw [Table.codeBits_length] at hcases
  rcases hcases with ⟨hroom, w', e, ha⟩ | ⟨hroom, e⟩
  · rw [e] at hbody
    exact ⟨fun _ => ⟨w', conclude_of_ok hbody, ha⟩, fun h => absurd hroom h⟩
  · rw [e] at hbody
    exact ⟨fun h => absurd h hroom, fun _ => conclude_of_error hbody⟩

/-! ### The fixed codes -/

/-- The lengths of the first `n` literal/length symbols, row by row (30_encoding R108). -/
theorem fixedLitlen_take (n : Nat) :
    fixedLitlen.take n = List.replicate (min n 144) 8 ++ List.replicate (min (n - 144) 112) 9 ++
      List.replicate (min (n - 256) 24) 7 ++ List.replicate (min (n - 280) 8) 8 := by
  simp only [fixedLitlen, List.take_append, List.take_replicate, List.length_append, List.length_replicate]

theorem fixedLitlen_count_seven (n : Nat) : (fixedLitlen.take n).count 7 = min (n - 256) 24 := by
  simp [fixedLitlen_take, List.count_replicate]

theorem fixedLitlen_count_eight (n : Nat) : (fixedLitlen.take n).count 8 = min n 144 + min (n - 280) 8 := by
  simp [fixedLitlen_take, List.count_replicate]

theorem fixedLitlen_count_nine (n : Nat) : (fixedLitlen.take n).count 9 = min (n - 144) 112 := by
  simp [fixedLitlen_take, List.count_replicate]

/-- The numbers of codes of each length (30_encoding R108). -/
theorem fixedLitlenTable_count (l : Nat) :
    fixedLitlenTable.count l = if l = 7 then 24 else if l = 8 then 152 else if l = 9 then 112 else 0 := by
  simp only [Table.count, fixedLitlenTable, fixedLitlen, List.count_append, List.count_replicate, beq_iff_eq]
  split_ifs <;> omega

theorem fixedDistTable_count (l : Nat) : fixedDistTable.count l = if l = 5 then 32 else 0 := by
  simp only [Table.count, fixedDistTable, fixedDist, List.count_replicate, beq_iff_eq]
  split_ifs <;> omega

/-- The first codes of the three lengths (30_encoding R109). -/
theorem fixedLitlenTable_first :
    fixedLitlenTable.first 7 = 0 ∧ fixedLitlenTable.first 8 = 0x30 ∧ fixedLitlenTable.first 9 = 0x190 := by
  simp [Table.first, fixedLitlenTable_count]

theorem fixedDistTable_first : fixedDistTable.first 5 = 0 := by
  simp [Table.first, fixedDistTable_count]

/-- The length of each literal/length symbol, row by row (30_encoding R108). -/
theorem fixedLitlenTable_lenOf {s : Nat} (h : s < 288) :
    fixedLitlenTable.lenOf s = if s < 144 then 8 else if s < 256 then 9 else if s < 280 then 7 else 8 := by
  rw [Table.lenOf, List.getD, fixedLitlenTable]
  simp only [fixedLitlen, List.getElem?_append, List.getElem?_replicate, List.length_append, List.length_replicate]
  split_ifs <;> simp only [Option.getD_some, Option.getD_none] <;> omega

/-- The rows of 30_encoding R109: a symbol, its length and its code. -/
theorem fixedLitlenTable_rows {s : Nat} (h : s < 288) :
    (s < 144 ∧ fixedLitlenTable.lenOf s = 8 ∧ fixedLitlenTable.code s = 0x30 + s) ∨
      (144 ≤ s ∧ s < 256 ∧ fixedLitlenTable.lenOf s = 9 ∧ fixedLitlenTable.code s = 0x190 + (s - 144)) ∨
      (256 ≤ s ∧ s < 280 ∧ fixedLitlenTable.lenOf s = 7 ∧ fixedLitlenTable.code s = s - 256) ∨
      (280 ≤ s ∧ fixedLitlenTable.lenOf s = 8 ∧ fixedLitlenTable.code s = 0xC0 + (s - 280)) := by
  have hlen := fixedLitlenTable_lenOf h
  obtain ⟨f7, f8, f9⟩ := fixedLitlenTable_first
  have hcode : fixedLitlenTable.code s = fixedLitlenTable.first (fixedLitlenTable.lenOf s) +
      (fixedLitlen.take s).count (fixedLitlenTable.lenOf s) := rfl
  split_ifs at hlen with h144 h256 h280 <;> rw [hlen] at hcode
  · rw [f8, fixedLitlen_count_eight] at hcode
    exact .inl ⟨h144, hlen, by omega⟩
  · rw [f9, fixedLitlen_count_nine] at hcode
    exact .inr (.inl ⟨by omega, h256, hlen, by omega⟩)
  · rw [f7, fixedLitlen_count_seven] at hcode
    exact .inr (.inr (.inl ⟨by omega, h280, hlen, by omega⟩))
  · rw [f8, fixedLitlen_count_eight] at hcode
    exact .inr (.inr (.inr ⟨by omega, hlen, by omega⟩))

theorem fixedDistTable_row {s : Nat} (h : s < 32) : fixedDistTable.lenOf s = 5 ∧ fixedDistTable.code s = s := by
  have hlen : fixedDistTable.lenOf s = 5 := by
    simp only [Table.lenOf, fixedDistTable, fixedDist, List.getD, List.getElem?_replicate, h, if_true, Option.getD_some]
  have hrank : (fixedDist.take s).count 5 = s := by
    rw [fixedDist, List.take_replicate, List.count_replicate_self]; omega
  have hcode : fixedDistTable.code s = fixedDistTable.first (fixedDistTable.lenOf s) +
      (fixedDist.take s).count (fixedDistTable.lenOf s) := rfl
  rw [hlen, hrank, fixedDistTable_first] at hcode
  exact ⟨hlen, by omega⟩

/-- The symbol whose code a 9-bit pattern begins with. -/
def fixedSymbol (x : Nat) : Nat :=
  if x < 96 then 256 + x / 4 else if x < 384 then x / 2 - 48 else if x < 400 then x / 2 + 88 else x - 256

/-- A pattern begins with the code of one symbol, and of no other (30_encoding R109). -/
theorem fixedSymbol_spec {x s : Nat} (hx : x < 512) (hs : s < 288) :
    fixedLitlenTable.code s = x / 2 ^ (9 - fixedLitlenTable.lenOf s) ↔ s = fixedSymbol x := by
  unfold fixedSymbol
  rcases fixedLitlenTable_rows hs with ⟨_, hl, hc⟩ | ⟨_, _, hl, hc⟩ | ⟨_, _, hl, hc⟩ | ⟨_, hl, hc⟩ <;>
    rw [hl, hc] <;> split_ifs <;> omega

theorem fixedSymbol_lt {x : Nat} (hx : x < 512) : fixedSymbol x < 288 := by
  unfold fixedSymbol
  split_ifs <;> omega

/-- Settles O17: the rows of the fixed codes, and the symbol that covers a pattern. -/
theorem hufLoadFixedCompletes : Obligations.HufLoadFixedCompletes := by
  refine ⟨rfl, ⟨fun s hs => ?_, fun s hs => ?_, fun s hs => ?_, fun s hs => ?_, fun s => fixedDistTable_row,
    fun x hx => ⟨fixedSymbol x, ⟨fixedSymbol_lt hx, (fixedSymbol_spec hx (fixedSymbol_lt hx)).2 rfl⟩,
      fun s ⟨hs, hcode⟩ => (fixedSymbol_spec hx hs).1 hcode⟩⟩, fun s => rfl⟩
  · have := fixedLitlenTable_rows (s := s) (by omega); omega
  · have := fixedLitlenTable_rows (s := 144 + s) (by omega); omega
  · have := fixedLitlenTable_rows (s := 256 + s) (by omega); omega
  · have := fixedLitlenTable_rows (s := 280 + s) (by omega); omega

end Sys2Proof.Machine

/-! The match finder: what FindMatch returns, the hash-chain arena, the tokens and what they replay to, and LZ_SCAN
(42_lz77 R213..R219). -/

namespace Sys2Proof.Machine

open Sys2Proof

section MatchFinder

variable {d : Nat → Byte} {n p : Nat}

/-! ### Match lengths -/

theorem commonLen_le (d : Nat → Byte) (k q p : Nat) : commonLen d k q p ≤ k := by
  fun_induction commonLen d k q p <;> omega

theorem commonLen_equal {k q p i : Nat} (h : i < commonLen d k q p) : d (q + i) = d (p + i) := by
  induction k generalizing q p i with
  | zero => exact absurd h (Nat.not_lt_zero i)
  | succ k ih =>
    rw [commonLen] at h
    split_ifs at h with heq
    · cases i with
      | zero => exact heq
      | succ i => simpa only [Nat.add_assoc, Nat.add_comm 1] using ih (Nat.lt_of_succ_lt_succ h)
    · exact absurd h (Nat.not_lt_zero i)

/-- Below its bound the run of equal bytes ends at two bytes that differ. -/
theorem commonLen_maximal {k q p : Nat} (h : commonLen d k q p < k) :
    d (q + commonLen d k q p) ≠ d (p + commonLen d k q p) := by
  induction k generalizing q p with
  | zero => exact absurd h (Nat.not_lt_zero _)
  | succ k ih =>
    rw [commonLen] at h ⊢
    split_ifs at h ⊢ with heq
    · simpa only [Nat.add_assoc, Nat.add_comm 1] using ih (Nat.lt_of_succ_lt_succ h)
    · exact heq

theorem matchLen_le (d : Nat → Byte) (n q p : Nat) : matchLen d n q p ≤ min 258 (n - p) := commonLen_le d _ q p

/-! ### Candidates -/

theorem mem_downFrom {m q : Nat} : q ∈ downFrom m ↔ q < m := by
  induction m with
  | zero => simp [downFrom]
  | succ m ih => rw [downFrom, List.mem_cons, ih]; omega

theorem downFrom_sorted (m : Nat) : (downFrom m).Pairwise (· > ·) := by
  induction m with
  | zero => exact .nil
  | succ m ih => exact .cons (fun q hq => mem_downFrom.1 hq) ih

/-- The positions below `m` that are chained under the hash `h`, nearest first. -/
def hashChain (d : Nat → Byte) (n h m : Nat) : List Nat :=
  (downFrom m).filter (fun q => decide (q + 3 ≤ n) && hash3 d q == h)

theorem chain_eq_hashChain (d : Nat → Byte) (n p : Nat) : chain d n p = hashChain d n (hash3 d p) p := rfl

theorem hashChain_sorted (d : Nat → Byte) (n h m : Nat) : (hashChain d n h m).Pairwise (· > ·) :=
  (downFrom_sorted m).filter _

theorem hashChain_succ (d : Nat → Byte) (n h m : Nat) :
    hashChain d n h (m + 1) =
      if m + 3 ≤ n ∧ hash3 d m = h then m :: hashChain d n h m else hashChain d n h m := by
  simp only [hashChain, downFrom, List.filter_cons, Bool.and_eq_true, decide_eq_true_eq, beq_iff_eq]

/-- A chain is empty, or its nearest member and then the chain below that member. -/
theorem hashChain_cases (d : Nat → Byte) (n h m : Nat) :
    hashChain d n h m = [] ∨
      ∃ q < m, q + 3 ≤ n ∧ hash3 d q = h ∧ hashChain d n h m = q :: hashChain d n h q := by
  induction m with
  | zero => exact .inl rfl
  | succ m ih =>
    rw [hashChain_succ]
    split_ifs with hm
    · exact .inr ⟨m, m.lt_succ_self, hm.1, hm.2, rfl⟩
    · exact ih.imp_right fun ⟨q, hq, hrest⟩ => ⟨q, hq.trans m.lt_succ_self, hrest⟩

/-- The candidates within the window of p. -/
def inWindow (p : Nat) (qs : List Nat) : List Nat := qs.filter (fun q => decide (p - q ≤ 32768))

theorem inWindow_cons_near {q : Nat} (h : p - q ≤ 32768) (qs : List Nat) : inWindow p (q :: qs) = q :: inWindow p qs :=
  List.filter_cons_of_pos (decide_eq_true h)

/-- Beyond the first candidate out of the window every candidate is out of it (42_lz77 R214: break). -/
theorem inWindow_cons_far {q : Nat} {qs : List Nat} (hs : (q :: qs).Pairwise (· > ·)) (h : 32768 < p - q) :
    inWindow p (q :: qs) = [] := by
  refine List.filter_eq_nil_iff.2 fun q' hq' => ?_
  have hle : q' ≤ q := (List.mem_cons.1 hq').elim (fun e => e.le) fun hmem => (List.rel_of_pairwise_cons hs hmem).le
  simp only [decide_eq_true_eq]
  omega

/-- The candidates FindMatch may visit (42_lz77 R214). -/
def candidates (d : Nat → Byte) (n mc p : Nat) : List Nat := (inWindow p (chain d n p)).take mc

theorem candidates_sorted (d : Nat → Byte) (n mc p : Nat) : (candidates d n mc p).Pairwise (· > ·) :=
  ((hashChain_sorted d n _ p).filter _).take

theorem candidates_bounds {mc q : Nat} (h : q ∈ candidates d n mc p) : q < p ∧ p - q ≤ 32768 := by
  obtain ⟨hchain, hwin⟩ := List.mem_filter.1 (List.mem_of_mem_take h)
  exact ⟨mem_downFrom.1 (List.mem_filter.1 hchain).1, of_decide_eq_true hwin⟩

theorem candidates_inWindow (d : Nat → Byte) (n mc p : Nat) :
    (inWindow p (candidates d n mc p)).take mc = candidates d n mc p := by
  have hall : inWindow p (candidates d n mc p) = candidates d n mc p :=
    List.filter_eq_self.2 fun q hq => decide_eq_true (candidates_bounds hq).2
  rw [hall, candidates, List.take_take, Nat.min_self]

/-! ### FindMatch -/

/-- One pass of FindMatch's loop: a strictly longer match replaces the best one so far (42_lz77 R214). -/
def longer (d : Nat → Byte) (n p : Nat) (best : Nat × Nat) (q : Nat) : Nat × Nat :=
  if best.1 < matchLen d n q p then (matchLen d n q p, p - q) else best

/-- No match replaces one of the greatest length possible. -/
theorem foldl_longer_full {best : Nat × Nat} (h : matchCap n p ≤ best.1) (qs : List Nat) :
    qs.foldl (longer d n p) best = best := by
  induction qs with
  | nil => rfl
  | cons q rest ih =>
    have hle : matchLen d n q p ≤ best.1 := (commonLen_le d _ q p).trans h
    rw [List.foldl_cons, longer, if_neg (Nat.not_lt.2 hle), ih]

/-- The breaks of FindMatch's loop leave out no better match: the loop is a fold over the candidates it may visit. -/
theorem bestMatch_eq_foldl {qs : List Nat} (hs : qs.Pairwise (· > ·)) (k : Nat) (best : Nat × Nat) :
    bestMatch d n p qs k best = ((inWindow p qs).take k).foldl (longer d n p) best := by
  induction qs generalizing k best with
  | nil => simp [bestMatch, inWindow]
  | cons q rest ih =>
    cases k with
    | zero => simp [bestMatch]
    | succ k =>
      have ih := ih hs.tail
      rw [bestMatch]
      split_ifs with hfar
      · rw [inWindow_cons_far hs hfar]; rfl
      · rw [inWindow_cons_near (Nat.not_lt.1 hfar), List.take_succ_cons, List.foldl_cons, longer]
        dsimp only
        split_ifs with hlonger hcap
        · exact (foldl_longer_full hcap.ge _).symm
        · exact ih k _
        · exact ih k _

/-- `q` gives the longest match of the candidates, and is the nearest that gives one of that length. -/
def NearestLongest (d : Nat → Byte) (n p : Nat) (qs : List Nat) (q : Nat) : Prop :=
  q ∈ qs ∧ ∀ q' ∈ qs, matchLen d n q' p ≤ matchLen d n q p ∧ (matchLen d n q' p = matchLen d n q p → q' ≤ q)

/-- A candidate with a shorter match does not displace the nearest longest one. -/
theorem NearestLongest.cons {qs : List Nat} {q q₁ : Nat} (h : NearestLongest d n p qs q₁)
    (hlt : matchLen d n q p < matchLen d n q₁ p) : NearestLongest d n p (q :: qs) q₁ :=
  ⟨List.mem_cons_of_mem q h.1, List.forall_mem_cons.2 ⟨⟨hlt.le, fun heq => absurd heq hlt.ne⟩, h.2⟩⟩

theorem foldl_longer_cases {qs : List Nat} (hs : qs.Pairwise (· > ·)) (best : Nat × Nat) :
    (qs.foldl (longer d n p) best = best ∧ ∀ q ∈ qs, matchLen d n q p ≤ best.1) ∨
      ∃ q, NearestLongest d n p qs q ∧ best.1 < matchLen d n q p ∧
        qs.foldl (longer d n p) best = (matchLen d n q p, p - q) := by
  induction qs generalizing best with
  | nil => exact .inl ⟨rfl, fun q hq => absurd hq List.not_mem_nil⟩
  | cons q rest ih =>
    rw [List.foldl_cons, longer]
    split_ifs with hlonger
    · rcases ih hs.tail (matchLen d n q p, p - q) with ⟨hfold, hle⟩ | ⟨q₁, hq₁, hlt, hfold⟩
      · refine .inr ⟨q, ⟨List.mem_cons_self, List.forall_mem_cons.2 ⟨⟨le_rfl, fun _ => le_rfl⟩, fun q' hq' => ?_⟩⟩,
          hlonger, hfold⟩
        exact ⟨hle q' hq', fun _ => (List.rel_of_pairwise_cons hs hq').le⟩
      · exact .inr ⟨q₁, hq₁.cons hlt, hlonger.trans hlt, hfold⟩
    · have hshort := Nat.not_lt.1 hlonger
      rcases ih hs.tail best with ⟨hfold, hle⟩ | ⟨q₁, hq₁, hlt, hfold⟩
      · exact .inl ⟨hfold, List.forall_mem_cons.2 ⟨hshort, hle⟩⟩
      · exact .inr ⟨q₁, hq₁.cons (hshort.trans_lt hlt), hlt, hfold⟩

/-- Everything FindMatch can return (42_lz77 R214). -/
theorem findMatch_cases (d : Nat → Byte) (n mc p : Nat) :
    (findMatch d n mc p = none ∧ ∀ q ∈ candidates d n mc p, matchLen d n q p < 3) ∨
      ∃ q, NearestLongest d n p (candidates d n mc p) q ∧ 3 ≤ matchLen d n q p ∧
        findMatch d n mc p = some (matchLen d n q p, p - q) := by
  have hloop : bestMatch d n p (chain d n p) mc (0, 0) = (candidates d n mc p).foldl (longer d n p) (0, 0) :=
    bestMatch_eq_foldl (hashChain_sorted d n _ p) mc (0, 0)
  rw [findMatch, hloop]
  split_ifs with hshort
  · exact .inl ⟨rfl, fun q _ => (matchLen_le d n q p).trans_lt ((Nat.min_le_right _ _).trans_lt hshort)⟩
  · rcases foldl_longer_cases (candidates_sorted d n mc p) (0, 0) with ⟨hfold, hle⟩ | ⟨q, hq, -, hfold⟩
    · exact .inl ⟨by rw [hfold]; rfl, fun q hq => (hle q hq).trans_lt (by decide)⟩
    · rw [hfold]
      dsimp only
      split_ifs with hlen
      · exact .inr ⟨q, hq, hlen, rfl⟩
      · exact .inl ⟨rfl, fun q' hq' => (hq.2 q' hq').1.trans_lt (Nat.not_le.1 hlen)⟩

/-- A match found is a legal one, and the bytes at its source are those at p. -/
theorem findMatch_sound {mc l dist : Nat} (h : findMatch d n mc p = some (l, dist)) :
    (3 ≤ l ∧ l ≤ 258 ∧ p + l ≤ n) ∧ (1 ≤ dist ∧ dist ≤ p ∧ dist ≤ 32768) ∧ ∀ i < l, d (p - dist + i) = d (p + i) := by
  rcases findMatch_cases d n mc p with ⟨hnone, -⟩ | ⟨q, ⟨hmem, -⟩, hlen, hsome⟩
  · cases hnone.symm.trans h
  · obtain ⟨rfl, rfl⟩ : matchLen d n q p = l ∧ p - q = dist := by simpa using hsome.symm.trans h
    have hle := matchLen_le d n q p
    have hq := candidates_bounds hmem
    refine ⟨by omega, by omega, fun i hi => ?_⟩
    rw [Nat.sub_sub_self hq.1.le]
    exact commonLen_equal hi

/-! ### The hash-chain arena -/

/-- HEAD of a hash is the nearest position of its chain (42_lz77 R218). -/
theorem Arena.upTo_headAt (d : Nat → Byte) (n h m : Nat) :
    (Arena.upTo d n m).headAt h = (hashChain d n h m).head? := by
  induction m with
  | zero => rfl
  | succ m ih =>
    rw [Arena.upTo, hashChain_succ]
    by_cases hm : m + 3 ≤ n
    · by_cases hh : hash3 d m = h
      · simp [hm, hh, Arena.insert, Arena.headAt]
      · have hne : (h == hash3 d m) = false := beq_false_of_ne (Ne.symm hh)
        rw [if_pos hm, if_neg (fun hc => hh hc.2), ← ih]
        simp only [Arena.insert, Arena.headAt, List.lookup_cons, hne]
    · rw [if_neg hm, if_neg (fun hc => hm hc.1), ih]

/-- PREV at a position within the last 32768 is what that position wrote: the nearest position of its chain below it
(42_lz77 R218). -/
theorem Arena.upTo_prevAt {q m : Nat} (hq : q + 3 ≤ n) (hlt : q < m) (hwin : m ≤ q + 32768) :
    (Arena.upTo d n m).prevAt q = (hashChain d n (hash3 d q) q).head? := by
  induction m with
  | zero => exact absurd hlt (Nat.not_lt_zero q)
  | succ m ih =>
    rw [Arena.upTo]
    rcases Nat.lt_succ_iff_lt_or_eq.1 hlt with hqm | rfl
    · have ih := ih hqm (by omega)
      split_ifs with hm
      · have hslot : (q % Config.wsize == m % Config.wsize) = false :=
          beq_false_of_ne (by simp only [Config.wsize]; omega)
        rw [← ih]
        simp only [Arena.insert, Arena.prevAt, List.lookup_cons, hslot]
      · exact ih
    · rw [if_pos hq, ← Arena.upTo_headAt]
      simp [Arena.insert, Arena.prevAt]

/-- The walk along PREV visits the chain's members within the window, up to the bound (42_lz77 R218). -/
theorem Arena.walk_eq {m : Nat} (h : Nat) (hm : m ≤ p) (k : Nat) :
    (Arena.upTo d n p).walk p k (hashChain d n h m).head? = (inWindow p (hashChain d n h m)).take k := by
  induction k generalizing m with
  | zero => rw [Arena.walk, List.take_zero]
  | succ k ih =>
    rcases hashChain_cases d n h m with hnil | ⟨q, hqm, hqn, rfl, hcons⟩
    · rw [hnil]; rfl
    · have hs := hashChain_sorted d n (hash3 d q) m
      rw [hcons] at hs ⊢
      rw [List.head?_cons, Arena.walk]
      split_ifs with hfar
      · rw [inWindow_cons_far hs hfar]; rfl
      · have hnear : p - q ≤ 32768 := Nat.not_lt.1 hfar
        rw [inWindow_cons_near hnear, List.take_succ_cons, Arena.upTo_prevAt hqn (by omega) (by omega), ih (by omega)]

theorem Arena.walk_candidates (d : Nat → Byte) (n mc p : Nat) :
    (Arena.upTo d n p).walk p mc ((Arena.upTo d n p).headAt (hash3 d p)) = candidates d n mc p := by
  rw [Arena.upTo_headAt, Arena.walk_eq _ le_rfl, candidates, chain_eq_hashChain]

/-- The loop of FindMatch gives the same over the whole chain and over the candidates alone. -/
theorem bestMatch_candidates (d : Nat → Byte) (n mc p : Nat) (best : Nat × Nat) :
    bestMatch d n p (candidates d n mc p) mc best = bestMatch d n p (chain d n p) mc best := by
  rw [bestMatch_eq_foldl (candidates_sorted d n mc p), candidates_inWindow,
    chain_eq_hashChain, bestMatch_eq_foldl (hashChain_sorted d n _ p)]
  rfl

/-! ### Replay -/

/-- The bytes before position p, newest first. -/
def before (d : Nat → Byte) (p : Nat) : List Byte := ((List.range p).map d).reverse

theorem before_succ (d : Nat → Byte) (p : Nat) : before d (p + 1) = d p :: before d p := by
  simp [before, List.range_succ]

theorem before_getD {dist : Nat} (h1 : 1 ≤ dist) (hp : dist ≤ p) : (before d p).getD (dist - 1) 0 = d (p - dist) := by
  have hlt : dist - 1 < (before d p).length := by
    simp only [before, List.length_reverse, List.length_map, List.length_range]
    omega
  rw [List.getD_eq_getElem _ _ hlt]
  simp only [before, List.getElem_reverse, List.getElem_map, List.getElem_range, List.length_map, List.length_range]
  congr 1; omega

/-- Copying from a source whose bytes are those at p gives the bytes up to the match's end. -/
theorem replayToken_before {l dist : Nat} (h1 : 1 ≤ dist) (hp : dist ≤ p)
    (heq : ∀ i < l, d (p - dist + i) = d (p + i)) :
    replayToken (before d p) (.mtch l dist) = before d (p + l) := by
  rw [replayToken]
  induction l with
  | zero => rfl
  | succ l ih =>
    rw [Function.iterate_succ_apply', ih fun i hi => heq i (hi.trans l.lt_succ_self), before_getD h1 (by omega),
      Nat.sub_add_comm hp, heq l l.lt_succ_self, ← Nat.add_assoc, before_succ]

/-- The tokens stand for the input from position p to its end, and are legal there (42_lz77 R217). -/
structure Covers (d : Nat → Byte) (n p : Nat) (ts : List Token) : Prop where
  span : p + spanOf ts = n
  fit : tokensFit p ts = true
  replayed : replayOnto (before d p) ts = before d n

theorem Covers.nil (d : Nat → Byte) (n : Nat) : Covers d n n [] := ⟨rfl, rfl, rfl⟩

theorem Covers.lit {ts : List Token} (h : Covers d n (p + 1) ts) : Covers d n p (.lit (d p) :: ts) where
  span := by rw [spanOf_cons, ← Nat.add_assoc]; exact h.span
  fit := h.fit
  replayed := by rw [replayOnto, List.foldl_cons, replayToken, ← before_succ]; exact h.replayed

theorem Covers.mtch {mc l dist : Nat} {ts : List Token} (hm : findMatch d n mc p = some (l, dist))
    (h : Covers d n (p + l) ts) : Covers d n p (.mtch l dist :: ts) := by
  obtain ⟨⟨hl3, hl258, -⟩, ⟨hd1, hdp, hdw⟩, heq⟩ := findMatch_sound hm
  refine ⟨?_, ?_, ?_⟩
  · rw [spanOf_cons, ← Nat.add_assoc]; exact h.span
  · have hwf : Token.wf (.mtch l dist) = true := by simp [Token.wf, Config.minMatch, Config.maxMatch, *]
    rw [tokensFit, hwf, decide_eq_true hdp]; exact h.fit
  · rw [replayOnto, List.foldl_cons, replayToken_before hd1 hdp heq]; exact h.replayed

theorem tokenizeFrom_covers (d : Nat → Byte) (mc : Nat) (lazy : Bool) {fuel : Nat} (hp : p ≤ n) (hf : n ≤ p + fuel) :
    Covers d n p (tokenizeFrom d n mc lazy fuel p) := by
  induction fuel generalizing p with
  | zero =>
    obtain rfl : p = n := by omega
    exact .nil d p
  | succ fuel ih =>
    rw [tokenizeFrom]
    split_ifs with hend
    · obtain rfl : p = n := by omega
      exact .nil d p
    · cases hm : findMatch d n mc p with
      | none => exact .lit (ih (by omega) (by omega))
      | some m =>
        dsimp only
        split_ifs with hdefer
        · exact .lit (ih (by omega) (by omega))
        · obtain ⟨⟨hl3, -, hln⟩, -⟩ := findMatch_sound hm
          exact .mtch hm (ih hln (by omega))

theorem literals_cover (d : Nat → Byte) (p k : Nat) :
    Covers d (p + k) p ((List.range' p k).map (fun i => .lit (d i))) := by
  induction k generalizing p with
  | zero => exact .nil d p
  | succ k ih =>
    have hrest := ih (p + 1)
    rw [Nat.add_right_comm] at hrest
    exact hrest.lit

theorem Covers.replays {ts : List Token} (h : Covers d n 0 ts) :
    spanOf ts = n ∧ tokensFit 0 ts = true ∧ replay ts = (List.range n).map d := by
  refine ⟨by simpa using h.span, h.fit, ?_⟩
  have hreplay : replayOnto [] ts = before d n := h.replayed
  rw [replay, hreplay, before, List.reverse_reverse]

/-! ### LZ_SCAN -/

variable {s : State}

theorem lzScanBody_invalid (h : s.params.inSize < s.a0 + s.a1) : lzScanBody s = .error .invalidRange := by
  simp [lzScanBody, checkRange_error h]

theorem lzScanBody_partial (hr : s.a0 + s.a1 ≤ s.params.inSize) (hc : s.stream.writer.cnt ≠ 0) :
    lzScanBody s = .error .invalidCommand := by
  have hbad : (s.stream.writer.cnt != 0) = true := bne_iff_ne.2 hc
  rw [lzScanBody, checkRange_ok hr, hbad]; rfl

/-- Past its checks LZ_SCAN ends as the writing of its records ends (42_lz77 R219). -/
theorem lzScanBody_writes (hr : s.a0 + s.a1 ≤ s.params.inSize) (hc : s.stream.writer.cnt = 0) :
    lzScanBody s = (do
      let w ← putBytes s.params.outCap ((commandTokens s).flatMap recordBytes) s.stream.writer
      .ok ⟨{ s.stream with writer := w }, (commandTokens s).length, 0⟩) := by
  have hgood : (s.stream.writer.cnt != 0) = false := bne_eq_false_iff_eq.2 hc
  rw [lzScanBody, checkRange_ok hr, hgood]; rfl

theorem recordBytes_flatMap_length (ts : List Token) : (ts.flatMap recordBytes).length = 4 * ts.length := by
  rw [List.length_flatMap]
  simp [recordBytes, Nat.mul_comm]

end MatchFinder

/-- Settles O24: the loop is a fold over the candidates, sorted nearest first, and keeps the first of the longest. -/
theorem findMatchReturnsTheNearestLongest : Obligations.FindMatchReturnsTheNearestLongest := by
  refine fun d n mc p => ⟨fun q => ⟨matchLen_le d n q p, fun i => commonLen_equal, commonLen_maximal⟩,
    fun l dist h => ?_, ?_⟩
  · obtain ⟨⟨hl3, hl258, -⟩, ⟨hd1, hdp, hdw⟩, -⟩ := findMatch_sound h
    rcases findMatch_cases d n mc p with ⟨hnone, -⟩ | ⟨q, ⟨hmem, hbest⟩, -, hsome⟩
    · cases hnone.symm.trans h
    · obtain ⟨rfl, rfl⟩ : matchLen d n q p = l ∧ p - q = dist := by simpa using hsome.symm.trans h
      rw [Nat.sub_sub_self (candidates_bounds hmem).1.le]
      exact ⟨hl3, hl258, hd1, hdp, hdw, hmem, rfl, hbest⟩
  · rcases findMatch_cases d n mc p with ⟨hnone, hshort⟩ | ⟨q, ⟨hmem, -⟩, hlen, hsome⟩
    · exact ⟨fun _ => hshort, fun _ => hnone⟩
    · exact ⟨fun hnone => absurd (hnone.symm.trans hsome) (by simp),
        fun hshort => absurd (hshort q hmem) (Nat.not_lt.2 hlen)⟩

/-- Settles O26: the arena's walk visits the candidates of FindMatch. -/
theorem arenaFindsTheSameMatches : Obligations.ArenaFindsTheSameMatches := by
  intro d n mc p
  simp only [arenaFindMatch, findMatch, Arena.walk_candidates, bestMatch_candidates]

/-- Settles O25: each token takes the bytes replayed so far to those before the next position. -/
theorem tokensReplayTheInput : Obligations.TokensReplayTheInput := by
  intro d n mc lazy
  refine ⟨(tokenizeFrom_covers d mc lazy n.zero_le (by omega)).replays, ?_⟩
  have h := literals_cover d 0 n
  rw [Nat.zero_add, ← List.range_eq_range'] at h
  exact h.replays

/-- Settles O27: the two checks, and then the two outcomes of writing the records. -/
theorem lzScanCompletes : Obligations.LzScanCompletes := by
  refine ⟨rfl, fun s hw => ⟨fun hr => conclude_of_error (lzScanBody_invalid hr), fun hr =>
    ⟨fun hc => conclude_of_error (lzScanBody_partial hr hc), fun hc => ?_⟩⟩⟩
  have hbody := lzScanBody_writes hr hc
  have hcases := putBytes_cases ((commandTokens s).flatMap recordBytes) hw.1
  rw [recordBytes_flatMap_length] at hcases
  rcases hcases with ⟨hroom, out, e, hheld, houtside⟩ | ⟨hfull, e⟩
  · rw [e] at hbody
    exact ⟨fun hfull => absurd hroom (Nat.not_le.2 hfull), fun _ => ⟨out, conclude_of_ok hbody, hheld, houtside⟩⟩
  · rw [e] at hbody
    exact ⟨fun _ => conclude_of_error hbody, fun hroom => absurd hroom (Nat.not_le.2 hfull)⟩

end Sys2Proof.Machine

/-! The run-length encoding of code lengths and the partition into blocks: the pairs expand back to the lengths, and the
blocks lie one after the other (43_deflate R245, R248). -/

namespace Sys2Proof.Machine

open Sys2Proof

section RunLengths

variable {vs v w : List Nat} {ps qs : List (Nat × Nat)} {l r : Nat}

/-! ### Pairs -/

/-- The pairs are legal, and after the lengths `vs` they stand for the lengths `v` (30_encoding R112). -/
structure Expands (vs : List Nat) (ps : List (Nat × Nat)) (v : List Nat) : Prop where
  legal : ∀ ke ∈ ps, ke.1 ≤ 18 ∧ ke.2 < 2 ^ clenExtra ke.1
  expanded : expandPairs vs ps = vs ++ v

theorem expandPairs_append (vs : List Nat) (ps qs : List (Nat × Nat)) :
    expandPairs vs (ps ++ qs) = expandPairs (expandPairs vs ps) qs := by
  induction ps generalizing vs with
  | nil => rfl
  | cons ke rest ih =>
    simp only [List.cons_append, expandPairs]
    split_ifs <;> exact ih _

theorem Expands.nil (vs : List Nat) : Expands vs [] [] := ⟨by simp, by simp [expandPairs]⟩

theorem Expands.append (h₁ : Expands vs ps v) (h₂ : Expands (vs ++ v) qs w) : Expands vs (ps ++ qs) (v ++ w) where
  legal ke hke := (List.mem_append.1 hke).elim (h₁.legal ke) (h₂.legal ke)
  expanded := by rw [expandPairs_append, h₁.expanded, h₂.expanded, List.append_assoc]

theorem Expands.single {k e : Nat} (hk : k ≤ 18) (he : e < 2 ^ clenExtra k) (h : expandPairs vs [(k, e)] = vs ++ v) :
    Expands vs [(k, e)] v :=
  ⟨fun _ hke => List.mem_singleton.1 hke ▸ ⟨hk, he⟩, h⟩

theorem Expands.one (hl : l ≤ 15) : Expands vs [(l, 0)] [l] :=
  .single (by omega) (Nat.two_pow_pos _) (by simp [expandPairs, Nat.lt_succ_of_le hl])

theorem Expands.ones (hl : l ≤ 15) : Expands vs (pairs r (l, 0)) (List.replicate r l) := by
  induction r generalizing vs with
  | zero => exact .nil vs
  | succ r ih => exact (Expands.one hl).append ih

theorem Expands.repeats (hlast : vs.getLastD 0 = l) (h3 : 3 ≤ r) (h6 : r ≤ 6) :
    Expands vs [(16, r - 3)] (List.replicate r l) :=
  .single (by decide) (by rw [clenExtra, if_pos rfl]; omega) (by
    simp only [expandPairs, hlast, Nat.add_sub_cancel' h3]; rfl)

theorem Expands.zeros (h3 : 3 ≤ r) (h10 : r ≤ 10) : Expands vs [(17, r - 3)] (List.replicate r 0) :=
  .single (by decide) (show r - 3 < 8 by omega) (by simp only [expandPairs, Nat.add_sub_cancel' h3]; rfl)

theorem Expands.manyZeros (h11 : 11 ≤ r) (h138 : r ≤ 138) : Expands vs [(18, r - 11)] (List.replicate r 0) :=
  .single (by decide) (show r - 11 < 128 by omega) (by simp only [expandPairs, Nat.add_sub_cancel' h11]; rfl)

/-! ### Runs -/

theorem getLastD_append_replicate (hlast : vs.getLastD 0 = l) (k : Nat) :
    (vs ++ List.replicate k l).getLastD 0 = l := by
  cases k with
  | zero => simpa using hlast
  | succ k => rw [List.replicate_succ', ← List.append_assoc, List.getLastD_concat]

theorem repeatPairs_expands (hl : l ≤ 15) (hlast : vs.getLastD 0 = l) (fuel r : Nat) :
    Expands vs (repeatPairs l fuel r) (List.replicate r l) := by
  induction fuel generalizing vs r with
  | zero => exact .ones hl
  | succ fuel ih =>
    rw [repeatPairs]
    split
    next h3 =>
      have hrest := (Expands.repeats hlast (r := min r 6) (by omega) (by omega)).append
        (ih (getLastD_append_replicate hlast _) (r - min r 6))
      rwa [List.replicate_append_replicate, Nat.add_sub_cancel' (Nat.min_le_left r 6)] at hrest
    next => exact .ones hl

/-- How many copies of `l` a list that goes on with `rest` after an `l` begins with (43_deflate R245). -/
abbrev runLength (l : Nat) (rest : List Nat) : Nat := 1 + (rest.takeWhile (· == l)).length

theorem rleFrom_cons (fuel l : Nat) (rest : List Nat) :
    rleFrom (fuel + 1) (l :: rest) =
      if l = 0 then
        if 11 ≤ runLength l rest then
          (18, min (runLength l rest) 138 - 11) :: rleFrom fuel ((l :: rest).drop (min (runLength l rest) 138))
        else if 3 ≤ runLength l rest then
          (17, runLength l rest - 3) :: rleFrom fuel ((l :: rest).drop (runLength l rest))
        else (0, 0) :: rleFrom fuel rest
      else
        (l, 0) :: (repeatPairs l (runLength l rest - 1) (runLength l rest - 1) ++
          rleFrom fuel ((l :: rest).drop (runLength l rest))) := rfl

/-- A list begins with the copies of its run. -/
theorem replicate_append_drop (rest : List Nat) (h : r ≤ runLength l rest) :
    List.replicate r l ++ (l :: rest).drop r = l :: rest := by
  have hrun : l :: rest.takeWhile (· == l) = List.replicate (runLength l rest) l := by
    refine List.eq_replicate_iff.2 ⟨by simp [Nat.add_comm], fun b hb => ?_⟩
    rcases List.mem_cons.1 hb with rfl | hb
    · rfl
    · simpa using List.mem_takeWhile_imp hb
  have hsplit : l :: rest = List.replicate (runLength l rest) l ++ rest.dropWhile (· == l) := by
    rw [← hrun, List.cons_append, List.takeWhile_append_dropWhile]
  rw [hsplit, List.drop_append_of_le_length (by simpa using h), List.drop_replicate, ← List.append_assoc,
    List.replicate_append_replicate, Nat.add_sub_cancel' h]

theorem rleFrom_expands (fuel : Nat) (v : List Nat) (hf : v.length ≤ fuel) (hv : ∀ l ∈ v, l ≤ 15) :
    Expands vs (rleFrom fuel v) v := by
  induction fuel generalizing vs v with
  | zero =>
    obtain rfl : v = [] := List.eq_nil_of_length_eq_zero (by omega)
    exact .nil vs
  | succ fuel ih =>
    cases v with
    | nil => exact .nil vs
    | cons l rest =>
      have hl : l ≤ 15 := hv l List.mem_cons_self
      have hpos : 1 ≤ runLength l rest := Nat.le_add_right 1 _
      have hgo : ∀ {r ps}, 1 ≤ r → r ≤ runLength l rest → Expands vs ps (List.replicate r l) →
          Expands vs (ps ++ rleFrom fuel ((l :: rest).drop r)) (l :: rest) := fun {r ps} h1 hr hp => by
        have hrest := hp.append (ih ((l :: rest).drop r)
          (by simp only [List.length_drop, List.length_cons] at hf ⊢; omega)
          fun x hx => hv x (List.mem_of_mem_drop hx))
        rwa [replicate_append_drop rest hr] at hrest
      rw [rleFrom_cons]
      generalize runLength l rest = run at hpos hgo
      split_ifs with h0 h11 h3
      · subst h0
        exact hgo (by omega) (Nat.min_le_left _ _) (Expands.manyZeros (by omega) (by omega))
      · subst h0
        exact hgo (by omega) le_rfl (Expands.zeros h3 (by omega))
      · subst h0
        exact hgo le_rfl hpos (Expands.one hl)
      · have hrun := (Expands.one (vs := vs) hl).append
          (repeatPairs_expands hl (List.getLastD_concat ..) (run - 1) (run - 1))
        rw [List.singleton_append, List.singleton_append, ← List.replicate_succ, Nat.sub_add_cancel hpos] at hrun
        exact hgo hpos le_rfl hrun

theorem rle_expands (hv : ∀ l ∈ v, l ≤ 15) : Expands vs (rle v) v := rleFrom_expands _ v le_rfl hv

/-- The first pair sends the first length itself, or zeros. -/
theorem rle_head (hv : ∀ l ∈ v, l ≤ 15) : (rle v).head?.map Prod.fst ≠ some 16 := by
  cases v with
  | nil => simp [rle, rleFrom]
  | cons l rest =>
    have hl : l ≤ 15 := hv l List.mem_cons_self
    have h16 : l ≠ 16 := by omega
    rw [rle, List.length_cons, rleFrom_cons]
    split_ifs <;> simp [h16]

end RunLengths

/-- Settles O30: each pair stands for the part of a run it was made from. -/
theorem rleExpandsBack : Obligations.RleExpandsBack := fun _ _ hv =>
  ⟨(rle_expands (vs := []) hv).legal, rle_head hv, (rle_expands hv).expanded⟩

section Partition

variable {bt p : Nat} {b cur : Block} {bs : List Block} {ts : List Token}

/-! ### Blocks one after the other -/

/-- The first block begins at p and every other one where the one before it ends (43_deflate R248). -/
def Consecutive : Nat → List Block → Prop
  | _, [] => True
  | p, b :: rest => b.start = p ∧ Consecutive (p + b.span) rest

/-- A block of Partition: its own span, and its bounds (43_deflate R248). -/
structure Block.Bounded (bt : Nat) (b : Block) : Prop where
  span : b.span = spanOf b.tokens
  count : 1 ≤ bt → b.tokens.length ≤ bt
  stored : b.span ≤ 65535

theorem spanOf_append (xs ys : List Token) : spanOf (xs ++ ys) = spanOf xs + spanOf ys := by simp [spanOf]

theorem Consecutive.start (h : Consecutive p bs) (hspan : ∀ b ∈ bs, b.span = spanOf b.tokens) (i : Nat)
    (hi : i < bs.length) : bs[i].start = p + spanOf ((bs.take i).flatMap Block.tokens) := by
  induction bs generalizing p i with
  | nil => exact absurd hi (Nat.not_lt_zero i)
  | cons b rest ih =>
    cases i with
    | zero => exact h.1
    | succ i =>
      rw [List.getElem_cons_succ, ih h.2 (fun x hx => hspan x (List.mem_cons_of_mem _ hx)), List.take_succ_cons,
        List.flatMap_cons, spanOf_append, ← hspan b List.mem_cons_self, Nat.add_assoc]

/-! ### The loop of Partition -/

/-- The open block as it is closed: its tokens are kept newest first while it is open. -/
def Block.closed (cur : Block) : Block := { cur with tokens := cur.tokens.reverse }

/-- A token joins the open block. -/
def Block.push (cur : Block) (t : Token) : Block :=
  { cur with tokens := t :: cur.tokens, span := cur.span + Token.span t }

/-- The block that a token opens at q. -/
def Block.opened (q : Nat) (t : Token) : Block := ⟨[t], q, Token.span t⟩

theorem partitionFrom_cons (bt : Nat) (t : Token) (ts : List Token) (cur : Block) :
    partitionFrom bt (t :: ts) cur =
      if cur.tokens.length = bt ∨ Config.maxStored < cur.span + Token.span t then
        cur.closed :: partitionFrom bt ts (.opened (cur.start + cur.span) t)
      else partitionFrom bt ts (cur.push t) := rfl

theorem spanOf_reverse (ts : List Token) : spanOf ts.reverse = spanOf ts := by simp [spanOf, List.sum_reverse]

theorem Token.span_le {t : Token} (h : t.wf = true) : Token.span t ≤ 258 := by
  cases t with
  | lit b => simp [Token.span]
  | mtch l d => exact ((Token.wf_mtch_iff l d).1 h).1.2

theorem Block.Bounded.opened {t : Token} (h : t.wf = true) (q : Nat) : (Block.opened q t).closed.Bounded bt :=
  ⟨by simp [Block.opened, Block.closed, spanOf], id, (Token.span_le h).trans (by decide)⟩

theorem Block.Bounded.push {t : Token} (h : cur.closed.Bounded bt) (hbt : cur.tokens.length ≠ bt)
    (hspan : cur.span + Token.span t ≤ 65535) : (cur.push t).closed.Bounded bt := by
  obtain ⟨hs, hc, -⟩ := h
  simp only [Block.closed, spanOf_reverse, List.length_reverse] at hs hc
  refine ⟨?_, fun h1 => ?_, hspan⟩
  · simp only [Block.closed, Block.push, spanOf_reverse, spanOf_cons, hs, Nat.add_comm]
  · have hcount := hc h1
    simp only [Block.closed, Block.push, List.length_reverse, List.length_cons]; omega

/-- The loop keeps the tokens, and closes bounded blocks that lie one after the other. -/
theorem partitionFrom_spec (ts : List Token) (hts : ∀ t ∈ ts, t.wf = true) (hcur : cur.closed.Bounded bt) :
    (partitionFrom bt ts cur).flatMap Block.tokens = cur.tokens.reverse ++ ts ∧
      (∀ b ∈ partitionFrom bt ts cur, b.Bounded bt) ∧ Consecutive cur.start (partitionFrom bt ts cur) := by
  induction ts generalizing cur with
  | nil => exact ⟨by simp [partitionFrom], List.forall_mem_singleton.2 hcur, rfl, trivial⟩
  | cons t ts ih =>
    have ht := hts t List.mem_cons_self
    have hrest : ∀ t ∈ ts, t.wf = true := fun x hx => hts x (List.mem_cons_of_mem _ hx)
    rw [partitionFrom_cons]
    split
    next =>
      obtain ⟨htok, hall, hcons⟩ := ih hrest (cur := .opened (cur.start + cur.span) t) (.opened ht _)
      exact ⟨by rw [List.flatMap_cons, htok]; rfl, List.forall_mem_cons.2 ⟨hcur, hall⟩, rfl, hcons⟩
    next hopen =>
      obtain ⟨hfull, hlong⟩ := not_or.1 hopen
      obtain ⟨htok, hall, hcons⟩ := ih hrest (cur := cur.push t) (hcur.push hfull (Nat.not_lt.1 hlong))
      exact ⟨by rw [htok]; simp [Block.push], hall, hcons⟩

theorem partition_spec (bt : Nat) (hts : ∀ t ∈ ts, t.wf = true) :
    (partition bt ts).flatMap Block.tokens = ts ∧ (∀ b ∈ partition bt ts, b.Bounded bt) ∧
      Consecutive 0 (partition bt ts) :=
  partitionFrom_spec ts hts ⟨rfl, fun _ => Nat.zero_le _, Nat.zero_le _⟩

/-- Once a block is open with a token, no block is closed empty. -/
theorem partitionFrom_tokens_ne_nil (ts : List Token) (hne : cur.tokens ≠ []) :
    ∀ b ∈ partitionFrom bt ts cur, b.tokens ≠ [] := by
  have hclosed : cur.closed.tokens ≠ [] := by simpa [Block.closed] using hne
  induction ts generalizing cur with
  | nil => simpa [partitionFrom] using hne
  | cons t ts ih =>
    rw [partitionFrom_cons]
    split
    · exact List.forall_mem_cons.2 ⟨hclosed, ih (by simp [Block.opened]) (by simp [Block.opened, Block.closed])⟩
    · exact ih (by simp [Block.push]) (by simp [Block.push, Block.closed])

/-- The first token opens the first block, so only without tokens is there an empty one (43_deflate R248). -/
theorem partition_tokens_eq_nil (hbt : 1 ≤ bt) (hts : ∀ t ∈ ts, t.wf = true) (hb : b ∈ partition bt ts)
    (h : b.tokens = []) : ts = [] := by
  cases ts with
  | nil => rfl
  | cons t ts =>
    have hspan := Token.span_le (hts t List.mem_cons_self)
    rw [partition, partitionFrom_cons, if_neg (by simp only [List.length_nil, Config.maxStored]; omega)] at hb
    exact absurd h (partitionFrom_tokens_ne_nil ts (by simp [Block.push]) b hb)

theorem partitionFrom_ne_nil (bt : Nat) (ts : List Token) (cur : Block) : partitionFrom bt ts cur ≠ [] := by
  induction ts generalizing cur with
  | nil => exact List.cons_ne_nil _ _
  | cons t ts ih =>
    rw [partitionFrom_cons]
    split
    · exact List.cons_ne_nil _ _
    · exact ih _

end Partition

/-- Settles O31: the loop closes bounded blocks in order. -/
theorem partitionSplitsTheTokens : Obligations.PartitionSplitsTheTokens := by
  intro bt ts hbt hts
  obtain ⟨htok, hall, hcons⟩ := partition_spec bt hts
  refine ⟨htok, partitionFrom_ne_nil _ _ _, fun b hb => ?_, fun i hi => ?_⟩
  · obtain ⟨hspan, hcount, hstored⟩ := hall b hb
    exact ⟨hspan, hcount hbt, hstored, partition_tokens_eq_nil hbt hts hb⟩
  · rw [hcons.start (fun b hb => (hall b hb).span) i hi, Nat.zero_add]

end Sys2Proof.Machine

/-! The blocks of the deflator: the code lengths a dynamic block is planned with, the lengths of the blocks in bits, what
each block procedure appends, and DEFL_STORED and DEFL_HUFF (43_deflate R240..R250, R252, R253). -/

namespace Sys2Proof.Machine

open Sys2Proof

section Plan

variable {ls : List Nat} {i k : Nat}

/-! ### The used part of a vector of lengths -/

/-- Beyond its used part a vector holds zeros (43_deflate R244). -/
theorem usedLen_split (ls : List Nat) :
    ∃ used, used.length = usedLen ls ∧ ∃ n, ls = used ++ List.replicate n 0 := by
  refine ⟨(ls.reverse.dropWhile (· == 0)).reverse, List.length_reverse, (ls.reverse.takeWhile (· == 0)).length, ?_⟩
  have hzeros : ls.reverse.takeWhile (· == 0) = List.replicate (ls.reverse.takeWhile (· == 0)).length 0 :=
    List.eq_replicate_iff.2 ⟨rfl, fun b hb => by simpa using List.mem_takeWhile_imp hb⟩
  rw [← List.reverse_replicate, ← hzeros, ← List.reverse_append, List.takeWhile_append_dropWhile, List.reverse_reverse]

theorem usedLen_le (ls : List Nat) : usedLen ls ≤ ls.length := by
  obtain ⟨used, hlen, n, he⟩ := usedLen_split ls
  have htotal := congrArg List.length he
  rw [List.length_append, List.length_replicate, hlen] at htotal
  omega

theorem getD_of_usedLen_le (h : usedLen ls ≤ i) : ls.getD i 0 = 0 := by
  obtain ⟨used, hlen, n, he⟩ := usedLen_split ls
  rw [he, List.getD_append_right _ _ _ _ (by omega)]
  simp only [List.getD_eq_getElem?_getD, List.getElem?_replicate]
  split <;> rfl

theorem lt_usedLen_of_getD_ne_zero (h : ls.getD i 0 ≠ 0) : i < usedLen ls :=
  Nat.lt_of_not_le fun hle => h (getD_of_usedLen_le hle)

/-- What holds the used part reads as the whole vector. -/
theorem getD_take_of_usedLen_le (h : usedLen ls ≤ k) (i : Nat) : (ls.take k).getD i 0 = ls.getD i 0 := by
  rcases Nat.lt_or_ge i k with hi | hi
  · simp [List.getD_eq_getElem?_getD, hi]
  · rw [getD_of_usedLen_le (h.trans hi), List.getD_eq_default _ _ ((List.length_take_le _ _).trans hi)]

theorem kraft_take_le (ls : List Nat) (k : Nat) : kraft (ls.take k) ≤ kraft ls := by
  conv_rhs => rw [← List.take_append_drop k ls, kraft_append]
  exact Nat.le_add_right _ _

theorem tableOfLengths_lenOf (size : Nat) (ls : List Nat) (i : Nat) : (tableOfLengths size ls).lenOf i = ls.getD i 0 := by
  simp only [tableOfLengths, Table.lenOf]
  rcases Nat.lt_or_ge i ls.length with hi | hi
  · rw [List.getD_append _ _ _ _ hi]
  · rw [List.getD_append_right _ _ _ _ hi, List.getD_eq_default _ _ hi]
    simp only [List.getD_eq_getElem?_getD, List.getElem?_replicate]
    split <;> rfl

/-! ### The plan of a dynamic block -/

variable (ts : List Token)

/-- The frequencies of the code-length symbols (43_deflate R246). -/
def clenFreqs (seq : List (Nat × Nat)) : List Nat := (List.range 19).map (fun k => (seq.map Prod.fst).count k)

theorem dynPlan_ll : (dynPlan ts).ll = lengthAssign (litlenFreqs ts) 15 := by simp only [dynPlan]
theorem dynPlan_dl : (dynPlan ts).dl = lengthAssign (distFreqs ts) 15 := by simp only [dynPlan]
theorem dynPlan_hlit : (dynPlan ts).hlit = max 257 (usedLen (dynPlan ts).ll) := by simp only [dynPlan]
theorem dynPlan_hdist : (dynPlan ts).hdist = usedLen (dynPlan ts).dl := by simp only [dynPlan]
theorem dynPlan_seq :
    (dynPlan ts).seq = rle ((dynPlan ts).ll.take (dynPlan ts).hlit) ++ rle ((dynPlan ts).dl.take (dynPlan ts).hdist) := by
  simp only [dynPlan]
theorem dynPlan_cl : (dynPlan ts).cl = lengthAssign (clenFreqs (dynPlan ts).seq) 7 := by simp only [dynPlan, clenFreqs]
theorem dynPlan_hclen :
    (dynPlan ts).hclen = max 4 (usedLen (clenOrder.map (fun k => (dynPlan ts).cl.getD k 0))) := by
  simp only [dynPlan]

theorem dynPlan_hclen_le : (dynPlan ts).hclen ≤ 19 := by
  have hused := usedLen_le (clenOrder.map (fun k => (dynPlan ts).cl.getD k 0))
  rw [List.length_map] at hused
  rw [dynPlan_hclen]
  exact max_le (by decide) hused

theorem dynPlan_ll_take (i : Nat) : ((dynPlan ts).ll.take (dynPlan ts).hlit).getD i 0 = (dynPlan ts).ll.getD i 0 :=
  getD_take_of_usedLen_le (Nat.le_max_right ..) i

theorem dynPlan_dl_take (i : Nat) : ((dynPlan ts).dl.take (dynPlan ts).hdist).getD i 0 = (dynPlan ts).dl.getD i 0 :=
  getD_take_of_usedLen_le (dynPlan_hdist ts).ge i

theorem kraft_lengthAssign_of_length {f : List Nat} {n limit : Nat} (hf : f.length = n) (h2 : 2 ≤ n)
    (hn : n ≤ 2 ^ limit) (h15 : limit ≤ 15) : kraft (lengthAssign f limit) = 32768 :=
  kraft_lengthAssign (two_le_leaves (hf ▸ h2)) (leaves_le (hf.le.trans hn)) (one_le_limit h2 hn) h15

/-- The codes of a dynamic block are complete, so none is over-subscribed (41_huffman R183(b)). -/
theorem dynPlan_kraft :
    kraft (dynPlan ts).cl = 32768 ∧ kraft (dynPlan ts).ll = 32768 ∧ kraft (dynPlan ts).dl = 32768 :=
  ⟨dynPlan_cl ts ▸ kraft_lengthAssign_of_length (n := 19) (by simp [clenFreqs]) (by decide) (by decide) (by decide),
    dynPlan_ll ts ▸ kraft_lengthAssign_of_length (n := 286) (by simp [litlenFreqs]) (by decide) (by decide) (by decide),
    dynPlan_dl ts ▸ kraft_lengthAssign_of_length (n := 30) (by simp [distFreqs]) (by decide) (by decide) (by decide)⟩

theorem buildTable_of_kraft {size : Nat} {ls : List Nat} (hmax : ∀ l ∈ ls, l ≤ 15) (hk : kraft ls ≤ 32768) :
    buildTable size ls = .ok (tableOfLengths size ls) := by
  rcases buildTable_cases size ls hmax with ⟨-, e⟩ | ⟨hover, -⟩
  · exact e
  · omega

/-- The three BuildTable calls of DynamicBlock never raise (43_deflate R247). -/
theorem dynPlan_buildTable :
    buildTable Config.numClen (dynPlan ts).cl = .ok (dynTables ts).1 ∧
      buildTable Config.numLitlen ((dynPlan ts).ll.take (dynPlan ts).hlit) = .ok (dynTables ts).2.1 ∧
      buildTable Config.numDist ((dynPlan ts).dl.take (dynPlan ts).hdist) = .ok (dynTables ts).2.2 := by
  obtain ⟨⟨-, hll⟩, ⟨-, hdl⟩, -, hcl⟩ := dynPlan_lengthsOf ts
  obtain ⟨kcl, kll, kdl⟩ := dynPlan_kraft ts
  exact ⟨buildTable_of_kraft (fun l hl => (hcl l hl).trans (by decide)) kcl.le,
    buildTable_of_kraft (fun l hl => hll l (List.mem_of_mem_take hl)) ((kraft_take_le _ _).trans kll.le),
    buildTable_of_kraft (fun l hl => hdl l (List.mem_of_mem_take hl)) ((kraft_take_le _ _).trans kdl.le)⟩

end Plan

section Costs

variable (ts : List Token)

/-! ### Lengths in bits -/

theorem tokenCode_length (ll dl : Table) (t : Token) : (tokenCode ll dl t).length = tokenBits ll.len dl.len t := by
  cases t with
  | lit b => simp [tokenCode, tokenBits, Table.lenOf]
  | mtch l d => simp [tokenCode, tokenBits, Table.lenOf, Nat.add_assoc]

theorem bodyBits_length (ll dl : Table) : (bodyBits ll dl ts).length = tokBits ts ll.len dl.len := by
  simp only [bodyBits, tokBits, List.length_append, List.length_flatMap, Table.codeBits_length, tokenCode_length]
  rfl

/-- The cost of tokens depends on each symbol's length only. -/
theorem tokBits_congr {ll ll' dl dl' : List Nat} (hll : ∀ s, ll.getD s 0 = ll'.getD s 0)
    (hdl : ∀ s, dl.getD s 0 = dl'.getD s 0) : tokBits ts ll dl = tokBits ts ll' dl' := by
  have htoken : tokenBits ll dl = tokenBits ll' dl' := by
    funext t
    cases t with
    | lit b => exact hll _
    | mtch l d => simp only [tokenBits, hll, hdl]
  rw [tokBits, tokBits, htoken, hll]

@[simp] theorem blockHeader_length (final : Bool) (btype : Nat) : (blockHeader final btype).length = 3 := by
  simp [blockHeader]

theorem storedBits_length (c0 : Nat) (bytes : List Byte) (final : Bool) :
    (storedBits c0 bytes final).length = costStored c0 bytes.length := by
  simp only [storedBits, costStored, padLen, List.length_append, blockHeader_length, List.length_replicate,
    natBits_length, List.length_flatMap, List.map_const', List.sum_replicate, smul_eq_mul]
  omega

theorem fixedBits_length (final : Bool) : (fixedBits ts final).length = costFixed ts := by
  rw [fixedBits, List.length_append, blockHeader_length, bodyBits_length]
  rfl

theorem dynTables_lenOf (s : Nat) :
    (dynTables ts).1.lenOf s = (dynPlan ts).cl.getD s 0 ∧ (dynTables ts).2.1.lenOf s = (dynPlan ts).ll.getD s 0 ∧
      (dynTables ts).2.2.lenOf s = (dynPlan ts).dl.getD s 0 :=
  ⟨tableOfLengths_lenOf _ _ s, (tableOfLengths_lenOf _ _ s).trans (dynPlan_ll_take ts s),
    (tableOfLengths_lenOf _ _ s).trans (dynPlan_dl_take ts s)⟩

theorem dynBits_length (final : Bool) : (dynBits ts final).length = costDynamic ts := by
  have hbody : (bodyBits (dynTables ts).2.1 (dynTables ts).2.2 ts).length =
      tokBits ts (dynPlan ts).ll (dynPlan ts).dl :=
    (bodyBits_length ts _ _).trans
      (tokBits_congr ts (fun s => (dynTables_lenOf ts s).2.1) fun s => (dynTables_lenOf ts s).2.2)
  have hclens : ((clenOrder.take (dynPlan ts).hclen).flatMap (fun k => natBits 3 ((dynPlan ts).cl.getD k 0))).length =
      3 * (dynPlan ts).hclen := by
    simp only [List.length_flatMap, natBits_length, List.map_const', List.sum_replicate, smul_eq_mul, List.length_take]
    rw [Nat.min_eq_left (show _ ≤ clenOrder.length from dynPlan_hclen_le ts), Nat.mul_comm]
  have hseq : ((dynPlan ts).seq.flatMap
      (fun ke => (dynTables ts).1.codeBits ke.1 ++ natBits (clenExtra ke.1) ke.2)).length =
      ((dynPlan ts).seq.map (fun ke => (dynPlan ts).cl.getD ke.1 0 + clenExtra ke.1)).sum := by
    simp only [List.length_flatMap, List.length_append, Table.codeBits_length, natBits_length,
      (dynTables_lenOf ts _).1]
  simp only [dynBits, costDynamic, List.length_append, blockHeader_length, natBits_length, hbody, hclens, hseq]

/-- The cost of a block written as each type (43_deflate R249). -/
def blockCost (c0 : Nat) (b : Block) : BlockKind → Nat
  | .stored => costStored c0 b.span
  | .fixed => costFixed b.tokens
  | .dynamic => costDynamic b.tokens

/-- Each cost is the number of bits of its block (43_deflate R249). -/
theorem blockBits_length (d : Nat → Byte) (k : BlockKind) (c0 : Nat) (b : Block) (final : Bool) :
    (blockBits d k c0 b final).length = blockCost c0 b k := by
  cases k with
  | stored => exact (storedBits_length c0 _ final).trans (by simp [blockBytes, blockCost])
  | fixed => exact fixedBits_length b.tokens final
  | dynamic => exact dynBits_length b.tokens final

theorem forall_blockKind {P : BlockKind → Prop} : (∀ k, P k) ↔ P .stored ∧ P .fixed ∧ P .dynamic :=
  ⟨fun h => ⟨h _, h _, h _⟩, fun ⟨hs, hf, hd⟩ k => by cases k <;> assumption⟩

/-- The AUTO choice is a cheapest one, and its ties go to stored, then fixed (43_deflate R250). -/
theorem autoKind_spec (c0 : Nat) (b : Block) :
    (∀ k, blockCost c0 b (autoKind c0 b) ≤ blockCost c0 b k) ∧
      (blockCost c0 b .stored = blockCost c0 b (autoKind c0 b) → autoKind c0 b = .stored) ∧
      (blockCost c0 b .fixed = blockCost c0 b (autoKind c0 b) → autoKind c0 b = .stored ∨ autoKind c0 b = .fixed) := by
  simp only [forall_blockKind, autoKind]
  split_ifs with hs hf
  · exact ⟨⟨le_rfl, hs⟩, fun _ => rfl, fun _ => .inl rfl⟩
  · simp only [blockCost]
    exact ⟨by omega, by omega, fun _ => .inr trivial⟩
  · simp only [blockCost]
    omega

end Costs

/-- Settles O32: the costs are the lengths of the blocks, and AUTO compares the costs. -/
theorem autoTakesTheShortestBlock : Obligations.AutoTakesTheShortestBlock := by
  refine ⟨fun d c0 b final => ?_, fun d c0 b final => ?_⟩
  · exact ⟨blockBits_length d .stored c0 b final, blockBits_length d .fixed c0 b final,
      blockBits_length d .dynamic c0 b final⟩
  · simp only [blockBits_length]
    exact autoKind_spec c0 b

section Blocks

variable {p : Params}

/-! ### What a block procedure appends -/

theorem Writer.Appended.bitPos_sub {w w' : Writer} {bits : List Bool} (h : Writer.Appended p w w' bits) :
    w'.bitPos - w.bitPos = bits.length := by rw [h.bitPos, Nat.add_sub_cancel_left]

/-- `r` is the end of a procedure that appends `bits` to the writer of `st` and loads the tables of `loaded`, or raises
OutputOverflow where they do not fit. -/
def WritesTo (p : Params) (st loaded : Stream) (bits : List Bool) (r : Except Err Stream) : Prop :=
  (st.writer.Room p bits.length ∧ ∃ w', r = .ok { loaded with writer := w' } ∧ Writer.Appended p st.writer w' bits) ∨
    (¬ st.writer.Room p bits.length ∧ r = .error .outputOverflow)

/-- An appending procedure of the writer, its writer put into the stream state. -/
theorem Appends.writesTo {f : Writer → Except Err Writer} {bits : List Bool} (hf : Appends p f bits) {st : Stream}
    (loaded : Stream) (h : st.writer.Ok p) :
    WritesTo p st loaded bits (f st.writer >>= fun w => .ok { loaded with writer := w }) := by
  rcases hf st.writer h with ⟨hr, w', e, ha⟩ | ⟨hr, e⟩
  · exact .inl ⟨hr, w', by rw [e]; rfl, ha⟩
  · exact .inr ⟨hr, by rw [e]; rfl⟩

/-- The writing of a dynamic block, its tables built (43_deflate R247). -/
def writeDynamic (cap : Nat) (ts : List Token) (final : Bool) (w : Writer) : Except Err Writer :=
  writeHeader cap final 2 w >>= fun w =>
  writeBits cap ((dynPlan ts).hlit - 257) 5 w >>= fun w =>
  writeBits cap ((dynPlan ts).hdist - 1) 5 w >>= fun w =>
  writeBits cap ((dynPlan ts).hclen - 4) 4 w >>= fun w =>
  writeEach cap 3 ((clenOrder.take (dynPlan ts).hclen).map (fun k => (dynPlan ts).cl.getD k 0)) w >>= fun w =>
  writeSeq cap (dynTables ts).1 (dynPlan ts).seq w >>=
  emitTokens cap (dynTables ts).2.1 (dynTables ts).2.2 ts

theorem dynamicBlock_eq (cap : Nat) (ts : List Token) (final : Bool) (st : Stream) :
    dynamicBlock cap ts final st =
      writeDynamic cap ts final st.writer >>= fun w => .ok { blockTables .dynamic ts st with writer := w } := by
  obtain ⟨hcl, hll, hdl⟩ := dynPlan_buildTable ts
  simp only [dynamicBlock, writeDynamic, hcl, hll, hdl, except_ok_bind, bind_assoc, blockTables]

theorem appends_writeDynamic (p : Params) (ts : List Token) (final : Bool) :
    Appends p (writeDynamic p.outCap ts final) (dynBits ts final) := by
  have h := (appends_writeHeader p final 2).bind <|
    (appends_writeBits p ((dynPlan ts).hlit - 257) 5).bind <|
    (appends_writeBits p ((dynPlan ts).hdist - 1) 5).bind <|
    (appends_writeBits p ((dynPlan ts).hclen - 4) 4).bind <|
    (appends_writeEach p 3 ((clenOrder.take (dynPlan ts).hclen).map (fun k => (dynPlan ts).cl.getD k 0))).bind <|
    (appends_writeSeq p (dynTables ts).1 (dynPlan ts).seq).bind <|
    appends_emitTokens p (dynTables ts).2.1 (dynTables ts).2.2 ts
  simp only [List.flatMap_map, ← List.append_assoc] at h
  exact h

/-- The block procedure of each type appends the bits of its block and loads its tables, or raises OutputOverflow
(43_deflate R241, R242, R247). -/
theorem writeBlock_writes (d : Nat → Byte) (k : BlockKind) (b : Block) (final : Bool) (st : Stream)
    (h : st.writer.Ok p) :
    WritesTo p st (blockTables k b.tokens st) (blockBits d k st.writer.cnt.toNat b final)
      (writeBlock p.outCap d k b final st) := by
  cases k with
  | stored =>
    rcases storedBlock_cases (blockBytes d b) final h with ⟨hr, w', e, ha⟩ | ⟨hr, e⟩
    · exact .inl ⟨hr, w', by rw [writeBlock]; exact e ▸ rfl, ha⟩
    · exact .inr ⟨hr, by rw [writeBlock]; exact e ▸ rfl⟩
  | fixed => exact fixedBlock_cases b.tokens final st h
  | dynamic =>
    have hw := (appends_writeDynamic p b.tokens final).writesTo (blockTables .dynamic b.tokens st) h
    rwa [← dynamicBlock_eq] at hw

end Blocks

section Commands

variable {s : State}

/-! ### DEFL_STORED -/

theorem deflStoredBody_tooLong (h : 65535 < s.a1) : deflStoredBody s = .error .invalidCommand := by
  simp [deflStoredBody, h]

theorem deflStoredBody_outOfRange (hn : s.a1 ≤ 65535) (h : s.params.inSize < s.a0 + s.a1) :
    deflStoredBody s = .error .invalidRange := by
  simp [deflStoredBody, Nat.not_lt.2 hn, checkRange_error h]

/-- Past its checks DEFL_STORED ends as StoredBlock ends (43_deflate R252). -/
theorem deflStoredBody_writes (hn : s.a1 ≤ 65535) (h : s.a0 + s.a1 ≤ s.params.inSize) :
    deflStoredBody s = (do
      let w ← storedBlock s.params.outCap (s.inBytes s.a0 s.a1) s.argFinal s.stream.writer
      .ok ⟨{ s.stream with writer := w }, w.bitPos - s.stream.writer.bitPos, 0⟩) := by
  simp [deflStoredBody, Nat.not_lt.2 hn, checkRange_ok h]

/-! ### DEFL_HUFF -/

theorem readTokens_eq_error {a n i : Nat} (hi : i < n)
    (hbad : recordWf (BitVec.ofNat 32 (s.input.readLE .inByte (a + 4 * i) 4)) = false) :
    readTokens s a n = .error .invalidCommand := by
  induction n generalizing a i with
  | zero => exact absurd hi (Nat.not_lt_zero i)
  | succ n ih =>
    rw [readTokens]
    cases i with
    | zero =>
      have hnone : tokenOf (BitVec.ofNat 32 (s.input.readLE .inByte a 4)) = none := by
        simpa [recordWf_eq_isSome] using hbad
      rw [hnone]
    | succ i =>
      rw [show a + 4 * (i + 1) = a + 4 + 4 * i by omega] at hbad
      rw [ih (Nat.lt_of_succ_lt_succ hi) hbad]
      split <;> rfl

/-- The records of well-formed tokens read back as the tokens (43_deflate R254). -/
theorem readTokens_eq_ok {a : Nat} {ts : List Token} (hts : ∀ t ∈ ts, t.wf = true)
    (hrec : ∀ i (h : i < ts.length), s.input.readLE .inByte (a + 4 * i) 4 = (tokenRecord ts[i]).toNat) :
    readTokens s a ts.length = .ok ts := by
  induction ts generalizing a with
  | nil => rfl
  | cons t ts ih =>
    have hhead : tokenOf (BitVec.ofNat 32 (s.input.readLE .inByte a 4)) = some t := by
      rw [show s.input.readLE .inByte a 4 = _ from hrec 0 (Nat.succ_pos _), BitVec.ofNat_toNat, BitVec.setWidth_eq]
      exact (tokenOf_eq_some_iff _ t).2 ⟨hts t List.mem_cons_self, rfl⟩
    have htail := ih (a := a + 4) (fun x hx => hts x (List.mem_cons_of_mem _ hx)) fun i hi => by
      rw [show a + 4 + 4 * i = a + 4 * (i + 1) by omega]
      exact hrec (i + 1) (Nat.succ_lt_succ hi)
    rw [List.length_cons, readTokens, hhead]
    exact htail ▸ rfl

theorem deflHuffBody_outOfRange (h : s.params.inSize < s.a0 + 4 * s.a1) : deflHuffBody s = .error .invalidRange := by
  simp [deflHuffBody, checkRange_error h]

theorem deflHuffBody_badRecord (h : s.a0 + 4 * s.a1 ≤ s.params.inSize)
    (hbad : readTokens s s.a0 s.a1 = .error .invalidCommand) : deflHuffBody s = .error .invalidCommand := by
  simp [deflHuffBody, checkRange_ok h, hbad]

/-- The block type ARG2[1] asks for (43_deflate R253). -/
def huffKind (s : State) : BlockKind := if s.latch.arg2.getLsbD 1 then .dynamic else .fixed

/-- With its tokens read DEFL_HUFF ends as the procedure of its block ends (43_deflate R253). -/
theorem deflHuffBody_writes {ts : List Token} (h : s.a0 + 4 * s.a1 ≤ s.params.inSize)
    (hts : readTokens s s.a0 s.a1 = .ok ts) :
    deflHuffBody s = (do
      let st ← writeBlock s.params.outCap s.inByte (huffKind s) ⟨ts, 0, 0⟩ (s.latch.arg2.getLsbD 0) s.stream
      .ok ⟨st, st.writer.bitPos - s.stream.writer.bitPos, 0⟩) := by
  cases hdyn : s.latch.arg2.getLsbD 1 <;>
    simp only [deflHuffBody, checkRange_ok h, hts, except_ok_bind, State.argDyn, State.argFinal, huffKind, hdyn,
      if_true, Bool.false_eq_true, if_false, writeBlock]

theorem huffKind_bits (s : State) (d : Nat → Byte) (c0 : Nat) (ts : List Token) (final : Bool) :
    blockBits d (huffKind s) c0 ⟨ts, 0, 0⟩ final =
      if s.latch.arg2.getLsbD 1 then dynBits ts final else fixedBits ts final := by
  unfold huffKind
  split <;> rfl

end Commands

/-- Settles O28: the two checks, and then the two outcomes of StoredBlock. -/
theorem deflStoredCompletes : Obligations.DeflStoredCompletes := by
  refine ⟨rfl, fun s hw => ⟨fun h => conclude_of_error (deflStoredBody_tooLong h), fun hn =>
    ⟨fun h => conclude_of_error (deflStoredBody_outOfRange hn h), fun h => ?_⟩⟩⟩
  have hbody := deflStoredBody_writes hn h
  rcases storedBlock_cases (s.inBytes s.a0 s.a1) s.argFinal hw with ⟨hr, w', e, ha⟩ | ⟨hr, e⟩
  · rw [e, except_ok_bind, ha.bitPos_sub] at hbody
    exact ⟨fun _ => ⟨w', conclude_of_ok hbody, ha⟩, fun hno => absurd hr hno⟩
  · rw [e] at hbody
    exact ⟨fun hyes => absurd hyes hr, fun _ => conclude_of_error hbody⟩

/-- Settles O29: the range check, the tokens or a bad record, and then the two outcomes of the block procedure. -/
theorem deflHuffCompletes : Obligations.DeflHuffCompletes := by
  refine ⟨rfl, ⟨fun s h => conclude_of_error (deflHuffBody_outOfRange h), fun s ts hw h hlen hts hrec => ?_⟩,
    fun s i h hi hbad => conclude_of_error (deflHuffBody_badRecord h (readTokens_eq_error hi hbad))⟩
  have hbody := deflHuffBody_writes h (hlen ▸ readTokens_eq_ok hts hrec)
  have hblock := writeBlock_writes s.inByte (huffKind s) ⟨ts, 0, 0⟩ (s.latch.arg2.getLsbD 0) s.stream hw
  rw [huffKind_bits] at hblock
  rcases hblock with ⟨hr, w', e, ha⟩ | ⟨hr, e⟩
  · rw [e, except_ok_bind, ha.bitPos_sub] at hbody
    exact ⟨fun _ => ⟨w', conclude_of_ok hbody, ha⟩, fun hno => absurd hr hno⟩
  · rw [e] at hbody
    exact ⟨fun hyes => absurd hyes hr, fun _ => conclude_of_error hbody⟩

end Sys2Proof.Machine

/-! COMPRESS: its blocks one after the other from OUT[0], and the last flush (43_deflate R251). -/

namespace Sys2Proof.Machine

open Sys2Proof

section Compress

variable {p : Params}

/-! ### Blocks one after the other -/

theorem Writer.Ok.bitPos_mod {w : Writer} (h : w.Ok p) : w.bitPos % 8 = w.cnt.toNat := by
  have hcnt := h.2.1
  simp only [Writer.bitPos]; omega

/-- A procedure that appends `xs`, followed by one that appends `ys` wherever the first one leaves the writer. -/
theorem WritesTo.bind {st st₁ loaded : Stream} {xs ys : List Bool} {r : Except Err Stream}
    {f : Stream → Except Err Stream} (h : WritesTo p st st₁ xs r)
    (hf : ∀ w, w.Ok p → w.bitPos = st.writer.bitPos + xs.length →
      WritesTo p { st₁ with writer := w } loaded ys (f { st₁ with writer := w })) :
    WritesTo p st loaded (xs ++ ys) (r >>= f) := by
  simp only [WritesTo, List.length_append]
  rcases h with ⟨hr, w₁, rfl, ha₁⟩ | ⟨hr, rfl⟩
  · rcases hf w₁ ha₁.ok ha₁.bitPos with ⟨hr₂, w₂, e, ha₂⟩ | ⟨hr₂, e⟩
    · exact .inl ⟨ha₁.room.1 hr₂, w₂, e, ha₁.trans ha₂⟩
    · exact .inr ⟨fun hn => hr₂ (ha₁.room.2 hn), e⟩
  · exact .inr ⟨fun hn => hr (Writer.Room_mono hn (Nat.le_add_right _ _)), rfl⟩

theorem blockTables_writer (k : BlockKind) (ts : List Token) (st : Stream) (w : Writer) :
    blockTables k ts { st with writer := w } = { blockTables k ts st with writer := w } := by
  cases k <;> rfl

/-- Which tables a stream loads does not depend on the writer. -/
theorem streamTables_writer (d : Nat → Byte) (mode pos : Nat) (bs : List Block) (st : Stream) (w : Writer) :
    streamTables d mode pos bs { st with writer := w } = { streamTables d mode pos bs st with writer := w } := by
  induction bs generalizing pos st with
  | nil => rfl
  | cons b rest ih => simp only [streamTables, blockTables_writer, ih]

/-- The blocks in order, each written as COMPRESS writes it in this mode, the last one final (43_deflate R251). -/
def writeAll (cap : Nat) (d : Nat → Byte) (mode : Nat) : List Block → Stream → Except Err Stream
  | [], st => .ok st
  | b :: rest, st =>
    writeBlock cap d (compressKind mode st.writer.cnt.toNat b) b rest.isEmpty st >>= writeAll cap d mode rest

theorem writeStored_eq_writeAll (cap : Nat) (d : Nat → Byte) (bs : List Block) (st : Stream) :
    writeStored cap d bs st = writeAll cap d 0 bs st := by
  induction bs generalizing st with
  | nil => rfl
  | cons b rest ih => simp only [writeStored, writeAll, compressKind, if_true, ih]

theorem writeBlocks_eq_writeAll {mode : Nat} (hm : mode ≠ 0) (cap : Nat) (d : Nat → Byte) (bs : List Block)
    (st : Stream) : writeBlocks cap d mode bs st = writeAll cap d mode bs st := by
  induction bs generalizing st with
  | nil => rfl
  | cons b rest ih => simp only [writeBlocks, writeAll, compressKind, hm, if_false, ih]

theorem writeAll_writes (d : Nat → Byte) (mode : Nat) (bs : List Block) (st : Stream) (h : st.writer.Ok p) :
    WritesTo p st (streamTables d mode st.writer.bitPos bs st) (streamBits d mode st.writer.bitPos bs)
      (writeAll p.outCap d mode bs st) := by
  induction bs generalizing st with
  | nil => exact (appends_ok p).writesTo st h
  | cons b rest ih =>
    simp only [streamTables, streamBits, h.bitPos_mod]
    refine (writeBlock_writes d _ b _ st h).bind fun w hw hpos => ?_
    have hrest := ih { blockTables (compressKind mode st.writer.cnt.toNat b) b.tokens st with writer := w } hw
    rw [streamTables_writer] at hrest
    simp only [hpos] at hrest
    exact hrest

/-! ### The last flush -/

/-- FlushToByte fills the last byte with zero bits, or raises OutputOverflow where it has no room (40_bitstream R144). -/
theorem flushToByte_aligns {w : Writer} (h : w.Ok p) :
    ((w.bitPos + 7) / 8 ≤ p.outCap ∧
        ∃ k w', flushToByte p.outCap w = .ok (k, w') ∧
          Writer.Appended p w w' (List.replicate (8 * ((w.bitPos + 7) / 8) - w.bitPos) false) ∧
          w'.outPos.toNat = (w.bitPos + 7) / 8 ∧ w'.cnt = 0) ∨
      (p.outCap < (w.bitPos + 7) / 8 ∧ flushToByte p.outCap w = .error .outputOverflow) := by
  have ⟨hpos, hcnt, _⟩ := h
  have hbits : w.bitPos = 8 * w.outPos.toNat + w.cnt.toNat := rfl
  rcases flushToByte_cases h with ⟨h0, e⟩ | ⟨h0, hlt, w', e, ha, hc, -⟩ | ⟨h0, hfull, e⟩
  · have hpad : 8 * ((w.bitPos + 7) / 8) - w.bitPos = 0 := by omega
    rw [hpad]
    exact .inl ⟨by omega, 0, w, e, .refl h, by omega, BitVec.eq_of_toNat_eq h0⟩
  · have hpad : 8 * ((w.bitPos + 7) / 8) - w.bitPos = 8 - w.cnt.toNat := by omega
    have hend := ha.bitPos
    rw [List.length_replicate, Writer.bitPos, hc] at hend
    have hz : (0 : BitVec 4).toNat = 0 := rfl
    rw [hpad]
    exact .inl ⟨by omega, _, w', e, ha, by omega, hc⟩
  · exact .inr ⟨by omega, e⟩

/-! ### The command -/

variable {s : State}

theorem compressBody_outOfRange (h : s.params.inSize < s.a0 + s.a1) : compressBody s = .error .invalidRange := by
  simp [compressBody, checkRange_error h]

/-- The input of a command: D[i] = IN[ARG0 + i] (43_deflate R251). -/
def inputView (s : State) (i : Nat) : Byte := s.inByte (s.a0 + i)

/-- Past its check COMPRESS writes its blocks from OUT[0] and flushes (43_deflate R251). -/
theorem compressBody_writes (h : s.a0 + s.a1 ≤ s.params.inSize) :
    compressBody s =
      (writeAll s.params.outCap (inputView s) (cfgMode s.latch.config) (compressBlocks s) (restartWriter s.stream) >>=
        fun st => flushToByte s.params.outCap st.writer >>= fun r =>
          .ok ⟨{ st with writer := r.2 }, r.2.outPos.toNat, (compressBlocks s).length⟩) := by
  rw [compressBody, checkRange_ok h, except_ok_bind]
  by_cases hm : cfgMode s.latch.config = 0
  · simp only [hm, if_true, writeStored_eq_writeAll]; rfl
  · simp only [hm, if_false, writeBlocks_eq_writeAll hm]; rfl

theorem restartWriter_bitPos (st : Stream) : (restartWriter st).writer.bitPos = 0 := rfl

/-- The blocks of COMPRESS from OUT[0] (43_deflate R251). -/
theorem compressBlocks_write (s : State) :
    WritesTo s.params (restartWriter s.stream)
      (streamTables (inputView s) (cfgMode s.latch.config) 0 (compressBlocks s) s.stream) (compressBits s)
      (writeAll s.params.outCap (inputView s) (cfgMode s.latch.config) (compressBlocks s) (restartWriter s.stream)) := by
  have hall := writeAll_writes (p := s.params) (inputView s) (cfgMode s.latch.config) (compressBlocks s)
    (restartWriter s.stream) (Writer.restarted_ok _ (Nat.zero_le _))
  have htables : streamTables (inputView s) (cfgMode s.latch.config) 0 (compressBlocks s) (restartWriter s.stream) =
      { streamTables (inputView s) (cfgMode s.latch.config) 0 (compressBlocks s) s.stream with
        writer := (restartWriter s.stream).writer } := streamTables_writer ..
  rw [restartWriter_bitPos, htables] at hall
  exact hall

end Compress

/-- Settles O33: the blocks append their bits from OUT[0], and the flush pads the last byte. -/
theorem compressCompletes : Obligations.CompressCompletes := by
  refine ⟨rfl, fun s => ⟨fun h => conclude_of_error (compressBody_outOfRange h), fun h => ?_⟩⟩
  have hbody := compressBody_writes h
  rcases compressBlocks_write s with ⟨hr, w₁, e₁, ha₁⟩ | ⟨hr, e₁⟩
  · have hlen := ha₁.bitPos
    rw [restartWriter_bitPos, Nat.zero_add] at hlen
    rw [e₁, except_ok_bind] at hbody
    rcases flushToByte_aligns ha₁.ok with ⟨hfit, k, w', e, ha, hpos, hcnt⟩ | ⟨hfull, e⟩
    · rw [hlen] at hfit ha hpos
      rw [e, except_ok_bind, hpos] at hbody
      exact ⟨fun hno => absurd hfit (Nat.not_le.2 hno), fun _ =>
        ⟨w', conclude_of_ok hbody, ha₁.trans ha, hpos, hcnt⟩⟩
    · rw [hlen] at hfull
      rw [e] at hbody
      exact ⟨fun _ => conclude_of_error hbody, fun hyes => absurd hyes (Nat.not_le.2 hfull)⟩
  · have hfull : s.params.outCap < ((compressBits s).length + 7) / 8 := by
      simp only [Writer.Room, restartWriter_bitPos] at hr
      omega
    rw [e₁] at hbody
    exact ⟨fun _ => conclude_of_error hbody, fun hyes => absurd hyes (Nat.not_le.2 hfull)⟩

end Sys2Proof.Machine

/-! The stream COMPRESS writes: each of its blocks is a valid block of RFC 1951, and together they stand for the input
(43_deflate R251, 30_encoding R100..R116). -/

namespace Sys2Proof.Machine

open Sys2Proof

section SentDynamic

variable (ts : List Token)

/-! ### The counts and the sequence of a dynamic block -/

theorem dynPlan_hlit_bounds : 257 ≤ (dynPlan ts).hlit ∧ (dynPlan ts).hlit ≤ 286 := by
  have hused := usedLen_le (dynPlan ts).ll
  rw [(dynPlan_lengthsOf ts).1.1] at hused
  rw [dynPlan_hlit]
  omega

/-- LengthAssign gives at least one symbol a code, ForceTwo having two of them used (41_huffman R182, R183). -/
theorem usedLen_lengthAssign_pos {f : List Nat} {n limit : Nat} (hf : f.length = n) (h2 : 2 ≤ n) (hn : n ≤ 2 ^ limit) :
    0 < usedLen (lengthAssign f limit) := by
  have hleaves := two_le_leaves (hf ▸ h2)
  have hcoded := (chosenLength_bounds hleaves (leaves_le (hf.le.trans hn)) (one_le_limit h2 hn)
    (Nat.zero_lt_of_lt hleaves)).1
  have hs := leafSymbol_used (Nat.zero_lt_of_lt hleaves)
  have hlt := lt_length_of_used hs
  rw [forceTwo_length] at hlt
  rw [← lengthAssign_getD limit hlt] at hcoded
  exact Nat.zero_lt_of_lt (lt_usedLen_of_getD_ne_zero (Nat.ne_zero_of_lt hcoded))

theorem dynPlan_hdist_bounds : 1 ≤ (dynPlan ts).hdist ∧ (dynPlan ts).hdist ≤ 30 := by
  have hused := usedLen_le (dynPlan ts).dl
  rw [(dynPlan_lengthsOf ts).2.1.1] at hused
  rw [dynPlan_hdist]
  refine ⟨?_, hused⟩
  rw [dynPlan_dl]
  exact usedLen_lengthAssign_pos (n := 30) (by simp [distFreqs]) (by decide) (by decide)

theorem dynPlan_take_lengths :
    ((dynPlan ts).ll.take (dynPlan ts).hlit).length = (dynPlan ts).hlit ∧
      ((dynPlan ts).dl.take (dynPlan ts).hdist).length = (dynPlan ts).hdist := by
  obtain ⟨⟨hll, -⟩, ⟨hdl, -⟩, -⟩ := dynPlan_lengthsOf ts
  exact ⟨List.length_take_of_le (hll ▸ (dynPlan_hlit_bounds ts).2),
    List.length_take_of_le (hdl ▸ (dynPlan_hdist_bounds ts).2)⟩

/-- The code-length sequence stands for the lengths of both codes (43_deflate R246). -/
theorem dynPlan_seq_expands :
    Expands [] (dynPlan ts).seq
      ((dynPlan ts).ll.take (dynPlan ts).hlit ++ (dynPlan ts).dl.take (dynPlan ts).hdist) := by
  obtain ⟨⟨-, hll⟩, ⟨-, hdl⟩, -⟩ := dynPlan_lengthsOf ts
  rw [dynPlan_seq]
  exact (rle_expands fun l hl => hll l (List.mem_of_mem_take hl)).append
    (rle_expands fun l hl => hdl l (List.mem_of_mem_take hl))

theorem head_append_ne {ps qs : List (Nat × Nat)} {k : Nat} (hp : ps.head?.map Prod.fst ≠ some k)
    (hq : qs.head?.map Prod.fst ≠ some k) : (ps ++ qs).head?.map Prod.fst ≠ some k := by
  cases ps with
  | nil => exact hq
  | cons ke rest => exact hp

theorem dynPlan_seq_head : (dynPlan ts).seq.head?.map Prod.fst ≠ some 16 := by
  obtain ⟨⟨-, hll⟩, ⟨-, hdl⟩, -⟩ := dynPlan_lengthsOf ts
  rw [dynPlan_seq]
  refine head_append_ne (rle_head ?_) (rle_head ?_)
  · exact fun l hl => hll l (List.mem_of_mem_take hl)
  · exact fun l hl => hdl l (List.mem_of_mem_take hl)

/-! ### Every symbol a dynamic block is sent with is coded -/

theorem lengthAssign_coded {f : List Nat} {n limit s : Nat} (hf : f.length = n) (h2 : 2 ≤ n) (hn : n ≤ 2 ^ limit)
    (hs : 0 < f.getD s 0) : (lengthAssign f limit).getD s 0 ≠ 0 := by
  obtain ⟨i, hi, rfl, -⟩ := exists_leaf (hs.trans_eq (forceTwo_getD hs).symm)
  rw [lengthAssign_getD limit (lt_length_of_used hs)]
  exact Nat.ne_zero_of_lt
    (chosenLength_bounds (two_le_leaves (hf ▸ h2)) (leaves_le (hf.le.trans hn)) (one_le_limit h2 hn) hi).1

theorem getD_counts_pos {n s : Nat} {l : List Nat} (hs : s < n) (hm : s ∈ l) :
    0 < ((List.range n).map (fun s => l.count s)).getD s 0 := by
  rw [List.getD_eq_getElem _ _ (by simpa using hs)]
  simpa using List.count_pos_iff.2 hm

variable {ts}

theorem dynPlan_ll_coded {s : Nat} (hs : s < 286) (hm : s ∈ 256 :: ts.flatMap litlenSyms) :
    (dynPlan ts).ll.getD s 0 ≠ 0 := by
  rw [dynPlan_ll]
  exact lengthAssign_coded (n := 286) (by simp [litlenFreqs]) (by decide) (by decide) (getD_counts_pos hs hm)

theorem dynPlan_dl_coded {s : Nat} (hs : s < 30) (hm : s ∈ ts.flatMap distSyms) : (dynPlan ts).dl.getD s 0 ≠ 0 := by
  rw [dynPlan_dl]
  exact lengthAssign_coded (n := 30) (by simp [distFreqs]) (by decide) (by decide) (getD_counts_pos hs hm)

theorem dynPlan_cl_coded {ke : Nat × Nat} (hm : ke ∈ (dynPlan ts).seq) : (dynPlan ts).cl.getD ke.1 0 ≠ 0 := by
  have hk : ke.1 ≤ 18 := ((dynPlan_seq_expands ts).legal ke hm).1
  rw [dynPlan_cl]
  exact lengthAssign_coded (n := 19) (by simp [clenFreqs]) (by decide) (by decide)
    (getD_counts_pos (Nat.lt_succ_of_le hk) (List.mem_map_of_mem hm))

theorem dynTables_tokenCoded {t : Token} (ht : t ∈ ts) (hwf : t.wf = true) :
    tokenCoded (dynTables ts).2.1 (dynTables ts).2.2 t = true := by
  have hll : ∀ {s}, s < 286 → s ∈ litlenSyms t → (dynTables ts).2.1.lenOf s ≠ 0 := fun hs hm => by
    rw [(dynTables_lenOf ts _).2.1]
    exact dynPlan_ll_coded hs (List.mem_cons_of_mem _ (List.mem_flatMap.2 ⟨t, ht, hm⟩))
  have hdl : ∀ {s}, s < 30 → s ∈ distSyms t → (dynTables ts).2.2.lenOf s ≠ 0 := fun hs hm => by
    rw [(dynTables_lenOf ts _).2.2]
    exact dynPlan_dl_coded hs (List.mem_flatMap.2 ⟨t, ht, hm⟩)
  cases t with
  | lit b =>
    simp only [tokenCoded, bne_iff_ne]
    exact hll (b.isLt.trans (by decide)) (List.mem_singleton_self _)
  | mtch l d =>
    obtain ⟨⟨hl3, hl258⟩, hd1, hdw⟩ := (Token.wf_mtch_iff l d).1 hwf
    simp only [tokenCoded, Bool.and_eq_true, bne_iff_ne]
    exact ⟨hll (Nat.lt_succ_of_le (lsym_spec hl3 hl258).2.1) (List.mem_singleton_self _),
      hdl (dsym_spec hd1 hdw).1 (List.mem_singleton_self _)⟩

/-! ### The dynamic block as it is sent -/

variable (ts)

/-- The code-length-code lengths in the order sent (43_deflate R247). -/
def sentClens : List Nat := (clenOrder.take (dynPlan ts).hclen).map (fun k => (dynPlan ts).cl.getD k 0)

/-- The dynamic block of the tokens (43_deflate R247). -/
def sentDynamic : SentBlock :=
  .dynamic ((dynPlan ts).hlit - 257) ((dynPlan ts).hdist - 1) (sentClens ts) (dynPlan ts).seq ts

theorem sentClens_length : (sentClens ts).length = (dynPlan ts).hclen := by
  rw [sentClens, List.length_map, List.length_take]
  exact Nat.min_eq_left (dynPlan_hclen_le ts)

theorem sentClens_le : ∀ l ∈ sentClens ts, l ≤ 7 := by
  intro l hl
  obtain ⟨k, -, rfl⟩ := List.mem_map.1 hl
  obtain ⟨-, -, -, hcl⟩ := dynPlan_lengthsOf ts
  rw [List.getD_eq_getElem?_getD]
  cases hk : (dynPlan ts).cl[k]? with
  | none => exact Nat.zero_le _
  | some l => exact hcl l (List.mem_of_getElem? hk)

/-- CLEN_ORDER lists every code-length symbol (30_encoding R111). -/
theorem mem_clenOrder : ∀ k < 19, k ∈ clenOrder := by decide

/-- The lengths that are not sent are 0, so the table is the planned one (43_deflate R246). -/
theorem sentClen_sentClens : sentClen (sentClens ts) = (dynTables ts).1 := by
  obtain ⟨-, -, hlen, -⟩ := dynPlan_lengthsOf ts
  have hget : ∀ i, (sentClens ts).getD i 0 = (clenOrder.map (fun k => (dynPlan ts).cl.getD k 0)).getD i 0 := fun i => by
    rw [sentClens, List.map_take]
    exact getD_take_of_usedLen_le (dynPlan_hclen ts ▸ Nat.le_max_right ..) i
  have hentry : ∀ k < 19, (sentClens ts).getD (clenOrder.idxOf k) 0 = (dynPlan ts).cl.getD k 0 := fun k hk => by
    have hi := List.idxOf_lt_length_of_mem (mem_clenOrder k hk)
    rw [hget, List.getD_eq_getElem _ _ (by rwa [List.length_map]), List.getElem_map, List.getElem_idxOf]
  have hcl : (List.range 19).map (fun k => (sentClens ts).getD (clenOrder.idxOf k) 0) = (dynPlan ts).cl := by
    refine List.ext_getElem (by simp [hlen]) fun k hk hk' => ?_
    rw [List.getElem_map, List.getElem_range, hentry k (hlen ▸ hk'), List.getD_eq_getElem _ _ hk']
  have htable : (dynTables ts).1 = ⟨(dynPlan ts).cl⟩ := by
    simp only [dynTables, tableOfLengths, hlen, Nat.sub_self, List.replicate_zero, List.append_nil]
  rw [sentClen, hcl, htable]

/-- HLIT as it is sent counts the literal/length lengths (30_encoding R110). -/
theorem dynPlan_hlit_sent :
    (dynPlan ts).hlit - 257 + 257 = ((dynPlan ts).ll.take (dynPlan ts).hlit).length := by
  rw [(dynPlan_take_lengths ts).1, Nat.sub_add_cancel (dynPlan_hlit_bounds ts).1]

theorem sentLitlen_seq : sentLitlen ((dynPlan ts).hlit - 257) (dynPlan ts).seq = (dynTables ts).2.1 := by
  rw [sentLitlen, (dynPlan_seq_expands ts).expanded, dynPlan_hlit_sent, List.nil_append, List.take_left]
  rfl

theorem sentDist_seq : sentDist ((dynPlan ts).hlit - 257) (dynPlan ts).seq = (dynTables ts).2.2 := by
  rw [sentDist, (dynPlan_seq_expands ts).expanded, dynPlan_hlit_sent, List.nil_append, List.drop_left]
  rfl

theorem sentDynamic_bits (final : Bool) : (sentDynamic ts).bits final = dynBits ts final := by
  simp only [SentBlock.bits, sentDynamic, SentBlock.btype, SentBlock.body, sentClen_sentClens, sentLitlen_seq,
    sentDist_seq, sentClens_length, dynBits]
  simp only [sentClens, List.flatMap_map, List.append_assoc]

theorem dynTables_kraft :
    kraft (dynTables ts).1.len ≤ 32768 ∧ kraft (dynTables ts).2.1.len ≤ 32768 ∧
      kraft (dynTables ts).2.2.len ≤ 32768 := by
  obtain ⟨kcl, kll, kdl⟩ := dynPlan_kraft ts
  simp only [dynTables, tableOfLengths, kraft_append_zeros]
  exact ⟨kcl.le, (kraft_take_le _ _).trans kll.le, (kraft_take_le _ _).trans kdl.le⟩

/-- A dynamic block of tokens that fit is valid wherever it is sent (30_encoding R110..R113). -/
theorem sentDynamic_valid {pos produced : Nat} (hfit : tokensFit produced ts = true) :
    (sentDynamic ts).valid pos produced = true := by
  have hlit := dynPlan_hlit_bounds ts
  have hdist := dynPlan_hdist_bounds ts
  have hclen : 4 ≤ (dynPlan ts).hclen := dynPlan_hclen ts ▸ Nat.le_max_left ..
  have hlen : (expandPairs [] (dynPlan ts).seq).length = (dynPlan ts).hlit + (dynPlan ts).hdist := by
    rw [(dynPlan_seq_expands ts).expanded, List.nil_append, List.length_append, (dynPlan_take_lengths ts).1,
      (dynPlan_take_lengths ts).2]
  obtain ⟨kcl, kll, kdl⟩ := dynTables_kraft ts
  simp only [sentDynamic, SentBlock.valid, sentClen_sentClens, sentLitlen_seq, sentDist_seq, sentClens_length,
    Bool.and_eq_true, decide_eq_true_eq, List.all_eq_true, beq_iff_eq, bne_iff_ne, hlen]
  refine ⟨⟨⟨⟨⟨⟨⟨⟨⟨⟨⟨⟨⟨?_, ?_⟩, hclen⟩, dynPlan_hclen_le ts⟩, sentClens_le ts⟩, kcl⟩, fun ke hke => ⟨⟨?_, ?_⟩, ?_⟩⟩,
    dynPlan_seq_head ts⟩, ?_⟩, kll⟩, kdl⟩, hfit⟩, fun t ht => dynTables_tokenCoded ht (tokensFit_wf hfit t ht)⟩, ?_⟩
  · omega
  · omega
  · exact ((dynPlan_seq_expands ts).legal ke hke).1
  · rw [(dynTables_lenOf ts _).1]
    exact dynPlan_cl_coded hke
  · exact ((dynPlan_seq_expands ts).legal ke hke).2
  · omega
  · rw [(dynTables_lenOf ts _).2.1]
    exact dynPlan_ll_coded (by decide) List.mem_cons_self

end SentDynamic

section Stream

variable {d : Nat → Byte} {n p : Nat}

/-! ### The bytes of blocks one after the other -/

theorem before_add (d : Nat → Byte) (p k : Nat) :
    before d (p + k) = ((List.range k).map (fun i => d (p + i))).reverse ++ before d p := by
  rw [before, before, List.range_add, List.map_append, List.map_map, List.reverse_append]
  rfl

theorem tokensFit_append (produced : Nat) (xs ys : List Token) :
    tokensFit produced (xs ++ ys) = (tokensFit produced xs && tokensFit (produced + spanOf xs) ys) := by
  induction xs generalizing produced with
  | nil => rfl
  | cons t xs ih => simp only [List.cons_append, tokensFit, ih, spanOf_cons, Nat.add_assoc, Bool.and_assoc]

/-- Tokens that stand for the rest of the input, cut in two: each part stands for its own bytes. -/
theorem Covers.split {xs ys : List Token} (h : Covers d n p (xs ++ ys)) :
    Covers d (p + spanOf xs) p xs ∧ Covers d n (p + spanOf xs) ys := by
  obtain ⟨hspan, hfit, hreplay⟩ := h
  rw [tokensFit_append, Bool.and_eq_true] at hfit
  have hys : replayOnto (replayOnto (before d p) xs) ys = before d n := by
    rw [← hreplay, replayOnto, replayOnto, replayOnto, List.foldl_append]
  have hn : n = p + spanOf xs + spanOf ys := by rw [← hspan, spanOf_append, Nat.add_assoc]
  have hxs : replayOnto (before d p) xs = before d (p + spanOf xs) := by
    have heq := hys
    rw [replayOnto_eq _ ys, hn, before_add] at heq
    exact (List.append_inj heq (by simp [emitted_length])).2
  exact ⟨⟨rfl, hfit.1, hxs⟩, hn.symm, hfit.2, hxs ▸ hys⟩

/-- The blocks lie one after the other from p to n, each within the bounds of a stored block, and outside STORED mode
the tokens of each stand for its bytes. -/
def Tiles (d : Nat → Byte) (n mode : Nat) : Nat → List Block → Prop
  | p, [] => p = n
  | p, b :: rest =>
    b.start = p ∧ b.span ≤ 65535 ∧ (mode ≠ 0 → Covers d (p + b.span) p b.tokens) ∧ Tiles d n mode (p + b.span) rest

/-- The pieces of STORED mode tile the input (43_deflate R251). -/
theorem storedPieces_tiles (d : Nat → Byte) (fuel : Nat) (hp : p ≤ n) (hf : n < p + fuel) :
    Tiles d n 0 p (storedPieces n fuel p) := by
  induction fuel generalizing p with
  | zero => omega
  | succ fuel ih =>
    have hpiece : min Config.maxStored (n - p) ≤ 65535 := Nat.min_le_left _ _
    have hno : (0 : Nat) ≠ 0 → Covers d (p + min Config.maxStored (n - p)) p [] := fun h => absurd rfl h
    simp only [storedPieces]
    split
    next hlast => exact ⟨rfl, hpiece, hno, show p + min Config.maxStored (n - p) = n by omega⟩
    next hmore =>
      have hmax : Config.maxStored = 65535 := rfl
      exact ⟨rfl, hpiece, hno, ih (p := p + min Config.maxStored (n - p)) (by omega) (by omega)⟩

/-- The blocks of Partition tile what their tokens stand for (43_deflate R248). -/
theorem Consecutive.tiles {bt mode : Nat} {bs : List Block} (h : Consecutive p bs) (hall : ∀ b ∈ bs, b.Bounded bt)
    (hc : Covers d n p (bs.flatMap Block.tokens)) : Tiles d n mode p bs := by
  induction bs generalizing p with
  | nil => exact hc.span
  | cons b rest ih =>
    obtain ⟨hb, hrest⟩ := List.forall_mem_cons.1 hall
    obtain ⟨hfirst, hothers⟩ := hc.split
    rw [← hb.span] at hfirst hothers
    exact ⟨h.1, hb.stored, fun _ => hfirst, ih h.2 hrest hothers⟩

theorem commandTokens_covers (s : State) : Covers (inputView s) s.a1 0 (commandTokens s) := by
  unfold commandTokens
  split
  · exact tokenizeFrom_covers (inputView s) _ _ (Nat.zero_le _) (Nat.le_add_left ..)
  · have hlits := literals_cover (inputView s) 0 s.a1
    rwa [Nat.zero_add, ← List.range_eq_range'] at hlits

theorem compressBlocks_tiles (s : State) :
    Tiles (inputView s) s.a1 (cfgMode s.latch.config) 0 (compressBlocks s) := by
  unfold compressBlocks
  split
  next hm =>
    rw [hm]
    exact storedPieces_tiles _ (s.a1 + 1) (Nat.zero_le s.a1) (by omega)
  next hm =>
    have hcovers := commandTokens_covers s
    obtain ⟨htok, hall, hcons⟩ := partition_spec s.latch.blockTokens.toNat (tokensFit_wf hcovers.fit)
    exact hcons.tiles hall (htok.symm ▸ hcovers)

theorem compressBlocks_ne_nil (s : State) : compressBlocks s ≠ [] := by
  unfold compressBlocks
  split
  · rw [storedPieces]
    split <;> exact List.cons_ne_nil _ _
  · exact partitionFrom_ne_nil _ _ _

/-! ### The blocks as they are sent -/

/-- A block of COMPRESS as a block of RFC 1951, with `c0` bits pending at its start (43_deflate R251). -/
def sentBlock (d : Nat → Byte) (c0 : Nat) (b : Block) : BlockKind → SentBlock
  | .stored => .stored (List.replicate (padLen c0) false) (blockBytes d b)
  | .fixed => .fixed b.tokens
  | .dynamic => sentDynamic b.tokens

theorem sentBlock_bits (d : Nat → Byte) (c0 : Nat) (b : Block) (k : BlockKind) (final : Bool) :
    (sentBlock d c0 b k).bits final = blockBits d k c0 b final := by
  cases k with
  | stored => simp only [sentBlock, SentBlock.bits, SentBlock.btype, SentBlock.body, blockBits, storedBits,
      List.append_assoc]
  | fixed => rfl
  | dynamic => exact sentDynamic_bits b.tokens final

/-- A block that tiles its part of the input is valid there, and stands for the bytes of that part. -/
theorem sentBlock_stands {b : Block} {k : BlockKind} (pos : Nat) (hspan : b.span ≤ 65535)
    (hcovers : k ≠ .stored → Covers d (b.start + b.span) b.start b.tokens) :
    (sentBlock d (pos % 8) b k).valid (pos + 3) b.start = true ∧ (sentBlock d (pos % 8) b k).span = b.span ∧
      (sentBlock d (pos % 8) b k).onto (before d b.start) = before d (b.start + b.span) := by
  cases k with
  | stored =>
    have hbytes : (blockBytes d b).length = b.span := by simp [blockBytes]
    have hpad : padLen (pos % 8) = (8 - (pos + 3) % 8) % 8 := by simp only [padLen]; omega
    refine ⟨?_, hbytes, (before_add d b.start b.span).symm⟩
    simp [sentBlock, SentBlock.valid, hbytes, hpad, hspan]
  | fixed =>
    obtain ⟨hlen, hfit, hreplay⟩ := hcovers (by simp)
    exact ⟨hfit, Nat.add_left_cancel hlen, hreplay⟩
  | dynamic =>
    obtain ⟨hlen, hfit, hreplay⟩ := hcovers (by simp)
    exact ⟨sentDynamic_valid b.tokens hfit, Nat.add_left_cancel hlen, hreplay⟩

/-- The blocks of COMPRESS as blocks of RFC 1951, `pos` bits into the stream (43_deflate R251). -/
def sentBlocks (d : Nat → Byte) (mode : Nat) : Nat → List Block → List SentBlock
  | _, [] => []
  | pos, b :: rest =>
    let k := compressKind mode (pos % 8) b
    sentBlock d (pos % 8) b k :: sentBlocks d mode (pos + (blockBits d k (pos % 8) b rest.isEmpty).length) rest

theorem sentBlocks_length (d : Nat → Byte) (mode pos : Nat) (bs : List Block) :
    (sentBlocks d mode pos bs).length = bs.length := by
  induction bs generalizing pos with
  | nil => rfl
  | cons b rest ih => simp only [sentBlocks, List.length_cons, ih]

theorem sentBlocks_isEmpty (d : Nat → Byte) (mode pos : Nat) (bs : List Block) :
    (sentBlocks d mode pos bs).isEmpty = bs.isEmpty := by cases bs <;> rfl

theorem sentBits_sentBlocks (d : Nat → Byte) (mode pos : Nat) (bs : List Block) :
    sentBits (sentBlocks d mode pos bs) = streamBits d mode pos bs := by
  induction bs generalizing pos with
  | nil => rfl
  | cons b rest ih => simp only [sentBlocks, sentBits, streamBits, sentBlocks_isEmpty, sentBlock_bits, ih]

theorem compressKind_eq_stored {mode : Nat} (h : mode = 0) (c0 : Nat) (b : Block) : compressKind mode c0 b = .stored :=
  if_pos h

/-- Blocks that tile the input from p on are sent as valid blocks that stand for it. -/
theorem sentBlocks_stand {mode : Nat} (pos : Nat) {bs : List Block} (h : Tiles d n mode p bs) :
    sentValid pos p (sentBlocks d mode pos bs) = true ∧
      (sentBlocks d mode pos bs).foldl SentBlock.onto (before d p) = before d n := by
  induction bs generalizing pos p with
  | nil => exact ⟨rfl, congrArg (before d) h⟩
  | cons b rest ih =>
    obtain ⟨rfl, hspan, hcovers, htiles⟩ := h
    obtain ⟨hvalid, hlen, honto⟩ := sentBlock_stands (k := compressKind mode (pos % 8) b) pos hspan
      fun hk => hcovers fun hm => hk (compressKind_eq_stored hm _ _)
    obtain ⟨hothers, hfold⟩ := ih
      (pos + (blockBits d (compressKind mode (pos % 8) b) (pos % 8) b rest.isEmpty).length) htiles
    simp only [sentBlocks, sentValid, List.foldl_cons, hvalid, hlen, honto, sentBlocks_isEmpty, sentBlock_bits,
      Bool.true_and]
    exact ⟨hothers, hfold⟩

end Stream

/-- Settles O34: the blocks tile the input, and each is sent as a valid block that stands for its part. -/
theorem compressWritesAValidStream : Obligations.CompressWritesAValidStream := by
  intro s
  obtain ⟨hvalid, hfold⟩ := sentBlocks_stand 0 (compressBlocks_tiles s)
  refine ⟨sentBlocks (inputView s) (cfgMode s.latch.config) 0 (compressBlocks s), fun hnil => ?_,
    sentBlocks_length .., hvalid, sentBits_sentBlocks .., ?_⟩
  · have hlen := sentBlocks_length (inputView s) (cfgMode s.latch.config) 0 (compressBlocks s)
    rw [hnil] at hlen
    exact compressBlocks_ne_nil s (List.eq_nil_of_length_eq_zero hlen.symm)
  · have hout : (sentBlocks (inputView s) (cfgMode s.latch.config) 0 (compressBlocks s)).foldl SentBlock.onto [] =
        before (inputView s) s.a1 := hfold
    rw [sentOutput, hout, before, List.reverse_reverse]
    rfl

end Sys2Proof.Machine

/-! What the reader's procedures read: the bits each takes when they come next, what it answers, and the UnexpectedEnd
where the input ends inside them (40_bitstream R151, 60_exceptions R342). -/

namespace Sys2Proof.Machine

open Sys2Proof

section Reads

variable {α β : Type} {p : Params} {inb : Nat → Byte} {f : Reader → Except Err (α × Reader)}
  {g : α × Reader → Except Err (β × Reader)} {xs ys zs : List Bool} {a : α} {o : Except Err α} {o' : Except Err β}

/-! ### Procedures that read given bits -/

/-- `f` reads `xs` with the outcome `o`: where `xs` comes next it ends with `o`, past `xs`, and where the input ends inside
`xs` it raises UnexpectedEnd. -/
structure Reads (p : Params) (inb : Nat → Byte) (f : Reader → Except Err (α × Reader)) (xs : List Bool)
    (o : Except Err α) : Prop where
  whole : ∀ r : Reader, r.Ok p → xs <+: r.rest inb → f r = o.map (fun v => (v, r.skip xs.length))
  cut : ∀ r : Reader, r.Ok p → r.rest inb <+: xs → r.rest inb ≠ xs → f r = .error .unexpectedEnd

/-- A list that ends inside `xs ++ ys` ends inside `xs`, or inside `ys` after `xs`. -/
theorem cut_append (h : zs <+: xs ++ ys) (hne : zs ≠ xs ++ ys) :
    (zs <+: xs ∧ zs ≠ xs) ∨ ∃ us, zs = xs ++ us ∧ us <+: ys ∧ us ≠ ys := by
  by_cases hlen : zs.length < xs.length
  · exact .inl ⟨List.prefix_of_prefix_length_le h (List.prefix_append _ _) hlen.le, fun he => by simp [he] at hlen⟩
  · obtain ⟨us, rfl⟩ := List.prefix_of_prefix_length_le (List.prefix_append xs ys) h (by omega)
    exact .inr ⟨us, rfl, (List.prefix_append_right_inj xs).1 h, fun he => hne (by rw [he])⟩

theorem Reads.ok (v : α) : Reads p inb (fun r => .ok (v, r)) [] (.ok v) where
  whole r _ _ := by rw [List.length_nil, Reader.skip_zero]; rfl
  cut _ _ h hne := absurd (List.prefix_nil.1 h) hne

theorem Reads.error (e : Err) : Reads p inb (fun _ => .error e) [] (.error e : Except Err α) where
  whole _ _ _ := rfl
  cut _ _ h hne := absurd (List.prefix_nil.1 h) hne

theorem Reads.bind (hf : Reads p inb f xs (.ok a)) (hg : Reads p inb (fun r => g (a, r)) ys o') :
    Reads p inb (fun r => f r >>= g) (xs ++ ys) o' where
  whole r hr hp := by
    have hlen := hp.length_le
    rw [List.length_append, Reader.rest_length] at hlen
    have e : f r = .ok (a, r.skip xs.length) := hf.whole r hr ((List.prefix_append _ _).trans hp)
    rw [e, except_ok_bind, hg.whole _ (Reader.skip_ok hr (by omega)) (Reader.prefix_skip hr hp), List.length_append,
      Reader.skip_skip hr hlen]
  cut r hr hp hne := by
    rcases cut_append hp hne with ⟨h, h'⟩ | ⟨us, he, h, h'⟩
    · rw [hf.cut r hr h h', except_error_bind]
    · have hx : xs <+: r.rest inb := he ▸ List.prefix_append _ _
      have hlen : xs.length ≤ r.left := by simpa using hx.length_le
      have e : f r = .ok (a, r.skip xs.length) := hf.whole r hr hx
      have hrest : (r.skip xs.length).rest inb = us := by rw [Reader.rest_skip hr hlen, he, List.drop_left]
      rw [e, except_ok_bind, hg.cut _ (Reader.skip_ok hr hlen) (hrest ▸ h) (hrest ▸ h')]

theorem Reads.map (h : α → β) (hf : Reads p inb f xs (.ok a)) :
    Reads p inb (fun r => f r >>= fun v => .ok (h v.1, v.2)) xs (.ok (h a)) := by
  simpa using hf.bind (g := fun v => .ok (h v.1, v.2)) (.ok (h a))

/-- What `f` answers past the bits `xs` of a reader whose remaining bits begin with `xs ++ ys`. -/
theorem Reads.after (hf : Reads p inb f ys o) {r : Reader} (hr : r.Ok p) (hp : xs ++ ys <+: r.rest inb) :
    f (r.skip xs.length) = o.map (fun v => (v, r.skip (xs.length + ys.length))) := by
  have hlen := hp.length_le
  rw [List.length_append, Reader.rest_length] at hlen
  rw [hf.whole _ (Reader.skip_ok hr (by omega)) (Reader.prefix_skip hr hp), Reader.skip_skip hr hlen]

/-- Past `xs`, `f` meets the end of an input that ends inside `xs ++ ys`. -/
theorem Reads.cut_after (hf : Reads p inb f ys o) {r : Reader} (hr : r.Ok p) (hx : xs <+: r.rest inb)
    (hp : r.rest inb <+: xs ++ ys) (hne : r.rest inb ≠ xs ++ ys) :
    f (r.skip xs.length) = .error .unexpectedEnd := by
  have hlen : xs.length ≤ r.left := by simpa using hx.length_le
  obtain ⟨us, he⟩ := hx
  have hrest : (r.skip xs.length).rest inb = us := by rw [Reader.rest_skip hr hlen, ← he, List.drop_left]
  rw [← he] at hp hne
  exact hf.cut _ (Reader.skip_ok hr hlen) (hrest ▸ (List.prefix_append_right_inj xs).1 hp)
    (hrest ▸ fun h => hne (by rw [h]))

end Reads

section ReaderProcedures

variable {p : Params} {inb : Nat → Byte} {t : Table} {id : TableId}

/-! ### Numbers and codes -/

theorem reads_readBits {n v : Nat} (hv : v < 2 ^ n) : Reads p inb (readBits inb n) (natBits n v) (.ok v) where
  whole r hr hp := by rw [readBits_natBits hr hv hp, natBits_length]; rfl
  cut r hr hp hne := by
    refine readBits_end hr ?_
    have hlen := hp.length_le
    rw [Reader.rest_length, natBits_length] at hlen
    refine lt_of_le_of_ne hlen fun he => hne (hp.eq_of_length ?_)
    rw [Reader.rest_length, natBits_length, he]

/-- Decode reads the code of a coded symbol; an input that ends inside the code begins with no code. -/
theorem reads_decodeSymbol (ht : t.Ok id) {s : Nat} (hs : t.lenOf s ≠ 0) :
    Reads p inb (decodeSymbol t inb) (t.codeBits s) (.ok (s, t.lenOf s)) where
  whole r hr hp := by rw [decodeSymbol_found ht hr hs hp, Table.codeBits_length]; rfl
  cut r hr hp hne := by
    have hno : ∀ s', t.lenOf s' ≠ 0 → ¬ t.codeBits s' <+: r.rest inb := by
      intro s' hs' hp'
      obtain rfl := Table.codeBits_prefix_free ht hs' hs (hp'.trans hp)
      exact hne (hp.eq_of_length_le hp'.length_le)
    have h15 : ¬ 15 ≤ (r.rest inb).length := by
      intro h15
      have hmax := ht.lenOf_le s
      exact hne (hp.eq_of_length_le (by rw [Table.codeBits_length]; omega))
    rw [decodeSymbol_none ht hr hno, if_neg h15]

theorem reads_readEach {n : Nat} {vs : List Nat} (hvs : ∀ v ∈ vs, v < 2 ^ n) :
    Reads p inb (readEach inb n vs.length) (vs.flatMap (natBits n)) (.ok vs) := by
  induction vs with
  | nil => exact .ok []
  | cons v vs ih =>
    obtain ⟨hv, hvs⟩ := List.forall_mem_cons.1 hvs
    exact (reads_readBits hv).bind ((ih hvs).map (v :: ·))

/-- A block header is read as the number of its bits (44_inflate R281). -/
theorem reads_readHeader (final : Bool) {btype : Nat} (hb : btype < 4) :
    Reads p inb (readHeader inb) (blockHeader final btype) (.ok (BitVec.ofNat 3 (bitOf final + 2 * btype))) :=
  have hfinal : bitOf final < 2 ^ 1 := by cases final <;> decide
  (reads_readBits hfinal).bind ((reads_readBits (n := 2) hb).map fun b => BitVec.ofNat 3 (bitOf final + 2 * b))

/-! ### Lengths and distances -/

theorem reads_readLength {l : Nat} (h3 : 3 ≤ l) (h258 : l ≤ 258) :
    Reads p inb (readLength inb (lsym l)) (natBits (lextra (lsym l)) (l - lbase (lsym l))) (.ok l) := by
  obtain ⟨-, -, hbase, hextra⟩ := lsym_spec h3 h258
  have h := (reads_readBits (p := p) (inb := inb) hextra).map (lbase (lsym l) + ·)
  rwa [Nat.add_sub_cancel' hbase] at h

theorem reads_readDistance (ht : t.Ok id) {d : Nat} (h1 : 1 ≤ d) (h2 : d ≤ 32768) (hs : t.lenOf (dsym d) ≠ 0) :
    Reads p inb (readDistance t inb) (t.codeBits (dsym d) ++ natBits (dextra (dsym d)) (d - dbase (dsym d))) (.ok d) := by
  obtain ⟨hlt, hbase, hextra⟩ := dsym_spec h1 h2
  refine (reads_decodeSymbol ht hs).bind ?_
  have hok : decide (29 < dsym d) = false := decide_eq_false (by omega)
  have h := (reads_readBits (p := p) (inb := inb) hextra).map (dbase (dsym d) + ·)
  rw [Nat.add_sub_cancel' hbase] at h
  simpa only [hok, failIf_false, except_ok_bind] using h

/-- The distance symbols 30 and 31 (44_inflate R288). -/
theorem reads_readDistance_bad (ht : t.Ok id) {c : Nat} (hc : 29 < c) (hs : t.lenOf c ≠ 0) :
    Reads p inb (readDistance t inb) (t.codeBits c) (.error .invalidCode) := by
  have hbad : decide (29 < c) = true := decide_eq_true hc
  rw [← List.append_nil (t.codeBits c)]
  refine (reads_decodeSymbol ht hs).bind ?_
  simpa only [hbad, failIf_true, except_error_bind] using Reads.error .invalidCode

end ReaderProcedures

end Sys2Proof.Machine

/-! The symbol loop of a Huffman block: one pass reads an item and plays its token (44_inflate R286..R289). -/

namespace Sys2Proof.Machine

open Sys2Proof

/-! ### One pass of the symbol loop -/

/-- What the literal/length symbol of a pass of HuffBody starts (44_inflate R286, R287). -/
inductive ItemHead where
  | lit (b : Byte)
  | stop
  | length (l : Nat)

/-- The symbol of a pass, and the extra bits of a length (44_inflate R286, R287). -/
def readHead (ll : Table) (inb : Nat → Byte) (r : Reader) : Except Err (ItemHead × Reader) := do
  let ((s, _), r) ← decodeSymbol ll inb r
  if s < 256 then .ok (.lit (BitVec.ofNat 8 s), r)
  else if s = 256 then .ok (.stop, r)
  else if 285 < s then .error .invalidCode
  else do
    let (l, r) ← readLength inb s r
    .ok (.length l, r)

/-- The rest of a pass: the distance of a match (44_inflate R288). There is no token at the end of the block. -/
def readTail (dl : Table) (inb : Nat → Byte) : ItemHead × Reader → Except Err (Option Token × Reader)
  | (.lit b, r) => .ok (some (.lit b), r)
  | (.stop, r) => .ok (none, r)
  | (.length l, r) => readDistance dl inb r >>= fun v => .ok (some (.mtch l v.1), v.2)

/-- What one pass of HuffBody reads: a token, or the end of the block (44_inflate R286..R288). -/
def readItem (ll dl : Table) (inb : Nat → Byte) (r : Reader) : Except Err (Option Token × Reader) :=
  readHead ll inb r >>= readTail dl inb

/-- What one pass of HuffBody does with a token: EmitByte or Copy (44_inflate R286, R289). -/
def playToken (cap : Nat) : Token → Stream → Except Err Stream
  | .lit b, st => emitByte cap b st
  | .mtch l d, st => copyMatch cap l d st

/-- HuffBody reads an item and plays its token, until the end of the block. -/
theorem huffLoop_succ (cap : Nat) (inb : Nat → Byte) (fuel produced : Nat) (st : Stream) :
    huffLoop cap inb (fuel + 1) produced st =
      readItem st.litlen st.dist inb st.reader >>= fun v =>
        match v.1 with
        | none => .ok (produced, { st with reader := v.2 })
        | some t =>
          playToken cap t { st with reader := v.2 } >>= fun st' => huffLoop cap inb fuel (produced + Token.span t) st' := by
  rw [huffLoop, readItem, readHead]
  rcases decodeSymbol st.litlen inb st.reader with e | ⟨⟨s, n⟩, r⟩
  · rfl
  simp only [except_ok_bind]
  split_ifs
  · rfl
  · rfl
  · rfl
  · rcases readLength inb s r with e | ⟨l, r⟩
    · rfl
    · simp only [except_ok_bind, readTail]
      rcases readDistance st.dist inb r with e | ⟨d, r⟩ <;> rfl

section Items

variable {p : Params} {inb : Nat → Byte} {ll dl : Table}

theorem reads_readHead_lit (hll : ll.Ok .litlen) {b : Byte} (hs : ll.lenOf b.toNat ≠ 0) :
    Reads p inb (readHead ll inb) (ll.codeBits b.toNat) (.ok (.lit b)) := by
  rw [← List.append_nil (ll.codeBits _)]
  refine (reads_decodeSymbol hll hs).bind ?_
  simpa only [if_pos b.isLt, BitVec.ofNat_toNat, BitVec.setWidth_eq] using Reads.ok (ItemHead.lit b)

theorem reads_readHead_stop (hll : ll.Ok .litlen) (hs : ll.lenOf 256 ≠ 0) :
    Reads p inb (readHead ll inb) (ll.codeBits 256) (.ok .stop) := by
  rw [← List.append_nil (ll.codeBits 256)]
  exact (reads_decodeSymbol hll hs).bind (.ok ItemHead.stop)

theorem reads_readHead_length (hll : ll.Ok .litlen) {l : Nat} (h3 : 3 ≤ l) (h258 : l ≤ 258)
    (hs : ll.lenOf (lsym l) ≠ 0) : Reads p inb (readHead ll inb) (lengthCode ll l) (.ok (.length l)) := by
  obtain ⟨h257, h285, -, -⟩ := lsym_spec h3 h258
  refine (reads_decodeSymbol hll hs).bind ?_
  simp only [if_neg (show ¬ lsym l < 256 by omega), if_neg (show ¬ lsym l = 256 by omega),
    if_neg (show ¬ 285 < lsym l by omega)]
  exact (reads_readLength h3 h258).map ItemHead.length

/-- The literal/length symbols 286 and 287 (44_inflate R286). -/
theorem reads_readHead_bad (hll : ll.Ok .litlen) {s : Nat} (h : 285 < s) (hs : ll.lenOf s ≠ 0) :
    Reads p inb (readHead ll inb) (ll.codeBits s) (.error .invalidCode) := by
  rw [← List.append_nil (ll.codeBits s)]
  refine (reads_decodeSymbol hll hs).bind ?_
  simpa only [if_neg (show ¬ s < 256 by omega), if_neg (show ¬ s = 256 by omega), if_pos h] using Reads.error .invalidCode

/-- A coded token is read from its bits. -/
theorem reads_readItem_token (hll : ll.Ok .litlen) (hdl : dl.Ok .dist) {t : Token} (hwf : t.wf = true)
    (hcoded : tokenCoded ll dl t = true) :
    Reads p inb (readItem ll dl inb) (tokenCode ll dl t) (.ok (some t)) := by
  cases t with
  | lit b =>
    rw [tokenCode, ← List.append_nil (ll.codeBits _)]
    exact (reads_readHead_lit hll (by simpa [tokenCoded] using hcoded)).bind (.ok (some (Token.lit b)))
  | mtch l d =>
    obtain ⟨⟨h3, h258⟩, h1, h32768⟩ := (Token.wf_mtch_iff l d).1 hwf
    obtain ⟨hl, hd⟩ : ll.lenOf (lsym l) ≠ 0 ∧ dl.lenOf (dsym d) ≠ 0 := by simpa [tokenCoded] using hcoded
    rw [tokenCode, List.append_assoc]
    exact (reads_readHead_length hll h3 h258 hl).bind
      ((reads_readDistance hdl h1 h32768 hd).map fun d => some (Token.mtch l d))

theorem reads_readItem_end (hll : ll.Ok .litlen) (hs : ll.lenOf 256 ≠ 0) :
    Reads p inb (readItem ll dl inb) (ll.codeBits 256) (.ok none) := by
  rw [← List.append_nil (ll.codeBits 256)]
  exact (reads_readHead_stop hll hs).bind (.ok none)

end Items

/-! ### Playing a token -/

section Play

variable {p : Params} {st : Stream}

/-- Everything a pass can do with a legal token on a writer within OUT. -/
theorem playToken_cases {t : Token} (hwf : t.wf = true) (hw : st.window.Ok) (hc : st.writer.outPos.toNat ≤ p.outCap) :
    ((∃ l d, t = .mtch l d ∧ st.window.fill.toNat < d) ∧ playToken p.outCap t st = .error .invalidDistance) ∨
      ((∀ l d, t = .mtch l d → d ≤ st.window.fill.toNat) ∧
        ((st.writer.outPos.toNat + Token.span t ≤ p.outCap ∧
            ∃ st', playToken p.outCap t st = .ok st' ∧ st.Emitted st' (emitted st.window.history [t]) ∧
              st.SameButEmitted st') ∨
          (p.outCap < st.writer.outPos.toNat + Token.span t ∧ playToken p.outCap t st = .error .outputOverflow))) := by
  cases t with
  | lit b => exact .inr ⟨by simp, emitByte_emitted b hw⟩
  | mtch l d =>
    obtain ⟨-, h1, -⟩ := (Token.wf_mtch_iff l d).1 hwf
    have hem : emitted st.window.history [.mtch l d] = copied d l st.window.history := by simp [emitted]
    rcases copyMatch_cases (p := p) l d hw h1 hc with ⟨hd, h⟩ | ⟨hd, h⟩ | ⟨hd, h⟩
    · exact .inl ⟨⟨l, d, rfl, hd⟩, h⟩
    · exact .inr ⟨by rintro _ _ ⟨⟩; exact hd, .inl (hem ▸ h)⟩
    · exact .inr ⟨by rintro _ _ ⟨⟩; exact hd, .inr h⟩

end Play

/-! ### Where a body ends early -/

section Splits

/-- Tokens that stand for more than `room` bytes: the first one with no room, and those before it. -/
theorem exists_overflowing {room : Nat} {ts : List Token} (h : room < spanOf ts) :
    ∃ as t bs, ts = as ++ t :: bs ∧ spanOf as ≤ room ∧ room < spanOf as + Token.span t := by
  induction ts generalizing room with
  | nil => simp at h
  | cons t ts ih =>
    rw [spanOf_cons] at h
    by_cases ht : room < Token.span t
    · exact ⟨[], t, ts, rfl, Nat.zero_le _, by simpa using ht⟩
    · obtain ⟨as, u, bs, rfl, hle, hlt⟩ := ih (room := room - Token.span t) (by omega)
      exact ⟨t :: as, u, bs, rfl, by rw [spanOf_cons]; omega, by rw [spanOf_cons]; omega⟩

/-- A list that ends inside the pieces of `xs`, or inside `ys` after them: the piece it ends inside. -/
theorem cut_flatMap {α : Type} (f : α → List Bool) {xs : List α} {ys zs : List Bool} (h : zs <+: xs.flatMap f ++ ys)
    (hne : zs ≠ xs.flatMap f ++ ys) :
    (∃ as a bs, xs = as ++ a :: bs ∧ as.flatMap f <+: zs ∧ zs <+: as.flatMap f ++ f a ∧ zs ≠ as.flatMap f ++ f a) ∨
      xs.flatMap f <+: zs := by
  induction xs generalizing zs with
  | nil => exact .inr (List.nil_prefix)
  | cons x xs ih =>
    rw [List.flatMap_cons, List.append_assoc] at h hne
    rcases cut_append h hne with ⟨h, hne⟩ | ⟨us, rfl, h, hne⟩
    · exact .inl ⟨[], x, xs, rfl, List.nil_prefix, h, hne⟩
    · rcases ih h hne with ⟨as, a, bs, rfl, has, ha, hane⟩ | hall
      · refine .inl ⟨x :: as, a, bs, rfl, ?_, ?_, ?_⟩
        · exact (List.prefix_append_right_inj _).2 has
        · rw [List.flatMap_cons, List.append_assoc]; exact (List.prefix_append_right_inj _).2 ha
        · rw [List.flatMap_cons, List.append_assoc]; exact fun he => hane (List.append_cancel_left he)
      · exact .inr ((List.prefix_append_right_inj _).2 hall)

end Splits

/-! ### The body of a Huffman block -/

/-- What HuffBody starts from: legal tables, a reader and a window in their invariants. -/
structure Stream.Ready (p : Params) (st : Stream) : Prop where
  litlen : st.litlen.Ok .litlen
  dist : st.dist.Ok .dist
  reader : st.reader.Ok p
  window : st.window.Ok

/-- The bits of tokens under the tables of `st`. -/
abbrev Stream.tokenBits (st : Stream) (ts : List Token) : List Bool := ts.flatMap (tokenCode st.litlen st.dist)

/-- `st'` is `st` after the tokens `ts` of a body. -/
structure Stream.Played (st st' : Stream) (ts : List Token) : Prop where
  emitted : st.Emitted st' (emitted st.window.history ts)
  reader : st'.reader = st.reader.skip (st.tokenBits ts).length
  tables : st.SameTables st'

/-- Tokens a body can begin with: legal and coded, after `produced` bytes of which the window holds the last ones, with
room for theirs. -/
structure Stream.Plays (p : Params) (st : Stream) (produced : Nat) (ts : List Token) : Prop where
  fill : min produced Config.wsize ≤ st.window.fill.toNat
  fit : tokensFit produced ts = true
  coded : ts.all (tokenCoded st.litlen st.dist) = true
  room : st.writer.outPos.toNat + spanOf ts ≤ p.outCap

/-- What was emitted is said of the writer and the window alone. -/
theorem Stream.Emitted.congr {st st' st₁ st₁' : Stream} {bytes : List Byte} (h : st.Emitted st' bytes)
    (hw : st₁.writer = st.writer) (hwin : st₁.window = st.window) (hw' : st₁'.writer = st'.writer)
    (hwin' : st₁'.window = st'.window) : st₁.Emitted st₁' bytes := by
  obtain ⟨hpos, hwritten, hout, hpending, hhistory, hok⟩ := h
  constructor <;> simp only [hw, hwin, hw', hwin'] <;> assumption

section Body

variable {p : Params} {inb : Nat → Byte} {st st' : Stream} {produced : Nat} {ts : List Token} {e : Err}

/-- The next item after the tokens `ts`. -/
theorem Stream.Played.readItem (h : st.Played st' ts) (inb : Nat → Byte) :
    Machine.readItem st'.litlen st'.dist inb st'.reader =
      Machine.readItem st.litlen st.dist inb (st.reader.skip (st.tokenBits ts).length) := by
  obtain ⟨hll, hdl, -⟩ := h.tables
  rw [hll, hdl, h.reader]

/-- Bytes written so far, and how many of them the window holds. -/
theorem Stream.Played.outPos (h : st.Played st' ts) :
    st'.writer.outPos.toNat = st.writer.outPos.toNat + spanOf ts := by
  rw [h.emitted.outPos, emitted_length]

theorem Stream.Played.fill_le (h : st.Played st' ts) :
    st'.window.fill.toNat ≤ st.window.fill.toNat + spanOf ts := by
  rw [← Window.history_length, h.emitted.history, List.length_take, List.length_append, List.length_reverse,
    emitted_length, Window.history_length]
  omega

theorem Stream.Played.fill_ge (h : st.Played st' ts) :
    min (st.window.fill.toNat + spanOf ts) Config.wsize ≤ st'.window.fill.toNat := by
  have hfill := h.emitted.fill_ge
  rwa [emitted_length] at hfill

/-- Tokens that a body can begin with, less the last ones. -/
theorem Stream.Plays.left {as bs : List Token} (h : st.Plays p produced (as ++ bs)) : st.Plays p produced as := by
  obtain ⟨hfill, hfit, hcoded, hroom⟩ := h
  rw [tokensFit_append, Bool.and_eq_true] at hfit
  rw [List.all_append, Bool.and_eq_true] at hcoded
  rw [spanOf_append] at hroom
  exact ⟨hfill, hfit.1, hcoded.1, by omega⟩

/-- With no bit left, a pass raises UnexpectedEnd, as the loop does that has no pass left (log 12). -/
theorem huffLoop_one_of_empty (h : st.Ready p) (h0 : st.reader.left = 0) (k : Nat) :
    huffLoop p.outCap inb 1 k st = .error .unexpectedEnd := by
  have hno : ∀ s, st.litlen.lenOf s ≠ 0 → ¬ st.litlen.codeBits s <+: st.reader.rest inb := by
    intro s hs hp
    have := hp.length_le
    rw [Table.codeBits_length, Reader.rest_length] at this
    omega
  have hdec := decodeSymbol_none h.litlen h.reader hno
  rw [if_neg (by rw [Reader.rest_length]; omega)] at hdec
  rw [huffLoop_succ, readItem, readHead, hdec]
  rfl

/-- The body after its first tokens: the loop makes another pass. -/
theorem huffBody_tokens (h : st.Ready p) (hts : st.Plays p produced ts) (hp : st.tokenBits ts <+: st.reader.rest inb) :
    ∃ st' fuel, st.Played st' ts ∧ huffBody p.outCap inb st = huffLoop p.outCap inb (fuel + 1) (spanOf ts) st' := by
  obtain ⟨st', hloop, hem, hreader, hpasses, hbits, hll, hdl, hcl, -⟩ := huffLoop_tokens (xs := []) ts h.litlen h.dist
    h.reader h.window hts.room hts.fill hts.fit hts.coded (by simpa using hp)
  have hbody : huffBody p.outCap inb st = huffLoop p.outCap inb (st.reader.left - ts.length) (spanOf ts) st' := by
    have hfuel : st.reader.remaining.toNat = ts.length + (st.reader.left - ts.length) := by
      rw [h.reader.remaining_eq, Int.toNat_natCast]; omega
    rw [huffBody, hfuel, hloop, Nat.zero_add]
  refine ⟨st', st.reader.left - ts.length - 1, ⟨hem, hreader, hll, hdl, hcl⟩, ?_⟩
  rcases Nat.eq_zero_or_pos (st.reader.left - ts.length) with h0 | hpos
  · have hready : st'.Ready p :=
      ⟨hll ▸ h.litlen, hdl ▸ h.dist, hreader ▸ Reader.skip_ok h.reader hbits, hem.windowOk⟩
    have hempty : st'.reader.left = 0 := by rw [hreader, Reader.skip_left h.reader hbits]; omega
    rw [hbody, h0, huffLoop_one_of_empty hready hempty]
    rfl
  · rw [hbody, Nat.sub_add_cancel hpos]

/-- A pass that cannot read its item ends the body. -/
theorem huffBody_error_of_read (h : st.Ready p) (hts : st.Plays p produced ts)
    (hp : st.tokenBits ts <+: st.reader.rest inb)
    (hitem : readItem st.litlen st.dist inb (st.reader.skip (st.tokenBits ts).length) = .error e) :
    huffBody p.outCap inb st = .error e := by
  obtain ⟨st', fuel, hplayed, hbody⟩ := huffBody_tokens h hts hp
  rw [hbody, huffLoop_succ, hplayed.readItem, hitem, except_error_bind]

/-- A pass that cannot play its token ends the body. -/
theorem huffBody_error_of_play (h : st.Ready p) (hts : st.Plays p produced ts) {t : Token} (hwf : t.wf = true)
    (hcoded : tokenCoded st.litlen st.dist t = true)
    (hp : st.tokenBits ts ++ tokenCode st.litlen st.dist t <+: st.reader.rest inb)
    (hplay : ∀ (st' : Stream) (r : Reader), st.Played st' ts → playToken p.outCap t { st' with reader := r } = .error e) :
    huffBody p.outCap inb st = .error e := by
  obtain ⟨st', fuel, hplayed, hbody⟩ := huffBody_tokens h hts ((List.prefix_append _ _).trans hp)
  have hitem := (reads_readItem_token h.litlen h.dist hwf hcoded).after h.reader hp
  rw [hbody, huffLoop_succ, hplayed.readItem, hitem]
  simp only [Except.map, except_ok_bind, hplay st' _ hplayed, except_error_bind]

/-- The body of a valid block (44_inflate R286). -/
theorem huffBody_ok (h : st.Ready p) (hts : st.Plays p produced ts) (h256 : st.litlen.lenOf 256 ≠ 0)
    (hp : bodyBits st.litlen st.dist ts <+: st.reader.rest inb) :
    ∃ st', huffBody p.outCap inb st = .ok (spanOf ts, st') ∧ st.Emitted st' (emitted st.window.history ts) ∧
      st'.reader = st.reader.skip (bodyBits st.litlen st.dist ts).length ∧ st.SameTables st' := by
  obtain ⟨st', fuel, hplayed, hbody⟩ := huffBody_tokens h hts ((List.prefix_append _ _).trans hp)
  have hitem := (reads_readItem_end (dl := st.dist) h.litlen h256).after h.reader hp
  refine ⟨{ st' with reader := st.reader.skip (bodyBits st.litlen st.dist ts).length }, ?_,
    hplayed.emitted.congr rfl rfl rfl rfl, rfl, hplayed.tables⟩
  rw [hbody, huffLoop_succ, hplayed.readItem, hitem, bodyBits, List.length_append]
  rfl

/-- A distance beyond the bytes produced ends the body (44_inflate R289). -/
theorem huffBody_tooFar (h : st.Ready p) (hts : st.Plays p produced ts) {l d : Nat} (hwf : (Token.mtch l d).wf = true)
    (hcoded : tokenCoded st.litlen st.dist (.mtch l d) = true) (hd : st.window.fill.toNat + spanOf ts < d)
    (hp : st.tokenBits ts ++ tokenCode st.litlen st.dist (.mtch l d) <+: st.reader.rest inb) :
    huffBody p.outCap inb st = .error .invalidDistance := by
  refine huffBody_error_of_play h hts hwf hcoded hp fun st' r hplayed => ?_
  have hfill := hplayed.fill_le
  exact if_pos (by simp only; omega)

/-- A token with no room for its bytes ends the body (60_exceptions R348). -/
theorem huffBody_noRoom (h : st.Ready p) (hts : st.Plays p produced ts) {t : Token}
    (hfit : tokensFit produced (ts ++ [t]) = true) (hcoded : tokenCoded st.litlen st.dist t = true)
    (hroom : p.outCap < st.writer.outPos.toNat + spanOf (ts ++ [t]))
    (hp : st.tokenBits ts ++ tokenCode st.litlen st.dist t <+: st.reader.rest inb) :
    huffBody p.outCap inb st = .error .outputOverflow := by
  simp only [tokensFit_append, tokensFit, Bool.and_true, Bool.and_eq_true] at hfit
  obtain ⟨-, hwf, hdist⟩ := hfit
  refine huffBody_error_of_play h hts hwf hcoded hp fun st' r hplayed => ?_
  have hpos := hplayed.outPos
  have hroom' := hts.room
  rw [spanOf_append, spanOf_cons, spanOf_nil] at hroom
  rcases playToken_cases (p := p) (st := { st' with reader := r }) hwf hplayed.emitted.windowOk (by simp only; omega) with
    ⟨⟨l, d, rfl, hfar⟩, -⟩ | ⟨-, ⟨hfits, -⟩ | ⟨-, herr⟩⟩
  · have hfill := hplayed.fill_ge
    have hproduced := hts.fill
    obtain ⟨-, -, h32768⟩ := (Token.wf_mtch_iff l d).1 hwf
    simp only [decide_eq_true_eq, Config.wsize] at hdist hfar hfill hproduced
    omega
  · simp only at hfits; omega
  · exact herr

/-- Tokens whose bytes do not fit end the body, at the first one with no room. -/
theorem huffBody_overflow (h : st.Ready p) (hfill : min produced Config.wsize ≤ st.window.fill.toNat)
    (hfit : tokensFit produced ts = true) (hcoded : ts.all (tokenCoded st.litlen st.dist) = true)
    (hout : st.writer.outPos.toNat ≤ p.outCap) (hroom : p.outCap < st.writer.outPos.toNat + spanOf ts)
    (hp : st.tokenBits ts <+: st.reader.rest inb) : huffBody p.outCap inb st = .error .outputOverflow := by
  obtain ⟨as, t, bs, rfl, hle, hlt⟩ := exists_overflowing (room := p.outCap - st.writer.outPos.toNat) (ts := ts) (by omega)
  have hsplit : as ++ t :: bs = (as ++ [t]) ++ bs := by simp
  rw [hsplit, tokensFit_append, Bool.and_eq_true] at hfit
  rw [List.all_append, List.all_cons, Bool.and_eq_true, Bool.and_eq_true] at hcoded
  have hfit' := hfit.1
  rw [tokensFit_append, Bool.and_eq_true] at hfit'
  refine huffBody_noRoom h ⟨hfill, hfit'.1, hcoded.1, by omega⟩ hfit.1 hcoded.2.1 ?_ ?_
  · rw [spanOf_append, spanOf_cons, spanOf_nil]; omega
  · refine List.IsPrefix.trans ?_ hp
    rw [Stream.tokenBits, Stream.tokenBits, List.flatMap_append, List.flatMap_cons, ← List.append_assoc]
    exact List.prefix_append _ _

/-- An input that ends inside the body of a valid block (44_inflate R286). -/
theorem huffBody_cut (h : st.Ready p) (hts : st.Plays p produced ts)
    (hp : st.reader.rest inb <+: bodyBits st.litlen st.dist ts)
    (hne : st.reader.rest inb ≠ bodyBits st.litlen st.dist ts) :
    huffBody p.outCap inb st = .error .unexpectedEnd := by
  rcases cut_flatMap _ hp hne with ⟨as, t, bs, rfl, has, ht, htne⟩ | hall
  · have hcoded := hts.coded
    have hwf := tokensFit_wf hts.fit t (by simp)
    rw [List.all_append, List.all_cons, Bool.and_eq_true, Bool.and_eq_true] at hcoded
    exact huffBody_error_of_read h hts.left has
      ((reads_readItem_token h.litlen h.dist hwf hcoded.2.1).cut_after h.reader has ht htne)
  · refine huffBody_error_of_read h hts hall ?_
    have h256 : st.litlen.lenOf 256 ≠ 0 := by
      intro h0
      have hnil : st.litlen.codeBits 256 = [] := List.eq_nil_of_length_eq_zero (by rw [Table.codeBits_length, h0])
      rw [bodyBits, hnil, List.append_nil] at hp hne
      exact hne (hp.eq_of_length_le hall.length_le)
    exact (reads_readItem_end h.litlen h256).cut_after h.reader hall hp hne

end Body

end Sys2Proof.Machine

/-! The header of a dynamic block: the counts, the code-length code and the code-length sequence, as they are read and as
they fail (44_inflate R284, R285). -/

namespace Sys2Proof.Machine

open Sys2Proof

/-! ### The counts and the code-length code -/

/-- HLIT, HDIST and the code-length-code lengths that HCLEN counts (44_inflate R284). -/
def readCounts (inb : Nat → Byte) (r : Reader) : Except Err ((Nat × Nat × List Nat) × Reader) := do
  let (hlit, r) ← readBits inb 5 r
  let (hdist, r) ← readBits inb 5 r
  let (hclen, r) ← readBits inb 4 r
  let (cl, r) ← readEach inb 3 (hclen + 4) r
  .ok ((hlit, hdist, cl), r)

/-- The two tables of the code lengths `vs` (44_inflate R285). -/
def loadLengths (hlit : Nat) (clen : Table) (st : Stream) (vs : List Nat × Reader) : Except Err Stream := do
  let litlen ← buildTable Config.numLitlen (vs.1.take (hlit + 257))
  let dist ← buildTable Config.numDist (vs.1.drop (hlit + 257))
  .ok { st with reader := vs.2, litlen := litlen, dist := dist, clen := clen }

theorem dynamicHeader_eq (inb : Nat → Byte) (st : Stream) :
    dynamicHeader inb st =
      readCounts inb st.reader >>= fun c =>
        buildTable Config.numClen (clenLengths c.1.2.2) >>= fun clen =>
          lengthsLoop clen inb (c.1.1 + 257 + (c.1.2.1 + 1)) (c.1.1 + 257 + (c.1.2.1 + 1)) [] c.2 >>=
            loadLengths c.1.1 clen st := by
  rw [dynamicHeader, readCounts]
  rcases readBits inb 5 st.reader with e | ⟨hlit, r⟩
  · rfl
  simp only [except_ok_bind]
  rcases readBits inb 5 r with e | ⟨hdist, r⟩
  · rfl
  simp only [except_ok_bind]
  rcases readBits inb 4 r with e | ⟨hclen, r⟩
  · rfl
  simp only [except_ok_bind]
  rcases readEach inb 3 (hclen + 4) r with e | ⟨cl, r⟩ <;> rfl

/-- Counts that fit their fields (30_encoding R110, R111). -/
structure CountsFit (hlit hdist : Nat) (cl : List Nat) : Prop where
  hlit : hlit < 32
  hdist : hdist < 32
  four_le : 4 ≤ cl.length
  le_nineteen : cl.length ≤ 19
  clen : ∀ l ∈ cl, l ≤ 7

/-- The bits of the counts and of the code-length-code lengths (30_encoding R110). -/
def countBits (hlit hdist : Nat) (cl : List Nat) : List Bool :=
  natBits 5 hlit ++ natBits 5 hdist ++ natBits 4 (cl.length - 4) ++ cl.flatMap (natBits 3)

section Counts

variable {p : Params} {inb : Nat → Byte} {hlit hdist : Nat} {cl : List Nat}

theorem reads_readCounts (h : CountsFit hlit hdist cl) :
    Reads p inb (readCounts inb) (countBits hlit hdist cl) (.ok (hlit, hdist, cl)) := by
  have hcount : cl.length - 4 < 2 ^ 4 := by have := h.le_nineteen; omega
  have hclen : ∀ l ∈ cl, l < 2 ^ 3 := fun l hl => Nat.lt_succ_of_le (h.clen l hl)
  have heach := (reads_readEach (p := p) (inb := inb) hclen).map fun cl => (hlit, hdist, cl)
  rw [← Nat.sub_add_cancel h.four_le] at heach
  rw [countBits, List.append_assoc, List.append_assoc]
  exact (reads_readBits (n := 5) h.hlit).bind ((reads_readBits (n := 5) h.hdist).bind ((reads_readBits hcount).bind heach))

/-- Setting the entries at distinct places: an entry holds the value for its place, where there is one. -/
theorem foldl_set_getD {ks : List Nat} (hks : ks.Nodup) (vs init : List Nat) (hlt : ∀ k ∈ ks, k < init.length)
    (hvs : vs.length ≤ ks.length) (k : Nat) :
    ((ks.zip vs).foldl (fun cl sv => cl.set sv.1 sv.2) init).getD k 0 =
      if ks.idxOf k < vs.length then vs.getD (ks.idxOf k) 0 else init.getD k 0 := by
  induction ks generalizing vs init with
  | nil => simp [List.length_eq_zero_iff.1 (Nat.le_zero.1 hvs)]
  | cons x xs ih =>
    cases vs with
    | nil => simp
    | cons v vs =>
      obtain ⟨hx, hxs⟩ := List.nodup_cons.1 hks
      obtain ⟨hlx, hlt⟩ := List.forall_mem_cons.1 hlt
      rw [List.zip_cons_cons, List.foldl_cons, ih hxs vs _ (by simpa using hlt) (by simpa using hvs)]
      by_cases hk : x = k
      · subst hk
        have hnot : ¬ xs.idxOf x < vs.length := by
          rw [List.idxOf_eq_length hx]; simpa using hvs
        rw [if_neg hnot, List.idxOf_cons_self, if_pos (by simp)]
        simp [List.getD, hlx]
      · rw [List.idxOf_cons_ne _ hk]
        simp [List.getD, hk]

/-- The CLEN lengths the inflater sets are those of the table that was sent (44_inflate R284, 30_encoding R111). -/
theorem clenLengths_eq (h : cl.length ≤ 19) : clenLengths cl = (sentClen cl).len := by
  have hlen := (clenLengths_lengthsOf (vs := cl) (m := cl.sum) fun _ => List.le_sum_of_mem).1
  refine List.ext_getElem (by rw [hlen]; simp [sentClen]) fun k hk _ => ?_
  rw [hlen] at hk
  have hk' : k < 19 := hk
  have hset := foldl_set_getD (by decide : clenOrder.Nodup) cl (List.replicate Config.numClen 0) (by decide) h k
  have hget : (clenLengths cl).getD k 0 = cl.getD (clenOrder.idxOf k) 0 := by
    rw [clenLengths, hset]
    split
    · rfl
    · rename_i hge
      simp [List.getD, hk', List.getElem?_eq_none (Nat.le_of_not_lt hge)]
  rw [List.getD_eq_getElem _ _ (by omega)] at hget
  simpa [sentClen] using hget

/-- A table of lengths that fit it and are not over-subscribed is legal (41_huffman R171, R175). -/
theorem tableOfLengths_ok (id : TableId) {ls : List Nat} (hlen : ls.length ≤ tableSize id)
    (hmax : ∀ l ∈ ls, l ≤ tableMaxLen id) (hk : kraft ls ≤ 32768) : (tableOfLengths (tableSize id) ls).Ok id :=
  buildTable_yields id hlen hmax _ (buildTable_of_kraft (fun l hl => (hmax l hl).trans (tableMaxLen_le id)) hk)

theorem tableOfLengths_kraft (size : Nat) (ls : List Nat) : kraft (tableOfLengths size ls).len = kraft ls :=
  kraft_append_zeros ls _

theorem sentClen_eq (h : cl.length ≤ 19) : sentClen cl = tableOfLengths Config.numClen (clenLengths cl) := by
  rw [tableOfLengths, clenLengths_eq h]
  simp [sentClen]

theorem clenLengths_le (h : CountsFit hlit hdist cl) : ∀ l ∈ clenLengths cl, l ≤ 7 := (clenLengths_lengthsOf h.clen).2

theorem sentClen_ok (h : CountsFit hlit hdist cl) (hk : kraft (sentClen cl).len ≤ 32768) : (sentClen cl).Ok .clen := by
  rw [sentClen_eq h.le_nineteen] at hk ⊢
  exact tableOfLengths_ok .clen (clenLengths_lengthsOf h.clen).1.le (clenLengths_le h) (by rwa [tableOfLengths_kraft] at hk)

/-- The code-length code is built, or over-subscribed (44_inflate R284). -/
theorem buildTable_clenLengths (h : CountsFit hlit hdist cl) :
    (kraft (sentClen cl).len ≤ 32768 ∧ buildTable Config.numClen (clenLengths cl) = .ok (sentClen cl)) ∨
      (32768 < kraft (sentClen cl).len ∧ buildTable Config.numClen (clenLengths cl) = .error .invalidCode) := by
  rw [sentClen_eq h.le_nineteen, tableOfLengths_kraft]
  exact buildTable_cases _ _ fun l hl => (clenLengths_le h l hl).trans (by decide)

end Counts

/-! ### The code-length sequence -/

/-- One pass of the loop of R285. -/
def lengthsPass (clen : Table) (inb : Nat → Byte) (n : Nat) (vs : List Nat) (r : Reader) :
    Except Err (List Nat × Reader) :=
  decodeSymbol clen inb r >>= fun v => lengthStep inb n v.1.1 vs v.2

theorem lengthsLoop_succ (clen : Table) (inb : Nat → Byte) {n : Nat} (fuel : Nat) {vs : List Nat} (r : Reader)
    (h : vs.length < n) :
    lengthsLoop clen inb n (fuel + 1) vs r =
      lengthsPass clen inb n vs r >>= fun v => lengthsLoop clen inb n fuel v.1 v.2 := by
  rw [lengthsLoop, if_neg (by omega), lengthsPass]
  rcases decodeSymbol clen inb r with e | ⟨⟨k, l⟩, r⟩ <;> rfl

/-- The loop ends when it has all lengths. -/
theorem lengthsLoop_full (clen : Table) (inb : Nat → Byte) {n : Nat} (fuel : Nat) {vs : List Nat} (r : Reader)
    (h : vs.length = n) : lengthsLoop clen inb n fuel vs r = .ok (vs, r) := by
  cases fuel with
  | zero => rfl
  | succ fuel => exact if_pos h.ge

/-- The bits of a pair of the sequence (30_encoding R112). -/
def pairCode (clen : Table) (ke : Nat × Nat) : List Bool := clen.codeBits ke.1 ++ natBits (clenExtra ke.1) ke.2

/-- A pair that can be sent with this code-length code (30_encoding R112). -/
abbrev PairCoded (clen : Table) (ke : Nat × Nat) : Prop :=
  ke.1 ≤ 18 ∧ clen.lenOf ke.1 ≠ 0 ∧ ke.2 < 2 ^ clenExtra ke.1

/-- Lengths that a pass may have at its end: a repeat past the last one is InvalidCode (44_inflate R285). -/
def lengthsWithin (n : Nat) (vs : List Nat) : Except Err (List Nat) := if n < vs.length then .error .invalidCode else .ok vs

section Sequence

variable {p : Params} {inb : Nat → Byte} {clen : Table} {n k e : Nat} {vs : List Nat} {ps : List (Nat × Nat)} {er : Err}

theorem lengthsWithin_ok (h : vs.length ≤ n) : lengthsWithin n vs = .ok vs := if_neg (by omega)

theorem lengthsWithin_error (h : n < vs.length) : lengthsWithin n vs = .error .invalidCode := if_pos h

/-- A repeat: its extra bits, and the lengths it appends. -/
theorem reads_repeat {m : Nat} (v base : Nat) (he : e < 2 ^ m) :
    Reads p inb
      (fun r => readBits inb m r >>= fun x => appendRepeat n vs v (base + x.1) >>= fun ws => .ok (ws, x.2))
      (natBits m e) (lengthsWithin n (vs ++ List.replicate (base + e) v)) := by
  rw [← List.append_nil (natBits m e)]
  refine (reads_readBits he).bind ?_
  simp only [appendRepeat, lengthsWithin, List.length_append, List.length_replicate]
  split
  · exact .error _
  · exact .ok _

/-- What a pass reads after the symbol `k`, and what it appends (44_inflate R285). -/
theorem reads_lengthStep (hk : k ≤ 18) (he : e < 2 ^ clenExtra k) (hn : vs.length < n) (hprev : k = 16 → vs ≠ []) :
    Reads p inb (lengthStep inb n k vs) (natBits (clenExtra k) e) (lengthsWithin n (expandPairs vs [(k, e)])) := by
  obtain h | rfl | rfl | rfl : k < 16 ∨ k = 16 ∨ k = 17 ∨ k = 18 := by omega
  · have hextra : clenExtra k = 0 := by
      rw [clenExtra, if_neg (by omega), if_neg (by omega), if_neg (by omega)]
    have hstep : lengthStep inb n k vs = fun r => .ok (vs ++ [k], r) := funext fun r => if_pos h
    have hfits : lengthsWithin n (vs ++ [k]) = .ok (vs ++ [k]) := lengthsWithin_ok (by simpa using hn)
    simp only [expandPairs, if_pos h, hfits, hstep, hextra, natBits_zero]
    exact .ok _
  · obtain ⟨v, hv⟩ : ∃ v, vs.getLast? = some v := Option.isSome_iff_exists.1 (by simpa using hprev rfl)
    have hstep : lengthStep inb n 16 vs =
        fun r => readBits inb 2 r >>= fun x => appendRepeat n vs v (3 + x.1) >>= fun ws => .ok (ws, x.2) := by
      funext r
      simp only [lengthStep, hv]
      rfl
    have hlast : vs.getLastD 0 = v := by rw [List.getLastD_eq_getLast?, hv]; rfl
    have happend : expandPairs vs [(16, e)] = vs ++ List.replicate (3 + e) v := by rw [← hlast]; rfl
    rw [hstep, happend]
    exact reads_repeat v 3 he
  · exact reads_repeat 0 3 he
  · exact reads_repeat 0 11 he

theorem reads_lengthsPass (hclen : clen.Ok .clen) (hke : PairCoded clen (k, e)) (hn : vs.length < n)
    (hprev : k = 16 → vs ≠ []) :
    Reads p inb (lengthsPass clen inb n vs) (pairCode clen (k, e)) (lengthsWithin n (expandPairs vs [(k, e)])) :=
  (reads_decodeSymbol hclen hke.2.1).bind (reads_lengthStep hke.1 hke.2.2 hn hprev)

/-- A repeat code 16 with no previous length (44_inflate R285). -/
theorem reads_lengthsPass_noPrevious (hclen : clen.Ok .clen) (h : clen.lenOf 16 ≠ 0) :
    Reads p inb (lengthsPass clen inb n []) (clen.codeBits 16) (.error .invalidCode) := by
  rw [← List.append_nil (clen.codeBits 16)]
  exact (reads_decodeSymbol hclen h).bind (.error .invalidCode)

/-! The lengths of a sequence -/

theorem expandPairs_length_ge (vs : List Nat) (ps : List (Nat × Nat)) : vs.length + ps.length ≤ (expandPairs vs ps).length := by
  induction ps generalizing vs with
  | nil => simp [expandPairs]
  | cons ke ps ih =>
    obtain ⟨k, e⟩ := ke
    rw [expandPairs, List.length_cons]
    split_ifs <;> refine le_trans ?_ (ih _) <;> simp only [List.length_append, List.length_replicate,
      List.length_singleton] <;> omega

theorem expandPairs_ne_nil (h : ps ≠ []) : expandPairs vs ps ≠ [] := by
  have hge := expandPairs_length_ge vs ps
  have hpos := List.length_pos_iff.2 h
  exact List.ne_nil_of_length_pos (by omega)

theorem expandPairs_cons (vs : List Nat) (ke : Nat × Nat) (ps : List (Nat × Nat)) :
    expandPairs vs (ke :: ps) = expandPairs (expandPairs vs [ke]) ps := expandPairs_append vs [ke] ps

theorem expandPairs_le (hps : ∀ ke ∈ ps, ke.1 ≤ 18) (hvs : ∀ v ∈ vs, v ≤ 15) : ∀ v ∈ expandPairs vs ps, v ≤ 15 := by
  have hrepeat : ∀ ws : List Nat, (∀ v ∈ ws, v ≤ 15) → ∀ r v, v ≤ 15 → ∀ x ∈ ws ++ List.replicate r v, x ≤ 15 := by
    intro ws hws r v hv x hx
    rcases List.mem_append.1 hx with hx | hx
    · exact hws x hx
    · rwa [List.eq_of_mem_replicate hx]
  induction ps generalizing vs with
  | nil => exact hvs
  | cons ke ps ih =>
    obtain ⟨k, e⟩ := ke
    obtain ⟨hk, hps⟩ := List.forall_mem_cons.1 hps
    have hlast : vs.getLastD 0 ≤ 15 := by
      rcases vs.eq_nil_or_concat with rfl | ⟨ws, w, rfl⟩
      · simp
      · simpa using hvs w (by simp)
    rw [expandPairs]
    split_ifs
    · exact ih hps (hrepeat vs hvs 1 k (by omega))
    · exact ih hps (hrepeat vs hvs _ _ hlast)
    · exact ih hps (hrepeat vs hvs _ _ (by omega))
    · exact ih hps (hrepeat vs hvs _ _ (by omega))

/-- The loop over the bits of a sequence that does not exceed the lengths wanted (44_inflate R285). -/
theorem lengthsLoop_pairs (hclen : clen.Ok .clen) (hps : ∀ ke ∈ ps, PairCoded clen ke)
    (hhead : vs = [] → ps.head?.map Prod.fst ≠ some 16) (hlen : (expandPairs vs ps).length ≤ n) {r : Reader} (hr : r.Ok p)
    (hp : ps.flatMap (pairCode clen) <+: r.rest inb) (fuel : Nat) :
    lengthsLoop clen inb n (ps.length + fuel) vs r =
      lengthsLoop clen inb n fuel (expandPairs vs ps) (r.skip (ps.flatMap (pairCode clen)).length) := by
  induction ps generalizing vs r with
  | nil => simp [expandPairs, Reader.skip_zero]
  | cons ke ps ih =>
    obtain ⟨k, e⟩ := ke
    obtain ⟨hke, hps⟩ := List.forall_mem_cons.1 hps
    have hge := expandPairs_length_ge vs ((k, e) :: ps)
    rw [expandPairs_cons] at hlen hge
    have hone := expandPairs_length_ge (expandPairs vs [(k, e)]) ps
    rw [List.length_cons] at hge
    have hprev : k = 16 → vs ≠ [] := by rintro rfl hvs; exact hhead hvs rfl
    have hread := (reads_lengthsPass (p := p) (inb := inb) hclen hke (n := n) (by omega) hprev).whole r hr
      ((List.prefix_append _ _).trans hp)
    rw [lengthsWithin_ok (by omega)] at hread
    have hbits := hp.length_le
    rw [List.flatMap_cons, List.length_append, Reader.rest_length] at hbits
    have hrest := ih hps (fun h => absurd h (expandPairs_ne_nil (by simp))) hlen (Reader.skip_ok hr (by omega))
      (Reader.prefix_skip hr hp)
    rw [Reader.skip_skip hr hbits] at hrest
    rw [List.length_cons, Nat.add_right_comm, lengthsLoop_succ _ _ _ _ (by omega), hread, expandPairs_cons vs (k, e) ps,
      List.flatMap_cons, List.length_append, ← hrest]
    rfl

/-- A pass that fails, after a sequence that leaves lengths wanted, ends the loop. -/
theorem lengthsLoop_error (hclen : clen.Ok .clen) (hps : ∀ ke ∈ ps, PairCoded clen ke)
    (hhead : ps.head?.map Prod.fst ≠ some 16) (hlen : (expandPairs [] ps).length < n) {r : Reader} (hr : r.Ok p)
    (hp : ps.flatMap (pairCode clen) <+: r.rest inb)
    (hpass : lengthsPass clen inb n (expandPairs [] ps) (r.skip (ps.flatMap (pairCode clen)).length) = .error er) :
    lengthsLoop clen inb n n [] r = .error er := by
  have hge := expandPairs_length_ge [] ps
  obtain ⟨fuel, hfuel⟩ : ∃ fuel, n = ps.length + (fuel + 1) := ⟨n - ps.length - 1, by simp at hge; omega⟩
  have hloop := lengthsLoop_pairs hclen hps (fun _ => hhead) hlen.le hr hp (fuel + 1)
  rw [← hfuel] at hloop
  rw [hloop, lengthsLoop_succ _ _ _ _ hlen, hpass, except_error_bind]

end Sequence

/-! ### The header -/

/-- The bits of a dynamic block's header (30_encoding R110). -/
def dynHeaderBits (hlit hdist : Nat) (cl : List Nat) (seq : List (Nat × Nat)) : List Bool :=
  countBits hlit hdist cl ++ seq.flatMap (pairCode (sentClen cl))

section Header

variable {p : Params} {inb : Nat → Byte} {st : Stream} {hlit hdist : Nat} {cl : List Nat} {seq : List (Nat × Nat)} {e : Err}

/-- An input that ends inside the counts. -/
theorem dynamicHeader_cut_counts (h : CountsFit hlit hdist cl) (hr : st.reader.Ok p)
    (hp : st.reader.rest inb <+: countBits hlit hdist cl) (hne : st.reader.rest inb ≠ countBits hlit hdist cl) :
    dynamicHeader inb st = .error .unexpectedEnd := by
  rw [dynamicHeader_eq, (reads_readCounts h).cut st.reader hr hp hne, except_error_bind]

/-- An over-subscribed code-length code. -/
theorem dynamicHeader_clen_overSubscribed (h : CountsFit hlit hdist cl) (hk : 32768 < kraft (sentClen cl).len)
    (hr : st.reader.Ok p) (hp : countBits hlit hdist cl <+: st.reader.rest inb) :
    dynamicHeader inb st = .error .invalidCode := by
  rcases buildTable_clenLengths h with ⟨hle, -⟩ | ⟨-, hbuild⟩
  · omega
  · rw [dynamicHeader_eq, (reads_readCounts h).whole st.reader hr hp]
    simp only [Except.map, except_ok_bind, hbuild, except_error_bind]

/-- The header past its counts. -/
theorem dynamicHeader_of_counts (h : CountsFit hlit hdist cl) (hk : kraft (sentClen cl).len ≤ 32768) (hr : st.reader.Ok p)
    (hp : countBits hlit hdist cl <+: st.reader.rest inb) :
    dynamicHeader inb st =
      lengthsLoop (sentClen cl) inb (hlit + 257 + (hdist + 1)) (hlit + 257 + (hdist + 1)) []
        (st.reader.skip (countBits hlit hdist cl).length) >>= loadLengths hlit (sentClen cl) st := by
  rcases buildTable_clenLengths h with ⟨-, hbuild⟩ | ⟨hlt, -⟩
  · rw [dynamicHeader_eq, (reads_readCounts h).whole st.reader hr hp]
    simp only [Except.map, except_ok_bind, hbuild]
  · omega

/-- A sequence that a header can begin with (44_inflate R285). -/
structure SequenceFits (hlit hdist : Nat) (cl : List Nat) (seq : List (Nat × Nat)) : Prop where
  counts : CountsFit hlit hdist cl
  fits : kraft (sentClen cl).len ≤ 32768
  coded : ∀ ke ∈ seq, PairCoded (sentClen cl) ke
  head : seq.head?.map Prod.fst ≠ some 16

theorem SequenceFits.left {ps qs : List (Nat × Nat)} (h : SequenceFits hlit hdist cl (ps ++ qs)) :
    SequenceFits hlit hdist cl ps where
  counts := h.counts
  fits := h.fits
  coded ke hke := h.coded ke (List.mem_append_left _ hke)
  head hps := h.head (by cases ps with
    | nil => simp at hps
    | cons ke ps => exact hps)

theorem SequenceFits.clen_ok (h : SequenceFits hlit hdist cl seq) : (sentClen cl).Ok .clen := sentClen_ok h.counts h.fits

/-- A code-length symbol that fails ends the header. -/
theorem dynamicHeader_error_of_pass (h : SequenceFits hlit hdist cl seq)
    (hlen : (expandPairs [] seq).length < hlit + 257 + (hdist + 1)) (hr : st.reader.Ok p)
    (hp : dynHeaderBits hlit hdist cl seq <+: st.reader.rest inb)
    (hpass : lengthsPass (sentClen cl) inb (hlit + 257 + (hdist + 1)) (expandPairs [] seq)
      (st.reader.skip (dynHeaderBits hlit hdist cl seq).length) = .error e) : dynamicHeader inb st = .error e := by
  have hbits := hp.length_le
  rw [dynHeaderBits, List.length_append, Reader.rest_length] at hbits
  rw [dynHeaderBits, List.length_append, ← Reader.skip_skip hr hbits] at hpass
  rw [dynamicHeader_of_counts h.counts h.fits hr ((List.prefix_append _ _).trans hp),
    lengthsLoop_error h.clen_ok h.coded h.head hlen (Reader.skip_ok hr (by omega)) (Reader.prefix_skip hr hp) hpass,
    except_error_bind]

/-- The header past a sequence that gives all lengths. -/
theorem dynamicHeader_of_sequence (h : SequenceFits hlit hdist cl seq)
    (hlen : (expandPairs [] seq).length = hlit + 257 + (hdist + 1)) (hr : st.reader.Ok p)
    (hp : dynHeaderBits hlit hdist cl seq <+: st.reader.rest inb) :
    dynamicHeader inb st =
      loadLengths hlit (sentClen cl) st (expandPairs [] seq, st.reader.skip (dynHeaderBits hlit hdist cl seq).length) := by
  have hbits := hp.length_le
  rw [dynHeaderBits, List.length_append, Reader.rest_length] at hbits
  obtain ⟨fuel, hfuel⟩ : ∃ fuel, hlit + 257 + (hdist + 1) = seq.length + fuel := by
    have hge := expandPairs_length_ge [] seq
    exact ⟨_, (Nat.add_sub_cancel' (by rw [← hlen]; simpa using hge)).symm⟩
  have hloop := lengthsLoop_pairs h.clen_ok h.coded (fun _ => h.head) hlen.le (Reader.skip_ok hr (by omega))
    (Reader.prefix_skip hr hp) fuel
  rw [lengthsLoop_full _ _ _ _ hlen, ← hfuel, Reader.skip_skip hr hbits] at hloop
  rw [dynamicHeader_of_counts h.counts h.fits hr ((List.prefix_append _ _).trans hp), hloop, except_ok_bind,
    dynHeaderBits, List.length_append]

/-- The lengths of a whole sequence, for LITLEN and for DIST. -/
theorem SequenceFits.lengths (h : SequenceFits hlit hdist cl seq)
    (hlen : (expandPairs [] seq).length = hlit + 257 + (hdist + 1)) :
    (((expandPairs [] seq).take (hlit + 257)).length ≤ 288 ∧ ∀ l ∈ (expandPairs [] seq).take (hlit + 257), l ≤ 15) ∧
      ((expandPairs [] seq).drop (hlit + 257)).length ≤ 32 ∧ ∀ l ∈ (expandPairs [] seq).drop (hlit + 257), l ≤ 15 := by
  have hmax := expandPairs_le (vs := []) (fun ke hke => (h.coded ke hke).1) (by simp)
  have h1 := h.counts.hlit
  have h2 := h.counts.hdist
  refine ⟨⟨?_, fun l hl => hmax l (List.mem_of_mem_take hl)⟩, ?_, fun l hl => hmax l (List.mem_of_mem_drop hl)⟩
  · rw [List.length_take]; omega
  · rw [List.length_drop]; omega

theorem SequenceFits.tables_ok (h : SequenceFits hlit hdist cl seq)
    (hlen : (expandPairs [] seq).length = hlit + 257 + (hdist + 1)) (hll : kraft (sentLitlen hlit seq).len ≤ 32768)
    (hdl : kraft (sentDist hlit seq).len ≤ 32768) :
    (sentLitlen hlit seq).Ok .litlen ∧ (sentDist hlit seq).Ok .dist := by
  obtain ⟨⟨hl, hl15⟩, hd, hd15⟩ := h.lengths hlen
  rw [sentLitlen, tableOfLengths_kraft] at hll
  rw [sentDist, tableOfLengths_kraft] at hdl
  exact ⟨tableOfLengths_ok .litlen hl hl15 hll, tableOfLengths_ok .dist hd hd15 hdl⟩

/-- A header without an error loads its three tables (44_inflate R284, R285). -/
theorem dynamicHeader_ok (h : SequenceFits hlit hdist cl seq)
    (hlen : (expandPairs [] seq).length = hlit + 257 + (hdist + 1)) (hll : kraft (sentLitlen hlit seq).len ≤ 32768)
    (hdl : kraft (sentDist hlit seq).len ≤ 32768) (hr : st.reader.Ok p)
    (hp : dynHeaderBits hlit hdist cl seq <+: st.reader.rest inb) :
    dynamicHeader inb st = .ok { st with
      reader := st.reader.skip (dynHeaderBits hlit hdist cl seq).length
      litlen := sentLitlen hlit seq
      dist := sentDist hlit seq
      clen := sentClen cl } := by
  obtain ⟨⟨-, hl15⟩, -, hd15⟩ := h.lengths hlen
  rw [sentLitlen, tableOfLengths_kraft] at hll
  rw [sentDist, tableOfLengths_kraft] at hdl
  rw [dynamicHeader_of_sequence h hlen hr hp, loadLengths, buildTable_of_kraft hl15 hll, buildTable_of_kraft hd15 hdl]
  rfl

/-- Over-subscribed LITLEN or DIST lengths (44_inflate R285). -/
theorem dynamicHeader_overSubscribed (h : SequenceFits hlit hdist cl seq)
    (hlen : (expandPairs [] seq).length = hlit + 257 + (hdist + 1))
    (hk : 32768 < kraft (sentLitlen hlit seq).len ∨ 32768 < kraft (sentDist hlit seq).len)
    (hr : st.reader.Ok p) (hp : dynHeaderBits hlit hdist cl seq <+: st.reader.rest inb) :
    dynamicHeader inb st = .error .invalidCode := by
  obtain ⟨⟨-, hl15⟩, -, hd15⟩ := h.lengths hlen
  rw [sentLitlen, tableOfLengths_kraft, sentDist, tableOfLengths_kraft] at hk
  rw [dynamicHeader_of_sequence h hlen hr hp, loadLengths]
  rcases buildTable_cases Config.numLitlen _ hl15 with ⟨hle, hbuild⟩ | ⟨-, hbuild⟩
  · rcases buildTable_cases Config.numDist _ hd15 with ⟨hle', -⟩ | ⟨-, hbuild'⟩
    · omega
    · rw [hbuild, except_ok_bind, hbuild', except_error_bind]
  · rw [hbuild, except_error_bind]

end Header

end Sys2Proof.Machine

/-! The bodies of the three block types: a stored block's lengths and data (44_inflate R282), and what the body of any
valid block does. -/

namespace Sys2Proof.Machine

open Sys2Proof

/-! ### A stored block -/

/-- LEN and NLEN (44_inflate R282). -/
def readStoredLengths (inb : Nat → Byte) (r : Reader) : Except Err ((Nat × Nat) × Reader) := do
  let (len, r) ← readBits inb 16 r
  let (nlen, r) ← readBits inb 16 r
  .ok ((len, nlen), r)

theorem storedBody_eq (cap : Nat) (inb : Nat → Byte) (st : Stream) :
    storedBody cap inb st =
      readStoredLengths inb (alignToByte st.reader).2 >>= fun v =>
        failIf (v.1.2 != 65535 - v.1.1) .lengthMismatch >>= fun _ =>
          storedBytes cap inb v.1.1 { st with reader := v.2 } >>= fun st => .ok (v.1.1, st) := by
  rw [storedBody, readStoredLengths]
  rcases readBits inb 16 (alignToByte st.reader).2 with e | ⟨len, r⟩
  · rfl
  simp only [except_ok_bind]
  rcases readBits inb 16 r with e | ⟨nlen, r⟩ <;> rfl

section Stored

variable {p : Params} {inb : Nat → Byte} {st : Stream} {pad : List Bool} {len nlen n : Nat}

theorem reads_readStoredLengths (hlen : len < 65536) (hnlen : nlen < 65536) :
    Reads p inb (readStoredLengths inb) (natBits 16 len ++ natBits 16 nlen) (.ok (len, nlen)) :=
  (reads_readBits (n := 16) hlen).bind ((reads_readBits (n := 16) hnlen).map fun nlen => (len, nlen))

/-- An input that ends inside LEN or NLEN. -/
theorem readStoredLengths_end {r : Reader} (hr : r.Ok p) (h : r.left < 32) :
    readStoredLengths inb r = .error .unexpectedEnd := by
  rw [readStoredLengths]
  rcases readBits_cases inb hr 16 with ⟨h16, hread⟩ | ⟨-, hread⟩
  · have hend := readBits_end (inb := inb) (n := 16) (Reader.skip_ok hr h16) (by rw [Reader.skip_left hr h16]; omega)
    simp only [hread, except_ok_bind, hend, except_error_bind]
  · rw [hread]
    rfl

/-- The body past LEN and NLEN, whatever the pad bits. -/
theorem storedBody_of_lengths (hr : st.reader.Ok p) (hpad : pad.length = (8 - st.reader.bit.toNat) % 8)
    (hlen : len < 65536) (hnlen : nlen < 65536)
    (hp : pad ++ (natBits 16 len ++ natBits 16 nlen) <+: st.reader.rest inb) (cap : Nat) :
    storedBody cap inb st =
      failIf (nlen != 65535 - len) .lengthMismatch >>= fun _ =>
        storedBytes cap inb len { st with reader := st.reader.skip (pad.length + 32) } >>= fun st => .ok (len, st) := by
  have hread := (reads_readStoredLengths hlen hnlen).after hr hp
  rw [List.length_append, natBits_length, natBits_length] at hread
  rw [storedBody_eq, alignToByte_eq hr, ← hpad, hread]
  rfl

/-- One byte of the data (44_inflate R282, R280). -/
theorem storedBytes_succ_cases (hr : st.reader.Ok p) (n : Nat) :
    (st.reader.left < 8 ∧ storedBytes p.outCap inb (n + 1) st = .error .unexpectedEnd) ∨
      (8 ≤ st.reader.left ∧ p.outCap ≤ st.writer.outPos.toNat ∧
        storedBytes p.outCap inb (n + 1) st = .error .outputOverflow) ∨
      (8 ≤ st.reader.left ∧ st.writer.outPos.toNat < p.outCap ∧
        ∃ st', storedBytes p.outCap inb (n + 1) st = storedBytes p.outCap inb n st' ∧
          st'.reader = st.reader.skip 8 ∧ st'.writer.outPos.toNat = st.writer.outPos.toNat + 1) := by
  rw [storedBytes]
  rcases readBits_cases inb hr 8 with ⟨h8, hread⟩ | ⟨h8, hread⟩
  · rw [hread]
    simp only [except_ok_bind]
    rcases emitByte_cases p.outCap (BitVec.ofNat 8 (bitsNat (st.reader.next inb 8)))
      { st with reader := st.reader.skip 8 } with ⟨hc, hemit⟩ | ⟨hc, hemit⟩
    · exact .inr (.inr ⟨h8, hc, _, by rw [hemit, except_ok_bind], rfl, outPos_succ hc⟩)
    · exact .inr (.inl ⟨h8, hc, by rw [hemit, except_error_bind]⟩)
  · exact .inl ⟨h8, by rw [hread, except_error_bind]⟩

/-- Data that the input does not hold, on a writer with room for the bytes it does hold. -/
theorem storedBytes_end (hr : st.reader.Ok p) (hn : st.reader.left / 8 < n)
    (hc : st.writer.outPos.toNat + st.reader.left / 8 ≤ p.outCap) :
    storedBytes p.outCap inb n st = .error .unexpectedEnd := by
  induction n generalizing st with
  | zero => omega
  | succ n ih =>
    rcases storedBytes_succ_cases (inb := inb) hr n with ⟨-, h⟩ | ⟨h8, hfull, -⟩ | ⟨h8, -, st', h, hreader, hpos⟩
    · exact h
    · omega
    · have hleft := Reader.skip_left hr h8
      rw [← hreader] at hleft
      rw [h]
      exact ih (hreader ▸ Reader.skip_ok hr h8) (by omega) (by omega)

/-- Data that OUT has no room for, up to where the input ends. -/
theorem storedBytes_overflow (hr : st.reader.Ok p) (hout : st.writer.outPos.toNat ≤ p.outCap)
    (hc : p.outCap < st.writer.outPos.toNat + min n (st.reader.left / 8)) :
    storedBytes p.outCap inb n st = .error .outputOverflow := by
  induction n generalizing st with
  | zero => omega
  | succ n ih =>
    rcases storedBytes_succ_cases (inb := inb) hr n with ⟨h8, -⟩ | ⟨-, -, h⟩ | ⟨h8, hroom, st', h, hreader, hpos⟩
    · omega
    · exact h
    · have hleft := Reader.skip_left hr h8
      rw [← hreader] at hleft
      rw [h]
      exact ih (hreader ▸ Reader.skip_ok hr h8) (by omega) (by omega)

end Stored

/-! ### The body of a valid block -/

/-- The body of a block of the type of `b` (44_inflate R281). -/
def SentBlock.run (cap : Nat) (inb : Nat → Byte) (st : Stream) : SentBlock → Except Err (Nat × Stream)
  | .stored _ _ => storedBlockBody cap inb st
  | .fixed _ => fixedBlockBody cap inb st
  | .dynamic _ _ _ _ _ => dynamicBlockBody cap inb st

/-- What the body of `b` does: it emits the block's bytes, or raises OutputOverflow where they do not fit. -/
def SentBlock.Runs (p : Params) (inb : Nat → Byte) (st : Stream) (b : SentBlock) (r : Except Err (Nat × Stream)) : Prop :=
  (st.writer.outPos.toNat + b.span ≤ p.outCap ∧ ∃ st', r = .ok (b.span, st') ∧ Inflated inb b st st') ∨
    (p.outCap < st.writer.outPos.toNat + b.span ∧ (st.writer.outPos.toNat ≤ p.outCap → r = .error .outputOverflow))

section Valid

variable {p : Params} {inb : Nat → Byte} {st : Stream} {produced : Nat} {ts : List Token}

theorem take_emitted (hist : List Byte) (ts : List Token) :
    ((replayOnto hist ts).take (spanOf ts)).reverse = emitted hist ts := by
  rw [replayOnto_eq, List.take_left' (by rw [List.length_reverse, emitted_length]), List.reverse_reverse]

theorem SentBlock.runs_stored {pad : List Bool} {bytes : List Byte} (hr : st.reader.Ok p) (hw : st.window.Ok)
    (hv : (SentBlock.stored pad bytes).valid st.reader.bitPos produced = true)
    (hp : (SentBlock.stored pad bytes).body <+: st.reader.rest inb) :
    (SentBlock.stored pad bytes).Runs p inb st (storedBlockBody p.outCap inb st) := by
  simp only [SentBlock.valid, Bool.and_eq_true, beq_iff_eq, decide_eq_true_eq] at hv
  obtain ⟨hpad, hmax⟩ := hv
  have hbit : st.reader.bitPos % 8 = st.reader.bit.toNat := by
    have := st.reader.bit.isLt
    rw [Reader.bitPos]; omega
  rw [hbit] at hpad
  have hbody : (SentBlock.stored pad bytes).body =
      (pad ++ (natBits 16 bytes.length ++ natBits 16 (65535 - bytes.length))) ++
        bytes.flatMap (fun b => natBits 8 b.toNat) := by simp [SentBlock.body]
  have hbits : (pad ++ (natBits 16 bytes.length ++ natBits 16 (65535 - bytes.length))).length = pad.length + 32 := by
    simp
  have hdata : (bytes.flatMap (fun b => natBits 8 b.toNat)).length = 8 * bytes.length := by
    simp [List.length_flatMap, Nat.mul_comm]
  have hlen := hp.length_le
  rw [hbody, List.length_append, hbits, hdata, Reader.rest_length] at hlen
  rw [hbody] at hp
  have hr' := Reader.skip_ok hr (n := pad.length + 32) (by omega)
  have hstart := storedBody_of_lengths hr hpad (Nat.lt_succ_of_le hmax)
    (by omega : 65535 - bytes.length < 65536) ((List.prefix_append _ _).trans hp) p.outCap
  rw [bne_self_eq_false, failIf_false, except_ok_bind] at hstart
  have hdata' := Reader.prefix_skip hr hp
  rw [hbits] at hdata'
  by_cases hroom : st.writer.outPos.toNat + bytes.length ≤ p.outCap
  · obtain ⟨st', hbytes, hem, hreader, hll, hdl, hcl⟩ := storedBytes_ok (p := p)
      (st := { st with reader := st.reader.skip (pad.length + 32) }) bytes hr' hw hroom hdata'
    refine .inl ⟨hroom, st', ?_, ?_, ?_, ?_⟩
    · rw [storedBlockBody, hstart, hbytes]
      rfl
    · rw [hreader, Reader.skip_skip hr hlen, hbody, List.length_append, hbits, hdata]
    · have hemits : (SentBlock.stored pad bytes).emits st.window.history = bytes := by
        simp [SentBlock.emits, SentBlock.onto, SentBlock.span]
      rw [hemits]
      exact hem.congr rfl rfl rfl rfl
    · rw [hll, hdl, hcl]
      rfl
  · refine .inr ⟨Nat.lt_of_not_le hroom, fun hout => ?_⟩
    have hleft : (st.reader.skip (pad.length + 32)).left = st.reader.left - (pad.length + 32) :=
      Reader.skip_left hr (by omega)
    have hover := storedBytes_overflow (p := p) (inb := inb) (n := bytes.length)
      (st := { st with reader := st.reader.skip (pad.length + 32) }) hr' hout (by simp only; omega)
    rw [storedBlockBody, hstart, hover]
    rfl

/-- The tokens of a Huffman block, from tables that code them all. -/
theorem huffBody_runs (h : st.Ready p) (hfill : min produced Config.wsize ≤ st.window.fill.toNat)
    (hfit : tokensFit produced ts = true) (hcoded : ts.all (tokenCoded st.litlen st.dist) = true)
    (h256 : st.litlen.lenOf 256 ≠ 0) (hp : bodyBits st.litlen st.dist ts <+: st.reader.rest inb) :
    (st.writer.outPos.toNat + spanOf ts ≤ p.outCap ∧
        ∃ st', huffBody p.outCap inb st = .ok (spanOf ts, st') ∧ st.Emitted st' (emitted st.window.history ts) ∧
          st'.reader = st.reader.skip (bodyBits st.litlen st.dist ts).length ∧ st.SameTables st') ∨
      (p.outCap < st.writer.outPos.toNat + spanOf ts ∧
        (st.writer.outPos.toNat ≤ p.outCap → huffBody p.outCap inb st = .error .outputOverflow)) := by
  by_cases hroom : st.writer.outPos.toNat + spanOf ts ≤ p.outCap
  · exact .inl ⟨hroom, huffBody_ok h ⟨hfill, hfit, hcoded, hroom⟩ h256 hp⟩
  · exact .inr ⟨Nat.lt_of_not_le hroom, fun hout => huffBody_overflow h hfill hfit hcoded hout (Nat.lt_of_not_le hroom)
      ((List.prefix_append _ _).trans hp)⟩

/-- The fixed tables code every legal token and the end of a block (30_encoding R108). -/
theorem fixedTables_coded {t : Token} (hwf : t.wf = true) : tokenCoded fixedLitlenTable fixedDistTable t = true := by
  have hlit : ∀ s < 288, fixedLitlenTable.lenOf s ≠ 0 := by
    intro s hs
    rw [fixedLitlenTable_lenOf hs]
    split_ifs <;> decide
  cases t with
  | lit b =>
    have := b.isLt
    simpa [tokenCoded] using hlit b.toNat (by omega)
  | mtch l d =>
    obtain ⟨⟨h3, h258⟩, h1, h32768⟩ := (Token.wf_mtch_iff l d).1 hwf
    obtain ⟨-, h285, -⟩ := lsym_spec h3 h258
    obtain ⟨h30, -⟩ := dsym_spec h1 h32768
    simpa [tokenCoded, (fixedDistTable_row (s := dsym d) (by omega)).1] using hlit (lsym l) (by omega)

theorem fixedLitlenTable_end : fixedLitlenTable.lenOf 256 ≠ 0 := by
  rw [fixedLitlenTable_lenOf (by decide)]
  decide

theorem fixedTables_all_coded (hfit : tokensFit produced ts = true) :
    ts.all (tokenCoded fixedLitlenTable fixedDistTable) = true :=
  List.all_eq_true.2 fun t ht => fixedTables_coded (tokensFit_wf hfit t ht)

theorem loadFixed_ready (hr : st.reader.Ok p) (hw : st.window.Ok) : (loadFixed st).Ready p :=
  ⟨fixedLitlenTable_ok, fixedDistTable_ok, hr, hw⟩

theorem SentBlock.runs_fixed (hr : st.reader.Ok p) (hw : st.window.Ok)
    (hfill : min produced Config.wsize ≤ st.window.fill.toNat)
    (hv : (SentBlock.fixed ts).valid st.reader.bitPos produced = true)
    (hp : (SentBlock.fixed ts).body <+: st.reader.rest inb) :
    (SentBlock.fixed ts).Runs p inb st (fixedBlockBody p.outCap inb st) := by
  rcases huffBody_runs (loadFixed_ready hr hw) hfill hv (fixedTables_all_coded hv) fixedLitlenTable_end hp with
    ⟨hroom, st', hbody, hem, hreader, hll, hdl, hcl⟩ | ⟨hroom, hbody⟩
  · refine .inl ⟨hroom, st', hbody, hreader, ?_, by rw [hll, hdl, hcl]; rfl⟩
    rw [SentBlock.emits, SentBlock.onto, SentBlock.span, take_emitted]
    exact hem.congr rfl rfl rfl rfl
  · exact .inr ⟨hroom, hbody⟩

/-- The conditions of a valid dynamic block, by name. -/
structure DynamicValid (hlit hdist : Nat) (cl : List Nat) (seq : List (Nat × Nat)) (ts : List Token) (produced : Nat) :
    Prop where
  sequence : SequenceFits hlit hdist cl seq
  lengths : (expandPairs [] seq).length = hlit + 257 + (hdist + 1)
  litlen : kraft (sentLitlen hlit seq).len ≤ 32768
  dist : kraft (sentDist hlit seq).len ≤ 32768
  fit : tokensFit produced ts = true
  coded : ts.all (tokenCoded (sentLitlen hlit seq) (sentDist hlit seq)) = true
  stop : (sentLitlen hlit seq).lenOf 256 ≠ 0

theorem dynamicValid_of_valid {hlit hdist pos : Nat} {cl : List Nat} {seq : List (Nat × Nat)}
    (hv : (SentBlock.dynamic hlit hdist cl seq ts).valid pos produced = true) :
    DynamicValid hlit hdist cl seq ts produced := by
  simp only [SentBlock.valid, Bool.and_eq_true, decide_eq_true_eq, beq_iff_eq, bne_iff_ne, ne_eq, List.all_eq_true] at hv
  obtain ⟨⟨⟨⟨⟨⟨⟨⟨⟨⟨⟨⟨⟨hhlit, hhdist⟩, h4⟩, h19⟩, hcl⟩, hk⟩, hseq⟩, hhead⟩, hlen⟩, hll⟩, hdl⟩, hfit⟩, hcoded⟩, h256⟩ := hv
  exact ⟨⟨⟨hhlit, hhdist, h4, h19, hcl⟩, hk, fun ke hke => ⟨(hseq ke hke).1.1, (hseq ke hke).1.2, (hseq ke hke).2⟩, hhead⟩,
    hlen, hll, hdl, hfit, List.all_eq_true.2 hcoded, h256⟩

theorem SentBlock.runs_dynamic {hlit hdist : Nat} {cl : List Nat} {seq : List (Nat × Nat)} (hr : st.reader.Ok p)
    (hw : st.window.Ok) (hfill : min produced Config.wsize ≤ st.window.fill.toNat)
    (hv : (SentBlock.dynamic hlit hdist cl seq ts).valid st.reader.bitPos produced = true)
    (hp : (SentBlock.dynamic hlit hdist cl seq ts).body <+: st.reader.rest inb) :
    (SentBlock.dynamic hlit hdist cl seq ts).Runs p inb st (dynamicBlockBody p.outCap inb st) := by
  have h := dynamicValid_of_valid hv
  have hbody : (SentBlock.dynamic hlit hdist cl seq ts).body =
      dynHeaderBits hlit hdist cl seq ++ bodyBits (sentLitlen hlit seq) (sentDist hlit seq) ts := rfl
  have hlen := hp.length_le
  rw [hbody, List.length_append, Reader.rest_length] at hlen
  rw [hbody] at hp
  obtain ⟨hll, hdl⟩ := h.sequence.tables_ok h.lengths h.litlen h.dist
  have hheader := dynamicHeader_ok h.sequence h.lengths h.litlen h.dist hr ((List.prefix_append _ _).trans hp)
  have hready : Stream.Ready p { st with
      reader := st.reader.skip (dynHeaderBits hlit hdist cl seq).length
      litlen := sentLitlen hlit seq
      dist := sentDist hlit seq
      clen := sentClen cl } := ⟨hll, hdl, Reader.skip_ok hr (by omega), hw⟩
  rcases huffBody_runs hready hfill h.fit h.coded h.stop (Reader.prefix_skip hr hp) with
    ⟨hroom, st', hrun, hem, hreader, hll', hdl', hcl'⟩ | ⟨hroom, hrun⟩
  · refine .inl ⟨hroom, st', ?_, ?_, ?_, by rw [hll', hdl', hcl']; rfl⟩
    · rw [dynamicBlockBody, hheader]
      exact hrun
    · rw [hreader, Reader.skip_skip hr hlen, hbody, List.length_append]
    · rw [SentBlock.emits, SentBlock.onto, SentBlock.span, take_emitted]
      exact hem.congr rfl rfl rfl rfl
  · refine .inr ⟨hroom, fun hout => ?_⟩
    rw [dynamicBlockBody, hheader]
    exact hrun hout

/-- The body of a valid block, after `produced` bytes of which the window holds the last ones (44_inflate R281..R289). -/
theorem SentBlock.run_runs {b : SentBlock} (hr : st.reader.Ok p) (hw : st.window.Ok)
    (hfill : min produced Config.wsize ≤ st.window.fill.toNat) (hv : b.valid st.reader.bitPos produced = true)
    (hp : b.body <+: st.reader.rest inb) : b.Runs p inb st (b.run p.outCap inb st) :=
  match b with
  | .stored _ _ => SentBlock.runs_stored hr hw hv hp
  | .fixed _ => SentBlock.runs_fixed hr hw hfill hv hp
  | .dynamic _ _ _ _ _ => SentBlock.runs_dynamic hr hw hfill hv hp

end Valid

/-! ### Blocks as instructions of the inflater -/

/-- A valid block with room for its bytes, as the instruction `i` that runs its body. -/
theorem blockCompletes {i : Instr} {s : State} {final : Bool} {b : SentBlock}
    (hexec : exec i s = concludeBlock final (b.run s.params.outCap s.inByte s.stream) s)
    (hr : s.stream.reader.Ok s.params) (hw : s.stream.window.Ok)
    (hroom : s.stream.writer.outPos.toNat + b.span ≤ s.params.outCap)
    (hv : b.valid s.stream.reader.bitPos s.stream.window.fill.toNat = true)
    (hp : b.body <+: s.stream.reader.rest s.inByte) :
    ∃ st', Inflated s.inByte b s.stream st' ∧ exec i s = .next (blockEnd final b.span st' s) := by
  rcases SentBlock.run_runs hr hw (Nat.min_le_left _ _) hv hp with ⟨-, st', hrun, hinf⟩ | ⟨hover, -⟩
  · exact ⟨st', hinf, by rw [hexec, hrun, concludeBlock_ok]⟩
  · omega

/-- Settles O37: the header loads its tables, and its tokens then play as in any Huffman body. -/
theorem dynamicBlockCompletes : Obligations.DynamicBlockCompletes :=
  fun _ _ _ _ _ _ _ hr hw hroom hv hp => blockCompletes rfl hr hw hroom hv hp

/-- Settles O35: past the pad bits and the two lengths, the data is emitted byte by byte. -/
theorem storedBlockCompletes : Obligations.StoredBlockCompletes :=
  fun _ _ _ _ hr hw hroom hv hp => blockCompletes rfl hr hw hroom hv hp

/-- Settles O36: the fixed tables code every legal token, so the body plays them all. -/
theorem fixedBlockCompletes : Obligations.FixedBlockCompletes :=
  fun _ _ _ hr hw hroom hv hp => blockCompletes rfl hr hw hroom hv hp

end Sys2Proof.Machine

/-! The inflater's commands: a block from its header, the checks of INFL_BLOCK and DECOMPRESS, and DECOMPRESS of a valid
stream (44_inflate R281, R290, R291, R294). -/

namespace Sys2Proof.Machine

open Sys2Proof

/-! ### A block from its header -/

section Header

variable {p : Params} {inb : Nat → Byte} {st : Stream} {r : Reader}

/-- Fewer than three bits are no header (44_inflate R281). -/
theorem readHeader_end (hr : r.Ok p) (h : r.left < 3) : readHeader inb r = .error .unexpectedEnd := by
  rw [readHeader]
  rcases readBits_cases inb hr 1 with ⟨h1, hread⟩ | ⟨-, hread⟩
  · have hend := readBits_end (inb := inb) (n := 2) (Reader.skip_ok hr h1) (by rw [Reader.skip_left hr h1]; omega)
    simp only [hread, except_ok_bind, hend, except_error_bind]
  · rw [hread, except_error_bind]

/-- BFINAL and BTYPE of a header read as a number (30_encoding R101). -/
theorem header_fields (final : Bool) {btype : Nat} (hb : btype < 4) :
    ((BitVec.ofNat 3 (bitOf final + 2 * btype)).extractLsb' 1 2).toNat = btype ∧
      (BitVec.ofNat 3 (bitOf final + 2 * btype)).getLsbD 0 = final := by
  revert final btype
  decide

theorem readHeader_of_prefix (final : Bool) {btype : Nat} (hb : btype < 4) (hr : r.Ok p)
    (hp : blockHeader final btype <+: r.rest inb) :
    readHeader inb r = .ok (BitVec.ofNat 3 (bitOf final + 2 * btype), r.skip 3) := by
  rw [(reads_readHeader final hb).whole r hr hp, blockHeader_length]
  rfl

theorem inflateBlock_end (hr : st.reader.Ok p) (h : st.reader.left < 3) (cap : Nat) :
    inflateBlock cap inb st = .error .unexpectedEnd := by
  rw [inflateBlock, readHeader_end hr h, except_error_bind]

/-- The reserved block type (44_inflate R281). -/
theorem inflateBlock_reserved {final : Bool} (hr : st.reader.Ok p) (hp : blockHeader final 3 <+: st.reader.rest inb)
    (cap : Nat) : inflateBlock cap inb st = .error .invalidBlockType := by
  rw [inflateBlock, readHeader_of_prefix final (by decide) hr hp]
  simp only [except_ok_bind, (header_fields final (by decide : 3 < 4)).1, if_true]

/-- A block whose type is that of `b` runs the body of `b`. -/
theorem inflateBlock_of_header {final : Bool} {b : SentBlock} (hr : st.reader.Ok p)
    (hp : blockHeader final b.btype <+: st.reader.rest inb) (cap : Nat) :
    inflateBlock cap inb st =
      b.run cap inb { st with reader := st.reader.skip 3 } >>= fun v => .ok ((final, v.1), v.2) := by
  have hb : b.btype < 3 := by cases b <;> simp [SentBlock.btype]
  obtain ⟨htype, hfinal⟩ := header_fields final (show b.btype < 4 by omega)
  rw [inflateBlock, readHeader_of_prefix final (by omega) hr hp]
  simp only [except_ok_bind, htype, hfinal, if_neg (show ¬ b.btype = 3 by omega)]
  cases b <;> rfl

/-- What a valid block does after its header: it ends as its body does. -/
theorem inflateBlock_sent {final : Bool} {b : SentBlock} {produced : Nat} (hr : st.reader.Ok p) (hw : st.window.Ok)
    (hfill : min produced Config.wsize ≤ st.window.fill.toNat) (hv : b.valid (st.reader.bitPos + 3) produced = true)
    (hp : b.bits final <+: st.reader.rest inb) :
    (st.writer.outPos.toNat + b.span ≤ p.outCap ∧ ∃ st', inflateBlock p.outCap inb st = .ok ((final, b.span), st') ∧
        st'.reader = st.reader.skip (b.bits final).length ∧ st.Emitted st' (b.emits st.window.history) ∧
        (st'.litlen, st'.dist, st'.clen) = b.tables st) ∨
      (p.outCap < st.writer.outPos.toNat + b.span ∧
        (st.writer.outPos.toNat ≤ p.outCap → inflateBlock p.outCap inb st = .error .outputOverflow)) := by
  have hlen := hp.length_le
  rw [SentBlock.bits, List.length_append, blockHeader_length, Reader.rest_length] at hlen
  have hbody := Reader.prefix_skip hr hp
  rw [blockHeader_length] at hbody
  have hrun := inflateBlock_of_header hr ((List.prefix_append _ _).trans hp) p.outCap
  rcases SentBlock.run_runs (p := p) (inb := inb) (st := { st with reader := st.reader.skip 3 }) (produced := produced)
    (b := b) (Reader.skip_ok hr (by omega)) hw hfill (by rwa [Reader.skip_bitPos hr (by omega)]) hbody with
    ⟨hroom, st', hok, hinf⟩ | ⟨hover, herr⟩
  · refine .inl ⟨hroom, st', ?_, ?_, hinf.emitted.congr rfl rfl rfl rfl, ?_⟩
    · rw [hrun, hok, except_ok_bind]
    · rw [hinf.reader, Reader.skip_skip hr hlen, SentBlock.bits, List.length_append, blockHeader_length]
    · exact hinf.tables.trans (by cases b <;> rfl)
  · exact .inr ⟨hover, fun hout => by rw [hrun, herr hout, except_error_bind]⟩

end Header

/-! ### INFL_BLOCK -/

section InflBlock

variable {s : State}

theorem inflBlockBody_pending (h : s.stream.writer.cnt ≠ 0) : inflBlockBody s = .error .invalidCommand := by
  have hbad : (s.stream.writer.cnt != 0) = true := bne_iff_ne.2 h
  rw [inflBlockBody, inflBlockStart, hbad, failIf_true]
  rfl

theorem inflBlockBody_eq (h : s.stream.writer.cnt = 0) :
    inflBlockBody s =
      inflateBlock s.params.outCap s.inByte s.stream >>= fun v => .ok ⟨v.2, v.1.2, bitOf v.1.1⟩ := by
  have hok : (s.stream.writer.cnt != 0) = false := by rw [h]; rfl
  rw [inflBlockBody, inflBlockStart, hok, failIf_false]
  rfl

theorem inflBlockBody_error {e : Err} (h : s.stream.writer.cnt = 0)
    (he : inflateBlock s.params.outCap s.inByte s.stream = .error e) : inflBlockBody s = .error e := by
  rw [inflBlockBody_eq h, he, except_error_bind]

end InflBlock

/-- Settles O38: the header takes three bits, and the body does what the body of a valid block does. -/
theorem inflBlockCompletes : Obligations.InflBlockCompletes := by
  intro s final b hcnt hr hw hv hp
  rcases inflateBlock_sent hr hw (Nat.min_le_left _ _) hv hp with ⟨hroom, st', hok, h⟩ | ⟨hover, herr⟩
  · refine ⟨fun _ => ⟨st', conclude_of_ok ?_, h⟩, fun _ hover => by omega⟩
    rw [inflBlockBody_eq hcnt, hok, except_ok_bind]
  · exact ⟨fun hroom => by omega, fun hout _ => conclude_of_error (inflBlockBody_error hcnt (herr hout))⟩

/-! ### DECOMPRESS -/

section Decompress

variable {s : State}

theorem decompressBody_outOfRange (h : s.params.inSize < s.a0 + s.a1) : decompressBody s = .error .invalidRange := by
  rw [decompressBody, decompressStart, checkRange_error h]
  rfl

/-- The reader of a DECOMPRESS whose input range lies in IN. -/
theorem decompressReader_ok (h : s.a0 + s.a1 ≤ s.params.inSize) :
    (Reader.over s.latch.arg0 s.latch.arg1).Ok s.params := Reader.over_ok h

theorem decompressReader_bitPos (s : State) : (Reader.over s.latch.arg0 s.latch.arg1).bitPos = 8 * s.a0 := rfl

theorem decompressReader_left (h : s.a0 + s.a1 ≤ s.params.inSize) :
    (Reader.over s.latch.arg0 s.latch.arg1).left = 8 * s.a1 := by
  have hmax := s.params.inSize_bounds.2
  have hlim : (Reader.over s.latch.arg0 s.latch.arg1).lim.toNat = s.a0 + s.a1 := by
    rw [Reader.over, BitVec.toNat_add]
    exact Nat.mod_eq_of_lt (by simp only [State.a0, State.a1] at h ⊢; omega)
  rw [Reader.left, hlim, decompressReader_bitPos]
  omega

/-- Bits that the input range begins with. -/
theorem prefix_of_bits (h : s.a0 + s.a1 ≤ s.params.inSize) {bits : List Bool} (hlen : bits.length ≤ 8 * s.a1)
    (hbits : ∀ i (h : i < bits.length), (s.inByte (s.a0 + i / 8)).getLsbD (i % 8) = bits[i]) :
    bits <+: (Reader.over s.latch.arg0 s.latch.arg1).rest s.inByte := by
  have hnext : (Reader.over s.latch.arg0 s.latch.arg1).next s.inByte bits.length = bits := by
    refine List.ext_getElem (by simp) fun i hi _ => ?_
    rw [Reader.next_length] at hi
    rw [← hbits i hi]
    simp only [Reader.next, decompressReader_bitPos, List.getElem_map, List.getElem_range]
    rw [show (8 * s.a0 + i) / 8 = s.a0 + i / 8 by omega, show (8 * s.a0 + i) % 8 = i % 8 by omega]
  rw [← decompressReader_left h] at hlen
  rw [Reader.rest_eq (decompressReader_ok h) hlen, hnext]
  exact List.prefix_append _ _

theorem decompressBody_eq (h : s.a0 + s.a1 ≤ s.params.inSize) :
    decompressBody s =
      inflateLoop s.params.outCap s.inByte (8 * s.a1) (decompressStream s) >>= fun st => .ok (decompressResult s st) := by
  have hfuel : (decompressStream s).reader.remaining.toNat = 8 * s.a1 := by
    rw [← decompressReader_left h, ← Int.toNat_natCast (Reader.left _)]
    exact congrArg Int.toNat (decompressReader_ok h).remaining_eq
  rw [← hfuel, decompressBody, decompressStart, checkRange_ok h]
  rfl

theorem decompressBody_error {e : Err} (h : s.a0 + s.a1 ≤ s.params.inSize)
    (he : inflateLoop s.params.outCap s.inByte (8 * s.a1) (decompressStream s) = .error e) :
    decompressBody s = .error e := by
  rw [decompressBody_eq h, he, except_error_bind]

/-- The first block's error ends the loop. -/
theorem inflateLoop_error {cap fuel : Nat} {inb : Nat → Byte} {st : Stream} {e : Err} (hfuel : 0 < fuel)
    (h : inflateBlock cap inb st = .error e) : inflateLoop cap inb fuel st = .error e := by
  obtain ⟨fuel, rfl⟩ : ∃ k, fuel = k + 1 := ⟨fuel - 1, by omega⟩
  rw [inflateLoop, h, except_error_bind]

end Decompress

theorem blockHeader_reserved (f : Bool) : blockHeader f 3 = [f, true, true] := by cases f <;> rfl

/-- The first byte of the input range begins with a header of the reserved type. -/
theorem prefix_reserved {s : State} (h : s.a0 + s.a1 ≤ s.params.inSize) (h1 : 1 ≤ s.a1)
    (htype : (s.inByte s.a0).extractLsb' 1 2 = 3#2) :
    blockHeader ((s.inByte s.a0).getLsbD 0) 3 <+: (decompressStream s).reader.rest s.inByte := by
  have hbit : ∀ j < 2, (s.inByte s.a0).getLsbD (1 + j) = (3#2).getLsbD j := by
    intro j hj
    rw [← htype, BitVec.getLsbD_extractLsb', decide_eq_true hj, Bool.true_and]
  rw [blockHeader_reserved]
  refine prefix_of_bits h (by simp only [List.length_cons, List.length_nil]; omega) fun i hi => ?_
  match i, hi with
  | 0, _ => rfl
  | 1, _ => exact hbit 0 (by decide)
  | 2, _ => exact hbit 1 (by decide)

/-- Settles O40: each check comes before any read, and a header of the reserved type ends the first block. -/
theorem inflaterCommandChecks : Obligations.InflaterCommandChecks := by
  refine ⟨⟨fun s => ⟨fun h => conclude_of_error (inflBlockBody_pending h), fun hcnt hr => ⟨fun hleft => ?_, fun f hp => ?_⟩⟩,
    fun s => ⟨fun h => conclude_of_error (decompressBody_outOfRange h), fun hrange h0 => ?_, fun hrange h1 htype => ?_⟩⟩,
    fun _ _ => rfl⟩
  · exact conclude_of_error (inflBlockBody_error hcnt (inflateBlock_end hr hleft _))
  · rw [← blockHeader_reserved] at hp
    exact conclude_of_error (inflBlockBody_error hcnt (inflateBlock_reserved hr hp _))
  · refine conclude_of_error (decompressBody_error hrange ?_)
    rw [h0]
    rfl
  · have hr : (decompressStream s).reader.Ok s.params := decompressReader_ok hrange
    have herr := inflateBlock_reserved hr (prefix_reserved hrange h1 htype) s.params.outCap
    exact conclude_of_error (decompressBody_error hrange (inflateLoop_error (by omega) herr))

/-! ### A step at a block boundary -/

theorem natBits_header : ∀ h : BitVec 3, natBits 3 h.toNat = blockHeader (h.getLsbD 0) (h.toNat / 2) ∧
    h.toNat / 2 < 4 ∧ BitVec.ofNat 3 (bitOf (h.getLsbD 0) + 2 * (h.toNat / 2)) = h := by decide

theorem decodeHeader_of_encode {i : Instr} {h : BitVec 3} (hi : encode i = .header h) : decodeHeader h = i := by
  have hd := decode_encode i
  rw [hi] at hd
  exact Except.ok.inj hd

/-- A core with no pending move takes a turn at its block boundary (44_inflate R281). -/
theorem step_inflating {s : State} (hreset : s.inReset = false) (hrun : s.run = .inflating) (hhost : s.host = []) :
    step s = inflateTurn s := by
  simp [step, stepMachine, hhost, hreset, coreTurn, hrun]

/-- Settles O6: the three bits of a header are read as the number that the decoder takes. -/
theorem stepRunsTheFetchedBlock : Obligations.StepRunsTheFetchedBlock := by
  intro s hreset hrun hhost hr
  rw [step_inflating hreset hrun hhost, inflateTurn, fetchHeader]
  refine ⟨fun i h hi hleft hbits => ?_, fun hleft => ?_⟩
  · obtain ⟨hheader, hlt, hvalue⟩ := natBits_header h
    have hp : blockHeader (h.getLsbD 0) (h.toNat / 2) <+: s.stream.reader.rest s.inByte := by
      rw [← hheader, ← hbits, Reader.rest_eq hr hleft]
      exact List.prefix_append _ _
    rw [readHeader_of_prefix _ hlt hr hp, hvalue, except_ok_bind]
    simp only [decodeHeader_of_encode hi]
  · rw [readHeader_end hr hleft, except_error_bind]

end Sys2Proof.Machine

/-! DECOMPRESS of a valid stream writes the bytes it stands for (44_inflate R291, R294), so it gives back what COMPRESS was
given. -/

namespace Sys2Proof.Machine

open Sys2Proof

/-! ### The bytes of a stream -/

/-- The bytes of blocks after `hist`, oldest first. -/
def emittedBlocks (hist : List Byte) : List SentBlock → List Byte
  | [] => []
  | b :: rest => b.emits hist ++ emittedBlocks (b.onto hist) rest

section Blocks

variable {hist : List Byte} {pos produced : Nat} {b : SentBlock} {bs : List SentBlock}

theorem SentBlock.onto_eq (hist : List Byte) (b : SentBlock) :
    b.onto hist = (b.emits hist).reverse ++ hist ∧ (b.emits hist).length = b.span := by
  cases b with
  | stored pad bytes => simp [SentBlock.emits, SentBlock.onto, SentBlock.span]
  | fixed ts | dynamic hlit hdist cl seq ts =>
    simp only [SentBlock.emits, SentBlock.onto, SentBlock.span, take_emitted]
    exact ⟨replayOnto_eq hist ts, emitted_length hist ts⟩

theorem foldl_onto (hist : List Byte) (bs : List SentBlock) :
    bs.foldl SentBlock.onto hist = (emittedBlocks hist bs).reverse ++ hist := by
  induction bs generalizing hist with
  | nil => rfl
  | cons b rest ih =>
    rw [List.foldl_cons, ih, emittedBlocks, List.reverse_append, List.append_assoc, ← (SentBlock.onto_eq hist b).1]

theorem sentOutput_eq (bs : List SentBlock) : sentOutput bs = emittedBlocks [] bs := by
  rw [sentOutput, foldl_onto, List.append_nil, List.reverse_reverse]

theorem SentBlock.valid_fit (hv : b.valid pos produced = true) :
    match b with
    | .stored _ _ => True
    | .fixed ts => tokensFit produced ts = true
    | .dynamic _ _ _ _ ts => tokensFit produced ts = true := by
  cases b with
  | stored pad bytes => trivial
  | fixed ts => exact hv
  | dynamic hlit hdist cl seq ts => exact (dynamicValid_of_valid hv).fit

/-- Only the newest 32768 bytes matter to a valid block. -/
theorem SentBlock.emits_take (hv : b.valid pos produced = true) : b.emits (hist.take Config.wsize) = b.emits hist := by
  have hfit := SentBlock.valid_fit hv
  cases b with
  | stored pad bytes => simp [SentBlock.emits, SentBlock.onto, SentBlock.span]
  | fixed ts | dynamic hlit hdist cl seq ts =>
    simp only [SentBlock.emits, SentBlock.onto, SentBlock.span, take_emitted]
    exact emitted_take hist ts (tokensFit_wf hfit)

/-- A block's place counts modulo a byte. -/
theorem SentBlock.valid_congr {pos' : Nat} (h : pos % 8 = pos' % 8) (hv : b.valid pos produced = true) :
    b.valid pos' produced = true := by
  cases b with
  | stored pad bytes => rwa [SentBlock.valid, h] at hv
  | fixed ts | dynamic hlit hdist cl seq ts => exact hv

end Blocks

section Loop

variable {p : Params} {inb : Nat → Byte}

/-- The loop of DECOMPRESS over a valid stream, from a place `pos` of it on and after the bytes `hist` (44_inflate R291). -/
theorem inflateLoop_sent {st : Stream} {bs : List SentBlock} {pos fuel : Nat} {hist : List Byte} (hne : bs ≠ [])
    (hr : st.reader.Ok p) (hw : st.window.Ok) (hpos : st.reader.bitPos % 8 = pos % 8)
    (hhist : st.window.history = hist.take Config.wsize) (hv : sentValid pos hist.length bs = true)
    (hp : sentBits bs <+: st.reader.rest inb) (hfuel : st.reader.left ≤ fuel) :
    (st.writer.outPos.toNat + (emittedBlocks hist bs).length ≤ p.outCap ∧
        ∃ st', inflateLoop p.outCap inb fuel st = .ok st' ∧ st.Emitted st' (emittedBlocks hist bs) ∧
          st'.reader = st.reader.skip (sentBits bs).length) ∨
      (p.outCap < st.writer.outPos.toNat + (emittedBlocks hist bs).length ∧
        (st.writer.outPos.toNat ≤ p.outCap → inflateLoop p.outCap inb fuel st = .error .outputOverflow)) := by
  induction bs generalizing st pos fuel hist with
  | nil => exact absurd rfl hne
  | cons b rest ih =>
    rw [sentValid, Bool.and_eq_true] at hv
    obtain ⟨hvb, hvrest⟩ := hv
    obtain ⟨honto, hspan⟩ := SentBlock.onto_eq hist b
    rw [sentBits] at hp
    have hlen := hp.length_le
    rw [List.length_append, Reader.rest_length] at hlen
    have hbits : 3 ≤ (b.bits rest.isEmpty).length := by
      rw [SentBlock.bits, List.length_append, blockHeader_length]; omega
    have hfill : min hist.length Config.wsize ≤ st.window.fill.toNat := by
      rw [← Window.history_length, hhist, List.length_take]; omega
    obtain ⟨fuel, rfl⟩ : ∃ k, fuel = k + 1 := ⟨fuel - 1, by omega⟩
    rw [inflateLoop, emittedBlocks, List.length_append, hspan]
    rcases inflateBlock_sent hr hw hfill (SentBlock.valid_congr (by omega) hvb) ((List.prefix_append _ _).trans hp) with
      ⟨hroom, st₁, hblock, hreader, hem, -⟩ | ⟨hover, hblock⟩
    · rw [hhist, SentBlock.emits_take hvb] at hem
      have hout := hem.outPos
      rw [hspan] at hout
      rw [hblock, except_ok_bind]
      rcases eq_or_ne rest [] with rfl | hne'
      · simp only [emittedBlocks, List.length_nil, List.append_nil, Nat.add_zero, sentBits]
        exact .inl ⟨hroom, st₁, rfl, hem, hreader⟩
      · have hmore : rest.isEmpty = false := by simpa using hne'
        rw [hmore] at hreader hlen hp hvrest ⊢
        have hhist₁ : st₁.window.history = (b.onto hist).take Config.wsize := by
          rw [hem.history, hhist, honto, List.take_append, List.take_append, List.take_take]
          congr 2; omega
        have hlen₁ : (b.onto hist).length = hist.length + b.span := by
          rw [honto, List.length_append, List.length_reverse, hspan, Nat.add_comm]
        have hbits₁ := Reader.skip_bitPos hr (n := (b.bits false).length) (by omega)
        have hleft₁ := Reader.skip_left hr (n := (b.bits false).length) (by omega)
        rw [← hreader] at hbits₁ hleft₁
        rcases ih hne' (fuel := fuel) (hreader ▸ Reader.skip_ok hr (by omega)) hem.windowOk
          (pos := pos + (b.bits false).length) (by omega) hhist₁ (by rwa [hlen₁])
          (hreader ▸ Reader.prefix_skip hr hp) (by rw [hmore] at hbits; omega) with
          ⟨hroom', st₂, hloop, hem₂, hreader₂⟩ | ⟨hover, hloop⟩
        · refine .inl ⟨by omega, st₂, hloop, hem.trans hem₂, ?_⟩
          rw [hreader₂, hreader, Reader.skip_skip hr hlen, sentBits, hmore, List.length_append]
        · exact .inr ⟨by omega, fun _ => hloop (by omega)⟩
    · exact .inr ⟨by omega, fun hout => by rw [hblock hout, except_error_bind]⟩

end Loop

/-! ### DECOMPRESS -/

/-- The input bytes up to the end of what was read (40_bitstream R156). -/
theorem consumed_skip {s : State} {n : Nat} (h : s.a0 + s.a1 ≤ s.params.inSize) (hn : n ≤ 8 * s.a1) :
    ((Reader.over s.latch.arg0 s.latch.arg1).skip n).consumed s.a0 = (n + 7) / 8 := by
  have hr := decompressReader_ok h
  have hleft := decompressReader_left h
  have hbits := Reader.skip_bitPos hr (n := n) (by omega)
  rw [decompressReader_bitPos, Reader.bitPos] at hbits
  have hbit := ((Reader.over s.latch.arg0 s.latch.arg1).skip n).bit.isLt
  have hzero : ((Reader.over s.latch.arg0 s.latch.arg1).skip n).bit = 0 ↔
      ((Reader.over s.latch.arg0 s.latch.arg1).skip n).bit.toNat = 0 := BitVec.toNat_inj.symm
  rw [Reader.consumed]
  by_cases h0 : ((Reader.over s.latch.arg0 s.latch.arg1).skip n).bit = 0
  · have hb := hzero.1 h0
    rw [if_pos h0]; clear hzero h0; omega
  · have hb := mt hzero.2 h0
    rw [if_neg h0]; clear hzero h0; omega

/-- Settles O39: the loop runs over the blocks of the stream from the cleared window on. -/
theorem decompressDecodesValidStreams : Obligations.DecompressDecodesValidStreams := by
  intro s bs hrange hne hv hlen hbits
  have hr : (decompressStream s).reader.Ok s.params := decompressReader_ok hrange
  have hp : sentBits bs <+: (decompressStream s).reader.rest s.inByte := prefix_of_bits hrange hlen hbits
  have hleft : (decompressStream s).reader.left = 8 * s.a1 := decompressReader_left hrange
  have hzero : (decompressStream s).writer.outPos.toNat = 0 := rfl
  have hloop := inflateLoop_sent (hist := []) hne hr (Window.cleared_ok _)
    (by rw [decompressStream, decompressReader_bitPos]; omega) rfl hv hp hleft.le
  rw [hzero, Nat.zero_add, ← sentOutput_eq] at hloop
  rcases hloop with ⟨hroom, st', hok, hem, hreader⟩ | ⟨hover, herr⟩
  · refine ⟨fun hover => by omega, fun _ => ?_⟩
    have hout := hem.outPos
    rw [hzero, Nat.zero_add] at hout
    refine ⟨st', conclude_of_ok ?_, ?_, fun a ha => hem.outside a (.inr (hout ▸ ha)), hout, hem.pending.1, hem.pending.2,
      hreader, ?_⟩
    · have hconsumed : st'.reader.consumed s.a0 = ((sentBits bs).length + 7) / 8 := by
        rw [hreader]; exact consumed_skip hrange hlen
      rw [decompressBody_eq hrange, hok, except_ok_bind, decompressResult, hout, hconsumed]
    · exact hem.written
    · rw [hem.history, show (decompressStream s).window.history = [] from rfl, List.append_nil]
  · exact ⟨fun _ => conclude_of_error (decompressBody_error hrange (herr (Nat.zero_le _))), fun hroom => by omega⟩

/-! ### Round trips -/

/-- A COMPRESS that ends without an error leaves the bits of its stream at OUT[0], and their number of bytes. -/
theorem compress_leaves_bits {s t : State} (h : exec .compress s = .next t) (he : t.error = false) :
    (compressBits s).length ≤ 8 * t.res0.toNat ∧ t.res0.toNat = ((compressBits s).length + 7) / 8 ∧
      ∀ i (hi : i < (compressBits s).length), (t.stream.writer.out.read .outByte (i / 8)).getLsbD (i % 8) =
        (compressBits s)[i] := by
  obtain ⟨hout, hin⟩ := compressCompletes.2 s
  by_cases hrange : s.a0 + s.a1 ≤ s.params.inSize
  · obtain ⟨hover, hfits⟩ := hin hrange
    by_cases hcap : ((compressBits s).length + 7) / 8 ≤ s.params.outCap
    · obtain ⟨w', hexec, happended, hpos, -⟩ := hfits hcap
      obtain rfl := Host.Outcome.next.inj (hexec.symm.trans h)
      have hmax := s.params.outCap_bounds.2
      have hres : (BitVec.ofNat 32 (((compressBits s).length + 7) / 8)).toNat = ((compressBits s).length + 7) / 8 := by
        rw [BitVec.toNat_ofNat, Nat.mod_eq_of_lt (by omega)]
      simp only [complete_res0, complete_stream, hres]
      refine ⟨by omega, trivial, fun i hi => ?_⟩
      have hadded := happended.added i (by rw [List.length_append]; omega)
      rw [List.getElem_append_left hi, Writer.bitAt, if_pos (by simp only [Writer.bitPos]; simp; omega)] at hadded
      simpa [Writer.bitPos] using hadded
    · obtain rfl := Host.Outcome.next.inj ((hover (by omega)).symm.trans h)
      simp at he
  · obtain rfl := Host.Outcome.next.inj ((hout (by omega)).symm.trans h)
    simp at he

/-- Settles O45: what COMPRESS writes is a valid stream that stands for its input, and DECOMPRESS decodes it. -/
theorem compressThenDecompress : Obligations.CompressThenDecompress := by
  intro s t u hexec he hlen hrange hcopy hroom
  obtain ⟨hbytes, hcount, hbits⟩ := compress_leaves_bits hexec he
  obtain ⟨bs, hne, -, hvalid, hsent, houtput⟩ := compressWritesAValidStream s
  have hspan : (sentOutput bs).length = s.a1 := by rw [houtput]; simp
  have hdecompress := (decompressDecodesValidStreams u bs hrange hne hvalid (by rw [hsent, hlen]; exact hbytes) fun i hi => by
    simp only [hsent] at hi ⊢
    rw [hcopy (i / 8) (by omega), hbits i hi]).2 (by rw [hspan]; exact hroom)
  obtain ⟨st', hdone, hwritten, -⟩ := hdecompress
  rw [hspan, hsent, ← hcount, ← hlen] at hdone
  refine ⟨st', hdone, fun i hi => ?_⟩
  have hbyte := hwritten i (by rw [hspan]; exact hi)
  simpa [houtput] using hbyte

/-- Settles O44: STORED mode is one of the modes. -/
theorem storedRoundTrip : Obligations.StoredRoundTrip := fun s t u _ => compressThenDecompress s t u

end Sys2Proof.Machine

/-! What ends a block with an error: a stored block's lengths and data, the header of a dynamic block, and the body of a
Huffman block (44_inflate R282..R289, 60_exceptions R342..R348). -/

namespace Sys2Proof.Machine

open Sys2Proof

theorem exec_raise {i : Instr} {s : State} {final : Bool} {r : Except Err (Nat × Stream)} {e : Err}
    (hexec : exec i s = concludeBlock final r s) (h : r = .error e) : exec i s = .next (raise e s) := by
  rw [hexec, h]
  rfl

/-! ### A stored block -/

/-- Settles O41: the checks come in the order of the reads, and the data goes byte by byte. -/
theorem storedBlockErrors : Obligations.StoredBlockErrors := by
  intro s final pad len nlen hr hpad hlen hnlen
  have halign := hr.align_le
  rw [← hpad] at halign
  simp only [List.append_assoc, Reader.rest_length]
  refine ⟨fun hshort => exec_raise rfl ?_, fun hp => ?_⟩
  · have hend := readStoredLengths_end (inb := s.inByte) (Reader.skip_ok hr halign) (by rw [Reader.skip_left hr halign]; omega)
    rw [storedBlockBody, storedBody_eq, alignToByte_eq hr, ← hpad, hend, except_error_bind]
  have hbits := hp.length_le
  simp only [List.length_append, natBits_length, Reader.rest_length] at hbits
  have hbody := storedBody_of_lengths hr hpad hlen hnlen hp s.params.outCap
  refine ⟨fun hne => exec_raise rfl ?_, fun heq => ?_⟩
  · have hbad : (nlen != 65535 - len) = true := bne_iff_ne.2 hne
    rw [storedBlockBody, hbody, hbad, failIf_true, except_error_bind]
  · have hok : (nlen != 65535 - len) = false := by rw [heq]; exact bne_self_eq_false _
    rw [hok, failIf_false, except_ok_bind] at hbody
    have hr' := Reader.skip_ok hr (n := pad.length + 32) (by omega)
    have hleft := Reader.skip_left hr (n := pad.length + 32) (by omega)
    refine ⟨fun hmissing hroom => exec_raise rfl ?_, fun hout hover => exec_raise rfl ?_⟩
    · have hdata := storedBytes_end (inb := s.inByte) (n := len)
        (st := { s.stream with reader := s.stream.reader.skip (pad.length + 32) }) hr' (by rwa [hleft]) (by rwa [hleft])
      rw [storedBlockBody, hbody, hdata, except_error_bind]
    · have hdata := storedBytes_overflow (inb := s.inByte) (n := len)
        (st := { s.stream with reader := s.stream.reader.skip (pad.length + 32) }) hr' hout (by rwa [hleft])
      rw [storedBlockBody, hbody, hdata, except_error_bind]

/-! ### The body of a Huffman block -/

section Body

variable {p : Params} {inb : Nat → Byte} {ll dl cl : Table}

theorem Reads.bind_error {α β : Type} {f : Reader → Except Err (α × Reader)} {g : α × Reader → Except Err (β × Reader)}
    {xs : List Bool} {e : Err} (hf : Reads p inb f xs (.error e)) : Reads p inb (fun r => f r >>= g) xs (.error e) where
  whole r hr hp := by rw [hf.whole r hr hp]; rfl
  cut r hr hp hne := by rw [hf.cut r hr hp hne, except_error_bind]

theorem reads_readItem_badDistance (hll : ll.Ok .litlen) (hdl : dl.Ok .dist) {l c : Nat} (h3 : 3 ≤ l) (h258 : l ≤ 258)
    (hl : ll.lenOf (lsym l) ≠ 0) (hc : 29 < c) (hd : dl.lenOf c ≠ 0) :
    Reads p inb (readItem ll dl inb) (lengthCode ll l ++ dl.codeBits c) (.error .invalidCode) :=
  (reads_readHead_length hll h3 h258 hl).bind (reads_readDistance_bad hdl hc hd).bind_error

/-- Where a Huffman body of the block that `s` is in begins: past the header `hdr`, with its tables. -/
def bodyStart (s : State) (hdr : List Bool) (ll dl cl : Table) : Stream :=
  { s.stream with reader := s.stream.reader.skip hdr.length, litlen := ll, dist := dl, clen := cl }

variable {s : State} {i : Instr} {final : Bool} {hdr : List Bool} {ts : List Token} {e : Err}

theorem bodyStart_ready (hr : s.stream.reader.Ok s.params) (hw : s.stream.window.Ok) (hll : ll.Ok .litlen)
    (hdl : dl.Ok .dist) (hp : hdr <+: s.stream.reader.rest s.inByte) : (bodyStart s hdr ll dl cl).Ready s.params :=
  ⟨hll, hdl, Reader.skip_ok hr (by simpa using hp.length_le), hw⟩

/-- The errors of a body, for the instruction `i` that runs it after the header `hdr`. -/
theorem bodyErrors (hr : s.stream.reader.Ok s.params) (hw : s.stream.window.Ok) (hll : ll.Ok .litlen) (hdl : dl.Ok .dist)
    (hroom : s.stream.writer.outPos.toNat + spanOf ts ≤ s.params.outCap)
    (hfit : tokensFit s.stream.window.fill.toNat ts = true) (hcoded : ts.all (tokenCoded ll dl) = true)
    (hexec : hdr <+: s.stream.reader.rest s.inByte →
      exec i s = concludeBlock final (huffBody s.params.outCap s.inByte (bodyStart s hdr ll dl cl)) s) :
    BodyErrors ll dl hdr ts i s (s.stream.reader.rest s.inByte) (hdr ++ ts.flatMap (tokenCode ll dl)) := by
  have hplays : (bodyStart s hdr ll dl cl).Plays s.params s.stream.window.fill.toNat ts :=
    ⟨Nat.min_le_left _ _, hfit, hcoded, hroom⟩
  have read : ∀ e, hdr ++ ts.flatMap (tokenCode ll dl) <+: s.stream.reader.rest s.inByte →
      readItem ll dl s.inByte (s.stream.reader.skip (hdr ++ ts.flatMap (tokenCode ll dl)).length) = .error e →
        exec i s = .next (raise e s) := by
    intro e hp hitem
    have hhdr := (List.prefix_append _ _).trans hp
    have hlen := hp.length_le
    rw [List.length_append, Reader.rest_length] at hlen
    rw [List.length_append, ← Reader.skip_skip hr hlen] at hitem
    exact exec_raise (hexec hhdr)
      (huffBody_error_of_read (bodyStart_ready hr hw hll hdl hhdr) hplays (Reader.prefix_skip hr hp) hitem)
  have play : ∀ e xs, (hdr ++ ts.flatMap (tokenCode ll dl)) ++ xs <+: s.stream.reader.rest s.inByte →
      ((bodyStart s hdr ll dl cl).Ready s.params →
        ts.flatMap (tokenCode ll dl) ++ xs <+: (bodyStart s hdr ll dl cl).reader.rest s.inByte →
          huffBody s.params.outCap s.inByte (bodyStart s hdr ll dl cl) = .error e) → exec i s = .next (raise e s) := by
    intro e xs hp hbody
    rw [List.append_assoc] at hp
    have hhdr := (List.prefix_append _ _).trans hp
    exact exec_raise (hexec hhdr) (hbody (bodyStart_ready hr hw hll hdl hhdr) (Reader.prefix_skip hr hp))
  refine ⟨?badLength, ?badDistance, ?tooFar, ?overflow, ?noSymbol, ?noDistance, ?endsInLength, ?endsInToken, ?endsBeforeEnd⟩
  case badLength =>
    intro sym hsym hcode hp
    have hbad := reads_readHead_bad (p := s.params) (inb := s.inByte) hll (s := sym) (by omega) hcode
    exact read _ ((List.prefix_append _ _).trans hp) ((hbad.bind_error (g := readTail dl s.inByte)).after hr hp)
  case badDistance =>
    intro l c h3 h258 hl hc hd hp
    exact read _ ((List.prefix_append _ _).trans hp)
      ((reads_readItem_badDistance hll hdl h3 h258 hl (by omega) hd).after hr hp)
  case tooFar =>
    intro l d hwf hcode hd hp
    exact play _ _ hp fun hready hp => huffBody_tooFar hready hplays hwf hcode hd hp
  case overflow =>
    intro t hfit' hcode hover hp
    exact play _ _ hp fun hready hp => huffBody_noRoom hready hplays hfit' hcode hover hp
  case noSymbol =>
    intro hnone
    refine read _ hnone.1 ?_
    rw [readItem, readHead, decodeSymbol_unmatched hll hr hnone]
    rfl
  case noDistance =>
    intro l h3 h258 hl hnone
    have hhead := (reads_readHead_length (p := s.params) (inb := s.inByte) hll h3 h258 hl).after hr hnone.1
    have hdist := decodeSymbol_unmatched hdl hr hnone
    rw [List.length_append] at hdist
    refine read _ ((List.prefix_append _ _).trans hnone.1) ?_
    rw [readItem, hhead]
    simp only [Except.map, except_ok_bind, readTail, readDistance, hdist, except_error_bind]
  case endsInLength =>
    intro l h3 h258 hl hpre hp hne
    refine read _ hpre ?_
    rw [readItem, (reads_readHead_length hll h3 h258 hl).cut_after hr hpre hp hne, except_error_bind]
  case endsInToken =>
    intro t hwf hcode hpre hp hne
    exact read _ hpre ((reads_readItem_token hll hdl hwf hcode).cut_after hr hpre hp hne)
  case endsBeforeEnd =>
    intro hhdr hp hne
    have hlen : hdr.length ≤ s.stream.reader.left := by simpa using hhdr.length_le
    have hrest : (bodyStart s hdr ll dl cl).reader.rest s.inByte = (s.stream.reader.rest s.inByte).drop hdr.length :=
      Reader.rest_skip hr hlen
    obtain ⟨us, hus⟩ := hhdr
    rw [← hus, List.drop_left] at hrest
    rw [← hus] at hp hne
    refine exec_raise (hexec ⟨us, hus⟩) (huffBody_cut (bodyStart_ready hr hw hll hdl ⟨us, hus⟩) hplays ?_ ?_)
    · rw [hrest]; exact (List.prefix_append_right_inj _).1 hp
    · rw [hrest]; exact fun h => hne (by rw [h]; rfl)

end Body

/-- Settles O42: a fixed block's body begins at once, with the fixed tables. -/
theorem fixedBlockErrors : Obligations.FixedBlockErrors := by
  intro s final ts hr hw hroom hfit
  refine bodyErrors (final := final) (hdr := []) (cl := s.stream.clen) hr hw fixedLitlenTable_ok fixedDistTable_ok hroom hfit
    (fixedTables_all_coded hfit) fun _ => ?_
  rw [bodyStart, List.length_nil, Reader.skip_zero]
  rfl

/-! ### The header of a dynamic block -/

section DynamicErrors

variable {s : State} {final : Bool} {hlit hdist : Nat} {cl : List Nat} {seq : List (Nat × Nat)} {e : Err}

theorem dynamic_raise (h : dynamicHeader s.inByte s.stream = .error e) :
    exec (.streamBlockDynamic final) s = .next (raise e s) :=
  exec_raise (r := dynamicBlockBody s.params.outCap s.inByte s.stream) rfl (by
    rw [dynamicBlockBody, h, except_error_bind])

/-- A repeat code 16 with no previous length. -/
theorem dynamicHeader_noPrevious (h : CountsFit hlit hdist cl) (hk : kraft (sentClen cl).len ≤ 32768)
    (hr : s.stream.reader.Ok s.params) (h16 : (sentClen cl).lenOf 16 ≠ 0)
    (hp : countBits hlit hdist cl ++ (sentClen cl).codeBits 16 <+: s.stream.reader.rest s.inByte) :
    dynamicHeader s.inByte s.stream = .error .invalidCode := by
  have hfits : SequenceFits hlit hdist cl [] := ⟨h, hk, by simp, by simp⟩
  have hnil : dynHeaderBits hlit hdist cl [] = countBits hlit hdist cl := List.append_nil _
  refine dynamicHeader_error_of_pass hfits (Nat.succ_pos _) hr (hnil ▸ (List.prefix_append _ _).trans hp) ?_
  rw [hnil]
  exact (reads_lengthsPass_noPrevious hfits.clen_ok h16).after hr hp

/-- A repeat past the last length. -/
theorem dynamicHeader_overrun (h : SequenceFits hlit hdist cl seq) (hr : s.stream.reader.Ok s.params) {k x : Nat}
    (hcoded : PairCoded (sentClen cl) (k, x)) (hne : seq ≠ [])
    (hlen : (expandPairs [] seq).length < hlit + 257 + (hdist + 1))
    (hover : hlit + 257 + (hdist + 1) < (expandPairs [] (seq ++ [(k, x)])).length)
    (hp : dynHeaderBits hlit hdist cl seq ++ pairCode (sentClen cl) (k, x) <+: s.stream.reader.rest s.inByte) :
    dynamicHeader s.inByte s.stream = .error .invalidCode := by
  have hpass := (reads_lengthsPass (n := hlit + 257 + (hdist + 1)) h.clen_ok hcoded hlen
    fun _ => expandPairs_ne_nil hne).after hr hp
  rw [← expandPairs_append, lengthsWithin_error hover] at hpass
  exact dynamicHeader_error_of_pass h hlen hr ((List.prefix_append _ _).trans hp) hpass

/-- A code-length symbol that no code matches, or that the input ends inside. -/
theorem dynamicHeader_unmatched (h : SequenceFits hlit hdist cl seq) (hr : s.stream.reader.Ok s.params)
    (hlen : (expandPairs [] seq).length < hlit + 257 + (hdist + 1))
    (hnone : (sentClen cl).Unmatched (dynHeaderBits hlit hdist cl seq) (s.stream.reader.rest s.inByte)) :
    dynamicHeader s.inByte s.stream =
      .error (unmatchedError (dynHeaderBits hlit hdist cl seq) (s.stream.reader.rest s.inByte)) := by
  refine dynamicHeader_error_of_pass h hlen hr hnone.1 ?_
  rw [lengthsPass, decodeSymbol_unmatched h.clen_ok hr hnone, except_error_bind]

/-- An input that ends inside the sequence. -/
theorem dynamicHeader_cut (h : SequenceFits hlit hdist cl seq) (hr : s.stream.reader.Ok s.params)
    (hlen : (expandPairs [] seq.dropLast).length < hlit + 257 + (hdist + 1))
    (hcounts : countBits hlit hdist cl <+: s.stream.reader.rest s.inByte)
    (hp : s.stream.reader.rest s.inByte <+: dynHeaderBits hlit hdist cl seq)
    (hne : s.stream.reader.rest s.inByte ≠ dynHeaderBits hlit hdist cl seq) :
    dynamicHeader s.inByte s.stream = .error .unexpectedEnd := by
  obtain ⟨us, hus⟩ := hcounts
  rw [← hus] at hp hne
  rcases cut_flatMap (ys := []) (pairCode (sentClen cl)) (zs := us) (xs := seq)
      (by rw [List.append_nil]; exact (List.prefix_append_right_inj _).1 hp)
      (fun h => hne (by rw [h, List.append_nil]; rfl)) with ⟨as, ⟨k, x⟩, bs, rfl, has, ha, hane⟩ | hall
  · have hdrop : (as ++ (k, x) :: bs).dropLast = as ++ ((k, x) :: bs).dropLast :=
      List.dropLast_append_of_ne_nil (by simp)
    have hge := expandPairs_length_ge (expandPairs [] as) ((k, x) :: bs).dropLast
    rw [hdrop, expandPairs_append] at hlen
    have hcoded := h.coded (k, x) (by simp)
    have hprev : k = 16 → expandPairs [] as ≠ [] := by
      rintro rfl
      refine expandPairs_ne_nil ?_
      rintro rfl
      exact h.head rfl
    have hpass := reads_lengthsPass (p := s.params) (inb := s.inByte) h.clen_ok hcoded
      (vs := expandPairs [] as) (n := hlit + 257 + (hdist + 1)) (by omega) hprev
    have hpre : dynHeaderBits hlit hdist cl as <+: s.stream.reader.rest s.inByte :=
      hus ▸ (List.prefix_append_right_inj _).2 has
    refine dynamicHeader_error_of_pass h.left (by omega) hr hpre (hpass.cut_after hr hpre ?_ ?_)
    · rw [← hus, dynHeaderBits, List.append_assoc]
      exact (List.prefix_append_right_inj _).2 ha
    · rw [← hus, dynHeaderBits, List.append_assoc]
      exact fun h => hane (List.append_cancel_left h)
  · exact absurd (((List.prefix_append_right_inj _).1 hp).eq_of_length_le hall.length_le)
      fun h => hne (by rw [h]; rfl)

end DynamicErrors

/-- Settles O43: the header fails where the first of its reads or checks does, and the body after it as any body. -/
theorem dynamicHeaderErrors : Obligations.DynamicHeaderErrors := by
  intro s final hlit hdist cl seq hr hhlit hhdist h4 h19 hcl
  have hcounts : CountsFit hlit hdist cl := ⟨hhlit, hhdist, h4, h19, hcl⟩
  refine ⟨fun hp hne => dynamic_raise (dynamicHeader_cut_counts hcounts hr hp hne),
    fun hk hp => dynamic_raise (dynamicHeader_clen_overSubscribed hcounts hk hr hp),
    fun hk => ⟨fun h16 hp => dynamic_raise (dynamicHeader_noPrevious hcounts hk hr h16 hp), fun hcoded hhead => ?_⟩⟩
  have hseq : SequenceFits hlit hdist cl seq := ⟨hcounts, hk, hcoded, hhead⟩
  refine ⟨fun k x hcode _ hne hlen hover hp => dynamic_raise (dynamicHeader_overrun hseq hr hcode hne hlen hover hp),
    fun hlen hnone => dynamic_raise (dynamicHeader_unmatched hseq hr hlen hnone),
    fun hlen hp hcut hne => dynamic_raise (dynamicHeader_cut hseq hr hlen hp hcut hne),
    fun hlen hover hp => dynamic_raise (dynamicHeader_overSubscribed hseq hlen hover hr hp),
    fun hlen hll hdl ts hw hroom hfit hall => ?_⟩
  obtain ⟨hllok, hdlok⟩ := hseq.tables_ok hlen hll hdl
  refine bodyErrors (final := final) (cl := sentClen cl) hr hw hllok hdlok hroom hfit hall fun hp => ?_
  have hheader := dynamicHeader_ok hseq hlen hll hdl hr hp
  exact congrArg (fun r => concludeBlock final (r >>= huffBody s.params.outCap s.inByte) s) hheader

end Sys2Proof.Machine

/-! What the inflater does depends only on the bits it reads (44_inflate R292), and every instruction ends in a next state
(44_inflate R293). -/

namespace Sys2Proof.Machine

open Sys2Proof

/-! ### Procedures that read no bit but those they move past -/

/-- The bits from `a` up to `b` are the same in both inputs. -/
def AgreeOn (inb inb' : Nat → Byte) (a b : Nat) : Prop :=
  ∀ i, a ≤ i → i < b → (inb' (i / 8)).getLsbD (i % 8) = (inb (i / 8)).getLsbD (i % 8)

theorem AgreeOn.mono {inb inb' : Nat → Byte} {a b a' b' : Nat} (h : AgreeOn inb inb' a b) (ha : a ≤ a') (hb : b' ≤ b) :
    AgreeOn inb inb' a' b' := fun i hi hi' => h i (ha.trans hi) (hi'.trans_le hb)

/-- `f`, from the reader `r` on, depends on no bit but those up to the reader it ends with, as far as it ends without
`raise` on `inb`. -/
def Local {β : Type} (p : Params) (inb : Nat → Byte) (r : Reader) (rd : β → Reader) (f : (Nat → Byte) → Except Err β) :
    Prop :=
  Yields (f inb) fun v => (rd v).Ok p ∧ r.bitPos ≤ (rd v).bitPos ∧
    ∀ inb', AgreeOn inb inb' r.bitPos (rd v).bitPos → f inb' = .ok v

section Local

variable {α β : Type} {p : Params} {inb : Nat → Byte} {r r₁ : Reader} {rd : β → Reader} {rd₁ : α → Reader}

theorem Local.bind {x : (Nat → Byte) → Except Err α} {g : (Nat → Byte) → α → Except Err β} (hx : Local p inb r rd₁ x)
    (hg : ∀ a, (rd₁ a).Ok p → Local p inb (rd₁ a) rd (fun inb => g inb a)) :
    Local p inb r rd (fun inb => x inb >>= g inb) :=
  Yields.bind hx fun a ⟨hok, hle, hx'⟩ => (hg a hok).mono fun b ⟨hok', hle', hg'⟩ =>
    ⟨hok', hle.trans hle', fun inb' hagree => by
      simp only [hx' inb' (hagree.mono le_rfl hle'), except_ok_bind]
      exact hg' inb' (hagree.mono hle le_rfl)⟩

/-- A step that reads nothing. -/
theorem Local.after {P : α → Prop} {x : Except Err α} {g : (Nat → Byte) → α → Except Err β} (hx : Yields x P)
    (hg : ∀ a, P a → Local p inb r rd (fun inb => g inb a)) : Local p inb r rd (fun inb => x >>= g inb) := by
  cases x with
  | error e => exact .error e
  | ok a => exact hg a (hx a rfl)

theorem Local.ok (hr : r.Ok p) {v : β} (h : rd v = r) : Local p inb r rd (fun _ => .ok v) := by
  subst h
  exact Yields.ok (And.intro hr (And.intro le_rfl fun _ _ => rfl))

theorem Local.error (e : Err) : Local p inb r rd (fun _ => .error e) := Yields.error e

theorem Local.ite {c : Prop} [Decidable c] {x y : (Nat → Byte) → Except Err β} (hx : c → Local p inb r rd x)
    (hy : ¬ c → Local p inb r rd y) : Local p inb r rd (fun inb => if c then x inb else y inb) := by
  split
  · exact hx ‹_›
  · exact hy ‹_›

theorem Local.of_eq {x : (Nat → Byte) → Except Err β} (he : r₁ = r) (h : Local p inb r₁ rd x) : Local p inb r rd x :=
  he ▸ h

/-- Bits passed over are bits not depended on. -/
theorem Local.from {x : (Nat → Byte) → Except Err β} (h : Local p inb r₁ rd x) (hle : r.bitPos ≤ r₁.bitPos) :
    Local p inb r rd x :=
  Yields.mono h fun _ ⟨hok, hle', hx⟩ => ⟨hok, hle.trans hle', fun inb' hagree => hx inb' (hagree.mono hle le_rfl)⟩

end Local

section Locality

variable {p : Params} {inb : Nat → Byte} {r : Reader} {st : Stream}

/-! Reading -/

theorem readBits_local (hr : r.Ok p) (n : Nat) : Local p inb r Prod.snd (fun inb => readBits inb n r) := by
  rcases readBits_cases inb hr n with ⟨hn, h⟩ | ⟨-, h⟩
  · rw [Local, h]
    have hbits := Reader.skip_bitPos hr hn
    refine .ok (And.intro (Reader.skip_ok hr hn) ⟨by simp only; omega, fun inb' hagree => ?_⟩)
    have hnext : r.next inb' n = r.next inb n :=
      List.map_congr_left fun i hi => hagree _ (Nat.le_add_right _ _) (by rw [hbits]; have := List.mem_range.1 hi; omega)
    rw [readBits_ok hr hn, hnext]
  · rw [Local, h]
    exact .error _

theorem decodeWalk_local (t : Table) (hr : r.Ok p) (n code first index : Nat) :
    Local p inb r Prod.snd (fun inb => decodeWalk t inb n code first index r) := by
  induction n generalizing code first index r with
  | zero => exact .error _
  | succ n ih =>
    exact (readBits_local hr 1).bind fun v hv => .ite (fun _ => .ok hv rfl) fun _ => ih hv _ _ _

theorem decodeSymbol_local (t : Table) (hr : r.Ok p) : Local p inb r Prod.snd (fun inb => decodeSymbol t inb r) :=
  decodeWalk_local t hr 15 0 0 0

theorem readEach_local (hr : r.Ok p) (n k : Nat) : Local p inb r Prod.snd (fun inb => readEach inb n k r) := by
  induction k generalizing r with
  | zero => exact .ok hr rfl
  | succ k ih => exact (readBits_local hr n).bind fun v hv => (ih hv).bind fun w hw => .ok hw rfl

theorem readLength_local (hr : r.Ok p) (s : Nat) : Local p inb r Prod.snd (fun inb => readLength inb s r) :=
  (readBits_local hr _).bind fun _ hv => .ok hv rfl

theorem readDistance_local (dl : Table) (hr : r.Ok p) : Local p inb r Prod.snd (fun inb => readDistance dl inb r) :=
  (decodeSymbol_local dl hr).bind fun _ hv => .after (failIf_yields _ _) fun _ _ =>
    (readBits_local hv _).bind fun _ hw => .ok hw rfl

theorem readItem_local (ll dl : Table) (hr : r.Ok p) : Local p inb r Prod.snd (fun inb => readItem ll dl inb r) := by
  refine Local.bind (x := fun inb => readHead ll inb r) (rd₁ := Prod.snd) ?_ fun ⟨head, r'⟩ hr' => ?_
  · exact (decodeSymbol_local ll hr).bind fun v hv => .ite (fun _ => .ok hv rfl) fun _ => .ite (fun _ => .ok hv rfl)
      fun _ => .ite (fun _ => .error _) fun _ => (readLength_local hv _).bind fun _ hw => .ok hw rfl
  · cases head with
    | lit b => exact .ok hr' rfl
    | stop => exact .ok hr' rfl
    | length l => exact (readDistance_local dl hr').bind fun _ hv => .ok hv rfl

/-! Emitting moves no reader -/

theorem emitByte_reader (cap : Nat) (b : Byte) (st : Stream) :
    Yields (emitByte cap b st) (fun st' => st'.reader = st.reader) := by
  rcases emitByte_cases cap b st with ⟨-, h⟩ | ⟨-, h⟩
  · rw [h]; exact .ok rfl
  · rw [h]; exact .error _

theorem copyBytes_reader (cap l d : Nat) (st : Stream) :
    Yields (copyBytes cap l d st) (fun st' => st'.reader = st.reader) := by
  induction l generalizing st with
  | zero => exact .ok rfl
  | succ l ih => exact Yields.bind (emitByte_reader cap _ st) fun st₁ h => (ih st₁).mono fun _ h' => h'.trans h

theorem playToken_reader (cap : Nat) (t : Token) (st : Stream) :
    Yields (playToken cap t st) (fun st' => st'.reader = st.reader) := by
  cases t with
  | lit b => exact emitByte_reader cap b st
  | mtch l d => exact .ite (fun _ => .error _) fun _ => copyBytes_reader cap l d st

/-! Bodies -/

theorem storedBytes_local (cap : Nat) (hr : st.reader.Ok p) (n : Nat) :
    Local p inb st.reader Stream.reader (fun inb => storedBytes cap inb n st) := by
  induction n generalizing st with
  | zero => exact .ok hr rfl
  | succ n ih =>
    exact (readBits_local hr 8).bind fun v hv => .after (emitByte_reader cap _ { st with reader := v.2 }) fun st₁ h =>
      .of_eq h (ih (by rw [h]; exact hv))

theorem storedBlockBody_local (cap : Nat) (hr : st.reader.Ok p) :
    Local p inb st.reader (fun v => v.2.reader) (fun inb => storedBlockBody cap inb st) := by
  have halign : (alignToByte st.reader).2 = st.reader.skip ((8 - st.reader.bit.toNat) % 8) :=
    congrArg Prod.snd (alignToByte_eq hr)
  have hskip : (alignToByte st.reader).2.Ok p := halign ▸ Reader.skip_ok hr hr.align_le
  have hle := Reader.skip_bitPos hr hr.align_le
  refine Local.from (r₁ := (alignToByte st.reader).2) ?_ (by rw [halign]; omega)
  exact (readBits_local hskip 16).bind fun v hv => (readBits_local hv 16).bind fun w hw =>
    .after (failIf_yields _ _) fun _ _ => (storedBytes_local cap (st := { st with reader := w.2 }) hw _).bind
      fun _ h => .ok h rfl

theorem huffLoop_local (cap : Nat) (hr : st.reader.Ok p) (fuel produced : Nat) :
    Local p inb st.reader (fun v => v.2.reader) (fun inb => huffLoop cap inb fuel produced st) := by
  induction fuel generalizing st produced with
  | zero => exact .error _
  | succ fuel ih =>
    simp only [huffLoop_succ]
    refine (readItem_local st.litlen st.dist hr).bind fun ⟨item, r⟩ hr' => ?_
    cases item with
    | none => exact .ok hr' rfl
    | some t =>
      exact .after (playToken_reader cap t { st with reader := r }) fun st₁ h => .of_eq h (ih (by rw [h]; exact hr') _)

theorem huffBody_local (cap : Nat) (hr : st.reader.Ok p) :
    Local p inb st.reader (fun v => v.2.reader) (fun inb => huffBody cap inb st) := huffLoop_local cap hr _ 0

theorem lengthStep_local (n k : Nat) (vs : List Nat) (hr : r.Ok p) :
    Local p inb r Prod.snd (fun inb => lengthStep inb n k vs r) := by
  have repeats : ∀ m v base, Local p inb r Prod.snd (fun inb => readBits inb m r >>= fun x =>
      appendRepeat n vs v (base + x.1) >>= fun ws => Except.ok (ws, x.2)) := fun m v base =>
    (readBits_local hr m).bind fun x hx => .after (P := fun _ => True) (fun _ _ => trivial) fun _ _ => .ok hx rfl
  refine .ite (fun _ => .ok hr rfl) fun _ => .ite (fun _ => ?_) fun _ => .ite (fun _ => repeats 3 0 3) fun _ => repeats 7 0 11
  cases vs.getLast? with
  | none => exact .error _
  | some v => exact repeats 2 v 3

theorem lengthsLoop_local (clen : Table) (n fuel : Nat) (vs : List Nat) (hr : r.Ok p) :
    Local p inb r Prod.snd (fun inb => lengthsLoop clen inb n fuel vs r) := by
  induction fuel generalizing vs r with
  | zero => exact .ok hr rfl
  | succ fuel ih =>
    exact .ite (fun _ => .ok hr rfl) fun _ => (decodeSymbol_local clen hr).bind fun _ hv =>
      (lengthStep_local n _ vs hv).bind fun w hw => ih w.1 hw

theorem dynamicHeader_local (hr : st.reader.Ok p) :
    Local p inb st.reader Stream.reader (fun inb => dynamicHeader inb st) :=
  (readBits_local hr 5).bind fun _ h₁ => (readBits_local h₁ 5).bind fun _ h₂ => (readBits_local h₂ 4).bind fun _ h₃ =>
    (readEach_local h₃ 3 _).bind fun _ h₄ => .after (P := fun _ => True) (fun _ _ => trivial) fun _ _ =>
      (lengthsLoop_local _ _ _ _ h₄).bind fun _ h₅ => .after (P := fun _ => True) (fun _ _ => trivial) fun _ _ =>
        .after (P := fun _ => True) (fun _ _ => trivial) fun _ _ => .ok h₅ rfl

theorem dynamicBlockBody_local (cap : Nat) (hr : st.reader.Ok p) :
    Local p inb st.reader (fun v => v.2.reader) (fun inb => dynamicBlockBody cap inb st) :=
  (dynamicHeader_local hr).bind fun _ h => huffBody_local cap h

/-! Blocks -/

theorem readHeader_local (hr : r.Ok p) : Local p inb r Prod.snd (fun inb => readHeader inb r) :=
  (readBits_local hr 1).bind fun _ h₁ => (readBits_local h₁ 2).bind fun _ h₂ => .ok h₂ rfl

theorem inflateBlock_local (cap : Nat) (hr : st.reader.Ok p) :
    Local p inb st.reader (fun v => v.2.reader) (fun inb => inflateBlock cap inb st) := by
  refine (readHeader_local hr).bind fun v hv => .ite (fun _ => .error _) fun _ => .ite (fun _ => ?_) fun _ =>
    .ite (fun _ => ?_) fun _ => ?_
  · exact (storedBlockBody_local cap (st := { st with reader := v.2 }) hv).bind fun _ h => .ok h rfl
  · exact (huffBody_local cap (st := loadFixed { st with reader := v.2 }) hv).bind fun _ h => .ok h rfl
  · exact (dynamicBlockBody_local cap (st := { st with reader := v.2 }) hv).bind fun _ h => .ok h rfl

theorem inflateLoop_local (cap fuel : Nat) (hr : st.reader.Ok p) :
    Local p inb st.reader Stream.reader (fun inb => inflateLoop cap inb fuel st) := by
  induction fuel generalizing st with
  | zero => exact .error _
  | succ fuel ih =>
    exact (inflateBlock_local cap hr).bind fun v hv => .ite (fun _ => .ok hv rfl) fun _ => ih hv

end Locality

/-- Settles O46: the loop of DECOMPRESS, from its input range on, depends on no bit past the end of the stream. -/
theorem trailingInputIsIgnored : Obligations.TrailingInputIsIgnored := by
  intro s t m hexec he hagree
  rcases conclude_next (decompressBody s) s with ⟨v, hbody, hnext⟩ | ⟨e, -, hnext⟩
  · obtain rfl := Host.Outcome.next.inj (hnext.symm.trans hexec)
    by_cases hrange : s.a0 + s.a1 ≤ s.params.inSize
    · rw [decompressBody_eq hrange] at hbody
      obtain ⟨st, hloop, hv⟩ := except_bind_ok hbody
      obtain rfl := Except.ok.inj hv
      obtain ⟨-, -, hlocal⟩ := inflateLoop_local s.params.outCap (8 * s.a1) (st := decompressStream s)
        (decompressReader_ok hrange) st hloop
      have hbody' : decompressBody { s with input := m } = .ok (decompressResult s st) := by
        rw [decompressBody_eq (s := { s with input := m }) hrange]
        exact congrArg (· >>= fun st => Except.ok (decompressResult s st)) (hlocal (m.read .inByte) hagree)
      exact conclude_of_ok hbody'
    · rw [decompressBody_outOfRange (by omega)] at hbody
      cases hbody
  · obtain rfl := Host.Outcome.next.inj (hnext.symm.trans hexec)
    simp at he

/-! ### Every instruction ends -/

/-- Settles O9: an instruction ends in an error, in a completion or at a block boundary, and each of these is a next state
that keeps the rest. -/
theorem everyInstructionCompletes : Obligations.EveryInstructionCompletes := by
  intro i s
  rcases exec_cases i s with ⟨e, h⟩ | ⟨v, -, h⟩ | ⟨hreset, h⟩ | ⟨st, hw, h⟩ <;>
    refine ⟨_, h, ?_, rfl, rfl, rfl, rfl, rfl, rfl, rfl, rfl, rfl, rfl, rfl, rfl⟩
  · exact .inr (.inl ⟨rfl, rfl, rfl, rfl⟩)
  · exact .inl ⟨rfl, rfl, fun _ => ⟨rfl, rfl⟩⟩
  · exact .inl ⟨rfl, rfl, fun hne => absurd hreset hne⟩
  · exact .inr (.inr ⟨rfl, hw, rfl, rfl⟩)

end Sys2Proof.Machine

/-! A legal CMD word: a step accepts it, starts its command and runs exactly it (45_control R322, R323), and what NOP and
RESET_STREAM then do (R320, R321). -/

namespace Sys2Proof.Machine

open Sys2Proof

section LegalWords

variable {w : Word} {s : State} {i : Instr}

/-! ### The instruction a legal word runs -/

theorem runLatched_legal (h : decodeCmd s.latch.word = .ok i) : runLatched s = exec i s := by
  simp [runLatched, h]

/-- A word that decodes to one instruction is not the code word of another. -/
theorem ne_of_decodeCmd_ne {v : Word} {j : Instr} (hj : encode j = .cmd v) (hw : decodeCmd w = .ok i) (hne : i ≠ j) :
    w ≠ v := by
  rintro rfl
  have hok : decodeCmd w = .ok j := by rw [← decode_encode j, hj]; rfl
  exact hne (Except.ok.inj (hw.symm.trans hok))

/-! ### Accepting it -/

/-- A write is accepted at BUSY = 0 when ERROR = 0 or the word is NOP's or RESET_STREAM's (45_control R323). -/
theorem cmdDropped_of_accepted (hb : s.busy = false) (h : s.error = false ∨ w = 0 ∨ w = 1) : cmdDropped w s = false := by
  rcases h with he | rfl | rfl
  · exact cmdDropped_of_ready hb he
  · simp [cmdDropped, hb]
  · simp [cmdDropped, hb]

/-- An accepted legal word runs its instruction, where the platform does not show BUSY = 1. -/
theorem writeCmd_legal (hw : decodeCmd w = .ok i) (hb : s.busy = false) (h : s.error = false ∨ w = 0 ∨ w = 1)
    (hp : s.params.exposeBusy = false) : writeCmd w s = exec i (start w s) :=
  (writeCmd_atomic (cmdDropped_of_accepted hb h) hp).trans (runLatched_legal hw)

/-- A turn of the core runs the instruction that was started, but for the two that the inflater runs block by block. -/
theorem coreTurn_legal (hw : decodeCmd s.latch.word = .ok i) (hrun : s.run = .started) (hi : i ≠ .inflBlock)
    (hd : i ≠ .decompress) : coreTurn s = exec i s :=
  (coreTurn_started hrun (ne_of_decodeCmd_ne rfl hw hi) (ne_of_decodeCmd_ne rfl hw hd)).trans (runLatched_legal hw)

/-! ### The step -/

/-- A step takes a pending CMD write from the host and does what the write does. -/
theorem step_cmdWrite {rest : List HostMove} (hr : s.inReset = false) (hh : s.host = wr 0x004 w :: rest) :
    step s = writeCmd w { s with host := rest } := by
  have hstep : step s = hostWrite .reg 0x004 .word w { s with host := rest } := by
    simp [step, stepMachine, hh, wr, perform, hr, hostAccess]
  exact hstep.trans (hostWrite_reg w (by decide) (by decide))

theorem step_noMove (hr : s.inReset = false) (hh : s.host = []) : step s = coreTurn s := by
  simp [step, stepMachine, hh, hr]

theorem step_turn {rest : List HostMove} (hr : s.inReset = false) (hh : s.host = .turn :: rest) :
    step s = coreTurn { s with host := rest } := by
  simp [step, stepMachine, hh, perform, hr, hostAccess]

end LegalWords

/-- Settles O5: a step hands a CMD write to `writeCmd`, which accepts it, and a turn of the core to `coreTurn`. -/
theorem stepRunsTheIssuedCommand : Obligations.StepRunsTheIssuedCommand := by
  refine ⟨fun s w i rest hw hr hb hacc hh => ?_, fun s i hw hr hrun hi hd => ⟨fun hh => ?_, fun rest hh => ?_⟩⟩
  · rw [step_cmdWrite hr hh]
    exact ⟨fun hp => writeCmd_legal hw hb hacc hp, fun hp => writeCmd_exposed (cmdDropped_of_accepted hb hacc) hp⟩
  · rw [step_noMove hr hh]
    exact coreTurn_legal hw hrun hi hd
  · rw [step_turn hr hh]
    exact coreTurn_legal (s := { s with host := rest }) hw hrun hi hd

/-! ### NOP and RESET_STREAM -/

theorem exec_nop (s : State) : exec .nop s = .next (complete ⟨s.stream, 0, 0⟩ s) := rfl

theorem exec_resetStream (s : State) :
    exec .resetStream s = .next (complete ⟨clearStream s.stream, 0, 0⟩ { s with error := false, err := none }) := rfl

/-- Settles O12: both words are accepted whatever ERROR is, and each then runs to its one completion. -/
theorem controlCommandsComplete : Obligations.ControlCommandsComplete := by
  refine ⟨rfl, rfl, ⟨exec_nop, fun s hb => ?_, fun s hb hp => ?_⟩, exec_resetStream, fun s hb hp => ?_⟩
  · exact writeCmd_dropped (cmdDropped_of_busy hb)
  · exact (writeCmd_legal (i := .nop) rfl hb (.inr (.inl rfl)) hp).trans (exec_nop _)
  · exact writeCmd_legal rfl hb (.inr (.inr rfl)) hp

end Sys2Proof.Machine

/-! Errors and interrupts: what `raise` sets and keeps, what an instruction keeps of OUT below OUT_POS, and what asserts
IRQ (60_exceptions R350, R354, 10_state R43). -/

namespace Sys2Proof.Machine

open Sys2Proof

/-! ### OUT below a place -/

/-- The bytes of OUT below index `n` are those of another stream state. -/
def Stream.OutKeptBelow (n : Nat) (st st' : Stream) : Prop :=
  ∀ a < n, st'.writer.out.read .outByte a = st.writer.out.read .outByte a

section OutKeptBelow

variable {p : Params} {n : Nat} {st st' : Stream} {s t : State} {i : Instr}

theorem Stream.OutKeptBelow.of_out_eq (h : st'.writer.out = st.writer.out) : Stream.OutKeptBelow n st st' :=
  fun _ _ => by rw [h]

theorem Stream.OutKeptBelow.mono {m : Nat} (h : Stream.OutKeptBelow n st st') (hm : m ≤ n) :
    Stream.OutKeptBelow m st st' :=
  fun a ha => h a (ha.trans_le hm)

theorem Writer.Grown.outKeptBelow (h : Writer.Grown p st.writer st'.writer) :
    Stream.OutKeptBelow st.writer.outPos.toNat st st' :=
  fun a ha => h.outside a (.inl ha)

/-- An instruction that does not restart the writer keeps OUT below OUT_POS, where it ends without `raise` (BW_INIT moves
OUT_POS but writes nothing). -/
theorem streamAfter_outKeptBelow (hc : i ≠ .compress) (hd : i ≠ .decompress) :
    Yields (streamAfter i s) (Stream.OutKeptBelow s.stream.writer.outPos.toNat s.stream) := by
  have reader := fun h => (readerCommand_leaves s (i := i) h).mono
    (Q := Stream.OutKeptBelow s.stream.writer.outPos.toNat s.stream)
    (by rintro _ ⟨r, -, rfl⟩; exact .of_out_eq rfl)
  have writer := fun h => (writerCommand_leaves s (i := i) h).mono
    (Q := Stream.OutKeptBelow s.stream.writer.outPos.toNat s.stream)
    (by rintro _ ⟨w, hw, rfl⟩; exact Writer.Grown.outKeptBelow hw)
  have block := fun f h => (inflaterBlock_leaves s (i := i) f h).mono fun _ h => h.writer.outKeptBelow
  cases i with
  | compress => exact absurd rfl hc
  | decompress => exact absurd rfl hd
  | nop | resetStream | hufLoadFixed => exact .ok (.of_out_eq rfl)
  | bwInit =>
    refine (bwInit_leaves s).mono ?_
    rintro _ ⟨-, rfl⟩
    exact .of_out_eq rfl
  | brInit | brReadBits | brAlign | hufDecode => exact reader (by simp)
  | bwWriteBits | bwFlush | hufEncode | lzScan | deflStored => exact writer (by simp)
  | deflHuff => exact (deflHuff_leaves s).mono fun _ h => h.writer.outKeptBelow
  | hufBuild =>
    refine (hufBuild_leaves s).mono ?_
    rintro _ ⟨id, tbl, rfl⟩
    exact .of_out_eq (congrArg Writer.out (setTable_frame s.stream id tbl).2.1)
  | inflBlock => exact block false (by simp)
  | streamBlockStored f | streamBlockFixed f | streamBlockDynamic f | streamBlockReserved f =>
    exact block f (by simp)

theorem unspecifiedFrom_of_not_restarts {l : Latch} (hc : l.word ≠ 0x38#32) (hd : l.word ≠ 0x48#32) :
    unspecifiedFrom l = l.outStart.toNat := by
  simp [unspecifiedFrom, restartsWriter, hc, hd]

/-- An error of any command but COMPRESS and DECOMPRESS keeps OUT below OUT_POS at the command's start (10_state R43). -/
theorem raise_outKeptBelow (e : Err) (hc : s.latch.word ≠ 0x38#32) (hd : s.latch.word ≠ 0x48#32) :
    Stream.OutKeptBelow s.latch.outStart.toNat s.stream (raise e s).stream :=
  fun _ ha => Memory.read_forgetFrom .outByte s.draws (by rwa [unspecifiedFrom_of_not_restarts hc hd])

end OutKeptBelow

/-- Settles O11: an error forgets OUT from `outStart` on, and an instruction that ends without one has kept OUT below
OUT_POS, which is not below `outStart`. -/
theorem errorsKeepWhatTheyCouldNotWrite : Obligations.ErrorsKeepWhatTheyCouldNotWrite := by
  refine ⟨fun e s => ⟨rfl, rfl, rfl, rfl, rfl, rfl, rfl, rfl, rfl, rfl, rfl, rfl, raise_outKeptBelow e⟩, ?_⟩
  intro i s t hic hid hc hd hpos hexec
  rcases exec_ends hexec with ⟨e, rfl⟩ | ⟨st, hst, hend⟩
  · exact raise_outKeptBelow e hc hd
  · rw [hend.stream_eq]
    exact (streamAfter_outKeptBelow hic hid st hst).mono hpos

/-! ### The interrupt output -/

theorem State.irq_eq (s : State) : s.irq = (s.config.getLsbD 4 && (s.done || s.error)) := rfl

/-- Where DONE is 0, only ERROR asserts IRQ. -/
theorem State.irq_of_not_done {s : State} (h : s.done = false) : s.irq = (s.config.getLsbD 4 && s.error) := by
  rw [State.irq_eq, h, Bool.false_or]

/-- Settles O53: an acknowledge and a start both leave DONE = 0, and RESET_STREAM completes with ERROR cleared. -/
theorem irqFollowsDoneAndError : Obligations.IrqFollowsDoneAndError := by
  refine ⟨State.irq_eq, fun s v hv => ?_, fun s w => ?_, fun s t h => ?_, fun s h => ?_⟩
  · have hdone : (writeStatus v s).done = false := by simp [hv]
    simpa using State.irq_of_not_done hdone
  · simpa using State.irq_of_not_done (start_done w s)
  · obtain rfl := Host.Outcome.next.inj ((exec_resetStream s).symm.trans h)
    rfl
  · rw [State.irq_eq, h, Bool.false_and]

end Sys2Proof.Machine

/-! Several instances: what a step of one instance of a platform can do (60_exceptions R357). -/

namespace Sys2Proof.Machine

open Sys2Proof

/-- A step of instance `k` replaces that one state by the state its own step gives; a number that names no instance changes
nothing. -/
theorem Cluster.stepAt_cases {k : Nat} {c c' : Cluster} (h : Cluster.stepAt k c = .next c') :
    (c.cores[k]? = none ∧ c' = c) ∨
      ∃ s s', c.cores[k]? = some s ∧ Machine.step s = .next s' ∧ c' = { c with cores := c.cores.set k s' } := by
  unfold Cluster.stepAt at h
  split at h
  next hk => exact .inl ⟨hk, (Host.Outcome.next.inj h).symm⟩
  next s hk =>
    split at h
    next s' hs => exact .inr ⟨s, s', hk, hs, (Host.Outcome.next.inj h).symm⟩
    next => cases h
    next => cases h

theorem Cluster.stepAt_other {k j : Nat} {c c' : Cluster} (h : Cluster.stepAt k c = .next c') (hj : j ≠ k) :
    c'.cores[j]? = c.cores[j]? := by
  rcases Cluster.stepAt_cases h with ⟨-, rfl⟩ | ⟨s, s', -, -, rfl⟩
  · rfl
  · exact List.getElem?_set_ne hj.symm

/-- What becomes of the stepped instance is given by its own state alone. -/
theorem Cluster.stepAt_own {k : Nat} {c c' : Cluster} (h : Cluster.stepAt k c = .next c') :
    (c.cores[k]? = none ∧ c'.cores[k]? = none) ∨
      ∃ s s', c.cores[k]? = some s ∧ Machine.step s = .next s' ∧ c'.cores[k]? = some s' := by
  rcases Cluster.stepAt_cases h with ⟨hk, rfl⟩ | ⟨s, s', hk, hs, rfl⟩
  · exact .inl ⟨hk, hk⟩
  · obtain ⟨hlt, -⟩ := List.getElem?_eq_some_iff.1 hk
    exact .inr ⟨s, s', hk, hs, List.getElem?_set_self hlt⟩

/-- Settles O55: the two instances are both absent, or they have one state, whose step has one result. -/
theorem instancesAreIsolated : Obligations.InstancesAreIsolated := by
  refine ⟨fun _ _ _ _ h hj => Cluster.stepAt_other h hj, fun k c₁ c₂ c₁' c₂' heq h₁ h₂ => ?_⟩
  rcases Cluster.stepAt_own h₁ with ⟨hk₁, hk₁'⟩ | ⟨s₁, s₁', hk₁, hs₁, hk₁'⟩ <;>
    rcases Cluster.stepAt_own h₂ with ⟨hk₂, hk₂'⟩ | ⟨s₂, s₂', hk₂, hs₂, hk₂'⟩
  · rw [hk₁', hk₂']
  · simp [hk₁, hk₂] at heq
  · simp [hk₁, hk₂] at heq
  · obtain rfl : s₁ = s₂ := by simpa [hk₁, hk₂] using heq
    obtain rfl : s₁' = s₂' := Host.Outcome.next.inj (hs₁.symm.trans hs₂)
    rw [hk₁', hk₂']

end Sys2Proof.Machine

/-! The turns of a core that shows BUSY = 1: they end where the atomic command step does, INFL_BLOCK and DECOMPRESS
block by block (45_control R322, 44_inflate R290, R291, R293). -/

namespace Sys2Proof.Machine

open Sys2Proof

/-! ### One turn at a block boundary -/

/-- What InflateBlock does after it has read the header `h` (44_inflate R281): `inflateBlock_eq`. -/
def headerBody (cap : Nat) (inb : Nat → Byte) (h : BitVec 3) (st : Stream) : Except Err (Nat × Stream) :=
  if h.extractLsb' 1 2 = 0#2 then storedBlockBody cap inb st
  else if h.extractLsb' 1 2 = 1#2 then fixedBlockBody cap inb st
  else if h.extractLsb' 1 2 = 2#2 then dynamicBlockBody cap inb st
  else .error .invalidBlockType

theorem blockType_cases (h : BitVec 3) :
    h.extractLsb' 1 2 = 0#2 ∨ h.extractLsb' 1 2 = 1#2 ∨ h.extractLsb' 1 2 = 2#2 ∨ h.extractLsb' 1 2 = 3#2 := by
  revert h; decide

theorem inflateBlock_eq (cap : Nat) (inb : Nat → Byte) (st : Stream) :
    inflateBlock cap inb st = readHeader inb st.reader >>= fun v =>
      headerBody cap inb v.1 { st with reader := v.2 } >>= fun w => .ok ((v.1.getLsbD 0, w.1), w.2) := by
  rw [inflateBlock]
  congr 1
  funext v
  rcases blockType_cases v.1 with h | h | h | h <;> simp [headerBody, h]

/-- The instruction of a header runs the block's body (30_encoding R102). -/
theorem exec_decodeHeader (h : BitVec 3) (s : State) :
    exec (decodeHeader h) s =
      concludeBlock (h.getLsbD 0) (headerBody s.params.outCap s.inByte h s.stream) s := by
  rcases blockType_cases h with hb | hb | hb | hb <;> simp only [decodeHeader, headerBody, hb] <;> rfl

/-- A turn at a block boundary runs InflateBlock and ends the block within its command (44_inflate R281, log 9). -/
theorem inflateTurn_cases (s : State) :
    (∃ final k st, inflateBlock s.params.outCap s.inByte s.stream = .ok ((final, k), st) ∧
        inflateTurn s = .next (blockEnd final k st s)) ∨
      (∃ e, inflateBlock s.params.outCap s.inByte s.stream = .error e ∧ inflateTurn s = .next (raise e s)) := by
  rw [inflateTurn, fetchHeader, inflateBlock_eq]
  rcases readHeader s.inByte s.stream.reader with e | ⟨h, r⟩
  · exact .inr ⟨e, rfl, rfl⟩
  · simp only [except_ok_bind, exec_decodeHeader]
    rcases concludeBlock_cases (h.getLsbD 0) (headerBody s.params.outCap s.inByte h { s.stream with reader := r })
      { s with stream := { s.stream with reader := r } } with ⟨k, st, hbody, hend⟩ | ⟨e, hbody, hend⟩
    · exact .inl ⟨h.getLsbD 0, k, st, by rw [hbody, except_ok_bind], hend⟩
    · exact .inr ⟨e, by rw [hbody, except_error_bind], hend⟩

theorem blockEnd_atBoundary (final : Bool) (k : Nat) (st st' : Stream) (s : State) :
    blockEnd final k st' { s with run := .inflating, stream := st } = blockEnd final k st' s := by
  rw [blockEnd, blockEnd]
  rfl

/-- Everything a turn of the core can do at a block boundary, with the stream state `st` there. -/
theorem boundaryTurn_cases (s : State) (st : Stream) :
    (∃ final k st', inflateBlock s.params.outCap s.inByte st = .ok ((final, k), st') ∧
        coreTurn { s with run := .inflating, stream := st } = .next (blockEnd final k st' s)) ∨
      (∃ e, inflateBlock s.params.outCap s.inByte st = .error e ∧
        coreTurn { s with run := .inflating, stream := st } =
          .next (raise e { s with run := .inflating, stream := st })) := by
  rcases inflateTurn_cases { s with run := .inflating, stream := st } with ⟨final, k, st', hblock, hend⟩ | h
  · exact .inl ⟨final, k, st', hblock, hend.trans (congrArg _ (blockEnd_atBoundary final k st st' s))⟩
  · exact .inr h

/-! ### Every block reads its header -/

section Progress

variable {p : Params} {inb : Nat → Byte} {st : Stream} {r : Reader}

theorem readHeader_skips (hr : r.Ok p) :
    Yields (readHeader inb r) (fun v => 3 ≤ r.left ∧ v.2 = r.skip 3) := by
  by_cases h : r.left < 3
  · rw [readHeader_end hr h]; exact .error _
  · have h1 := Reader.skip_left hr (n := 1) (by omega)
    have hread := readBits_ok (inb := inb) (Reader.skip_ok hr (n := 1) (by omega)) (n := 2) (by omega)
    rw [readHeader, readBits_ok hr (by omega)]
    simp only [except_ok_bind, hread]
    exact .ok ⟨by omega, Reader.skip_skip hr (by omega)⟩

theorem headerBody_local (cap : Nat) (h : BitVec 3) (hr : st.reader.Ok p) :
    Local p inb st.reader (fun v => v.2.reader) (fun inb => headerBody cap inb h st) :=
  .ite (fun _ => storedBlockBody_local cap hr) fun _ =>
    .ite (fun _ => huffBody_local cap (st := loadFixed st) hr) fun _ =>
    .ite (fun _ => dynamicBlockBody_local cap hr) fun _ => .error _

/-- A block that ends without `raise` leaves at least three bits fewer to read (44_inflate R293). -/
theorem inflateBlock_reads (hr : st.reader.Ok p) :
    Yields (inflateBlock p.outCap inb st) (fun v => v.2.reader.Ok p ∧ v.2.reader.left + 3 ≤ st.reader.left) := by
  intro v hv
  obtain ⟨hlim, hok⟩ := (inflateBlock_inflates inb st v hv).reader
  rw [inflateBlock_eq] at hv
  obtain ⟨⟨h, r⟩, hheader, hv⟩ := except_bind_ok hv
  obtain ⟨w, hbody, hv⟩ := except_bind_ok hv
  obtain rfl := Except.ok.inj hv
  obtain ⟨h3, rfl⟩ := readHeader_skips hr _ hheader
  obtain ⟨-, hle, -⟩ := headerBody_local p.outCap h (st := { st with reader := st.reader.skip 3 })
    (Reader.skip_ok hr h3) w hbody
  rw [Reader.skip_bitPos hr h3] at hle
  refine ⟨hok hr, ?_⟩
  have hend := congrArg BitVec.toNat hlim
  simp only [Reader.left] at hend hle h3 ⊢
  omega

end Progress

/-! ### Turns -/

/-- The turns of the core from `s` on end with BUSY = 0, in the outcome `o`. -/
def TurnsEndIn (s : State) (o : Host.Outcome State Fault Refusal) : Prop :=
  ∃ k t, turns k s = .next t ∧ t.busy = false ∧ o = .next t

section Turns

variable {s s' t : State} {o : Host.Outcome State Fault Refusal}

theorem TurnsEndIn.of_idle (h : t.run = .idle) : TurnsEndIn t (.next t) :=
  ⟨0, t, rfl, by rw [State.busy, h]; rfl, rfl⟩

theorem TurnsEndIn.turn (h : coreTurn s = .next s') (h' : TurnsEndIn s' o) : TurnsEndIn s o := by
  obtain ⟨k, t, hturns, ht⟩ := h'
  exact ⟨k + 1, t, by rw [turns, h]; exact hturns, ht⟩

/-- One more turn ends the command. -/
theorem TurnsEndIn.last (h : coreTurn s = .next t) (ht : t.run = .idle) : TurnsEndIn s (.next t) :=
  .turn h (.of_idle ht)

/-- A command other than DECOMPRESS pauses at no block boundary. -/
theorem runLatched_idle (hd : s.latch.word ≠ 0x48#32) : ∃ t, runLatched s = .next t ∧ t.run = .idle := by
  cases hw : decodeCmd s.latch.word with
  | error e => exact ⟨_, runLatched_illegal hw, rfl⟩
  | ok i =>
    rw [runLatched_legal hw]
    rcases exec_cases i s with ⟨e, h⟩ | ⟨v, -, h⟩ | ⟨-, h⟩ | ⟨st, hword, -⟩
    · exact ⟨_, h, rfl⟩
    · exact ⟨_, h, rfl⟩
    · exact ⟨_, h, rfl⟩
    · exact absurd hword hd

/-! ### INFL_BLOCK -/

theorem coreTurn_inflBlock (hrun : s.run = .started) (hw : s.latch.word = 0x40#32) :
    coreTurn s = .next (enterInflater (inflBlockStart s) s) := by
  simp [coreTurn, hrun, hw]

theorem runLatched_inflBlock (hw : s.latch.word = 0x40#32) : runLatched s = conclude (inflBlockBody s) s :=
  runLatched_legal (i := .inflBlock) (by rw [hw]; rfl)

/-- INFL_BLOCK takes one turn for its check and one for its block (44_inflate R290). -/
theorem turns_inflBlock (hrun : s.run = .started) (hw : s.latch.word = 0x40#32) : TurnsEndIn s (runLatched s) := by
  rw [runLatched_inflBlock hw]
  have hturn := coreTurn_inflBlock hrun hw
  by_cases hcnt : s.stream.writer.cnt = 0
  · have hstart : inflBlockStart s = .ok s.stream := by rw [inflBlockStart, hcnt]; rfl
    rw [hstart] at hturn
    refine .turn hturn ?_
    rw [inflBlockBody_eq hcnt]
    rcases boundaryTurn_cases s s.stream with ⟨final, k, st, hblock, hturn⟩ | ⟨e, hblock, hturn⟩
    · rw [blockEnd, if_neg (by rw [hw]; decide)] at hturn
      rw [hblock, except_ok_bind, conclude_ok]
      exact .last hturn rfl
    · rw [hblock, except_error_bind, conclude_error]
      exact .last hturn rfl
  · have hstart : inflBlockStart s = .error .invalidCommand := by
      rw [inflBlockStart, bne_iff_ne.2 hcnt]; rfl
    rw [hstart] at hturn
    rw [inflBlockBody_pending hcnt]
    exact .last hturn rfl

/-! ### DECOMPRESS -/

theorem coreTurn_decompress (hrun : s.run = .started) (hw : s.latch.word = 0x48#32) :
    coreTurn s = .next (enterInflater (decompressStart s) s) := by
  simp [coreTurn, hrun, hw]

theorem runLatched_decompress (hw : s.latch.word = 0x48#32) : runLatched s = conclude (decompressBody s) s :=
  runLatched_legal (i := .decompress) (by rw [hw]; rfl)

theorem Memory.forgetFrom_zero (m : Memory) (d : Nat) : m.forgetFrom 0 d = .unwritten d := by
  simp [Memory.forgetFrom, Memory.unwritten]

/-- What an error of DECOMPRESS leaves does not depend on the blocks before it: all of OUT and WIN is unspecified
(10_state R43). -/
theorem raise_inflating (hw : s.latch.word = 0x48#32) (e : Err) (st : Stream) :
    raise e { s with run := .inflating, stream := st } = raise e s := by
  have hfrom : unspecifiedFrom s.latch = 0 := by simp [unspecifiedFrom, restartsWriter, hw]
  simp only [raise, Stream.unspecified, hfrom, Memory.forgetFrom_zero, State.nextDraw]

/-- At a block boundary of DECOMPRESS, the turns end where the loop does that has a pass for every bit that remains
(44_inflate R291, log 12). -/
theorem turns_inflating (hw : s.latch.word = 0x48#32) {fuel : Nat} {st : Stream} (hr : st.reader.Ok s.params)
    (hfuel : st.reader.left ≤ fuel) :
    TurnsEndIn { s with run := .inflating, stream := st }
      (conclude (inflateLoop s.params.outCap s.inByte fuel st >>= fun st => .ok (decompressResult s st)) s) := by
  induction fuel generalizing st with
  | zero =>
    have hend := inflateBlock_end (inb := s.inByte) hr (by omega) s.params.outCap
    rcases boundaryTurn_cases s st with ⟨final, k, st', hblock, -⟩ | ⟨e, hblock, hturn⟩
    · cases hend.symm.trans hblock
    · obtain rfl := Except.error.inj (hend.symm.trans hblock)
      rw [raise_inflating hw] at hturn
      exact .last hturn rfl
  | succ fuel ih =>
    rw [inflateLoop]
    rcases boundaryTurn_cases s st with ⟨final, k, st', hblock, hturn⟩ | ⟨e, hblock, hturn⟩
    · obtain ⟨hr', hless⟩ := inflateBlock_reads hr _ hblock
      rw [hblock, except_ok_bind]
      rw [blockEnd, if_pos hw] at hturn
      cases final with
      | true => exact .last hturn rfl
      | false => exact .turn hturn (ih hr' (by simp only at hless; omega))
    · rw [hblock, except_error_bind, except_error_bind, conclude_error]
      rw [raise_inflating hw] at hturn
      exact .last hturn rfl

/-- DECOMPRESS takes one turn for its check and one for each block (44_inflate R291). -/
theorem turns_decompress (hrun : s.run = .started) (hw : s.latch.word = 0x48#32) : TurnsEndIn s (runLatched s) := by
  rw [runLatched_decompress hw]
  have hturn := coreTurn_decompress hrun hw
  by_cases hrange : s.a0 + s.a1 ≤ s.params.inSize
  · rw [decompressStart, checkRange_ok hrange] at hturn
    rw [decompressBody_eq hrange]
    exact .turn hturn (turns_inflating hw (decompressReader_ok hrange) (decompressReader_left hrange).le)
  · rw [decompressStart, checkRange_error (by omega)] at hturn
    rw [decompressBody_outOfRange (by omega)]
    exact .last hturn rfl

end Turns

/-- Settles O10: a command but the inflater's two completes in one turn; for these, the turns go along the blocks of the
atomic step, each block leaving fewer bits to read. -/
theorem turnsReachTheAtomicResult : Obligations.TurnsReachTheAtomicResult := by
  intro w s
  have hrun := start_run w s
  by_cases hd : (start w s).latch.word = 0x48#32
  · exact turns_decompress hrun hd
  · by_cases hi : (start w s).latch.word = 0x40#32
    · exact turns_inflBlock hrun hi
    · obtain ⟨t, hlatched, ht⟩ := runLatched_idle hd
      rw [hlatched]
      exact TurnsEndIn.last ((coreTurn_started hrun hi hd).trans hlatched) ht

end Sys2Proof.Machine

/-! What a write to CMD does before its command runs (45_control R322, R323, 70_reset_and_hazards R386), what the reset
input does, and the state after a hard reset (70_reset_and_hazards R380, R381, R383). -/

namespace Sys2Proof.Machine

open Sys2Proof

/-! ### A CMD write -/

/-- Settles O7: a step hands the write to `writeCmd`, which drops it or, where BUSY = 1 is shown, only starts it. -/
theorem cmdWriteIsDroppedOrStarts : Obligations.CmdWriteIsDroppedOrStarts := by
  refine ⟨fun s w rest hreset hhost hdrop => ?_, fun w s hp hb he => ?_⟩
  · rw [step_cmdWrite hreset hhost]
    exact writeCmd_dropped (hdrop.elim cmdDropped_of_busy fun ⟨he, h0, h1⟩ => cmdDropped_of_error he h0 h1)
  · exact ⟨start w s, writeCmd_exposed (cmdDropped_of_ready hb he) hp, rfl, rfl, rfl, rfl, rfl, rfl, rfl, rfl, rfl, rfl⟩

/-! ### The reset input -/

section ResetInput

variable {s : State}

/-- "While reset is asserted, the core drops every host access" (70_reset R380). -/
theorem perform_inReset {m : HostMove} (hreset : s.inReset = true) (hm : m ≠ .resetRelease) : perform m s = .next s := by
  cases m with
  | resetRelease => exact absurd rfl hm
  | read | write | busRead | busWrite | wait | turn | resetAssert => simp [perform, hreset]

theorem perform_resetAssert (hreset : s.inReset = false) : perform .resetAssert s = .next (resetAssert s) := by
  simp [perform, hreset, hostAccess]

theorem perform_resetRelease (hreset : s.inReset = true) :
    perform .resetRelease s =
      .next { State.resetWith s.params s.draws with host := s.host, readData := s.readData } := by
  simp [perform, hreset, resetRelease]

theorem coreTurn_idle (hrun : s.run = .idle) : coreTurn s = .next s := by simp [coreTurn, hrun]

end ResetInput

theorem resetWith_status (p : Params) (draw : Nat) : statusWord (State.resetWith p draw) = 0 := by
  simp [statusWord, State.busy, State.resetWith]

theorem resetWith_irq (p : Params) (draw : Nat) : (State.resetWith p draw).irq = false :=
  (State.irq_of_not_done rfl).trans (Bool.and_false _)

/-- Settles O54: the values are those `State.resetWith` lists, and and the reset input reaches them by its release. -/
theorem hardReset : Obligations.HardReset := by
  refine ⟨fun p draw => ?_, fun m s => perform_inReset, fun s hreset => ⟨perform_resetAssert hreset, _, ?_, rfl⟩,
    fun s hreset hrun hhost => ?_⟩
  · exact ⟨resetWith_status p draw, rfl, rfl, rfl, rfl, rfl, rfl, rfl, rfl, rfl, rfl, rfl, rfl, rfl, rfl, rfl, rfl, rfl, rfl,
      resetWith_irq p draw, rfl, rfl⟩
  · exact perform_resetRelease (s := resetAssert s) rfl
  · rw [step_noMove hreset hhost, coreTurn_idle hrun]

/-! ### The reset state -/

/-- Settles O60: the flags are clear, nothing is written, the cursors and the window are at 0, and every length is 0. -/
theorem resetMeetsTheInvariants : Obligations.ResetMeetsTheInvariants := by
  intro p draw
  have hmem := fun n => Memory.unwritten_legal draw n
  exact ⟨⟨rfl, fun _ => rfl⟩, ⟨by simp [State.resetWith], by simp [State.resetWith]⟩,
    (State.memoriesLegal_iff _).1 ⟨hmem _, hmem _, hmem _⟩, fun _ => ⟨Reader.zero_ok, Writer.restarted_ok _ (by simp)⟩,
    fun _ => Window.cleared_ok _, fun _ => initial_tablesOk _ _⟩

end Sys2Proof.Machine
